-- ==== Sys2Proof/Word.lean ====
section
/-! DEFINITION. The word types of the machine (R5, R6, R9) and their plainest arithmetic. -/

namespace Sys2Proof

/-- A byte is 8 bits (R5). -/
abbrev Byte := BitVec 8
/-- A word is 32 bits (R5). -/
abbrev Word := BitVec 32
/-- A doubleword is 64 bits (R5). -/
abbrev Dword := BitVec 64
/-- The 128 lanes of a vector register, lane 0 first (R9). -/
abbrev Lanes := Vector Word 128
/-- A predicate register: bit k is lane k (R9). -/
abbrev Pred := BitVec 128
/-- An accumulator: 128 rows of 128 cells of 32 bits (R9). -/
abbrev Acc := Vector Lanes 128
/-- Sparse bytes: (offset, byte) pairs with rising offsets, none of them zero; an unlisted offset reads as zero. -/
abbrev Cells := List Host.Cell

end Sys2Proof
end

