-- ==== Sys2Proof/Config.lean ====
section
/-! DEFINITION. What the manual leaves open, as constants with no body: nothing in Lean can evaluate one of them. The
ones over a plain counter take State's `free` count, so that each use has a value of its own (logs 8 and 11, DESIGN CHOICE). -/

namespace Sys2Proof.Config

/-- Package cycles by which a transfer with HBM passes its bound; 0 when it keeps it (R294). -/
opaque hbmLate : Nat → Nat
/-- Package cycles that a message takes on the fabric, loopback included (R310). -/
opaque fabricTime : Nat → Nat
/-- Package cycles from one swap of a standing far-tier exchange to the next, and to its acceptance (R226, R263). -/
opaque farTime : Nat → Nat
/-- Package cycles that a placement, a save or a restoration takes (R331, R338). -/
opaque placeTime : Nat → Nat
/-- Package cycles until the harbourmaster has served a trap, a recheck or a command (R152, R357). -/
opaque serviceTime : Nat → Nat
/-- Byte `off` of what an HBM or far slot holds that has received no block through its port (R276). -/
opaque unformed (contents : Cells) (slot off : Nat) : Byte
/-- Bytes 24 to 31 of an EVENT of kind 0x08: how they hold a ticket and its status word is not stated (R368). -/
opaque ackWord (ticket : Nat) (status : Dword) : Dword
/-- The owner key that RFC 3394 unwraps under a session's key, which derives from the session secret; none when its integrity check
fails (R364, R397). -/
opaque unwrap (secret : BitVec 512) (session : Nat) (wrapped : BitVec 576) : Option (BitVec 512)
/-- The SPDM answer to a HELLO body, under the identity key, the session secret and the leaf it would sign with, and the session it
opens (R364, R397, R398). -/
opaque spdmReply (identity : BitVec 768) (secret : BitVec 512) (leaf : Nat) (msg : List Byte) : List Byte
opaque spdmOpens (msg : List Byte) : Option Nat
/-- The HELLO body asks for a signed measurement, so its answer takes a leaf (R398). -/
opaque spdmSigns (msg : List Byte) : Bool
/-- XMSS-SHAKE256_20_256 signatures of the device identity key (R397, R399). -/
opaque sign (identity : BitVec 768) (leaf : Nat) (report : List Byte) : List Byte
/-- The spare map and the retired-slot list as the bytes that ATTEST hashes (R399). -/
opaque mapBytes (columns : List Byte) (retired : List (Nat × Nat)) : List Byte
/-- The boot ROM's verdict on the signer and the signature of a firmware copy; and the version and the bytes of the two copies that the
boot flash holds at first (R395). -/
opaque firmwareOk (bytes : List Byte) : Bool
opaque firmwareVersion (copy : Nat) : BitVec 16
opaque firmwareBytes (copy : Nat) : List Byte
/-- The fused minimum firmware version, and the fused base of the retired-slot list, by stack and slot (R394, R395). -/
opaque fusedMinimum : BitVec 16
opaque retiredBase : List (Nat × Nat)
/-- Whether the route to a chip uses a link: its primary route, or `alt` its alternate one. Links 0 to 63 are the Ryide ports, and 64
on the pairs of quadrants by the index of R292 (R393). -/
opaque routeVia (chip : BitVec 22) (alt : Bool) (link : Nat) : Bool
/-- The row of a stack that holds an HBM slot, the slots whose storage lies in a row, and whether the row's bank has a spare left (R388). -/
opaque hbmRow (stack slot : Nat) : Nat
opaque rowSlots (stack row : Nat) : List Nat
opaque spareRowLeft : Nat → Bool
/-- Package cycles that both ends of a port take to retrain (R390). -/
opaque retrainTime : Nat → Nat
/-- Whether the fuses of a start cannot be read or the device keys not be derived (R394). -/
opaque startFails : Nat → Bool
/-- The stacks whose PHY training fails at a cold start, and whether the permanent repair of a spared row fails; and the quadrants whose
SRAM rows cannot be repaired, with a physical column of each (R394). -/
opaque untrained : Nat → List Nat
opaque unmended (use stack row : Nat) : Bool
opaque unrepaired : Nat → List (Nat × Nat)
/-- The identifier that the host assigns to the chip at bring-up (R309). -/
opaque assignedChip : Nat → BitVec 22
/-- What the rails and the dies read throughout an interval (R400): amperes of the core rails, watts of the package, and degrees of its
hottest die. -/
structure Readings where
  amps  : Nat
  watts : Nat
  heat  : Nat
  deriving DecidableEq, Repr, Inhabited
opaque readings : Nat → Readings
/-- The device secret of the fuses, byte by byte (R397). -/
opaque deviceSecret : Vector Byte 32

end Sys2Proof.Config
end

