-- ==== Sys2Proof/Machine/Crypto.lean ====
section
/-! DEFINITION. The two standards by which a block at rest is kept: SHAKE256 (FIPS 202), from which an owner's keys are formed
(R358), and AES-256-XTS (FIPS 197, IEEE 1619), under which HBM and the far tier hold it (R359; log 106,
PRESUMED: the published standards). -/

namespace Sys2Proof.Machine

/-! ## SHAKE256 -/

/-- The rotation of lane (x, y), at place x + 5y. -/
def keccakTurns : List Nat := [0, 1, 62, 28, 27, 36, 44, 6, 55, 20, 3, 10, 43, 25, 39, 41, 45, 15, 21, 8, 18, 2, 61, 56, 14]
def keccakConsts : List Dword :=
  [0x0000000000000001, 0x0000000000008082, 0x800000000000808A, 0x8000000080008000, 0x000000000000808B, 0x0000000080000001,
   0x8000000080008081, 0x8000000000008009, 0x000000000000008A, 0x0000000000000088, 0x0000000080008009, 0x000000008000000A]
    ++ [0x000000008000808B, 0x800000000000008B, 0x8000000000008089, 0x8000000000008003, 0x8000000000008002, 0x8000000000000080,
   0x000000000000800A, 0x800000008000000A, 0x8000000080008081, 0x8000000000008080, 0x0000000080000001, 0x8000000080008008]
/-- One round of Keccak-f[1600]: theta, rho and pi, chi, iota. -/
def keccakRound (a : List Dword) (rc : Dword) : List Dword :=
  let c : List Dword := (List.range 5).map fun x => (List.range 5).foldl (fun s y => s ^^^ a.getD (x + 5 * y) 0) 0
  let d : List Dword := (List.range 5).map fun x => c.getD ((x + 4) % 5) 0 ^^^ (c.getD ((x + 1) % 5) 0).rotateLeft 1
  let b : List Dword := (List.range 25).map fun n =>
    let x := (n % 5 + 3 * (n / 5)) % 5
    let m := x + 5 * (n % 5)
    (a.getD m 0 ^^^ d.getD x 0).rotateLeft (keccakTurns.getD m 0)
  (List.range 25).map fun n =>
    let row := 5 * (n / 5)
    let v := b.getD n 0 ^^^ (~~~(b.getD (row + (n + 1) % 5) 0) &&& b.getD (row + (n + 2) % 5) 0)
    if n = 0 then v ^^^ rc else v
def keccakF (a : List Dword) : List Dword := keccakConsts.foldl keccakRound a
/-- The little-endian doublewords of a byte list. -/
def laneWords (bs : List Byte) : List Dword :=
  (List.range (bs.length / 8)).map fun i =>
    ((bs.drop (8 * i)).take 8).foldr (fun b v => (v <<< 8) ||| b.setWidth 64) 0
def laneBytes (l : List Dword) : List Byte :=
  l.flatMap fun w => (List.range 8).map fun k => w.extractLsb' (8 * k) 8
/-- The message with its domain bits and its padding, to whole blocks of 136 bytes. -/
def shakePad (msg : List Byte) : List Byte :=
  let n := 136 - msg.length % 136
  if n = 1 then msg ++ [0x9F] else msg ++ [0x1F] ++ List.replicate (n - 2) 0 ++ [0x80]
def shakeAbsorb (blocks : Nat) (bs : List Byte) (a : List Dword) : List Dword :=
  match blocks with
  | 0 => a
  | n + 1 =>
    let w := laneWords (bs.take 136)
    shakeAbsorb n (bs.drop 136) (keccakF ((List.range 25).map fun i => a.getD i 0 ^^^ w.getD i 0))
def shakeSqueeze (blocks : Nat) (a : List Dword) : List Byte :=
  match blocks with
  | 0 => []
  | n + 1 => (laneBytes a).take 136 ++ shakeSqueeze n (keccakF a)
/-- SHAKE256 with `n` bytes of output. -/
def shakeBytes (n : Nat) (msg : List Byte) : List Byte :=
  let p := shakePad msg
  (shakeSqueeze ((n + 135) / 136) (shakeAbsorb (p.length / 136) p (List.replicate 25 0))).take n
/-- The same as a little-endian number. -/
@[irreducible] def shake256 (n : Nat) (msg : List Byte) : BitVec (8 * n) :=
  (shakeBytes n msg).foldr (fun b v => (v <<< 8) ||| b.setWidth (8 * n)) 0
def shake (msg : List Byte) : BitVec 512 := shake256 64 msg

/-! ## AES-256 -/

def gfDouble (a : Byte) : Byte := if a.getLsbD 7 then (a <<< 1) ^^^ 0x1B else a <<< 1
/-- Multiplication in the field of AES, by the low `n` bits of `b`. -/
def gfMulBits (n : Nat) (a b : Byte) : Byte :=
  match n with
  | 0 => 0
  | n + 1 => (if b.getLsbD 0 then a else 0) ^^^ gfMulBits n (gfDouble a) (b >>> 1)
def gfMul (a b : Byte) : Byte := gfMulBits 8 a b
def gfSquare (a : Byte) : Byte := gfMul a a
/-- The inverse in the field, 0 of 0: the 254th power. -/
def gfInv (a : Byte) : Byte :=
  let a2 := gfSquare a
  let a3 := gfMul a2 a
  let a12 := gfSquare (gfSquare a3)
  let a15 := gfMul a12 a3
  let a240 := gfSquare (gfSquare (gfSquare (gfSquare a15)))
  gfMul (gfMul a240 a12) a2
def aesSub (a : Byte) : Byte :=
  let b := gfInv a
  b ^^^ b.rotateLeft 1 ^^^ b.rotateLeft 2 ^^^ b.rotateLeft 3 ^^^ b.rotateLeft 4 ^^^ 0x63
def aesUnsub (a : Byte) : Byte := gfInv (a.rotateLeft 1 ^^^ a.rotateLeft 3 ^^^ a.rotateLeft 6 ^^^ 0x05)
def aesSubs : List Byte := (List.range 256).map fun n => aesSub (BitVec.ofNat 8 n)
def aesUnsubs : List Byte := (List.range 256).map fun n => aesUnsub (BitVec.ofNat 8 n)
def subByte (a : Byte) : Byte := aesSubs.getD a.toNat 0
def unsubByte (a : Byte) : Byte := aesUnsubs.getD a.toNat 0
def xorBytes (a b : List Byte) : List Byte := List.zipWith (· ^^^ ·) a b
/-- The round constants of the key schedule, `n` of them from `c`. -/
def aesConsts (n : Nat) (c : Byte) : List Byte :=
  match n with
  | 0 => []
  | n + 1 => c :: aesConsts n (gfDouble c)
/-- The next eight words of the key schedule, each made from the one before it and the one eight before it. -/
def aesNext (k : List (List Byte)) (rc : Byte) : List (List Byte) :=
  let last := k.getD 7 []
  let turned := (last.drop 1 ++ last.take 1).map subByte
  let first := xorBytes (k.getD 0 []) (xorBytes turned [rc, 0, 0, 0])
  (List.range 7).foldl (fun l i =>
    let t := l.getD i []
    l ++ [xorBytes (k.getD (i + 1) []) (if i = 3 then t.map subByte else t)]) [first]
/-- The fifteen round keys of a 32-byte key. -/
def aesKeys (key : List Byte) : List (List Byte) :=
  let k0 : List (List Byte) := (List.range 8).map fun i => (key.drop (4 * i)).take 4
  let words := ((aesConsts 7 1).foldl (fun (a : List (List Byte) × List (List Byte)) rc =>
    let k := aesNext a.2 rc
    (a.1 ++ k, k)) (k0, k0)).1
  (List.range 15).map fun r => ((words.drop (4 * r)).take 4).flatten
/-- Row r of the state moves r columns, left or right. -/
def shiftRows (back : Bool) (b : List Byte) : List Byte :=
  (List.range 16).map fun n => b.getD (n % 4 + 4 * ((n / 4 + (if back then 4 - n % 4 else n % 4)) % 4)) 0
/-- Each column times a circulant of the field, whose first row is given. -/
def mixColumns (m : List Byte) (b : List Byte) : List Byte :=
  (List.range 16).map fun n => (List.range 4).foldl (fun s j => s ^^^ gfMul (b.getD (4 * (n / 4) + j) 0) (m.getD ((j + 4 - n % 4) % 4) 0)) 0
def aesEncrypt (keys : List (List Byte)) (b : List Byte) : List Byte :=
  let b := (List.range 13).foldl (fun b r =>
    xorBytes (mixColumns [2, 3, 1, 1] (shiftRows false (b.map subByte))) (keys.getD (r + 1) [])) (xorBytes b (keys.getD 0 []))
  xorBytes (shiftRows false (b.map subByte)) (keys.getD 14 [])
def aesDecrypt (keys : List (List Byte)) (b : List Byte) : List Byte :=
  let b := (List.range 13).foldl (fun b r =>
    mixColumns [14, 11, 13, 9] (xorBytes ((shiftRows true b).map unsubByte) (keys.getD (13 - r) []))) (xorBytes b (keys.getD 14 []))
  xorBytes ((shiftRows true b).map unsubByte) (keys.getD 0 [])

/-! ## XTS -/

/-- The tweak of the next 16 bytes: times alpha, little-endian. -/
def xtsNext (t : List Byte) : List Byte :=
  let up : List Byte := List.zipWith (fun (a b : Byte) => (a <<< 1) ||| (b >>> 7)) t (0 :: t)
  if (t.getD 15 0).getLsbD 7 then (up.take 1).map (· ^^^ 0x87) ++ up.drop 1 else up
def xtsFrom (one : List Byte → List Byte) (n : Nat) (t bs : List Byte) : List Byte :=
  match n with
  | 0 => []
  | n + 1 => xorBytes (one (xorBytes (bs.take 16) t)) t ++ xtsFrom one n (xtsNext t) (bs.drop 16)
/-- A data unit of whole blocks under a data key and a tweak key of 32 bytes each. -/
@[irreducible] def xts (decrypt : Bool) (dataKey tweakKey tweak bs : List Byte) : List Byte :=
  let k := aesKeys dataKey
  xtsFrom (if decrypt then aesDecrypt k else aesEncrypt k) (bs.length / 16) (aesEncrypt (aesKeys tweakKey) tweak) bs

end Sys2Proof.Machine
end

