-- ==== Sys2Proof/Syntax.lean ====
section
/-! DEFINITION. The instructions of the four clusters and of the harbourmaster, and the part's other steps, as
syntax: one constructor of `Instr` per row of the opcode table (06_opcode_map_and_mnemonic_index.md, R117 to R123;
95_what_each_step_holds.md for the rows without an encoding). -/

namespace Sys2Proof

/-- The four clusters, in the order of their CLUSTER codes (R78). -/
inductive Cl where
  | s | v | m | x
  deriving DecidableEq, Repr, Inhabited

/-- The format codes of R31. -/
inductive Fmt where
  | untyped | f32 | bf16 | f16 | e4m3 | e5m2 | e2m1 | i8 | i32 | i64 | n8 | n16 | n32 | n64
  | sqe2m1 | sqe4m3 | sqe5m2 | sqi8
  deriving DecidableEq, Repr, Inhabited

/-- Rounding modifiers (R11, R91). -/
inductive Rnd where
  | rne | rz | rd | ru
  deriving DecidableEq, Repr, Inhabited

/-- Integer relations (R128). -/
inductive Rel where
  | eq | ne | lt | le | ltn | len
  deriving DecidableEq, Repr, Inhabited

/-- FP32 relations (R161). -/
inductive FRel where
  | eq | ne | lt | le | gt | ge | un
  deriving DecidableEq, Repr, Inhabited

/-- The branch conditions of R93. -/
inductive Cond where
  | z | nz | neg | nneg | pos | npos
  deriving DecidableEq, Repr, Inhabited

/-- Nullification of the delay slots (R93, R141). -/
inductive Nul where
  | none | nt | nk
  deriving DecidableEq, Repr, Inhabited

/-- Ordering scopes (R138, R297), in rising rank. -/
inductive Scope where
  | core | quad | pkg | sys
  deriving DecidableEq, Repr, Inhabited

/-- The operations of AMO, XAMO and XAMOR (R139). -/
inductive AtomOp where
  | add | and | or | xor | min | max | swap
  deriving DecidableEq, Repr, Inhabited

/-- The operations of XRED (R235). -/
inductive RedOp where
  | add | min | max
  deriving DecidableEq, Repr, Inhabited

/-- Directions of a tile specifier (R92). -/
inductive Dir where
  | whole | row | col | diag
  deriving DecidableEq, Repr, Inhabited

/-- Neighbour directions of XNSEND and XNRECV (R206, R231). -/
inductive Side where
  | n | e | s | w
  deriving DecidableEq, Repr, Inhabited

/-- A scalar or vector register field (R90). -/
abbrev Reg := BitVec 6
/-- A predicate register number (R90). -/
abbrev PReg := BitVec 4

/-- A tile specifier (R92): `acc` is FILE. -/
structure Spec where
  acc : Bool
  num : BitVec 3
  dir : Dir
  idx : BitVec 4
  deriving DecidableEq, Repr, Inhabited

/-- The near field of XE (R93): a tile specifier, or a scalar register. -/
inductive Near where
  | tile (sp : Spec)
  | reg (g : Reg)
  deriving DecidableEq, Repr, Inhabited

/-- The common fields of a syllable, bits 50:35 (R81). -/
structure Common where
  guard : PReg := 0
  sense : Bool := false
  en    : Bool := false
  idle  : BitVec 4 := 0
  popL  : Bool := false
  popR  : Bool := false
  pushL : Bool := false
  pushR : Bool := false
  sync  : Bool := false
  group : Bool := false
  deriving DecidableEq, Repr, Inhabited

/-- The fields of a drain beside its tile and accumulator (R194). -/
structure Drain where
  d     : Spec
  a     : Spec
  res   : Option Spec
  vc    : BitVec 2
  scl   : Option Reg
  drop  : Bool
  bound : BitVec 4
  rnd   : Rnd
  sat   : Bool
  ty    : Fmt
  deriving DecidableEq, Repr, Inhabited

/-- A slot of a storage level (R277). Tile and berth slots are named by the logical core, quay slots by the package
quadrant and the physical slot of its 64 banks, HBM slots by the package stack. -/
inductive Slot where
  | tile (core i : Nat)
  | berth (core i : Nat)
  | quay (quad i : Nat)
  | hbm (stack i : Nat)
  | far (i : Nat)
  deriving DecidableEq, Repr, Inhabited

/-- A member core of a gang: `idx` below the member count M is a primary, M + m is the secondary of m (R332). -/
structure CoreId where
  gang : Nat
  idx  : Nat
  deriving DecidableEq, Repr, Inhabited

/-- What another agent does at a port in one step (R298): the device's own swaps and results have rows of their own. -/
inductive AgentAct where
  | writeBytes (off : Nat) (bytes : List Byte)
  | writeBlock (block : Cells)
  | read
  deriving DecidableEq, Repr, Inhabited

/-- A firmware copy (R395), and in an update whether the host asks that its version become the fused minimum. -/
structure Firmware where
  bytes   : List Byte
  version : BitVec 16
  raise   : Bool := false
  deriving DecidableEq, Repr, Inhabited

/-- Whose kill a GANG_KILL ends (R361): the gang's own end or a fatal cause, a host's, or that of another chip for an owner, in its step 2 or
in its step 3. -/
inductive KillBy where
  | own
  | host
  | away (owner : BitVec 12) (ends : Bool)
  deriving DecidableEq, Repr, Inhabited
/-- The kill that the host started or not. -/
def KillBy.of (byHost : Bool) : KillBy := if byHost then .host else .own

/-- A CONTEXT_SAVE of a gang: its own, or the word of another chip that its copy is saved with a KIND (R329). -/
structure SaveWord where
  gang  : Nat
  other : Option Nat := none
  deriving DecidableEq, Repr, Inhabited

/-- A lane of a Ryide port (R390). -/
structure PortLane where
  port : Nat
  lane : Nat
  deriving DecidableEq, Repr, Inhabited

/-- A chip that a route reaches again, and whether the host has reset it (R360, R393). -/
structure RouteBack where
  chip  : BitVec 22
  reset : Bool
  deriving DecidableEq, Repr, Inhabited

/-- The header of a Pilot message (R363), with the session it arrived in (0: outside any session, R364). -/
structure Hdr where
  version : Byte := 1
  type    : Byte
  flags   : BitVec 16 := 0
  seq     : Word := 0
  len     : Word := 0
  part    : BitVec 16 := 0
  zero    : BitVec 16 := 0
  session : Nat := 1
  deriving DecidableEq, Repr, Inhabited

/-- A translation command record (R354): eight little-endian doublewords. -/
structure CmdRec where
  dw0 : Dword
  dw1 : Dword := 0
  dw2 : Dword := 0
  dw3 : Dword := 0
  dw4 : Dword := 0
  dw5 : Dword := 0
  dw6 : Dword := 0
  dw7 : Dword := 0
  deriving DecidableEq, Repr, Inhabited

/-- One bucket variant of a code image (R109, R77): its lines, its four entry addresses and its constant blen. -/
structure Variant where
  lines   : List (BitVec 512)
  entries : Dword × Dword × Dword × Dword
  blen    : Nat := 0
  deriving DecidableEq, Repr, Inhabited

/-- A window: its entry of the image's window table (R109), or at the home its region as the arming's capability gives it (R244):
number, first VBA, blocks, contributors, deadline. -/
structure WinDecl where
  vba      : Nat
  count    : Nat
  contrib  : Nat
  deadline : Nat
  num      : Nat := 0
  deriving DecidableEq, Repr, Inhabited

/-- A code image set: every bucket variant, the live maps (R344, 256 bits each) and the window table (R326). -/
structure CodeSet where
  variants : List Variant
  livemaps : List (BitVec 256)
  windows  : List WinDecl
  deriving DecidableEq, Repr, Inhabited

/-- The bytes of an IMAGE piece (R366): plain bytes for a manifest or capability image, and the code image set, whose
byte layout the manual does not give (log 13, DESIGN CHOICE); or a firmware update, whose form it does not give either (log 51, DEDUCED). -/
inductive Piece where
  | bytes (len : Nat) (cells : Cells)
  | code (len : Nat) (set : CodeSet)
  | firmware (len : Nat) (f : Firmware)
  deriving DecidableEq, Repr, Inhabited

/-- Target of READ and WRITE kind 0 (R367). -/
structure BlockTarget where
  owner  : BitVec 16
  level  : Byte
  stack  : Byte
  first  : Word
  launch : Word
  member : BitVec 16
  deriving DecidableEq, Repr, Inhabited

/-- The kinds of fabric message between chips that this chip sends or takes: an effect of R249 with its operands. -/
inductive AtomKind where
  | amo (op : AtomOp) (ret : Bool)
  | cas
  | kick
  deriving DecidableEq, Repr, Inhabited

/-- A released staged effect on its way to its target (R249, R252). `home` is the issuing core when it is on this
chip; `target` is the block's VBA and the byte; `dest` the register that takes the old element. -/
structure Effect where
  kind   : AtomKind
  chip   : BitVec 22
  source : BitVec 22
  gang   : Nat
  idx    : Nat
  launch : Word
  owner  : BitVec 12
  gen    : Byte
  vba    : BitVec 52
  off    : BitVec 12
  operand : Dword
  swap   : Dword
  dest   : Reg
  serial : Nat
  deriving DecidableEq, Repr, Inhabited

/-- In whose name a request travels: its launch, and its ensign (R360). -/
structure Sender where
  launch : Word
  owner  : BitVec 12
  gen    : Byte
  deriving DecidableEq, Repr, Inhabited

/-- What arrives at a receiving port for a landing of XRCH or XRCHC (R240, R241): the near copy at the target, as a request
for the remote block; the remote copy at the issuing chip; or the target's refusal, for want of room or for any other
reason. A request names the run of the phase in which it was sent (R269). -/
inductive Landed where
  | request (source : BitVec 22) (launch : Word) (owner : BitVec 12) (gen : Byte) (run : Nat) (vba : BitVec 52) (format : Byte)
      (block : Cells)
  | block (b : Cells)
  | refused
  | overflow
  deriving DecidableEq, Repr, Inhabited

/-- What the window's home sends its contributors (R244, R245, R247): the generation, the refusal of an arming, the abort of
a generation, the refusal of a region block's format, or the flags of a home that holds no member. -/
inductive ArmReply where
  | generation (g : BitVec 16)
  | refused
  | aborted (g : BitVec 16)
  | format (block : Nat)
  | flags (f : BitVec 5)
  deriving DecidableEq, Repr, Inhabited

/-- What comes back from a staged effect (R250, R251). -/
inductive AtomReply where
  | done (old : Dword) (flags : BitVec 5)
  | fault
  | stale
  | refused
  | dead
  deriving DecidableEq, Repr, Inhabited

/-- A chip's vote at a joint barrier, which is a COMMIT's or not: to go on, or to abort with the cause it records (R239). A `pending`
one says that the chip has come and will vote once every chip has. With a vote to commit a chip says whether its copy is to be saved at
this boundary and whether it can be (R270, R329), and the home of a window gives each contributor of another chip its flags (R247).
`armed` are the chip's armed windows whose home holds no member: the home, the window, the index, and the blocks that it has named. -/
structure Vote where
  abort : Bool
  trapc : Dword := 0
  tval  : Dword := 0
  pending : Bool := false
  wants : Bool := false
  able  : Bool := true
  flags : List (BitVec 22 × Nat × BitVec 5) := []
  commit : Bool := true
  armed : List (BitVec 22 × Nat × Nat × List Nat) := []
  deriving DecidableEq, Repr, Inhabited

/-- Where a storage error strikes (R275, R378, R379). -/
inductive ErrSite where
  | payload (slot : Slot) (word : Nat) (uncorrectable : Bool)
  | register (core : CoreId) (unit entry : Nat) (uncorrectable : Bool)
  | rollback (core : CoreId) (unit entry : Nat)
  | harbour
  deriving DecidableEq, Repr, Inhabited

inductive Instr where
  -- every cluster (R94, R104, R105)
  | nop (c : Common)
  | idle (c : Common) (n : BitVec 35)
  | rdv (c : Common)
  -- S cluster, arithmetic and logic (R127, R128)
  | add (c : Common) (d a b : Reg)
  | sub (c : Common) (d a b : Reg)
  | mul (c : Common) (d a b : Reg)
  | mulh (c : Common) (d a b : Reg)
  | mulhn (c : Common) (d a b : Reg)
  | div (c : Common) (d a b : Reg)
  | divn (c : Common) (d a b : Reg)
  | rem (c : Common) (d a b : Reg)
  | remn (c : Common) (d a b : Reg)
  | min (c : Common) (d a b : Reg)
  | max (c : Common) (d a b : Reg)
  | minn (c : Common) (d a b : Reg)
  | maxn (c : Common) (d a b : Reg)
  | and (c : Common) (d a b : Reg)
  | or (c : Common) (d a b : Reg)
  | xor (c : Common) (d a b : Reg)
  | shl (c : Common) (d a b : Reg)
  | shr (c : Common) (d a b : Reg)
  | sar (c : Common) (d a b : Reg)
  | clz (c : Common) (d a : Reg)
  | popc (c : Common) (d a : Reg)
  | sel (c : Common) (d a b e : Reg)
  | cmp (c : Common) (d a b : Reg) (rel : Rel)
  -- S cluster, immediate forms (R130, R131)
  | addi (c : Common) (d a : Reg) (imm : BitVec 23)
  | andi (c : Common) (d a : Reg) (imm : BitVec 23)
  | ori (c : Common) (d a : Reg) (imm : BitVec 23)
  | xori (c : Common) (d a : Reg) (imm : BitVec 23)
  | shli (c : Common) (d a : Reg) (n : BitVec 6)
  | shri (c : Common) (d a : Reg) (n : BitVec 6)
  | sari (c : Common) (d a : Reg) (n : BitVec 6)
  | cmpi (c : Common) (d a : Reg) (rel : Rel) (imm : BitVec 20)
  | liOne (c : Common) (d : Reg) (imm : BitVec 29)
  | liTwo (c : Common) (d : Reg) (imm : Dword)
  -- S cluster, memory (R132 to R140)
  | ld (c : Common) (d base : Reg) (ty : Fmt) (off : BitVec 16)
  | st (c : Common) (d base : Reg) (ty : Fmt) (off : BitVec 16)
  | lda (c : Common) (d base : Reg) (sc : Scope) (ty : Fmt) (off : BitVec 16)
  | stl (c : Common) (d base : Reg) (sc : Scope) (ty : Fmt) (off : BitVec 16)
  | amo (c : Common) (d a b : Reg) (op : AtomOp) (ty : Fmt)
  | cas (c : Common) (d a b e : Reg) (ty : Fmt)
  -- S cluster, branches (R141)
  | b (c : Common) (nul : Nul) (off : BitVec 24)
  | bc (c : Common) (nul : Nul) (cond : Cond) (a : Reg) (off : BitVec 24)
  | br (c : Common) (nul : Nul) (a : Reg)
  | call (c : Common) (nul : Nul) (a : Reg) (off : BitVec 24)
  | loop (c : Common) (nul : Nul) (a : Reg) (off : BitVec 24)
  -- S cluster, phases, waiting, traps, control registers (R104, R143 to R154)
  | fork (c : Common) (n : BitVec 35)
  | slack (c : Common)
  | commit (c : Common)
  | safe (c : Common) (map : BitVec 8)
  | waitp (c : Common) (a b : Reg)
  | qmark (c : Common)
  | fence (c : Common) (d : Reg) (sc : Scope)
  | trap (c : Common) (imm : BitVec 35)
  | tret (c : Common)
  | mfc (c : Common) (d : Reg) (num : BitVec 12)
  | mtc (c : Common) (d : Reg) (num : BitVec 12)
  -- the harbourmaster's privileged forms (R350)
  | hsel (c : Common) (a : Reg)
  | hrd (c : Common) (d b : Reg)
  | hwr (c : Common) (b e : Reg)
  | hcmd (c : Common) (d a : Reg)
  | hwait (c : Common) (d a : Reg)
  -- V cluster, FP32 arithmetic (R158, R159)
  | vadd (c : Common) (d a b : Reg) (rnd : Rnd) (sat : Bool)
  | vsub (c : Common) (d a b : Reg) (rnd : Rnd) (sat : Bool)
  | vmul (c : Common) (d a b : Reg) (rnd : Rnd) (sat : Bool)
  | vdiv (c : Common) (d a b : Reg)
  | vmin (c : Common) (d a b : Reg)
  | vmax (c : Common) (d a b : Reg)
  | vcps (c : Common) (d a b : Reg)
  | vsqrt (c : Common) (d a : Reg)
  | vrcp (c : Common) (d a : Reg)
  | vrsq (c : Common) (d a : Reg)
  | vexp2 (c : Common) (d a : Reg)
  | vlog2 (c : Common) (d a : Reg)
  | vabs (c : Common) (d a : Reg)
  | vneg (c : Common) (d a : Reg)
  | vfma (c : Common) (d a b e : Reg) (rnd : Rnd) (sat : Bool)
  | vfms (c : Common) (d a b e : Reg) (rnd : Rnd) (sat : Bool)
  | vfnma (c : Common) (d a b e : Reg) (rnd : Rnd) (sat : Bool)
  -- V cluster, 32-bit integer lanes (R160); `n` is true for .n32
  | viadd (c : Common) (d a b : Reg) (n sat : Bool)
  | visub (c : Common) (d a b : Reg) (n sat : Bool)
  | vimul (c : Common) (d a b : Reg) (n sat : Bool)
  | vimulh (c : Common) (d a b : Reg) (n : Bool)
  | vimin (c : Common) (d a b : Reg) (n : Bool)
  | vimax (c : Common) (d a b : Reg) (n : Bool)
  | vand (c : Common) (d a b : Reg) (n : Bool)
  | vor (c : Common) (d a b : Reg) (n : Bool)
  | vxor (c : Common) (d a b : Reg) (n : Bool)
  | vshl (c : Common) (d a b : Reg) (n : Bool)
  | vshr (c : Common) (d a b : Reg) (n : Bool)
  | vsar (c : Common) (d a b : Reg) (n : Bool)
  | vpopc (c : Common) (d a : Reg)
  -- V cluster, compares, predicates, moves, reductions (R161 to R166)
  | vcmp (c : Common) (d : PReg) (a b : Reg) (rel : FRel)
  | vicmp (c : Common) (d : PReg) (a b : Reg) (rel : Rel)
  | vclass (c : Common) (d : PReg) (a : Reg) (mask : BitVec 10)
  | pand (c : Common) (d a b : PReg)
  | por (c : Common) (d a b : PReg)
  | pxor (c : Common) (d a b : PReg)
  | pnot (c : Common) (d a : PReg)
  | pcnt (c : Common) (d : Reg) (a : PReg)
  | pfirst (c : Common) (d : Reg) (a : PReg)
  | vsel (c : Common) (d a b : Reg) (e : PReg)
  | vmov (c : Common) (d a : Reg)
  | vbcst (c : Common) (d a : Reg) (ty : Fmt)
  | vextr (c : Common) (d a b : Reg)
  | vins (c : Common) (d a b : Reg)
  | vperm (c : Common) (d a b : Reg)
  | vrot (c : Common) (d a b : Reg)
  | vmovDirRead (c : Common) (v : Reg) (sp : Spec) (ty : Fmt)
  | vmovDirWrite (c : Common) (v : Reg) (sp : Spec) (rnd : Rnd) (sat : Bool) (ty : Fmt) (bound : BitVec 4)
  | vrsum (c : Common) (d a : Reg) (ty : Fmt)
  | vrmax (c : Common) (d a : Reg) (ty : Fmt)
  | vrmin (c : Common) (d a : Reg) (ty : Fmt)
  | vramax (c : Common) (d a : Reg)
  -- V cluster, conversions, berth memory, parking, triples, bounds (R168 to R183)
  | vcvt (c : Common) (d a : Reg) (src : Fmt) (rnd : Rnd) (sat : Bool) (ty : Fmt)
  | vcvtMxImport (c : Common) (d a : Reg) (src : Fmt) (col : Bool)
  | vld (c : Common) (d base : Reg) (ty : Fmt) (off : BitVec 16)
  | vst (c : Common) (d base : Reg) (ty : Fmt) (off : BitVec 16)
  | vldg (c : Common) (d a b : Reg) (ty : Fmt)
  | vsts (c : Common) (d a b : Reg) (ty : Fmt)
  | vpark (c : Common) (v : Reg)
  | vunpark (c : Common) (v : Reg) (sp : Spec)
  | vtri (c : Common) (d a b : Reg)
  | vtrin (c : Common) (d a b : Reg)
  | vbnd (c : Common) (v : Reg) (bound : BitVec 4)
  -- M cluster (R122, R189 to R201); every command carries its stamp (R88)
  | mma (c : Common) (stamp : BitVec 36) (d a b : Spec) (vc : BitVec 2)
  | mmat (c : Common) (stamp : BitVec 36) (d a b : Spec) (vc : BitVec 2)
  | mzero (c : Common) (stamp : BitVec 36) (d : Spec)
  | macc (c : Common) (stamp : BitVec 36) (d a : Spec)
  | mscl (c : Common) (stamp : BitVec 36) (d : Spec) (v : Reg) (col : Bool)
  | mmsk (c : Common) (stamp : BitVec 36) (d : Spec) (g : Reg)
  | mred (c : Common) (stamp : BitVec 36) (v : Reg) (a : Spec) (max : Bool)
  | mdrn (c : Common) (stamp : BitVec 36) (dr : Drain)
  | mdrnq (c : Common) (stamp : BitVec 36) (dr : Drain)
  | mtrn (c : Common) (stamp : BitVec 36) (d a : Spec)
  | mCommandStep (k : CoreId) (unit : Nat)
  -- X cluster, local exchanges (R206 to R232); `gen` bit k names generator k
  | xch (c : Common) (near : Near) (far cnt : Reg) (gen : BitVec 2)
  | xchs (c : Common) (near : Near) (far cnt : Reg) (gen : BitVec 2)
  | xchg (c : Common) (near far cnt : Reg) (gen : BitVec 2)
  | xchp (c : Common) (near far cnt : Reg) (gen : BitVec 2)
  | xcht (c : Common) (near far cnt : Reg) (gen : BitVec 2)
  | xtil (c : Common) (near far cnt : Reg) (gen : BitVec 2)
  | xtilt (c : Common) (near far cnt : Reg) (gen : BitVec 2)
  | xfar (c : Common) (near far cnt : Reg)
  | xdrop (c : Common) (near : Near)
  | xtstv (c : Common) (near : Near) (d : Reg)
  | xpen (c : Common) (near far : Reg)
  | xwake (c : Common) (far : Reg)
  | xdoze (c : Common) (far : Reg)
  | xnsend (c : Common) (sp : Spec) (dir : Side)
  | xnrecv (c : Common) (sp : Spec) (dir : Side)
  | xagu (c : Common) (gen : BitVec 2)
  -- X cluster, fabric forms (R233 to R253)
  | xrch (c : Common) (near far cnt : Reg) (ch : BitVec 8)
  | xrchc (c : Common) (near far cnt : Reg) (ch : BitVec 8)
  | xcrck (c : Common) (far : Reg) (ch : BitVec 8)
  | xwin (c : Common) (far : Reg) (ch : BitVec 8)
  | xred (c : Common) (near far cnt : Reg) (ch : BitVec 8) (op : RedOp)
  | xtri (c : Common) (near far cnt : Reg) (ch : BitVec 8)
  | xamo (c : Common) (near far : Reg) (ch : BitVec 8) (op : AtomOp)
  | xamor (c : Common) (near far : Reg) (ch : BitVec 8) (op : AtomOp)
  | xcas (c : Common) (near far cnt : Reg) (ch : BitVec 8)
  | xkick (c : Common) (far : Reg) (ch : BitVec 8)
  | xabort (c : Common) (ch : BitVec 8)
  -- steps of a core (R62, R209, R212, R221, R285 to R302, R406, R407)
  | pendingLanding (k : CoreId)
  | exchangePairSwap (k : CoreId) (serial : Nat)
  | exchangePairTranslate (k : CoreId) (serial : Nat)
  | unitSwap (k : CoreId) (serial : Nat)
  | hbmPairArrival (gang claim : Nat)
  | queueLeave (k : CoreId) (store : Bool)
  | bufferPerform (k : CoreId) (sc : Scope)
  | otherAgentPerform (slot : Slot) (act : AgentAct)
  | waitpReread (k : CoreId)
  | fenceStatusLand (k : CoreId)
  | elementPortServe (k : CoreId)
  | bankWakeDone (gang quad bank : Nat)
  | bankDoze (gang quad bank : Nat)
  | neighbourArrival (k : CoreId)
  -- phases (R239, R268, R269, R253, R265)
  | phaseRollback (gang : Nat)
  | rollbackEnd (gang : Nat)
  -- fabric (R237 to R253)
  | nearBlockSnapshot (k : CoreId) (serial : Nat)
  | landingArrival (k : CoreId) (serial pair : Nat) (l : Landed)
  | crcCompare (k : CoreId)
  | fabricCompletion (k : CoreId) (serial : Nat)
  | windowArmAtHome (launch : Word) (owner : BitVec 12) (gen : Byte) (window : WinDecl) (index : Nat) (source : BitVec 22) (k : CoreId) (ch : BitVec 8) (serial : Nat)
  | windowGenerationReturn (k : CoreId) (ch : BitVec 8) (serial : Nat) (r : ArmReply)
  | windowContributionArrival (launch : Sender) (window : Nat) (gen : BitVec 16) (index blockNo : Nat) (op : Option RedOp) (b : Cells) (source : BitVec 22) (k : CoreId) (serial : Nat)
  | windowDeadline (gang window : Nat) (gen : BitVec 16)
  | abortNotice (gang : Nat) (trapc tval : Dword)
  | jointCommit (gang : Nat)
  | jointBarrierArrival (gang : Nat) (chip : BitVec 22) (vote : Vote)
  | stagedEffectPerform (e : Effect)
  | atomicReturn (k : CoreId) (dest : Reg) (writes : Bool) (ty : Fmt) (r : AtomReply) (chip : BitVec 22) (serial : Nat)
  | xfarPairSwap (k : CoreId) (serial : Nat)
  | farPortAccept (gang claim : Nat)
  -- the harbourmaster's service, scheduling and context (R326 to R346, R357, R361)
  | permissionRecheck (gang : Nat)
  | absentSuspend (gang : Nat)
  | gangKill (gang : Nat) (byHost : KillBy)
  | ensignFenceTimeout (gang : Nat) (chip : BitVec 22)
  | scheduleDecision (part : Nat)
  | agingStep (part : Nat)
  | multichipStart (gang : Nat)
  | safeDeadlineExpiry (gang : Nat)
  | contextSave (w : SaveWord)
  | contextRestore (gang : Nat) (x0 y0 : Nat)
  | chipLost (chip : BitVec 22)
  -- translation commands (R354 to R356)
  | invalidate (ticket : Nat) (r : CmdRec)
  | invalidateAck (ticket : Nat)
  | populate (ticket : Nat) (r : CmdRec)
  | refresh (ticket : Nat) (r : CmdRec)
  | kill (ticket : Nat) (r : CmdRec)
  | reset (ticket : Nat) (r : CmdRec)
  -- Pilot messages (R363 to R367); `resv` is the value of the bytes that R366 requires to be zero, and of a READ or a WRITE also what its
  -- kind byte differs by from a kind that R367 lists for it
  | hello (h : Hdr) (msg : List Byte)
  | attest (h : Hdr) (nonce : BitVec 256)
  | key (h : Hdr) (owner : BitVec 16) (resv : Nat) (wrapped : BitVec 576)
  | image (h : Hdr) (kind : Byte) (handle : Word) (off total : Dword) (last : Byte) (resv : Nat) (p : Piece)
  | launch (h : Hdr) (desc : List Dword)
  | query (h : Hdr) (launch : Word) (resv : Nat)
  | cancelKill (h : Hdr) (launch : Word) (mode : Byte) (resv : Nat)
  | cancelRelease (h : Hdr) (launch : Word) (resv : Nat)
  | cancelResume (h : Hdr) (launch : Word) (resv : Nat)
  | cancelRestore (h : Hdr) (launch : Word) (resv : Nat)
  | pilotReset (h : Hdr) (count : Word)
  | readBlocks (h : Hdr) (len : Word) (t : BlockTarget) (resv : Nat)
  | writeBlocks (h : Hdr) (len : Word) (t : BlockTarget) (resv : Nat) (blocks : List Cells)
  | readManifest (h : Hdr) (len handle entry : Word) (resv : Nat)
  | writeManifest (h : Hdr) (len handle entry : Word) (resv : Nat) (entries : List (Dword × Dword))
  | readSched (h : Hdr) (len : Word) (reg : Byte) (resv : Nat)
  | writeSched (h : Hdr) (len : Word) (reg : Byte) (resv : Nat) (vals : List Dword)
  | readCoreRegister (h : Hdr) (len launch : Word) (member num : BitVec 16) (resv : Nat)
  | writeCoreRegister (h : Hdr) (len launch : Word) (member num : BitVec 16) (resv : Nat) (vals : List Dword)
  | writeCommand (h : Hdr) (len : Word) (resv : Nat) (r : CmdRec)
  | readErrorRecord (h : Hdr) (len : Word) (resv : Nat)
  | readBlackBox (h : Hdr) (len : Word) (resv : Nat)
  | readInjection (h : Hdr) (len : Word) (resv : Nat)
  | writeInjection (h : Hdr) (len : Word) (resv : Nat) (val : Dword)
  -- faults and repair (R378 to R393), and the start that some of them end in (R394)
  | warmStart
  | poisonEscalation (gang : Nat)
  | hbmRowSpare (stack row : Nat) (uncorrectable : Bool) (spareLeft : Bool) (slots : List Nat)
  | laneFail (port lane : Nat)
  | laneRetrainDone (port : Nat)
  | coreRetire (quad column : Nat)
  | quadrantWithdraw (quad column : Nat)
  | longLinkDeath (a b : Nat)
  | farPortDown (port : Nat)
  | blackboxMirror
  -- start and power (R394 to R403)
  | coldStart (failing : List (Nat × Nat)) (farSlots : List Nat)
  | watchdogExpiry
  | throttleRaise
  | throttleLower
  | emergencyPowerOff
  -- further steps
  | storageError (e : ErrSite)
  | flitRetry (lane : PortLane)
  | farPortReturn (port : Nat)
  | chipRouteRestored (back : RouteBack)
  deriving DecidableEq, Repr

end Sys2Proof
end

