-- ==== Sys2Proof/WellFormed.lean ====
section
/-! DEFINITION. Which instructions are well formed: the limits R82, R86, R90 to R95, R116 and the cluster chapters set
on the fields that `Instr` can hold. Every other must-be-zero field has no place in `Instr` and is the decoder's. -/

namespace Sys2Proof

/-- The common fields: guard rules of R82 and R95, and GROUP only in V lines (R86). -/
def Common.wf (c : Common) (cl : Cl) (guardable : Bool) : Bool :=
  (if c.en then guardable else c.guard == 0 && !c.sense) && (cl == .v || !c.group)

/-- A tile specifier R92 admits: accumulators 0 to 3, and IDX 0 with the whole direction. -/
def Spec.wf (s : Spec) : Bool :=
  (!s.acc || s.num.toNat < 4) && (s.dir != .whole || s.idx == 0)

/-- A whole tile (R188, R206). -/
def Spec.wholeTile (s : Spec) : Bool := !s.acc && s.dir == .whole && s.idx == 0

/-- A whole accumulator (R188). -/
def Spec.wholeAcc (s : Spec) : Bool := s.acc && s.num.toNat < 4 && s.dir == .whole && s.idx == 0

/-- The near field of an exchange or a test: a whole tile or a register (R206). -/
def Near.wf : Near → Bool
  | .tile sp => sp.wholeTile
  | .reg _ => true

/-- Generator 1 requires a VBA near (R206). -/
def Near.genOk (n : Near) (gen : BitVec 2) : Bool :=
  match n with
  | .tile _ => !gen.getLsbD 1
  | .reg _ => true

/-- The element types of LD and ST (R132). -/
def Fmt.isWord : Fmt → Bool
  | .i8 | .n8 | .n16 | .bf16 | .f16 | .i32 | .n32 | .f32 | .i64 | .n64 => true
  | _ => false

/-- The element types of LDA, STL, AMO and CAS (R118, R132). -/
def Fmt.isSync : Fmt → Bool
  | .i32 | .n32 | .f32 | .i64 | .n64 => true
  | _ => false

/-- The lane types of R167. -/
def Fmt.isLane : Fmt → Bool
  | .f32 | .i32 | .n32 | .bf16 | .f16 | .n16 | .e4m3 | .e5m2 | .n8 | .i8 | .e2m1 => true
  | _ => false

/-- The square-scaled formats (R35). -/
def Fmt.isSq : Fmt → Bool
  | .sqe2m1 | .sqe4m3 | .sqe5m2 | .sqi8 => true
  | _ => false

/-- The SQ code that imports an MX element type (R169). -/
def Fmt.mxTarget : Fmt → Option Fmt
  | .e2m1 => some .sqe2m1
  | .e4m3 => some .sqe4m3
  | .e5m2 => some .sqe5m2
  | _ => none

/-- AND, OR and XOR take integer types only (R139). -/
def AtomOp.integerOnly : AtomOp → Bool
  | .and | .or | .xor => true
  | _ => false

/-- The parts of a drain that R188, R194, R195, R197 and R200 limit. -/
def Drain.wf (dr : Drain) (q : Bool) : Bool :=
  dr.d.wholeTile && dr.a.wholeAcc
    && (match dr.res with | some b => b.wholeTile | none => true)
    && (match dr.scl with | some v => v.toNat < 63 | none => true)
    && (if q then dr.ty.isSq && dr.rnd == .rne && !dr.sat
        else match dr.ty with
          | .f32 | .bf16 | .f16 | .e4m3 | .e5m2 | .e2m1 => true
          | .i8 | .i32 => dr.res.isNone && dr.scl.isNone && !dr.drop && dr.bound == 0 && dr.rnd == .rne
          | _ => false)

/-- Whether cluster `cl` has the instruction and its fields keep the limits of the opcode maps (R116 to R124). The steps
without an encoding belong to no cluster. -/
def Instr.wf (cl : Cl) : Instr → Bool
  | .nop c | .idle c _ | .rdv c => c.wf cl false
  | .add c .. | .sub c .. | .mul c .. | .mulh c .. | .mulhn c .. | .div c .. | .divn c .. | .rem c .. | .remn c ..
  | .min c .. | .max c .. | .minn c .. | .maxn c .. | .and c .. | .or c .. | .xor c .. | .shl c .. | .shr c ..
  | .sar c .. | .clz c .. | .popc c .. | .sel c .. | .cmp c .. | .addi c .. | .andi c .. | .ori c .. | .xori c ..
  | .shli c .. | .shri c .. | .sari c .. | .cmpi c .. | .liOne c .. | .liTwo c .. => cl == .s && c.wf cl true
  | .ld c _ _ ty _ | .st c _ _ ty _ => cl == .s && c.wf cl true && ty.isWord
  | .lda c _ _ _ ty _ | .stl c _ _ _ ty _ => cl == .s && c.wf cl true && ty.isSync
  | .amo c _ _ _ op ty => cl == .s && c.wf cl true && ty.isSync && !(op.integerOnly && ty == .f32)
  | .cas c _ _ _ _ ty => cl == .s && c.wf cl true && ty.isSync
  | .b c .. | .bc c .. | .br c .. | .call c .. | .loop c .. => cl == .s && c.wf cl true
  | .fork c n => cl == .s && c.wf cl false && n != 0
  | .slack c | .commit c | .safe c _ | .qmark c | .tret c => cl == .s && c.wf cl false
  | .waitp c .. | .fence c .. | .trap c _ | .mfc c .. | .mtc c .. => cl == .s && c.wf cl true
  | .hsel c .. | .hrd c .. | .hwr c .. | .hcmd c .. | .hwait c .. => cl == .s && c.wf cl true
  | .vadd c .. | .vsub c .. | .vmul c .. | .vdiv c .. | .vmin c .. | .vmax c .. | .vcps c .. | .vsqrt c .. | .vrcp c ..
  | .vrsq c .. | .vexp2 c .. | .vlog2 c .. | .vabs c .. | .vneg c .. | .vfma c .. | .vfms c .. | .vfnma c ..
  | .viadd c .. | .visub c .. | .vimul c .. | .vimulh c .. | .vimin c .. | .vimax c .. | .vand c .. | .vor c ..
  | .vxor c .. | .vshl c .. | .vshr c .. | .vsar c .. | .vpopc c .. | .vcmp c .. | .vicmp c .. | .vclass c ..
  | .pand c .. | .por c .. | .pxor c .. | .pnot c .. | .pcnt c .. | .pfirst c .. | .vsel c .. | .vmov c ..
  | .vextr c .. | .vins c .. | .vperm c .. | .vrot c .. | .vramax c .. => cl == .v && c.wf cl true
  | .vbcst c _ _ ty | .vld c _ _ ty _ | .vst c _ _ ty _ | .vldg c _ _ _ ty | .vsts c _ _ _ ty =>
    cl == .v && c.wf cl true && ty.isLane
  | .vmovDirRead c _ sp ty => cl == .v && c.wf cl true && sp.wf && sp.dir != .whole
      && (!sp.acc || ty == .untyped || ty == .f32 || ty == .i32)
  | .vmovDirWrite c _ sp .. => cl == .v && c.wf cl true && sp.wf && sp.dir != .whole && !sp.acc
  | .vrsum c _ _ ty => cl == .v && c.wf cl true && (ty == .f32 || ty == .i32)
  | .vrmax c _ _ ty | .vrmin c _ _ ty => cl == .v && c.wf cl true && (ty == .f32 || ty == .i32 || ty == .n32)
  | .vcvt c _ _ src _ _ ty => cl == .v && c.wf cl true && src.isLane && ty.isLane
  | .vcvtMxImport c _ _ src _ => cl == .v && c.wf cl true && src.mxTarget.isSome
  | .vpark c _ | .vbnd c .. => cl == .v && c.wf cl true
  | .vunpark c _ sp => cl == .v && c.wf cl true && !sp.acc && sp.dir == .row
  | .vtri c d a a' => cl == .v && c.wf cl true && !d.getLsbD 0 && !a.getLsbD 0 && !a'.getLsbD 0
  | .vtrin c _ a _ => cl == .v && c.wf cl true && !a.getLsbD 0
  | .mma c _ d a a' _ | .mmat c _ d a a' _ =>
    cl == .m && c.wf cl true && d.wholeAcc && a.wholeTile && a'.wholeTile
  | .mzero c _ d | .mscl c _ d _ _ | .mmsk c _ d _ => cl == .m && c.wf cl true && d.wholeAcc
  | .macc c _ d a | .mtrn c _ d a => cl == .m && c.wf cl true && d.wholeAcc && a.wholeAcc
  | .mred c _ _ a _ => cl == .m && c.wf cl true && a.wholeAcc
  | .mdrn c _ dr => cl == .m && c.wf cl true && dr.wf false
  | .mdrnq c _ dr => cl == .m && c.wf cl true && dr.wf true
  | .xch c near _ _ gen => cl == .x && c.wf cl true && near.wf && near.genOk gen
  | .xchs c near _ _ gen => cl == .x && c.wf cl true && near.wf && near.genOk gen && gen != 0
  | .xchg c _ _ _ gen => cl == .x && c.wf cl true && gen != 0
  | .xchp c .. | .xcht c .. | .xtil c .. | .xtilt c .. => cl == .x && c.wf cl true
  | .xfar c _ _ cnt => cl == .x && c.wf cl true && !cnt.getLsbD 0
  | .xdrop c near | .xtstv c near _ => cl == .x && c.wf cl true && near.wf
  | .xpen c .. | .xwake c _ | .xdoze c _ => cl == .x && c.wf cl true
  | .xnsend c sp _ | .xnrecv c sp _ => cl == .x && c.wf cl true && !sp.acc && (sp.dir == .row || sp.dir == .col)
  | .xagu c gen => cl == .x && c.wf cl true && gen != 0
  | .xrch c .. | .xrchc c .. | .xcrck c .. | .xwin c .. | .xred c .. | .xtri c .. | .xamo c .. | .xamor c ..
  | .xcas c .. | .xkick c .. | .xabort c _ => cl == .x && c.wf cl true
  | .mCommandStep .. | .pendingLanding .. | .exchangePairSwap .. | .exchangePairTranslate .. | .unitSwap ..
  | .hbmPairArrival .. | .queueLeave .. | .bufferPerform .. | .otherAgentPerform .. | .waitpReread .. | .fenceStatusLand ..
  | .elementPortServe .. | .bankWakeDone .. | .bankDoze .. | .neighbourArrival .. | .phaseRollback .. | .rollbackEnd ..
  | .landingArrival .. | .crcCompare .. | .fabricCompletion .. | .windowArmAtHome .. | .windowGenerationReturn ..
  | .windowContributionArrival .. | .windowDeadline .. | .abortNotice .. | .jointCommit .. | .jointBarrierArrival ..
  | .stagedEffectPerform .. | .atomicReturn .. | .xfarPairSwap .. | .farPortAccept .. | .permissionRecheck ..
  | .absentSuspend .. | .gangKill .. | .ensignFenceTimeout .. | .scheduleDecision .. | .agingStep .. | .multichipStart ..
  | .safeDeadlineExpiry .. | .contextSave .. | .contextRestore .. | .chipLost .. | .invalidate .. | .invalidateAck ..
  | .populate .. | .refresh .. | .kill .. | .reset .. | .hello .. | .attest .. | .key .. | .image .. | .launch ..
  | .query .. | .cancelKill .. | .cancelRelease .. | .cancelResume .. | .cancelRestore .. | .pilotReset .. | .readBlocks ..
  | .writeBlocks .. | .readManifest .. | .writeManifest .. | .readSched .. | .writeSched .. | .readCoreRegister ..
  | .writeCoreRegister .. | .writeCommand .. | .readErrorRecord .. | .readBlackBox .. | .readInjection ..
  | .writeInjection .. | .poisonEscalation .. | .hbmRowSpare .. | .laneFail .. | .laneRetrainDone .. | .coreRetire ..
  | .quadrantWithdraw .. | .longLinkDeath .. | .farPortDown .. | .blackboxMirror | .coldStart .. | .warmStart
  | .watchdogExpiry | .throttleRaise | .throttleLower | .emergencyPowerOff | .nearBlockSnapshot .. | .storageError ..
  | .flitRetry .. | .farPortReturn .. | .chipRouteRestored .. => false


end Sys2Proof
end

