-- ==== Sys2Proof/Decode.lean ====
section
/-! DEFINITION. Code lines (R77 to R80), syllables and their formats (R81 to R93), the decoder of the four opcode maps
(R116 to R124) with the fate of every encoding that is not an instruction (R95), and the encoder beside it. -/

namespace Sys2Proof

/-- A syllable (R81). -/
abbrev Syl := BitVec 60
/-- A code line read as one little-endian value (R77). -/
abbrev Line := BitVec 512

/-- Why an encoding is no instruction (R95). `link` is a RESERVED_FIELD of the line itself. -/
inductive Bad where
  | chain | illegalOp | reserved | link | illegalPriv
  deriving DecidableEq, Repr, Inhabited

/-! ## Field codes -/

/-- CLUSTER of the link word (R78). -/
def Cl.code : Cl → BitVec 2
  | .s => 0 | .v => 1 | .m => 2 | .x => 3
def Cl.ofCode (b : BitVec 2) : Cl :=
  if b = 0 then .s else if b = 1 then .v else if b = 2 then .m else .x

/-- The format codes of R31, as the low five bits that TYPE holds (R91). -/
def Fmt.code : Fmt → BitVec 5
  | .untyped => 0x00 | .f32 => 0x01 | .bf16 => 0x02 | .f16 => 0x03 | .e4m3 => 0x04 | .e5m2 => 0x05 | .e2m1 => 0x06
  | .i8 => 0x07 | .i32 => 0x08 | .i64 => 0x09 | .n8 => 0x0A | .n16 => 0x0B | .n32 => 0x0C | .n64 => 0x0D
  | .sqe2m1 => 0x10 | .sqe4m3 => 0x11 | .sqe5m2 => 0x12 | .sqi8 => 0x13
def Fmt.all : List Fmt :=
  [.untyped, .f32, .bf16, .f16, .e4m3, .e5m2, .e2m1, .i8, .i32, .i64, .n8, .n16, .n32, .n64,
   .sqe2m1, .sqe4m3, .sqe5m2, .sqi8]
/-- None for a code that R31 marks reserved. -/
def Fmt.ofCode (b : BitVec 5) : Option Fmt := Fmt.all.find? (fun f => f.code == b)

def Rnd.code : Rnd → BitVec 2
  | .rne => 0 | .rz => 1 | .rd => 2 | .ru => 3
def Rnd.ofCode (b : BitVec 2) : Rnd :=
  if b = 0 then .rne else if b = 1 then .rz else if b = 2 then .rd else .ru

def Rel.code : Rel → BitVec 3
  | .eq => 0 | .ne => 1 | .lt => 2 | .le => 3 | .ltn => 4 | .len => 5
def Rel.ofCode (b : BitVec 3) : Option Rel :=
  [Rel.eq, .ne, .lt, .le, .ltn, .len].find? (fun r => r.code == b)

def FRel.code : FRel → BitVec 3
  | .eq => 0 | .ne => 1 | .lt => 2 | .le => 3 | .gt => 4 | .ge => 5 | .un => 6
def FRel.ofCode (b : BitVec 3) : Option FRel :=
  [FRel.eq, .ne, .lt, .le, .gt, .ge, .un].find? (fun r => r.code == b)

def Cond.code : Cond → BitVec 3
  | .z => 0 | .nz => 1 | .neg => 2 | .nneg => 3 | .pos => 4 | .npos => 5
def Cond.ofCode (b : BitVec 3) : Option Cond :=
  [Cond.z, .nz, .neg, .nneg, .pos, .npos].find? (fun r => r.code == b)

def Nul.code : Nul → BitVec 2
  | .none => 0 | .nt => 1 | .nk => 2
def Nul.ofCode (b : BitVec 2) : Option Nul := [Nul.none, .nt, .nk].find? (fun r => r.code == b)

def Scope.code : Scope → BitVec 2
  | .core => 0 | .quad => 1 | .pkg => 2 | .sys => 3
def Scope.ofCode (b : BitVec 2) : Scope :=
  if b = 0 then .core else if b = 1 then .quad else if b = 2 then .pkg else .sys

def AtomOp.code : AtomOp → BitVec 3
  | .add => 0 | .and => 1 | .or => 2 | .xor => 3 | .min => 4 | .max => 5 | .swap => 6
def AtomOp.ofCode (b : BitVec 3) : Option AtomOp :=
  [AtomOp.add, .and, .or, .xor, .min, .max, .swap].find? (fun r => r.code == b)

def RedOp.code : RedOp → BitVec 3
  | .add => 0 | .min => 4 | .max => 5
def RedOp.ofCode (b : BitVec 3) : Option RedOp := [RedOp.add, .min, .max].find? (fun r => r.code == b)

def Dir.code : Dir → BitVec 2
  | .whole => 0 | .row => 1 | .col => 2 | .diag => 3
def Dir.ofCode (b : BitVec 2) : Dir :=
  if b = 0 then .whole else if b = 1 then .row else if b = 2 then .col else .diag

def Side.code : Side → BitVec 3
  | .n => 0 | .e => 1 | .s => 2 | .w => 3
def Side.ofCode (b : BitVec 3) : Option Side := [Side.n, .e, .s, .w].find? (fun r => r.code == b)

/-- R92. -/
def Spec.toBits (s : Spec) : BitVec 10 := BitVec.ofBool s.acc ++ s.num ++ s.dir.code ++ s.idx
def Spec.ofBits (b : BitVec 10) : Spec :=
  ⟨b.getLsbD 9, b.extractLsb' 6 3, Dir.ofCode (b.extractLsb' 4 2), b.extractLsb' 0 4⟩

/-- The near field of XE (R93): bits 8:6 zero when bit 9 selects a register. -/
def Near.toBits : Near → BitVec 10
  | .tile sp => sp.toBits
  | .reg g => (8 : BitVec 4) ++ g
def Near.ofBits (b : BitVec 10) : Option Near :=
  if b.getLsbD 9 then
    if b.extractLsb' 6 3 = 0 then some (.reg (b.extractLsb' 0 6)) else none
  else some (.tile (Spec.ofBits b))

/-! ## The syllable and the operand formats -/

/-- Bits 50:35 (R81). -/
def Common.toBits (c : Common) : BitVec 16 :=
  c.guard ++ BitVec.ofBool c.sense ++ BitVec.ofBool c.en ++ c.idle ++ BitVec.ofBool c.popL ++ BitVec.ofBool c.popR
    ++ BitVec.ofBool c.pushL ++ BitVec.ofBool c.pushR ++ BitVec.ofBool c.sync ++ BitVec.ofBool c.group
def Common.ofBits (b : BitVec 16) : Common :=
  ⟨b.extractLsb' 12 4, b.getLsbD 11, b.getLsbD 10, b.extractLsb' 6 4, b.getLsbD 5, b.getLsbD 4, b.getLsbD 3,
   b.getLsbD 2, b.getLsbD 1, b.getLsbD 0⟩

/-- A syllable from its opcode, common fields and operand field. -/
def Syl.mk (op : BitVec 9) (c : Common) (o : BitVec 35) : Syl := op ++ c.toBits ++ o
def Syl.op (s : Syl) : BitVec 9 := s.extractLsb' 51 9
def Syl.common (s : Syl) : Common := Common.ofBits (s.extractLsb' 35 16)
def Syl.operand (s : Syl) : BitVec 35 := s.extractLsb' 0 35

/-- The type field of R91. -/
structure Ty where
  rnd : BitVec 2 := 0
  sat : Bool := false
  ty  : BitVec 5 := 0
  deriving DecidableEq, Repr
def Ty.toBits (t : Ty) : BitVec 8 := t.rnd ++ BitVec.ofBool t.sat ++ t.ty
def Ty.ofBits (b : BitVec 8) : Ty := ⟨b.extractLsb' 6 2, b.getLsbD 5, b.extractLsb' 0 5⟩

/-- Format RRR (R93). -/
structure Rrr where
  d : BitVec 6 := 0
  a : BitVec 6 := 0
  b : BitVec 6 := 0
  e : BitVec 6 := 0
  f : BitVec 3 := 0
  t : Ty := {}
  deriving DecidableEq, Repr
def Rrr.toBits (r : Rrr) : BitVec 35 := r.d ++ r.a ++ r.b ++ r.e ++ r.f ++ r.t.toBits
def Rrr.ofBits (o : BitVec 35) : Rrr :=
  ⟨o.extractLsb' 29 6, o.extractLsb' 23 6, o.extractLsb' 17 6, o.extractLsb' 11 6, o.extractLsb' 8 3,
   Ty.ofBits (o.extractLsb' 0 8)⟩

/-- Format RRI. -/
structure Rri where
  d   : BitVec 6
  a   : BitVec 6
  imm : BitVec 23
  deriving DecidableEq, Repr
def Rri.toBits (r : Rri) : BitVec 35 := r.d ++ r.a ++ r.imm
def Rri.ofBits (o : BitVec 35) : Rri := ⟨o.extractLsb' 29 6, o.extractLsb' 23 6, o.extractLsb' 0 23⟩

/-- Format RI. -/
structure Ri where
  d   : BitVec 6
  imm : BitVec 29
  deriving DecidableEq, Repr
def Ri.toBits (r : Ri) : BitVec 35 := r.d ++ r.imm
def Ri.ofBits (o : BitVec 35) : Ri := ⟨o.extractLsb' 29 6, o.extractLsb' 0 29⟩

/-- Format BT. -/
structure Bt where
  nul  : BitVec 2
  a    : BitVec 6 := 0
  cond : BitVec 3 := 0
  off  : BitVec 24 := 0
  deriving DecidableEq, Repr
def Bt.toBits (r : Bt) : BitVec 35 := r.nul ++ r.a ++ r.cond ++ r.off
def Bt.ofBits (o : BitVec 35) : Bt :=
  ⟨o.extractLsb' 33 2, o.extractLsb' 27 6, o.extractLsb' 24 3, o.extractLsb' 0 24⟩

/-- Format MEM. -/
structure Mem where
  d     : BitVec 6
  base  : BitVec 6
  scope : BitVec 2 := 0
  ty    : BitVec 5
  off   : BitVec 16
  deriving DecidableEq, Repr
def Mem.toBits (r : Mem) : BitVec 35 := r.d ++ r.base ++ r.scope ++ r.ty ++ r.off
def Mem.ofBits (o : BitVec 35) : Mem :=
  ⟨o.extractLsb' 29 6, o.extractLsb' 23 6, o.extractLsb' 21 2, o.extractLsb' 16 5, o.extractLsb' 0 16⟩

/-- Format TV; bits 6:0 must be zero. -/
structure Tv where
  v  : BitVec 6
  sp : BitVec 10 := 0
  t  : Ty := {}
  bound : BitVec 4 := 0
  z  : BitVec 7 := 0
  deriving DecidableEq, Repr
def Tv.toBits (r : Tv) : BitVec 35 := r.v ++ r.sp ++ r.t.toBits ++ r.bound ++ r.z
def Tv.ofBits (o : BitVec 35) : Tv :=
  ⟨o.extractLsb' 29 6, o.extractLsb' 19 10, Ty.ofBits (o.extractLsb' 11 8), o.extractLsb' 7 4, o.extractLsb' 0 7⟩

/-- Format MX with the extension of R88. -/
structure Mx where
  d  : BitVec 10 := 0
  a  : BitVec 10 := 0
  b  : BitVec 10 := 0
  vc : BitVec 2 := 0
  f  : BitVec 3 := 0
  deriving DecidableEq, Repr
def Mx.toBits (r : Mx) : BitVec 35 := r.d ++ r.a ++ r.b ++ r.vc ++ r.f
def Mx.ofBits (o : BitVec 35) : Mx :=
  ⟨o.extractLsb' 25 10, o.extractLsb' 15 10, o.extractLsb' 5 10, o.extractLsb' 3 2, o.extractLsb' 0 3⟩
structure MxExt where
  stamp : BitVec 36
  specC : BitVec 10 := 0
  bound : BitVec 4 := 0
  t     : Ty := {}
  z     : BitVec 2 := 0
  deriving DecidableEq, Repr
def MxExt.toBits (r : MxExt) : Syl := r.stamp ++ r.specC ++ r.bound ++ r.t.toBits ++ r.z
def MxExt.ofBits (o : Syl) : MxExt :=
  ⟨o.extractLsb' 24 36, o.extractLsb' 14 10, o.extractLsb' 10 4, Ty.ofBits (o.extractLsb' 2 8), o.extractLsb' 0 2⟩

/-- Format XE. -/
structure Xe where
  near : BitVec 10 := 0
  far  : BitVec 6 := 0
  ch   : BitVec 8 := 0
  cnt  : BitVec 6 := 0
  gen  : BitVec 2 := 0
  f    : BitVec 3 := 0
  deriving DecidableEq, Repr
def Xe.toBits (r : Xe) : BitVec 35 := r.near ++ r.far ++ r.ch ++ r.cnt ++ r.gen ++ r.f
def Xe.ofBits (o : BitVec 35) : Xe :=
  ⟨o.extractLsb' 25 10, o.extractLsb' 19 6, o.extractLsb' 11 8, o.extractLsb' 5 6, o.extractLsb' 3 2, o.extractLsb' 0 3⟩

/-! ## Field shapes shared by many opcodes (R116: a field not listed must be zero) -/

/-- The low four bits of a predicate field; the high bits must be zero (R90). -/
def pfield (b : BitVec 6) : Option PReg := if b.extractLsb' 4 2 = 0 then some (b.extractLsb' 0 4) else none
def ofPreg (p : PReg) : BitVec 6 := (0 : BitVec 2) ++ p
/-- A v or g register in the low bits of a specifier field; bits 9:6 must be zero (R188). -/
def regField (b : BitVec 10) : Option Reg := if b.extractLsb' 6 4 = 0 then some (b.extractLsb' 0 6) else none
def ofReg (r : Reg) : BitVec 10 := (0 : BitVec 4) ++ r
/-- A near field that must name a register (R206). -/
def nearReg (b : BitVec 10) : Option Reg := if b.extractLsb' 6 4 = 8 then some (b.extractLsb' 0 6) else none
def ofNearReg (r : Reg) : BitVec 10 := (8 : BitVec 4) ++ r

/-- A type field without RND and SAT. -/
def Ty.fmt (t : Ty) : Option Fmt := if t.rnd = 0 ∧ t.sat = false then Fmt.ofCode t.ty else none
def Fmt.ty (f : Fmt) : Ty := { ty := f.code }

/-- RRR with d, a, b. -/
def rrr3 (o : BitVec 35) (k : Reg → Reg → Reg → Instr) : Option Instr :=
  let r := Rrr.ofBits o
  if r.e = 0 ∧ r.f = 0 ∧ r.t = {} then some (k r.d r.a r.b) else none
/-- RRR with d, a. -/
def rrr2 (o : BitVec 35) (k : Reg → Reg → Instr) : Option Instr :=
  let r := Rrr.ofBits o
  if r.b = 0 ∧ r.e = 0 ∧ r.f = 0 ∧ r.t = {} then some (k r.d r.a) else none
/-- RRR with d, a, b, T = .f32, RND and SAT. -/
def rrrFp (o : BitVec 35) (k : Reg → Reg → Reg → Reg → Rnd → Bool → Instr) (three : Bool) : Option Instr :=
  let r := Rrr.ofBits o
  if (three ∨ r.e = 0) ∧ r.f = 0 ∧ r.t.ty = Fmt.f32.code then
    some (k r.d r.a r.b r.e (Rnd.ofCode r.t.rnd) r.t.sat) else none
/-- RRR with d, a, b and T = .f32 alone. -/
def rrrF3 (o : BitVec 35) (k : Reg → Reg → Reg → Instr) : Option Instr :=
  let r := Rrr.ofBits o
  if r.e = 0 ∧ r.f = 0 ∧ r.t = Fmt.f32.ty then some (k r.d r.a r.b) else none
/-- RRR with d, a and T = .f32 alone. -/
def rrrF2 (o : BitVec 35) (k : Reg → Reg → Instr) : Option Instr :=
  let r := Rrr.ofBits o
  if r.b = 0 ∧ r.e = 0 ∧ r.f = 0 ∧ r.t = Fmt.f32.ty then some (k r.d r.a) else none
/-- RRR with d, a, b and T = .i32 or .n32, with SAT where `sat` allows it. -/
def rrrInt (o : BitVec 35) (sat : Bool) (k : Reg → Reg → Reg → Bool → Bool → Instr) : Option Instr :=
  let r := Rrr.ofBits o
  if r.e = 0 ∧ r.f = 0 ∧ r.t.rnd = 0 ∧ (sat ∨ r.t.sat = false)
      ∧ (r.t.ty = Fmt.i32.code ∨ r.t.ty = Fmt.n32.code) then
    some (k r.d r.a r.b (r.t.ty == Fmt.n32.code) r.t.sat) else none
def intTy (n sat : Bool) : Ty := { sat := sat, ty := if n then Fmt.n32.code else Fmt.i32.code }
/-- RRR with d, a, b (or, with b zero, d and a) and a T without RND and SAT. -/
def rrrT (o : BitVec 35) (k : Reg → Reg → Reg → Fmt → Instr) (two : Bool) : Option Instr := do
  let r := Rrr.ofBits o
  let ty ← r.t.fmt
  if r.e = 0 ∧ r.f = 0 ∧ (two = false ∨ r.b = 0) then some (k r.d r.a r.b ty) else none
/-- RRR over predicate registers: d:p, a:p, b:p. -/
def rrrP (o : BitVec 35) (k : PReg → PReg → PReg → Instr) : Option Instr := do
  let r := Rrr.ofBits o
  let d ← pfield r.d
  let a ← pfield r.a
  let b ← pfield r.b
  if r.e = 0 ∧ r.f = 0 ∧ r.t = {} then some (k d a b) else none

/-- RRI with a six-bit shift count. -/
def rriShift (o : BitVec 35) (k : Reg → Reg → BitVec 6 → Instr) : Option Instr :=
  let r := Rri.ofBits o
  if r.imm.extractLsb' 6 17 = 0 then some (k r.d r.a (r.imm.extractLsb' 0 6)) else none
def rri (o : BitVec 35) (k : Reg → Reg → BitVec 23 → Instr) : Option Instr :=
  let r := Rri.ofBits o
  some (k r.d r.a r.imm)
/-- RI with a control register number. -/
def riCtl (o : BitVec 35) (k : Reg → BitVec 12 → Instr) : Option Instr :=
  let r := Ri.ofBits o
  if r.imm.extractLsb' 12 17 = 0 then some (k r.d (r.imm.extractLsb' 0 12)) else none
/-- MEM with scope 0b00. -/
def mem (o : BitVec 35) (k : Reg → Reg → Fmt → BitVec 16 → Instr) : Option Instr := do
  let r := Mem.ofBits o
  let ty ← Fmt.ofCode r.ty
  if r.scope = 0 then some (k r.d r.base ty r.off) else none
def memScoped (o : BitVec 35) (k : Reg → Reg → Scope → Fmt → BitVec 16 → Instr) : Option Instr := do
  let r := Mem.ofBits o
  let ty ← Fmt.ofCode r.ty
  some (k r.d r.base (Scope.ofCode r.scope) ty r.off)
/-- N. -/
def none35 (o : BitVec 35) (i : Instr) : Option Instr := if o = 0 then some i else none

/-- The fields of MX a command may use; the rest must be zero. -/
def mx (o : BitVec 35) (x : Syl) (vc : Bool) (k : BitVec 36 → BitVec 10 → BitVec 10 → BitVec 10 → BitVec 2 → BitVec 3 → Option Instr) :
    Option Instr :=
  let r := Mx.ofBits o
  let e := MxExt.ofBits x
  if (vc ∨ r.vc = 0) ∧ e.specC = 0 ∧ e.bound = 0 ∧ e.t = {} ∧ e.z = 0 then k e.stamp r.d r.a r.b r.vc r.f else none
/-- The fields of a drain (R122, R194). -/
def mxDrain (o : BitVec 35) (x : Syl) (k : BitVec 36 → Drain → Instr) : Option Instr := do
  let r := Mx.ofBits o
  let e := MxExt.ofBits x
  let ty ← Fmt.ofCode e.t.ty
  let scl ← regField e.specC
  if e.z = 0 ∧ (r.f.getLsbD 0 ∨ r.b = 0) ∧ (r.f.getLsbD 1 ∨ e.specC = 0) then
    some (k e.stamp ⟨Spec.ofBits r.d, Spec.ofBits r.a, if r.f.getLsbD 0 then some (Spec.ofBits r.b) else none, r.vc,
      if r.f.getLsbD 1 then some scl else none, r.f.getLsbD 2, e.bound, Rnd.ofCode e.t.rnd, e.t.sat, ty⟩)
  else none

/-- XE of a local exchange: near, far, cnt and gen. -/
def xeEx (o : BitVec 35) (k : Near → Reg → Reg → BitVec 2 → Instr) : Option Instr := do
  let r := Xe.ofBits o
  let near ← Near.ofBits r.near
  if r.ch = 0 ∧ r.f = 0 then some (k near r.far r.cnt r.gen) else none
def xeExReg (o : BitVec 35) (k : Reg → Reg → Reg → BitVec 2 → Instr) : Option Instr := do
  let r := Xe.ofBits o
  let near ← nearReg r.near
  if r.ch = 0 ∧ r.f = 0 then some (k near r.far r.cnt r.gen) else none
/-- XE with far alone. -/
def xeFar (o : BitVec 35) (k : Reg → Instr) : Option Instr :=
  let r := Xe.ofBits o
  if r.near = 0 ∧ r.ch = 0 ∧ r.cnt = 0 ∧ r.gen = 0 ∧ r.f = 0 then some (k r.far) else none
/-- XE of a neighbour link. -/
def xeSide (o : BitVec 35) (k : Spec → Side → Instr) : Option Instr := do
  let r := Xe.ofBits o
  let side ← Side.ofCode r.f
  if r.near.getLsbD 9 = false ∧ r.far = 0 ∧ r.ch = 0 ∧ r.cnt = 0 ∧ r.gen = 0 then
    some (k (Spec.ofBits r.near) side) else none
/-- XE of a fabric form with near, far, cnt and ch. -/
def xeFab (o : BitVec 35) (k : Reg → Reg → Reg → BitVec 8 → Instr) : Option Instr := do
  let r := Xe.ofBits o
  let near ← nearReg r.near
  if r.gen = 0 ∧ r.f = 0 then some (k near r.far r.cnt r.ch) else none
/-- XE with far and ch. -/
def xeFarCh (o : BitVec 35) (k : Reg → BitVec 8 → Instr) : Option Instr :=
  let r := Xe.ofBits o
  if r.near = 0 ∧ r.cnt = 0 ∧ r.gen = 0 ∧ r.f = 0 then some (k r.far r.ch) else none
/-- XE of XAMO and XAMOR. -/
def xeAmo (o : BitVec 35) (k : Reg → Reg → BitVec 8 → AtomOp → Instr) : Option Instr := do
  let r := Xe.ofBits o
  let near ← nearReg r.near
  let op ← AtomOp.ofCode r.f
  if r.cnt = 0 ∧ r.gen = 0 then some (k near r.far r.ch op) else none

/-! ## The four maps -/

/-- None: the opcode is unassigned. `some none`: a field breaks its rule. -/
abbrev Form := Option (Option Instr)

/-- Opcodes 0x000 to 0x00F (R117). -/
def decAll (op : Nat) (c : Common) (o : BitVec 35) : Form :=
  match op with
  | 0x000 => some (none35 o (.nop c))
  | 0x001 => some (some (.idle c o))
  | 0x002 => some (none35 o (.rdv c))
  | _ => none

/-- The S map (R118) with the harbourmaster's forms (R350). -/
def decS (op : Nat) (c : Common) (o : BitVec 35) (x : Syl) : Form :=
  match op with
  | 0x010 => some (rrr3 o (.add c))
  | 0x011 => some (rrr3 o (.sub c))
  | 0x012 => some (rrr3 o (.mul c))
  | 0x013 => some (rrr3 o (.mulh c))
  | 0x014 => some (rrr3 o (.mulhn c))
  | 0x015 => some (rrr3 o (.div c))
  | 0x016 => some (rrr3 o (.divn c))
  | 0x017 => some (rrr3 o (.rem c))
  | 0x018 => some (rrr3 o (.remn c))
  | 0x019 => some (rrr3 o (.min c))
  | 0x01A => some (rrr3 o (.max c))
  | 0x01B => some (rrr3 o (.minn c))
  | 0x01C => some (rrr3 o (.maxn c))
  | 0x01D => some (rrr3 o (.and c))
  | 0x01E => some (rrr3 o (.or c))
  | 0x01F => some (rrr3 o (.xor c))
  | 0x020 => some (rrr3 o (.shl c))
  | 0x021 => some (rrr3 o (.shr c))
  | 0x022 => some (rrr3 o (.sar c))
  | 0x023 => some (rrr2 o (.clz c))
  | 0x024 => some (rrr2 o (.popc c))
  | 0x025 => some (let r := Rrr.ofBits o
      if r.f = 0 ∧ r.t = {} then some (.sel c r.d r.a r.b r.e) else none)
  | 0x026 => some (let r := Rrr.ofBits o
      (Rel.ofCode r.f).bind fun rel => if r.e = 0 ∧ r.t = {} then some (.cmp c r.d r.a r.b rel) else none)
  | 0x030 => some (rri o (.addi c))
  | 0x031 => some (rri o (.andi c))
  | 0x032 => some (rri o (.ori c))
  | 0x033 => some (rri o (.xori c))
  | 0x034 => some (rriShift o (.shli c))
  | 0x035 => some (rriShift o (.shri c))
  | 0x036 => some (rriShift o (.sari c))
  | 0x037 => some (let r := Rri.ofBits o
      (Rel.ofCode (r.imm.extractLsb' 20 3)).map fun rel => .cmpi c r.d r.a rel (r.imm.extractLsb' 0 20))
  | 0x038 => some (let r := Ri.ofBits o; some (.liOne c r.d r.imm))
  | 0x039 => some (let r := Ri.ofBits o
      if r.imm.extractLsb' 4 25 = 0 then some (.liTwo c r.d (r.imm.extractLsb' 0 4 ++ x)) else none)
  | 0x040 => some (mem o (.ld c))
  | 0x041 => some (mem o (.st c))
  | 0x042 => some (memScoped o (.lda c))
  | 0x043 => some (memScoped o (.stl c))
  | 0x044 => some (let r := Rrr.ofBits o
      (AtomOp.ofCode r.f).bind fun op => r.t.fmt.bind fun ty =>
        if r.e = 0 then some (.amo c r.d r.a r.b op ty) else none)
  | 0x045 => some (let r := Rrr.ofBits o
      r.t.fmt.bind fun ty => if r.f = 0 then some (.cas c r.d r.a r.b r.e ty) else none)
  | 0x050 => some (let r := Bt.ofBits o
      (Nul.ofCode r.nul).bind fun nul => if r.a = 0 ∧ r.cond = 0 then some (.b c nul r.off) else none)
  | 0x051 => some (let r := Bt.ofBits o
      (Nul.ofCode r.nul).bind fun nul => (Cond.ofCode r.cond).map fun cond => .bc c nul cond r.a r.off)
  | 0x052 => some (let r := Bt.ofBits o
      (Nul.ofCode r.nul).bind fun nul => if r.cond = 0 ∧ r.off = 0 then some (.br c nul r.a) else none)
  | 0x053 => some (let r := Bt.ofBits o
      (Nul.ofCode r.nul).bind fun nul => if r.cond = 0 then some (.call c nul r.a r.off) else none)
  | 0x054 => some (let r := Bt.ofBits o
      (Nul.ofCode r.nul).bind fun nul => if r.cond = 0 then some (.loop c nul r.a r.off) else none)
  | 0x058 => some (some (.fork c o))
  | 0x059 => some (none35 o (.slack c))
  | 0x05A => some (none35 o (.commit c))
  | 0x05B => some (if o.extractLsb' 8 27 = 0 then some (.safe c (o.extractLsb' 0 8)) else none)
  | 0x05C => some (let r := Rrr.ofBits o
      if r.d = 0 ∧ r.e = 0 ∧ r.f = 0 ∧ r.t = {} then some (.waitp c r.a r.b) else none)
  | 0x05D => some (none35 o (.qmark c))
  | 0x05E => some (let r := Ri.ofBits o
      if r.imm.extractLsb' 2 27 = 0 then some (.fence c r.d (Scope.ofCode (r.imm.extractLsb' 0 2))) else none)
  | 0x05F => some (some (.trap c o))
  | 0x060 => some (none35 o (.tret c))
  | 0x061 => some (riCtl o (.mfc c))
  | 0x062 => some (riCtl o (.mtc c))
  | 0x1F0 => some (let r := Rrr.ofBits o
      if r = { a := r.a } then some (.hsel c r.a) else none)
  | 0x1F1 => some (let r := Rrr.ofBits o
      if r = { d := r.d, b := r.b } then some (.hrd c r.d r.b) else none)
  | 0x1F2 => some (let r := Rrr.ofBits o
      if r = { b := r.b, e := r.e } then some (.hwr c r.b r.e) else none)
  | 0x1F3 => some (rrr2 o (.hcmd c))
  | 0x1F4 => some (rrr2 o (.hwait c))
  | n => decAll n c o

/-- The V map (R120). -/
def decV (op : Nat) (c : Common) (o : BitVec 35) : Form :=
  match op with
  | 0x010 => some (rrrFp o (fun d a b _ => .vadd c d a b) false)
  | 0x011 => some (rrrFp o (fun d a b _ => .vsub c d a b) false)
  | 0x012 => some (rrrFp o (fun d a b _ => .vmul c d a b) false)
  | 0x013 => some (rrrF3 o (.vdiv c))
  | 0x014 => some (rrrF3 o (.vmin c))
  | 0x015 => some (rrrF3 o (.vmax c))
  | 0x016 => some (rrrF3 o (.vcps c))
  | 0x018 => some (rrrF2 o (.vsqrt c))
  | 0x019 => some (rrrF2 o (.vrcp c))
  | 0x01A => some (rrrF2 o (.vrsq c))
  | 0x01B => some (rrrF2 o (.vexp2 c))
  | 0x01C => some (rrrF2 o (.vlog2 c))
  | 0x01D => some (rrrF2 o (.vabs c))
  | 0x01E => some (rrrF2 o (.vneg c))
  | 0x024 => some (rrrFp o (.vfma c) true)
  | 0x025 => some (rrrFp o (.vfms c) true)
  | 0x026 => some (rrrFp o (.vfnma c) true)
  | 0x030 => some (rrrInt o true (.viadd c))
  | 0x031 => some (rrrInt o true (.visub c))
  | 0x032 => some (rrrInt o true (.vimul c))
  | 0x033 => some (rrrInt o false (fun d a b n _ => .vimulh c d a b n))
  | 0x034 => some (rrrInt o false (fun d a b n _ => .vimin c d a b n))
  | 0x035 => some (rrrInt o false (fun d a b n _ => .vimax c d a b n))
  | 0x036 => some (rrrInt o false (fun d a b n _ => .vand c d a b n))
  | 0x037 => some (rrrInt o false (fun d a b n _ => .vor c d a b n))
  | 0x038 => some (rrrInt o false (fun d a b n _ => .vxor c d a b n))
  | 0x039 => some (rrrInt o false (fun d a b n _ => .vshl c d a b n))
  | 0x03A => some (rrrInt o false (fun d a b n _ => .vshr c d a b n))
  | 0x03B => some (rrrInt o false (fun d a b n _ => .vsar c d a b n))
  | 0x03C => some (rrr2 o (.vpopc c))
  | 0x040 => some (let r := Rrr.ofBits o
      (pfield r.d).bind fun d => (FRel.ofCode r.f).bind fun rel =>
        if r.e = 0 ∧ r.t = Fmt.f32.ty then some (.vcmp c d r.a r.b rel) else none)
  | 0x041 => some (let r := Rrr.ofBits o
      (pfield r.d).bind fun d => (Rel.ofCode r.f).bind fun rel =>
        if r.e = 0 ∧ r.t = {} then some (.vicmp c d r.a r.b rel) else none)
  | 0x042 => some (let r := Rrr.ofBits o
      (pfield r.d).bind fun d =>
        if r.b.extractLsb' 4 2 = 0 ∧ r.f = 0 ∧ r.t = {} then some (.vclass c d r.a (r.b.extractLsb' 0 4 ++ r.e))
        else none)
  | 0x048 => some (rrrP o (.pand c))
  | 0x049 => some (rrrP o (.por c))
  | 0x04A => some (rrrP o (.pxor c))
  | 0x04B => some (let r := Rrr.ofBits o
      (pfield r.d).bind fun d => (pfield r.a).bind fun a =>
        if r.b = 0 ∧ r.e = 0 ∧ r.f = 0 ∧ r.t = {} then some (.pnot c d a) else none)
  | 0x04C => some (let r := Rrr.ofBits o
      (pfield r.a).bind fun a => if r.b = 0 ∧ r.e = 0 ∧ r.f = 0 ∧ r.t = {} then some (.pcnt c r.d a) else none)
  | 0x04D => some (let r := Rrr.ofBits o
      (pfield r.a).bind fun a => if r.b = 0 ∧ r.e = 0 ∧ r.f = 0 ∧ r.t = {} then some (.pfirst c r.d a) else none)
  | 0x050 => some (let r := Rrr.ofBits o
      (pfield r.e).bind fun e => if r.f = 0 ∧ r.t = {} then some (.vsel c r.d r.a r.b e) else none)
  | 0x051 => some (rrr2 o (.vmov c))
  | 0x052 => some (rrrT o (fun d a _ ty => .vbcst c d a ty) true)
  | 0x053 => some (rrr3 o (.vextr c))
  | 0x054 => some (rrr3 o (.vins c))
  | 0x055 => some (rrr3 o (.vperm c))
  | 0x056 => some (rrr3 o (.vrot c))
  | 0x058 => some (let r := Tv.ofBits o
      r.t.fmt.bind fun ty => if r.bound = 0 ∧ r.z = 0 then some (.vmovDirRead c r.v (Spec.ofBits r.sp) ty) else none)
  | 0x059 => some (let r := Tv.ofBits o
      (Fmt.ofCode r.t.ty).bind fun ty =>
        if r.z = 0 then some (.vmovDirWrite c r.v (Spec.ofBits r.sp) (Rnd.ofCode r.t.rnd) r.t.sat ty r.bound)
        else none)
  | 0x060 => some (rrrT o (fun d a _ ty => .vrsum c d a ty) true)
  | 0x061 => some (rrrT o (fun d a _ ty => .vrmax c d a ty) true)
  | 0x062 => some (rrrT o (fun d a _ ty => .vrmin c d a ty) true)
  | 0x063 => some (rrrF2 o (.vramax c))
  | 0x068 => some (let r := Rrr.ofBits o
      (Fmt.ofCode r.t.ty).bind fun ty => (Fmt.ofCode (r.e.extractLsb' 0 5)).bind fun src =>
        if r.b = 0 ∧ r.e.getLsbD 5 = false then
          if r.f = 0 then some (.vcvt c r.d r.a src (Rnd.ofCode r.t.rnd) r.t.sat ty)
          else if (r.f = 1 ∨ r.f = 2) ∧ src.mxTarget = some ty ∧ r.t.rnd = 0 ∧ r.t.sat = false then
            some (.vcvtMxImport c r.d r.a src (r.f == 2))
          else none
        else none)
  | 0x070 => some (mem o (.vld c))
  | 0x071 => some (mem o (.vst c))
  | 0x072 => some (rrrT o (.vldg c) false)
  | 0x073 => some (rrrT o (.vsts c) false)
  | 0x078 => some (let r := Tv.ofBits o
      if r = { v := r.v } then some (.vpark c r.v) else none)
  | 0x079 => some (let r := Tv.ofBits o
      if r = { v := r.v, sp := r.sp } then some (.vunpark c r.v (Spec.ofBits r.sp)) else none)
  | 0x07C => some (rrr3 o (.vtri c))
  | 0x07D => some (rrr3 o (.vtrin c))
  | 0x07E => some (let r := Tv.ofBits o
      if r = { v := r.v, bound := r.bound } then some (.vbnd c r.v r.bound) else none)
  | n => decAll n c o

/-- The M map (R122). -/
def decM (op : Nat) (c : Common) (o : BitVec 35) (x : Syl) : Form :=
  match op with
  | 0x010 => some (mx o x true fun s d a b vc f =>
      if f = 0 then some (.mma c s (Spec.ofBits d) (Spec.ofBits a) (Spec.ofBits b) vc) else none)
  | 0x011 => some (mx o x true fun s d a b vc f =>
      if f = 0 then some (.mmat c s (Spec.ofBits d) (Spec.ofBits a) (Spec.ofBits b) vc) else none)
  | 0x012 => some (mx o x false fun s d a b _ f =>
      if a = 0 ∧ b = 0 ∧ f = 0 then some (.mzero c s (Spec.ofBits d)) else none)
  | 0x013 => some (mx o x false fun s d a b _ f =>
      if b = 0 ∧ f = 0 then some (.macc c s (Spec.ofBits d) (Spec.ofBits a)) else none)
  | 0x014 => some (mx o x false fun s d a b _ f =>
      (regField a).bind fun v =>
        if b = 0 ∧ (f = 0 ∨ f = 1) then some (.mscl c s (Spec.ofBits d) v (f == 1)) else none)
  | 0x015 => some (mx o x false fun s d a b _ f =>
      (regField a).bind fun g => if b = 0 ∧ f = 0 then some (.mmsk c s (Spec.ofBits d) g) else none)
  | 0x016 => some (mx o x false fun s d a b _ f =>
      (regField d).bind fun v =>
        if b = 0 ∧ (f = 0 ∨ f = 1) then some (.mred c s v (Spec.ofBits a) (f == 1)) else none)
  | 0x017 => some (mxDrain o x (.mdrn c))
  | 0x018 => some (mxDrain o x (.mdrnq c))
  | 0x019 => some (mx o x false fun s d a b _ f =>
      if b = 0 ∧ f = 0 then some (.mtrn c s (Spec.ofBits d) (Spec.ofBits a)) else none)
  | n => decAll n c o

/-- The X map (R123, R206). -/
def decX (op : Nat) (c : Common) (o : BitVec 35) : Form :=
  match op with
  | 0x010 => some (xeEx o (.xch c))
  | 0x011 => some (xeEx o (.xchs c))
  | 0x012 => some (xeExReg o (.xchg c))
  | 0x013 => some (xeExReg o (.xchp c))
  | 0x014 => some (xeExReg o (.xcht c))
  | 0x015 => some (xeExReg o (.xtil c))
  | 0x016 => some (xeExReg o (.xtilt c))
  | 0x017 => some (let r := Xe.ofBits o
      (nearReg r.near).bind fun near =>
        if r.ch = 0 ∧ r.gen = 0 ∧ r.f = 0 then some (.xfar c near r.far r.cnt) else none)
  | 0x018 => some (let r := Xe.ofBits o
      (Near.ofBits r.near).bind fun near =>
        if r.far = 0 ∧ r.ch = 0 ∧ r.cnt = 0 ∧ r.gen = 0 ∧ r.f = 0 then some (.xdrop c near) else none)
  | 0x019 => some (let r := Xe.ofBits o
      (Near.ofBits r.near).bind fun near =>
        if r.ch = 0 ∧ r.cnt = 0 ∧ r.gen = 0 ∧ r.f = 0 then some (.xtstv c near r.far) else none)
  | 0x01A => some (let r := Xe.ofBits o
      (nearReg r.near).bind fun near =>
        if r.ch = 0 ∧ r.cnt = 0 ∧ r.gen = 0 ∧ r.f = 0 then some (.xpen c near r.far) else none)
  | 0x01B => some (xeFar o (.xwake c))
  | 0x01C => some (xeFar o (.xdoze c))
  | 0x01D => some (xeSide o (.xnsend c))
  | 0x01E => some (xeSide o (.xnrecv c))
  | 0x01F => some (let r := Xe.ofBits o
      if r.near = 0 ∧ r.far = 0 ∧ r.ch = 0 ∧ r.cnt = 0 ∧ r.f = 0 then some (.xagu c r.gen) else none)
  | 0x040 => some (xeFab o (.xrch c))
  | 0x041 => some (xeFab o (.xrchc c))
  | 0x042 => some (xeFarCh o (.xcrck c))
  | 0x043 => some (xeFarCh o (.xwin c))
  | 0x044 => some (let r := Xe.ofBits o
      (nearReg r.near).bind fun near => (RedOp.ofCode r.f).bind fun op =>
        if r.gen = 0 then some (.xred c near r.far r.cnt r.ch op) else none)
  | 0x045 => some (xeFab o (.xtri c))
  | 0x046 => some (xeAmo o (.xamo c))
  | 0x047 => some (xeAmo o (.xamor c))
  | 0x048 => some (xeFab o (.xcas c))
  | 0x049 => some (xeFarCh o (.xkick c))
  | 0x04A => some (let r := Xe.ofBits o
      if r.near = 0 ∧ r.far = 0 ∧ r.cnt = 0 ∧ r.gen = 0 ∧ r.f = 0 then some (.xabort c r.ch) else none)
  | n => decAll n c o

/-- The two-syllable opcodes (R87, R89, R122). -/
def twoSyl (cl : Cl) (op : BitVec 9) : Bool :=
  match cl with
  | .s => op == 0x039
  | .m => 0x010 ≤ op.toNat && op.toNat ≤ 0x019
  | .v | .x => false

/-- A whole specifier of VMOV or VUNPARK, and an accumulator as the target of a direction write, raise ILLEGAL_OP
(R57, R121, R171). -/
def illegalDir (cl : Cl) (op : BitVec 9) (o : BitVec 35) : Bool :=
  let sp := Spec.ofBits (Tv.ofBits o).sp
  cl == .v && ((op == 0x058 || op == 0x059 || op == 0x079) && sp.dir == .whole || op == 0x059 && sp.acc)

/-- One instruction from its syllable and its extension, on the harbourmaster or on a core (R95, R96, R119). CHAIN
comes first, then ILLEGAL_OP, RESERVED_FIELD, ILLEGAL_PRIV (R76). -/
def decodeSyl (harbour : Bool) (cl : Cl) (w : Syl) (ext : Option Syl) : Except Bad Instr :=
  let op := w.op
  if twoSyl cl op && ext.isNone then .error .chain
  else if !harbour && cl == .s && 0x1F0 ≤ op.toNat then .error .illegalPriv
  else
    let x := ext.getD 0
    let form := match cl with
      | .s => decS op.toNat w.common w.operand x
      | .v => decV op.toNat w.common w.operand
      | .m => decM op.toNat w.common w.operand x
      | .x => decX op.toNat w.common w.operand
    match form with
    | none => .error .illegalOp
    | some r =>
      if illegalDir cl op w.operand then .error .illegalOp
      else match r with
        | none => .error .reserved
        | some i => if i.wf cl then .ok i else .error .reserved

/-! ## Lines -/

def Line.link (l : Line) : Word := l.extractLsb' 0 32
def Line.cluster (l : Line) : Cl := Cl.ofCode (l.extractLsb' 30 2)
def Line.occ (l : Line) : Nat := (l.extractLsb' 27 3).toNat
def Line.isEnd (l : Line) : Bool := l.getLsbD 26
def Line.offset (l : Line) : BitVec 24 := l.extractLsb' 0 24
/-- Syllable k (R77). -/
def Line.syl (l : Line) (k : Nat) : Syl := l.extractLsb' (60 * k + 32) 60
/-- Link word bits 25:24 set, END with an offset, or a nonzero syllable above OCC (R95). -/
def Line.bad (l : Line) : Bool :=
  l.extractLsb' 24 2 != 0 || l.isEnd && l.offset != 0
    || (List.range 8).any (fun k => l.occ < k && l.syl k != 0)
/-- Syllable k is the extension of the one before it (R87). -/
def Line.isExt (l : Line) : Nat → Bool
  | 0 => false
  | k + 1 => k + 1 ≤ l.occ && !l.isExt k && twoSyl l.cluster (l.syl k).op

/-- The classes of V instructions a group limits, and the limits (R156). -/
def groupClass (op : Nat) : Nat :=
  if 0x070 ≤ op && op ≤ 0x073 then 1
  else if op == 0x058 || op == 0x059 || op == 0x078 || op == 0x079 || op == 0x07E then 2
  else if 0x060 ≤ op && op ≤ 0x063 then 3
  else if op == 0x013 || 0x018 ≤ op && op ≤ 0x01C || op == 0x07C || op == 0x07D then 4
  else 0
def groupLimit (cls : Nat) : Nat := if cls = 0 then 4 else if cls = 4 then 2 else 1

/-- How many members of its group stand before syllable k; only V lines group (R86). -/
def groupPos (l : Line) : Nat → Nat
  | 0 => 0
  | k + 1 => if l.cluster == .v && (l.syl k).common.group then groupPos l k + 1 else 0

/-- The group rules of R86, R95 and R156 that syllable k breaks. -/
def groupBad (l : Line) (k : Nat) : Bool :=
  let pos := groupPos l k
  let c := (l.syl k).common
  let cls := groupClass (l.syl k).op.toNat
  4 ≤ pos || c.group && l.occ ≤ k
    || pos != 0 && (c.idle != 0 || c.popL || c.popR || c.pushL || c.pushR || c.sync)
    || groupLimit cls ≤ ((List.range pos).filter
        (fun i => groupClass (l.syl (k - pos + i)).op.toNat == cls)).length

/-- The instruction at syllable k of a line, as cluster `cl` issues it (R95, R96). -/
def decodeAt (harbour : Bool) (cl : Cl) (l : Line) (k : Nat) : Except Bad Instr :=
  if l.cluster != cl || l.occ < k || l.isExt k then .error .chain
  else
    let ext := if k < l.occ then some (l.syl (k + 1)) else none
    let r : Except Bad Instr := match decodeSyl harbour cl (l.syl k) ext with
      | .ok i => if cl == Cl.v && groupBad l k then .error .reserved else .ok i
      | e => e
    match r with
    | .error .chain => .error .chain
    | .error .illegalOp => .error .illegalOp
    | .error .reserved => .error .reserved
    | e => if l.bad then .error .link else e

/-- The instruction of a table word: `w` is a whole code line (R77), the link word in its low 32 bits and syllable 0
above it, and the instruction is the one its owning cluster issues from syllable 0 (log 1, DESIGN CHOICE). -/
def decodeTableWord (_nbits w : Nat) : Option Instr :=
  let l : Line := BitVec.ofNat 512 w
  match decodeAt true l.cluster l 0 with
  | .ok i => some i
  | .error _ => none

/-! ## The encoder -/

/-- A syllable with no extension. -/
def one (op : BitVec 9) (c : Common) (o : BitVec 35) : Option (Syl × Option Syl) := some (Syl.mk op c o, none)
def oneR (op : BitVec 9) (c : Common) (r : Rrr) : Option (Syl × Option Syl) := one op c r.toBits
def oneX (op : BitVec 9) (c : Common) (r : Xe) : Option (Syl × Option Syl) := one op c r.toBits
/-- An M command with its extension. -/
def twoM (op : BitVec 9) (c : Common) (r : Mx) (e : MxExt) : Option (Syl × Option Syl) :=
  some (Syl.mk op c r.toBits, some e.toBits)
def encDrain (op : BitVec 9) (c : Common) (s : BitVec 36) (dr : Drain) : Option (Syl × Option Syl) :=
  twoM op c
    { d := dr.d.toBits, a := dr.a.toBits, b := (dr.res.map Spec.toBits).getD 0, vc := dr.vc,
      f := BitVec.ofBool dr.drop ++ BitVec.ofBool dr.scl.isSome ++ BitVec.ofBool dr.res.isSome }
    { stamp := s, specC := (dr.scl.map ofReg).getD 0, bound := dr.bound,
      t := { rnd := dr.rnd.code, sat := dr.sat, ty := dr.ty.code } }
def fpTy (rnd : Rnd) (sat : Bool) : Ty := { rnd := rnd.code, sat := sat, ty := Fmt.f32.code }

/-- The words of an instruction, from the encoding tables: its syllable, and its extension if it has one. A step without
an encoding has none. -/
def encode : Instr → Option (Syl × Option Syl)
  | .nop c => one 0x000 c 0
  | .idle c n => one 0x001 c n
  | .rdv c => one 0x002 c 0
  | .add c d a a' => oneR 0x010 c { d := d, a := a, b := a' }
  | .sub c d a a' => oneR 0x011 c { d := d, a := a, b := a' }
  | .mul c d a a' => oneR 0x012 c { d := d, a := a, b := a' }
  | .mulh c d a a' => oneR 0x013 c { d := d, a := a, b := a' }
  | .mulhn c d a a' => oneR 0x014 c { d := d, a := a, b := a' }
  | .div c d a a' => oneR 0x015 c { d := d, a := a, b := a' }
  | .divn c d a a' => oneR 0x016 c { d := d, a := a, b := a' }
  | .rem c d a a' => oneR 0x017 c { d := d, a := a, b := a' }
  | .remn c d a a' => oneR 0x018 c { d := d, a := a, b := a' }
  | .min c d a a' => oneR 0x019 c { d := d, a := a, b := a' }
  | .max c d a a' => oneR 0x01A c { d := d, a := a, b := a' }
  | .minn c d a a' => oneR 0x01B c { d := d, a := a, b := a' }
  | .maxn c d a a' => oneR 0x01C c { d := d, a := a, b := a' }
  | .and c d a a' => oneR 0x01D c { d := d, a := a, b := a' }
  | .or c d a a' => oneR 0x01E c { d := d, a := a, b := a' }
  | .xor c d a a' => oneR 0x01F c { d := d, a := a, b := a' }
  | .shl c d a a' => oneR 0x020 c { d := d, a := a, b := a' }
  | .shr c d a a' => oneR 0x021 c { d := d, a := a, b := a' }
  | .sar c d a a' => oneR 0x022 c { d := d, a := a, b := a' }
  | .clz c d a => oneR 0x023 c { d := d, a := a }
  | .popc c d a => oneR 0x024 c { d := d, a := a }
  | .sel c d a a' e => oneR 0x025 c { d := d, a := a, b := a', e := e }
  | .cmp c d a a' rel => oneR 0x026 c { d := d, a := a, b := a', f := rel.code }
  | .addi c d a imm => one 0x030 c (Rri.toBits ⟨d, a, imm⟩)
  | .andi c d a imm => one 0x031 c (Rri.toBits ⟨d, a, imm⟩)
  | .ori c d a imm => one 0x032 c (Rri.toBits ⟨d, a, imm⟩)
  | .xori c d a imm => one 0x033 c (Rri.toBits ⟨d, a, imm⟩)
  | .shli c d a n => one 0x034 c (Rri.toBits ⟨d, a, (0 : BitVec 17) ++ n⟩)
  | .shri c d a n => one 0x035 c (Rri.toBits ⟨d, a, (0 : BitVec 17) ++ n⟩)
  | .sari c d a n => one 0x036 c (Rri.toBits ⟨d, a, (0 : BitVec 17) ++ n⟩)
  | .cmpi c d a rel imm => one 0x037 c (Rri.toBits ⟨d, a, rel.code ++ imm⟩)
  | .liOne c d imm => one 0x038 c (Ri.toBits ⟨d, imm⟩)
  | .liTwo c d imm =>
    some (Syl.mk 0x039 c (Ri.toBits ⟨d, (0 : BitVec 25) ++ imm.extractLsb' 60 4⟩), some (imm.extractLsb' 0 60))
  | .ld c d base ty off => one 0x040 c (Mem.toBits ⟨d, base, 0, ty.code, off⟩)
  | .st c d base ty off => one 0x041 c (Mem.toBits ⟨d, base, 0, ty.code, off⟩)
  | .lda c d base sc ty off => one 0x042 c (Mem.toBits ⟨d, base, sc.code, ty.code, off⟩)
  | .stl c d base sc ty off => one 0x043 c (Mem.toBits ⟨d, base, sc.code, ty.code, off⟩)
  | .amo c d a a' op ty => oneR 0x044 c { d := d, a := a, b := a', f := op.code, t := ty.ty }
  | .cas c d a a' e ty => oneR 0x045 c { d := d, a := a, b := a', e := e, t := ty.ty }
  | .b c nul off => one 0x050 c (Bt.toBits ⟨nul.code, 0, 0, off⟩)
  | .bc c nul cond a off => one 0x051 c (Bt.toBits ⟨nul.code, a, cond.code, off⟩)
  | .br c nul a => one 0x052 c (Bt.toBits ⟨nul.code, a, 0, 0⟩)
  | .call c nul a off => one 0x053 c (Bt.toBits ⟨nul.code, a, 0, off⟩)
  | .loop c nul a off => one 0x054 c (Bt.toBits ⟨nul.code, a, 0, off⟩)
  | .fork c n => one 0x058 c n
  | .slack c => one 0x059 c 0
  | .commit c => one 0x05A c 0
  | .safe c map => one 0x05B c ((0 : BitVec 27) ++ map)
  | .waitp c a a' => oneR 0x05C c { a := a, b := a' }
  | .qmark c => one 0x05D c 0
  | .fence c d sc => one 0x05E c (Ri.toBits ⟨d, (0 : BitVec 27) ++ sc.code⟩)
  | .trap c imm => one 0x05F c imm
  | .tret c => one 0x060 c 0
  | .mfc c d num => one 0x061 c (Ri.toBits ⟨d, (0 : BitVec 17) ++ num⟩)
  | .mtc c d num => one 0x062 c (Ri.toBits ⟨d, (0 : BitVec 17) ++ num⟩)
  | .hsel c a => oneR 0x1F0 c { a := a }
  | .hrd c d a' => oneR 0x1F1 c { d := d, b := a' }
  | .hwr c a' e => oneR 0x1F2 c { b := a', e := e }
  | .hcmd c d a => oneR 0x1F3 c { d := d, a := a }
  | .hwait c d a => oneR 0x1F4 c { d := d, a := a }
  | .vadd c d a a' rnd sat => oneR 0x010 c { d := d, a := a, b := a', t := fpTy rnd sat }
  | .vsub c d a a' rnd sat => oneR 0x011 c { d := d, a := a, b := a', t := fpTy rnd sat }
  | .vmul c d a a' rnd sat => oneR 0x012 c { d := d, a := a, b := a', t := fpTy rnd sat }
  | .vdiv c d a a' => oneR 0x013 c { d := d, a := a, b := a', t := Fmt.f32.ty }
  | .vmin c d a a' => oneR 0x014 c { d := d, a := a, b := a', t := Fmt.f32.ty }
  | .vmax c d a a' => oneR 0x015 c { d := d, a := a, b := a', t := Fmt.f32.ty }
  | .vcps c d a a' => oneR 0x016 c { d := d, a := a, b := a', t := Fmt.f32.ty }
  | .vsqrt c d a => oneR 0x018 c { d := d, a := a, t := Fmt.f32.ty }
  | .vrcp c d a => oneR 0x019 c { d := d, a := a, t := Fmt.f32.ty }
  | .vrsq c d a => oneR 0x01A c { d := d, a := a, t := Fmt.f32.ty }
  | .vexp2 c d a => oneR 0x01B c { d := d, a := a, t := Fmt.f32.ty }
  | .vlog2 c d a => oneR 0x01C c { d := d, a := a, t := Fmt.f32.ty }
  | .vabs c d a => oneR 0x01D c { d := d, a := a, t := Fmt.f32.ty }
  | .vneg c d a => oneR 0x01E c { d := d, a := a, t := Fmt.f32.ty }
  | .vfma c d a a' e rnd sat => oneR 0x024 c { d := d, a := a, b := a', e := e, t := fpTy rnd sat }
  | .vfms c d a a' e rnd sat => oneR 0x025 c { d := d, a := a, b := a', e := e, t := fpTy rnd sat }
  | .vfnma c d a a' e rnd sat => oneR 0x026 c { d := d, a := a, b := a', e := e, t := fpTy rnd sat }
  | .viadd c d a a' n sat => oneR 0x030 c { d := d, a := a, b := a', t := intTy n sat }
  | .visub c d a a' n sat => oneR 0x031 c { d := d, a := a, b := a', t := intTy n sat }
  | .vimul c d a a' n sat => oneR 0x032 c { d := d, a := a, b := a', t := intTy n sat }
  | .vimulh c d a a' n => oneR 0x033 c { d := d, a := a, b := a', t := intTy n false }
  | .vimin c d a a' n => oneR 0x034 c { d := d, a := a, b := a', t := intTy n false }
  | .vimax c d a a' n => oneR 0x035 c { d := d, a := a, b := a', t := intTy n false }
  | .vand c d a a' n => oneR 0x036 c { d := d, a := a, b := a', t := intTy n false }
  | .vor c d a a' n => oneR 0x037 c { d := d, a := a, b := a', t := intTy n false }
  | .vxor c d a a' n => oneR 0x038 c { d := d, a := a, b := a', t := intTy n false }
  | .vshl c d a a' n => oneR 0x039 c { d := d, a := a, b := a', t := intTy n false }
  | .vshr c d a a' n => oneR 0x03A c { d := d, a := a, b := a', t := intTy n false }
  | .vsar c d a a' n => oneR 0x03B c { d := d, a := a, b := a', t := intTy n false }
  | .vpopc c d a => oneR 0x03C c { d := d, a := a }
  | .vcmp c d a a' rel => oneR 0x040 c { d := ofPreg d, a := a, b := a', f := rel.code, t := Fmt.f32.ty }
  | .vicmp c d a a' rel => oneR 0x041 c { d := ofPreg d, a := a, b := a', f := rel.code }
  | .vclass c d a mask =>
    oneR 0x042 c { d := ofPreg d, a := a, b := (0 : BitVec 2) ++ mask.extractLsb' 6 4, e := mask.extractLsb' 0 6 }
  | .pand c d a a' => oneR 0x048 c { d := ofPreg d, a := ofPreg a, b := ofPreg a' }
  | .por c d a a' => oneR 0x049 c { d := ofPreg d, a := ofPreg a, b := ofPreg a' }
  | .pxor c d a a' => oneR 0x04A c { d := ofPreg d, a := ofPreg a, b := ofPreg a' }
  | .pnot c d a => oneR 0x04B c { d := ofPreg d, a := ofPreg a }
  | .pcnt c d a => oneR 0x04C c { d := d, a := ofPreg a }
  | .pfirst c d a => oneR 0x04D c { d := d, a := ofPreg a }
  | .vsel c d a a' e => oneR 0x050 c { d := d, a := a, b := a', e := ofPreg e }
  | .vmov c d a => oneR 0x051 c { d := d, a := a }
  | .vbcst c d a ty => oneR 0x052 c { d := d, a := a, t := ty.ty }
  | .vextr c d a a' => oneR 0x053 c { d := d, a := a, b := a' }
  | .vins c d a a' => oneR 0x054 c { d := d, a := a, b := a' }
  | .vperm c d a a' => oneR 0x055 c { d := d, a := a, b := a' }
  | .vrot c d a a' => oneR 0x056 c { d := d, a := a, b := a' }
  | .vmovDirRead c v sp ty => one 0x058 c (Tv.toBits { v := v, sp := sp.toBits, t := ty.ty })
  | .vmovDirWrite c v sp rnd sat ty bound =>
    one 0x059 c (Tv.toBits { v := v, sp := sp.toBits, t := ⟨rnd.code, sat, ty.code⟩, bound := bound })
  | .vrsum c d a ty => oneR 0x060 c { d := d, a := a, t := ty.ty }
  | .vrmax c d a ty => oneR 0x061 c { d := d, a := a, t := ty.ty }
  | .vrmin c d a ty => oneR 0x062 c { d := d, a := a, t := ty.ty }
  | .vramax c d a => oneR 0x063 c { d := d, a := a, t := Fmt.f32.ty }
  | .vcvt c d a src rnd sat ty =>
    oneR 0x068 c { d := d, a := a, e := (0 : BitVec 1) ++ src.code, t := ⟨rnd.code, sat, ty.code⟩ }
  | .vcvtMxImport c d a src col =>
    oneR 0x068 c { d := d, a := a, e := (0 : BitVec 1) ++ src.code, f := if col then 2 else 1,
                   t := (src.mxTarget.getD .untyped).ty }
  | .vld c d base ty off => one 0x070 c (Mem.toBits ⟨d, base, 0, ty.code, off⟩)
  | .vst c d base ty off => one 0x071 c (Mem.toBits ⟨d, base, 0, ty.code, off⟩)
  | .vldg c d a a' ty => oneR 0x072 c { d := d, a := a, b := a', t := ty.ty }
  | .vsts c d a a' ty => oneR 0x073 c { d := d, a := a, b := a', t := ty.ty }
  | .vpark c v => one 0x078 c (Tv.toBits { v := v })
  | .vunpark c v sp => one 0x079 c (Tv.toBits { v := v, sp := sp.toBits })
  | .vtri c d a a' => oneR 0x07C c { d := d, a := a, b := a' }
  | .vtrin c d a a' => oneR 0x07D c { d := d, a := a, b := a' }
  | .vbnd c v bound => one 0x07E c (Tv.toBits { v := v, bound := bound })
  | .mma c s d a a' vc => twoM 0x010 c { d := d.toBits, a := a.toBits, b := a'.toBits, vc := vc } { stamp := s }
  | .mmat c s d a a' vc => twoM 0x011 c { d := d.toBits, a := a.toBits, b := a'.toBits, vc := vc } { stamp := s }
  | .mzero c s d => twoM 0x012 c { d := d.toBits } { stamp := s }
  | .macc c s d a => twoM 0x013 c { d := d.toBits, a := a.toBits } { stamp := s }
  | .mscl c s d v col => twoM 0x014 c { d := d.toBits, a := ofReg v, f := if col then 1 else 0 } { stamp := s }
  | .mmsk c s d g => twoM 0x015 c { d := d.toBits, a := ofReg g } { stamp := s }
  | .mred c s v a mx => twoM 0x016 c { d := ofReg v, a := a.toBits, f := if mx then 1 else 0 } { stamp := s }
  | .mdrn c s dr => encDrain 0x017 c s dr
  | .mdrnq c s dr => encDrain 0x018 c s dr
  | .mtrn c s d a => twoM 0x019 c { d := d.toBits, a := a.toBits } { stamp := s }
  | .xch c near far cnt gen => oneX 0x010 c { near := near.toBits, far := far, cnt := cnt, gen := gen }
  | .xchs c near far cnt gen => oneX 0x011 c { near := near.toBits, far := far, cnt := cnt, gen := gen }
  | .xchg c near far cnt gen => oneX 0x012 c { near := ofNearReg near, far := far, cnt := cnt, gen := gen }
  | .xchp c near far cnt gen => oneX 0x013 c { near := ofNearReg near, far := far, cnt := cnt, gen := gen }
  | .xcht c near far cnt gen => oneX 0x014 c { near := ofNearReg near, far := far, cnt := cnt, gen := gen }
  | .xtil c near far cnt gen => oneX 0x015 c { near := ofNearReg near, far := far, cnt := cnt, gen := gen }
  | .xtilt c near far cnt gen => oneX 0x016 c { near := ofNearReg near, far := far, cnt := cnt, gen := gen }
  | .xfar c near far cnt => oneX 0x017 c { near := ofNearReg near, far := far, cnt := cnt }
  | .xdrop c near => oneX 0x018 c { near := near.toBits }
  | .xtstv c near d => oneX 0x019 c { near := near.toBits, far := d }
  | .xpen c near far => oneX 0x01A c { near := ofNearReg near, far := far }
  | .xwake c far => oneX 0x01B c { far := far }
  | .xdoze c far => oneX 0x01C c { far := far }
  | .xnsend c sp dir => oneX 0x01D c { near := sp.toBits, f := dir.code }
  | .xnrecv c sp dir => oneX 0x01E c { near := sp.toBits, f := dir.code }
  | .xagu c gen => oneX 0x01F c { gen := gen }
  | .xrch c near far cnt ch => oneX 0x040 c { near := ofNearReg near, far := far, ch := ch, cnt := cnt }
  | .xrchc c near far cnt ch => oneX 0x041 c { near := ofNearReg near, far := far, ch := ch, cnt := cnt }
  | .xcrck c far ch => oneX 0x042 c { far := far, ch := ch }
  | .xwin c far ch => oneX 0x043 c { far := far, ch := ch }
  | .xred c near far cnt ch op =>
    oneX 0x044 c { near := ofNearReg near, far := far, ch := ch, cnt := cnt, f := op.code }
  | .xtri c near far cnt ch => oneX 0x045 c { near := ofNearReg near, far := far, ch := ch, cnt := cnt }
  | .xamo c near far ch op => oneX 0x046 c { near := ofNearReg near, far := far, ch := ch, f := op.code }
  | .xamor c near far ch op => oneX 0x047 c { near := ofNearReg near, far := far, ch := ch, f := op.code }
  | .xcas c near far cnt ch => oneX 0x048 c { near := ofNearReg near, far := far, ch := ch, cnt := cnt }
  | .xkick c far ch => oneX 0x049 c { far := far, ch := ch }
  | .xabort c ch => oneX 0x04A c { ch := ch }
  | .mCommandStep .. | .pendingLanding .. | .exchangePairSwap .. | .exchangePairTranslate .. | .unitSwap ..
  | .hbmPairArrival .. | .queueLeave .. | .bufferPerform .. | .otherAgentPerform .. | .waitpReread .. | .fenceStatusLand ..
  | .elementPortServe .. | .bankWakeDone .. | .bankDoze .. | .neighbourArrival .. | .phaseRollback .. | .rollbackEnd ..
  | .landingArrival .. | .crcCompare .. | .fabricCompletion .. | .windowArmAtHome .. | .windowGenerationReturn ..
  | .windowContributionArrival .. | .windowDeadline .. | .abortNotice .. | .jointCommit .. | .jointBarrierArrival ..
  | .stagedEffectPerform .. | .atomicReturn .. | .xfarPairSwap .. | .farPortAccept .. | .permissionRecheck ..
  | .absentSuspend .. | .gangKill .. | .ensignFenceTimeout .. | .scheduleDecision .. | .agingStep .. | .multichipStart ..
  | .safeDeadlineExpiry .. | .contextSave .. | .contextRestore .. | .chipLost .. | .invalidate .. | .invalidateAck ..
  | .populate .. | .refresh .. | .kill .. | .reset .. | .hello .. | .attest .. | .key .. | .image .. | .launch ..
  | .query .. | .cancelKill .. | .cancelRelease .. | .cancelResume .. | .cancelRestore .. | .pilotReset .. | .readBlocks ..
  | .writeBlocks .. | .readManifest .. | .writeManifest .. | .readSched .. | .writeSched .. | .readCoreRegister ..
  | .writeCoreRegister .. | .writeCommand .. | .readErrorRecord .. | .readBlackBox .. | .readInjection ..
  | .writeInjection .. | .poisonEscalation .. | .hbmRowSpare .. | .laneFail .. | .laneRetrainDone .. | .coreRetire ..
  | .quadrantWithdraw .. | .longLinkDeath .. | .farPortDown .. | .blackboxMirror | .coldStart .. | .warmStart
  | .watchdogExpiry | .throttleRaise | .throttleLower | .emergencyPowerOff | .nearBlockSnapshot .. | .storageError ..
  | .flitRetry .. | .farPortReturn .. | .chipRouteRestored .. => none

/-- A code line of one instruction of cluster `cl`, alone in its line, whose chain goes on with the next line. -/
def lineOf (cl : Cl) (w : Syl) (ext : Option Syl) : Line :=
  let occ : BitVec 3 := if ext.isSome then 1 else 0
  let link : BitVec 32 := cl.code ++ occ ++ (0 : BitVec 3) ++ (1 : BitVec 24)
  (0 : BitVec 360) ++ ext.getD 0 ++ w ++ link

end Sys2Proof
end

