-- ==== Sys2Proof/Machine/State.lean ====
section
/-! DEFINITION. The machine as plain data: one package of R1 with its harbourmaster, and what stands around it as data
(the calendar of outside events, what it sent). Every field is one of INVENTORY.md's '## State'. -/

namespace Sys2Proof.Machine

/-! ## Registers and issue state of a core (03) -/

/-- An entry of the PC queue (R59): a code address, the line address kept with a mark of no successor (R95; all ones when
next() read no line), and the nullify bit. -/
structure QEntry where
  addr : Dword
  line : Dword := 0xFFFFFFFFFFFFFFFF
  null : Bool := false
  deriving DecidableEq, Repr, Inhabited

/-- The issue point of a cluster (R61, R104, R257): its next code address and the cycle of that issue. While `parked`
the cluster waits for a FORK; `joined` says it has issued the RDV of its last start (R143). -/
structure Point where
  addr   : Dword := 0
  line   : Dword := 0xFFFFFFFFFFFFFFFF
  next   : Nat := 0
  parked : Bool := true
  joined : Bool := true
  deriving DecidableEq, Repr, Inhabited

/-- The control registers of R66 that hold a value of their own. TIDE is the gang's, LANDN and PARKFREE are computed. -/
structure Ctl where
  phase : Dword := 0
  gangid : Dword := 0
  coreloc : Dword := 0
  ensign : Dword := 0
  tshp : Vector Dword 8 := Vector.replicate 8 0
  vcnt : Vector Dword 4 := Vector.replicate 4 0
  bnd : Vector Dword 16 := Vector.replicate 16 0
  bndlog : Dword := 0
  bndm : Dword := 0
  pruneref : Dword := 0
  pmargin : Dword := 0
  voidmode : Dword := 0
  crcx : Dword := 0
  agud : Vector Dword 8 := Vector.replicate 8 0
  seed0 : Dword := 0
  seed1 : Dword := 0
  dropp : Dword := 0
  trapc : Dword := 0
  tval : Dword := 0
  trapq : Vector Dword 3 := Vector.replicate 3 0
  tnull : Dword := 0
  bpaddr : Dword := 0
  trappc : Dword := 0
  fstat : Dword := 0
  aflags : Dword := 0
  fpcsr : Dword := 0
  capb : Dword := 0
  deriving DecidableEq, Repr

/-- What a landing writes (R62, R63, R341). -/
inductive Dest where
  | none
  | g (r : Reg)
  | p (r : PReg)
  | v (r : Reg)
  | tile (sp : Spec) (idx : Dword) (shape : Dword)
  deriving DecidableEq, Repr

/-- A result on its way: it is visible to an instruction that issues on cycle `due` or later (R125), and its flags and
BNDLOG bits are ORed in at the end of that cycle (R50, R68). `issued`, `cl` and, within a V group, `pc` order two of one
cycle (R86, R126); `pc` is the address of its instruction. A result with L = 1 is not `long` and does not count against the
sixteen. A `test` names the slots whose status an XTSTV reads as it lands (R228). -/
structure Landing where
  dest   : Dest
  value  : Dword := 0
  pred   : Pred := 0
  lanes  : Lanes := Vector.replicate 128 0
  mask   : Pred := 0
  due    : Nat
  issued : Nat
  cl     : Cl
  flags  : BitVec 5 := 0
  hits   : BitVec 32 := 0
  long   : Bool := true
  test   : List Slot := []
  pc     : Dword := 0
  deriving DecidableEq, Repr

/-- Counts of the eight token FIFOs (R259), left then right of S, V, M, X. -/
abbrev Tokens := Vector Nat 8

/-- The part of a core that a checkpoint copies (R266). -/
structure Regs where
  g      : Vector Dword 64 := Vector.replicate 64 0
  p      : Vector Pred 16 := (Vector.replicate 16 0).set 0 (BitVec.allOnes 128)
  v      : Vector Lanes 64 := Vector.replicate 64 (Vector.replicate 128 0)
  ctl    : Ctl := {}
  park   : BitVec 512 := 0
  latch  : Vector Dword 8 := Vector.replicate 8 0
  gpos   : Vector Nat 2 := Vector.replicate 2 0
  tokens : Tokens := Vector.replicate 8 0
  q      : Vector QEntry 3 := Vector.replicate 3 { addr := 0 }
  sNext  : Nat := 0
  points : Vector Point 3 := Vector.replicate 3 {}
  landings : List Landing := []
  deriving DecidableEq, Repr

/-! ## Accesses, exchanges and commands in flight (07 to 11, 15) -/

/-- What an entry of the load or store queue does when it is performed (R296). One that has been performed ahead of its cycle brings its
landing, or the cause and TVAL that it raises, on that cycle. -/
inductive AccOp where
  | marker
  | result (l : Landing) (bad : Option (BitVec 8 × Dword))
  | load (d : Reg) (ty : Fmt)
  | store (ty : Fmt) (value : Dword)
  | amo (d : Reg) (op : AtomOp) (ty : Fmt) (operand : Dword)
  | cas (d : Reg) (ty : Fmt) (cmp swap : Dword)
  | waitp (value : Word)
  | vload (d : Reg) (ty : Fmt) (mask : Pred)
  | vstore (ty : Fmt) (mask : Pred) (codes : Lanes) (flags : BitVec 5)
  deriving DecidableEq, Repr

/-- Where one element of an access lies: slot and bit, the code of its page and its VBA. -/
structure Spot where
  slot : Slot
  bit  : Nat
  code : Byte
  vba  : Dword
  deriving DecidableEq, Repr, Inhabited

/-- One queue or buffer entry (R295, R296). `spots` holds one spot for each active lane of a gathered access, or one alone;
`due` is the cycle of the timetable on which it is performed and lands (R302, R303); `left` is the scope of the buffer it has left
into, core scope for an entry whose target needs none, and entries stand in a list in the order in which they left; `served` says its
element port or its lateness is settled, `rebuilt` the bank words that a rebuild gives it there (R289), `arrived` that its HBM data
has come, and `held` that R298 kept it in its queue as the present cycle began (R375). -/
structure Access where
  serial : Nat
  op     : AccOp
  cl     : Cl
  spots  : List Spot
  pc     : Dword
  issued : Nat
  due    : Nat
  acquire : Bool := false
  release : Option Scope := none
  inLoad : Bool := false
  inStore : Bool := false
  left : Option Scope := none
  served : Bool := false
  arrived : Bool := true
  held   : Bool := false
  rebuilt : List Nat := []
  committed : Bool := false
  voidMode : Bool := false
  gather : Bool := false
  deriving DecidableEq, Repr

/-- A region of a job card (R306). -/
inductive Region where
  | slot (sl : Slot)
  | acc (n : Nat)
  | v (r : Nat)
  | g (r : Nat)
  deriving DecidableEq, Repr

/-- The time that an access which makes no entry takes at a berth's element port (R258): a guarded-off or nullified one, or one with no
active lane. It reads nothing and writes nothing. -/
structure PortAsk where
  serial : Nat
  slot   : Slot
  off    : Nat
  n      : Nat
  write  : Bool
  cl     : Cl
  issued : Nat
  deriving DecidableEq, Repr

/-- A job card (R306, R307): reads held to `readEnd`, writes to `last`; `open_` cards stay until the commit, or until the
command `id` ends. -/
structure Card where
  reads  : List Region
  writes : List Region
  first  : Nat
  readEnd : Nat
  last   : Nat
  open_  : Bool := false
  id     : Nat := 0
  deriving DecidableEq, Repr

/-- A pair of an exchange after translation: near and far slot, the base of its reach (R208) and the code of its page; `skip` marks a
pruned pair, or one of a guarded-off exchange that leads nowhere. -/
structure Pair where
  near : Slot
  far  : Slot
  skip : Bool := false
  reach : Nat := 0
  code : Byte := 0
  deriving DecidableEq, Repr

/-- An exchange in flight (R209, R214, R341). `pairs` are the pairs translated so far, in order; `judged` counts those that
have met their first channel cycle, `read` those whose table entries have been read, `met` those whose far block has
arrived, `swapped` those whose swap cycle is past. `size` is the blocks of a unit, 1 in the forms without units; `entry`
holds the entries last read, and `entryBad` the cause and the VBA of a table that could not be read. `gotten` are
the generators whose tables have given the entry of the pair being read. `stopped` marks a cause raised on the present cycle, and `warn`
is VOIDMODE.MODE as the issue read it. -/
structure Exch where
  serial : Nat
  instr  : Instr
  pc     : Dword
  issued : Nat
  near   : Dword
  far    : Dword
  n      : Nat
  pos0   : Nat
  pos1   : Nat
  latch  : Vector Dword 8
  base   : Nat
  delay  : Nat
  indirect : Bool
  active : Bool
  size   : Nat := 1
  side   : Nat := 0
  format : Byte := 0
  pruneref : Word
  pmargin  : Word
  tables : List (Nat × Slot × Dword) := []
  pairs  : List Pair := []
  judged : Nat := 0
  read   : Nat := 0
  gotten : List Nat := []
  entry  : Dword × Dword := (0, 0)
  entryBad : Option (BitVec 8 × Dword) := none
  met    : Nat := 0
  swapped : Nat := 0
  stopped : Bool := false
  warn   : Bool := false
  deriving DecidableEq, Repr

/-- An M command in its unit (R185, R202), with its operands as read on its issue cycle. -/
structure MCmd where
  instr  : Instr
  pc     : Dword
  issued : Nat
  step   : Nat := 0
  active : Bool
  tileA  : List Cells := []
  tileB  : List Cells := []
  shapeA : Dword := 0
  shapeB : Dword := 0
  accA   : Acc := Vector.replicate 128 (Vector.replicate 128 0)
  vecA   : Lanes := Vector.replicate 128 0
  vecB   : Lanes := Vector.replicate 128 0
  g      : Dword := 0
  valid  : Nat := 0
  bnd    : Dword := 0
  mode   : Nat := 0
  seed0  : Dword := 0
  seed1  : Dword := 0
  dropp  : Dword := 0
  flags  : BitVec 5 := 0
  hits   : BitVec 32 := 0
  deriving DecidableEq, Repr

/-- A fabric instruction in flight (R238): its near blocks with the code and the VBA of their pages, the entry it uses, the
blocks sent and acknowledged, and the payloads that wait to be folded (R242). `done` says its completing event has
happened, `fail` the cause it raises on its planned completion or later (R241, R244). -/
structure FabOp where
  serial : Nat
  instr  : Instr
  pc     : Dword
  issued : Nat
  planned : Nat
  active : Bool
  ch     : Nat
  n      : Nat
  near   : List (Slot × Byte × Dword) := []
  first  : Nat := 0
  chip   : BitVec 22 := 0
  base   : Nat := 0
  window : Nat := 0
  index  : Nat := 0
  gen    : BitVec 16 := 0
  sent   : Nat := 0
  acked  : Nat := 0
  folds  : List (Nat × Cells) := []
  folded : Nat := 0
  value  : Word := 0
  warn   : Bool := false
  done   : Bool := false
  fail   : Option (BitVec 8 × Dword) := none
  deriving DecidableEq, Repr

/-- An armed window as the issuing core keeps it (R244), with the serial number and the address of its XWIN; `latched` once that has
completed. `blocks` are those it has named (R245), `flags` what a home without members has given it (R247). -/
structure Armed where
  ch     : Nat
  serial : Nat
  window : Nat
  index  : Nat
  gen    : BitVec 16 := 0
  latched : Bool := false
  pc     : Dword := 0
  blocks : List Nat := []
  flags  : Option (BitVec 5) := none
  deriving DecidableEq, Repr

/-- A standing far-tier exchange (R225, R226), staged until its commit releases it. -/
structure Standing where
  serial : Nat
  pairs  : List (Slot × Slot)
  next   : Nat := 0
  value  : Word
  pennant : Slot
  penOff : Nat
  penCode : Byte
  released : Bool := false
  accepted : Bool := false
  deriving DecidableEq, Repr

/-- A staged effect (R267): an atomic and its channel, a kick and the CHIP of its channel, or an XFAR. -/
inductive Staged where
  | atom (e : Effect) (ch : Nat)
  | kick (word : Dword) (chip : BitVec 22)
  | far (serial : Nat)
  deriving DecidableEq, Repr

/-- An entry of the swap log (R266, R342, R373), newest first in its list. `order` is its arrival number at its port. A `unit`
entry is one of U, its pair's position in `u`, and `voids` the slots of the unit that were void. A `mirror` stands for a secondary's
shared pair (R332). The `words` of a staged effect are its syllable and its registers in operand order. -/
inductive LogEntry where
  | swap (a b : Slot)
  | unit (a b : List Slot) (transpose : Bool) (format : Byte) (u : Nat) (voids : List Slot)
  | word (sl : Slot) (off width : Nat) (old : Nat) (oldGen : BitVec 16) (madeValid : Bool)
  | staged (e : Staged) (words : List Dword)
  | image (sl : Slot) (old : Cells) (dropped : Bool)
  | mirror (sl : Slot) (old : Cells)
  deriving DecidableEq, Repr

structure LogCell where
  order : Nat
  entry : LogEntry
  deriving DecidableEq, Repr

/-- A FENCE waiting to land (R149, R302). -/
structure Fence where
  serial : Nat
  d      : Reg
  scope  : Scope
  issued : Nat
  due    : Nat
  pc     : Dword
  deriving DecidableEq, Repr

/-- An XPEN write on its way (R229), due at the end of cycle `due` and of every earlier exchange. -/
structure Pen where
  serial : Nat
  slot   : Slot
  off    : Nat
  value  : Word
  code   : Byte
  issued : Nat
  due    : Nat
  pc     : Dword
  active : Bool
  served : Bool := false
  deriving DecidableEq, Repr

/-- What is done at the end of the issue cycle or of a later named cycle (R180, R181, R227, R50, R65, R72). -/
inductive AtEnd where
  | ctl (num : BitVec 12) (value : Dword)
  | push (fifo : Nat)
  | park (t row : Nat) (v : Lanes) (mask : Pred)
  | unpark (pair : Nat)
  | drop (slots : List Slot) (due : Nat)
  | flags (f : BitVec 5) (hits : BitVec 32)
  | fstat (w : Dword)
  | aflags (f : BitVec 5)
  | fold (b : Cells)
  | bank (wake : Bool) (q b : Nat)
  deriving DecidableEq, Repr

/-- A staged effect after its release, until its completion has come (R251, R254, R302): its log number, the tide of the
boundary and the effect. -/
structure Released where
  serial : Nat
  tide   : Nat
  effect : Effect
  deriving DecidableEq, Repr

/-- A cause raised on the current cycle (R74, R76), with the FIFOs into which its instruction would have pushed (R259). -/
structure Raised where
  code : BitVec 8
  cl   : Cl
  tval : Dword
  pc   : Dword
  never : Bool := false
  marked : Bool := false
  pushes : List Nat := []
  deriving DecidableEq, Repr, Inhabited

/-- Lanes on a neighbour link (R232), to be taken on cycle `due` from side `side`. -/
structure Link where
  side : Side
  lanes : Lanes
  due  : Nat
  deriving DecidableEq, Repr

/-- What each cluster issued on the current cycle, for bundles, joins and barriers (R105, R145, R260). -/
structure Issued where
  cl   : Cl
  sync : Bool
  rdv  : Bool
  kind : Nat
  pc   : Dword
  deriving DecidableEq, Repr

/-- A placed core of a gang, or the harbourmaster's own core. `faults` are undetected errors of its registers and of its
rollback state: the unit of R379, or 8 more for the rollback state, the entry, and the access or landing it is in. `lostLink`
says a long link died under its transfers (R292). `resumeBreak` is the issue that the last BREAK took the place of, its cluster and its code address, until that cluster issues (R71). -/
structure Core where
  x : Nat := 0
  y : Nat := 0
  regs : Regs := {}
  qStart : Vector QEntry 3 := Vector.replicate 3 { addr := 0 }
  acc : Vector Acc 4 := Vector.replicate 4 (Vector.replicate 128 (Vector.replicate 128 0))
  shadow : Vector Acc 4 := Vector.replicate 4 (Vector.replicate 128 (Vector.replicate 128 0))
  accWritten : BitVec 4 := 0
  accesses : List Access := []
  asks : List PortAsk := []
  exchs : List Exch := []
  cmds : Vector (Option MCmd) 3 := Vector.replicate 3 none
  channelFree : Nat := 0
  cards : List Card := []
  log : List LogCell := []
  reserved : Nat := 0
  fabs : List FabOp := []
  sentOn : List (Nat × Nat) := []
  armed : List Armed := []
  standing : List Standing := []
  fences : List Fence := []
  fenceBits : Dword := 0
  outstanding : List Released := []
  outward : List (Slot × Nat × Cells) := []
  pens : List Pen := []
  links : List Link := []
  atEnd : List AtEnd := []
  raised : List Raised := []
  issuedNow : List Issued := []
  resumeBreak : Option (Cl × Dword) := none
  trapped : Bool := false
  faults : List (Nat × Nat × Nat) := []
  lostLink : Bool := false
  checkpoint : Regs := {}
  checkBase : Nat := 0
  deriving DecidableEq, Repr

/-! ## Gangs (13, 19) -/

/-- Where a launch stands (R365, R366). -/
inductive Status where
  | queued | placed | saved | absent | lost | killing
  deriving DecidableEq, Repr, Inhabited

/-- A hold claim (R263, R264): cause, the tide at which it began, its length in package cycles, the raising member. `id` is
the serial number of what it waits for, `fence` the killed gang whose generation step it waits for (R361), and `by_` the access that
waits, where several wait for one thing (R290), or 1 where another chip runs that kill (log 92, DESIGN CHOICE). -/
structure Claim where
  cause  : Nat
  start  : Nat
  began  : Nat
  length : Nat := 0
  member : Nat
  barrier : Bool := false
  id     : Nat := 0
  fence  : Option Nat := none
  by_    : Nat := 0
  deriving DecidableEq, Repr

/-- The hold record (R264, R343). -/
structure Hold where
  holds  : Vector Dword 7 := Vector.replicate 7 0
  cycles : Vector Dword 7 := Vector.replicate 7 0
  ring   : List Claim := []
  active : List Claim := []
  deriving DecidableEq, Repr

/-- A block waiting in a landing buffer for the joint commit (R240, R241); a `copy` is a secondary's, which takes no entry (R332). -/
structure Pending where
  slot : Slot
  block : Cells
  copy : Bool := false
  deriving DecidableEq, Repr

/-- A contribution to a region block (R245, R246). -/
structure Contrib where
  block : Nat
  index : Nat
  op    : Option RedOp
  data  : Cells
  deriving DecidableEq, Repr

/-- An arming as the home keeps it: contributor index, chip, core, channel and the serial number of the XWIN (R244). -/
structure Arming where
  index  : Nat
  chip   : BitVec 22
  core   : CoreId
  ch     : BitVec 8
  serial : Nat
  deriving DecidableEq, Repr

/-- A window at its home (R244 to R246, R312): the launch whose image numbers it, its region and limits. `started` is the gang's
tide at the first arming, or for another launch's window the package tide, `judged` says that its deadline has passed, and `voted` are
the chips that have voted to commit it. -/
structure Window where
  num   : Nat
  launch : Word := 0
  decl  : WinDecl := default
  gen   : BitVec 16 := 0
  armed : List Arming := []
  parts : List Contrib := []
  reserved : List Nat := []
  started : Option Nat := none
  judged : Bool := false
  voted : List (BitVec 22) := []
  deriving DecidableEq, Repr

/-- An entry of the reduction fault log (R251, R368). -/
structure RedFault where
  addr : Dword
  operand : Dword
  opcode : BitVec 16
  f : Byte
  cause : Byte
  deriving DecidableEq, Repr

/-- A manifest entry (R278). -/
structure MEntry where
  dw0 : Dword
  dw1 : Dword
  deriving DecidableEq, Repr, Inhabited

/-- A manifest: its entries with their index in the image, 0 to 4,095 runs and 4,096 to 69,631 blocks (R278). -/
abbrev Manifest := List (Nat × MEntry)

/-- A capability entry (R233). -/
structure CapEntry where
  dw0 : Dword
  dw1 : Dword
  dw2 : Dword
  dw3 : Dword
  deriving DecidableEq, Repr, Inhabited

/-- A gang descriptor after its checks (R326). -/
structure Desc where
  launch : Word := 0
  variant : Nat := 0
  prio   : Nat := 0
  w : Nat := 1
  h : Nat := 1
  deps : List Word := []
  pair : Bool := false
  owner : BitVec 12 := 0
  chips : List (BitVec 22) := []
  code : Word := 0
  manifest : Word := 0
  cap : Word := 0
  frame : Word := 0
  route : BitVec 120 := 0
  deriving DecidableEq, Repr

/-- The stages of one gang cycle: accesses and arrivals at the ports, landings, issues, resolution of causes and
barriers, the arrival of what the end of the cycle needs, and that end (log 3, DEDUCED). -/
inductive Stage where
  | port | land | issue | resolve | gate | finish
  deriving DecidableEq, Repr, Inhabited

/-- A barrier of the gang on this chip (R145, R239), and the chip's own vote. -/
structure Barrier where
  commit : Bool
  own    : Vote := { abort := false }
  deriving DecidableEq, Repr

/-- A phase abort to be carried out (R269): what every member records, the core it comes from and the instruction it names,
whether it was forced in package time, and whether the other chips are told. -/
structure Abort where
  trapc  : Dword
  tval   : Dword
  member : Nat := 0
  pc     : Dword := 0
  named  : Bool := false
  forced : Bool := false
  tell   : Bool := false
  deriving DecidableEq, Repr, Inhabited

/-- What ends a gang abnormally (R376): the member and its trap, and whether a poisoned block escalated (R381). -/
structure Fatal where
  member : Nat
  trapc  : Dword
  tval   : Dword
  poison : Bool := false
  slot   : Dword := 0
  deriving DecidableEq, Repr, Inhabited

/-- A pre-emption request (R334, R337); `agreed` once a joint barrier has told every chip of it (R329). -/
structure Preempt where
  since : Nat
  rotation : Bool := false
  deadline : Bool := true
  agreed : Bool := false
  deriving DecidableEq, Repr

/-- A launch on this chip: its descriptor, its standing in the queue, and while it is placed its cores and the state of
the gang (R326 to R346). `cores` holds the members, then in paired mode the secondaries (R332). A saved gang keeps in
`kept` what its frame does not give back (log 12, DEDUCED). `kill` is set from the first step of a kill or a release, or while one
waits for the end of a commit boundary, to whether the host asked for it (R361); `rechecks` are the tickets of the REFRESH that
each member's recheck waits for (R357). -/
structure Gang where
  id : Nat
  part : Nat
  desc : Desc
  status : Status := .queued
  age : Nat := 0
  ended : List Word := []
  entered : Nat := 0
  runStart : Nat := 0
  x0 : Nat := 0
  y0 : Nat := 0
  x1 : Nat := 0
  y1 : Nat := 0
  cores : List Core := []
  lines : List (BitVec 512) := []
  entries : Vector Dword 4 := Vector.replicate 4 0
  livemaps : List (BitVec 256) := []
  windows : List WinDecl := []
  manifest : Manifest := []
  caps : List CapEntry := []
  quays : List (Nat × List Nat) := []
  quays2 : List (Nat × List Nat) := []
  drowsy : List (Nat × Nat) := []
  waking : List (Nat × Nat × Nat) := []
  dozing : List (Nat × Nat) := []
  started : Bool := false
  stage : Stage := .port
  turn : Nat := 0
  resumeAt : Option (Stage × Nat) := none
  tide : Nat := 0
  phaseStart : Nat := 0
  ran : Nat := 0
  hold : Hold := {}
  barrier : Option Barrier := none
  landed : List Pending := []
  home : List Window := []
  abortLog : List (Nat × BitVec 16 × Nat) := []
  redLog : List RedFault := []
  redMore : Nat := 0
  aborted : Option Abort := none
  fatal : Option Fatal := none
  came : List (BitVec 22 × Vote) := []
  cameSince : Option Nat := none
  aborts : Nat := 0
  forced : Nat := 0
  fabricPhase : Bool := false
  dropPhase : Bool := false
  barred : Bool := false
  preempt : Option Preempt := none
  safeNow : List Nat := []
  kill : Option Bool := none
  rechecks : List (Nat × Nat) := []
  saveNext : Option Nat := none
  awaitPage : Option Dword := none
  fenceChips : List (BitVec 22) := []
  kept : List Core := []
  kind : Nat := 0
  deriving DecidableEq, Repr

/-! ## The harbourmaster, the partitions and the package (20, 23, 24) -/

/-- An image held for a partition (R366). -/
structure Image where
  handle : Word
  kind   : Nat
  total  : Nat
  bytes  : Cells := []
  code   : Option CodeSet := none
  sealed : Bool := false
  deriving DecidableEq, Repr

/-- One of the 4,096 most recent ends (R327). -/
structure Ended where
  launch : Word
  normal : Bool
  deriving DecidableEq, Repr

/-- A partition (R18, R328, R333, R357). -/
structure Partition where
  images : List Image := []
  nextHandle : Nat := 1
  sched : Vector Dword 3 := Vector.replicate 3 0
  absorbed : Dword := 0
  ends : List Ended := []
  endCount : Dword := 0
  resetting : Bool := false
  reservation : Option (Nat × Nat × Nat) := none
  deriving DecidableEq, Repr

/-- An owner identifier: its binding and key, and its generation (R358, R360). -/
structure Owner where
  id : BitVec 12
  bound : Option Nat
  key : BitVec 512
  gen : Byte
  fencing : Bool := false
  deriving DecidableEq, Repr

/-- A ticket and its status word once acknowledged (R352, R354). `was` are the manifests of its gangs as an INVALIDATE left them,
which say what slots it has invalidated (R356). -/
structure Ticket where
  num : Nat
  cmd : CmdRec
  host : Bool
  applied : Option Dword := none
  acked : Option Dword := none
  was : List (Nat × Manifest) := []
  deriving DecidableEq, Repr

/-- A Ryide port (R384, R390): `paused` until that package cycle, and the `times` of its latest flit retries, each with its lane. -/
structure Port where
  lanes : Nat := 4
  spare : Bool := false
  retries : Dword := 0
  paused : Nat := 0
  times : List (Nat × Nat) := []
  deriving DecidableEq, Repr

/-- A CXL port (R369). -/
structure FarPort where
  up : Bool := false
  first : Nat := 0
  count : Nat := 0
  poisoned : Dword := 0
  deriving DecidableEq, Repr

/-- A package quadrant (R384, R391, R392). `pending` is the column to be retired once no gang holds the quadrant, and `charges`
the errors charged to its cores with their package cycles. -/
structure Quad where
  retired : Option Nat := none
  pending : Option Nat := none
  withdrawn : Bool := false
  sram : Dword := 0
  internal : Dword := 0
  quay : Dword := 0
  marked : Dword := 0
  charges : List (Nat × Nat) := []
  deriving DecidableEq, Repr

/-- An HBM stack (R384, R388). -/
structure Stack where
  unused : Bool := false
  corrected : Dword := 0
  marked : Dword := 0
  spared : Dword := 0
  deriving DecidableEq, Repr

/-- A black-box record (R385). -/
structure BoxRec where
  tide : Nat
  seq : Word
  code : BitVec 16
  part : Byte
  severity : Byte
  launch : Word := 0
  member : BitVec 16 := 0
  a : Dword := 0
  b : Dword := 0
  c : Dword := 0
  deriving DecidableEq, Repr

/-- What the device sends a host: the header and the body of a reply or an EVENT (R363, R364, R368). -/
structure HostMsg where
  version : Byte
  type : Byte
  flags : BitVec 16
  seq : Word
  len : Word
  part : BitVec 16
  body : List Byte
  deriving DecidableEq, Repr
/-- A message with its header. -/
def hostMsg (type : Byte) (flags : BitVec 16) (seq : Word) (part : BitVec 16) (body : List Byte) : HostMsg :=
  { version := 1, type := type, flags := flags, seq := seq, len := BitVec.ofNat 32 body.length, part := part, body := body }

/-- What this chip sends toward other chips: a step that its arrival brings about there, a vote or a notice of an abort of a
launch, an ensign fence, a kill of a gang that other chips hold too, a request to save it or a save of it, and word that its copy is
placed. -/
inductive Sent where
  | step (chip : BitVec 22) (i : Instr)
  | vote (launch : Word) (v : Vote)
  | abort (launch : Word) (trapc tval : Dword)
  | fence (owner : BitVec 12) (chip : BitVec 22)
  | kill (launch : Word)
  | save (launch : Word) (tide kind : Nat)
  | placed (launch : Word)
  deriving DecidableEq, Repr

/-- The harbourmaster's own core beside its registers (R350 to R353): the core HSEL selected, its handler bit, whether
its issue waits, its firmware image and its data memory (log 5, DESIGN CHOICE). -/
structure Harbour where
  core : Core := {}
  selected : Nat := 0
  handler : Bool := false
  firmware : List (BitVec 512) := []
  tide : Nat := 0
  mem : Cells := []
  lastIssue : Nat := 0
  deriving DecidableEq, Repr

/-- The device keys (R397): the XMSS seeds of the identity key, the secret from which session keys derive, and the integrity key of
the records in boot flash. -/
structure Keys where
  identity : BitVec 768
  session  : BitVec 512
  record   : BitVec 256
  deriving DecidableEq, Repr, Inhabited
/-- The key of a label: SHAKE256 over the secret and the label's byte. -/
def labelKey (n : Nat) (label : Byte) : BitVec (8 * n) := shake256 n (Config.deviceSecret.toList ++ [label])
/-- Step 7 of a start derives the three keys. -/
def deriveKeys : Keys := { identity := labelKey 96 1, session := labelKey 64 2, record := labelKey 32 3 }

/-- Whether the package runs (R394, R403). -/
inductive Power where
  | unstarted | running | halted | off
  deriving DecidableEq, Repr, Inhabited

/-- Who acts: a member core, the harbourmaster's core, or no core. -/
inductive Agent where
  | core (k : CoreId) (cl : Cl)
  | harbour
  | device
  deriving DecidableEq, Repr, Inhabited

/-- The whole machine. -/
structure State where
  power : Power
  warm : Bool
  ptide : Nat
  chip : BitVec 22
  mem : List Host.Cell
  gangs : List Gang
  nextGang : Nat
  parts : Vector Partition 4
  partCount : Nat
  newCount : Option Nat
  owners : List Owner
  harbour : Harbour
  tickets : List Ticket
  nextTicket : Nat
  backlog : List CmdRec
  routes : BitVec 120
  ports : Vector Port 64
  alternate : List (BitVec 22)
  around : List (BitVec 22 × Nat)
  lostChips : List (BitVec 22)
  lostTo : List (BitVec 12 × BitVec 22)
  farPorts : Vector FarPort 8
  quads : Vector Quad 16
  hbmStacks : Vector Stack 16
  rowErrors : List (Nat × Nat × Nat)
  sparedRows : List (Nat × Nat)
  mendedRows : List (Nat × Nat)
  retiredSlots : List (Nat × Nat)
  box : List BoxRec
  boxSeq : Word
  mirror : Option (List BoxRec)
  flushed : List BoxRec
  inject : Dword
  level : Nat
  sched3 : Dword
  leaf : Nat
  keys : Keys
  fwCopies : Vector Firmware 2
  fwCopy : Nat
  fwVersion : BitVec 16
  fwMinimum : BitVec 16
  sessions : List Nat
  outbox : List HostMsg
  sent : List Sent
  serial : Nat
  agenda : List (Nat × Instr)
  cur : Agent
  turn : Nat
  free : Nat
  deriving DecidableEq, Repr

/-- The reasons a step stops. -/
inductive Fault where
  /-- Raised by every step of a package that halted in its start sequence (R394): it answers nothing. Safe. -/
  | halted
  /-- Raised by every step after the emergency power-off or before power-on (R394, R403): nothing runs. Safe. -/
  | poweredOff
  /-- Raised by an instruction that no core is there to issue: the cursor names no placed core. Safe: no step of the
  machine issues one so. -/
  | noCore
  deriving DecidableEq, Repr

/-- The reasons an instruction has no meaning. -/
inductive Refusal where
  /-- The instruction has no meaning yet; raised only by its arm of `exec`. Safe. -/
  | notModelled (mnemonic : String)
  deriving DecidableEq, Repr

/-- SCHED0 to SCHED2 at a partition's reset (R333). -/
def schedReset : Vector Dword 3 := #v[7000000, 70000000, 700000]

def Partition.fresh : Partition := { sched := schedReset }

/-- The package after a cold start: no gang, no key, no image, every counter zero, and the host ports open (R394, R396).
Where the manual states no value the log names it (logs 4 to 7, 9, 10, 70 and 85, DESIGN CHOICE). -/
def State.reset : State where
  power := .running
  warm := false
  ptide := 0
  chip := Config.assignedChip 0
  mem := []
  gangs := []
  nextGang := 0
  parts := Vector.replicate 4 Partition.fresh
  partCount := 1
  newCount := none
  owners := []
  harbour := {}
  tickets := []
  nextTicket := 1
  backlog := []
  routes := 0
  ports := Vector.replicate 64 {}
  alternate := []
  around := []
  lostChips := []
  lostTo := []
  farPorts := Vector.replicate 8 {}
  quads := Vector.replicate 16 {}
  hbmStacks := Vector.replicate 16 {}
  rowErrors := []
  sparedRows := []
  mendedRows := []
  retiredSlots := Config.retiredBase
  box := [{ tide := 0, seq := 0, code := 0x0001, part := 0xFF, severity := 0, b := (Config.firmwareVersion 0).setWidth 64 }]
  boxSeq := 1
  mirror := none
  flushed := []
  inject := 0
  level := 0
  sched3 := 0
  leaf := 0
  keys := deriveKeys
  fwCopies := Vector.ofFn fun c => { bytes := Config.firmwareBytes c.val, version := Config.firmwareVersion c.val }
  fwCopy := 0
  fwVersion := Config.firmwareVersion 0
  fwMinimum := Config.fusedMinimum
  sessions := []
  outbox := []
  sent := []
  serial := 1
  agenda := [(700000, .blackboxMirror), (2 ^ 30, .watchdogExpiry)]
  cur := .device
  turn := 0
  free := 0

end Sys2Proof.Machine
end

