-- ==== Sys2Proof/Machine/Memory.lean ====
section
/-! DEFINITION. Storage (14): sparse bytes in one canonical form, the block with its side record and marks, the slots of
the five levels, and the ports of HBM and the far tier. -/

namespace Sys2Proof.Machine

/-! ## Sparse bytes -/

/-- The byte at offset `o`; an unlisted offset reads as zero (log 4, DESIGN CHOICE). -/
def cget (c : Cells) (o : Nat) : Byte :=
  match c with
  | [] => 0
  | (a, x) :: t => if a = o then x else cget t o

/-- Write one byte; writing zero removes the entry. -/
def cput (c : Cells) (o : Nat) (b : Byte) : Cells :=
  match c with
  | [] => if b = 0 then [] else [(o, b)]
  | (a, x) :: t =>
    if o < a then (if b = 0 then (a, x) :: t else (o, b) :: (a, x) :: t)
    else if o = a then (if b = 0 then t else (o, b) :: t)
    else (a, x) :: cput t o b

/-- The canonical form: offsets strictly rising from `lo`, and no zero byte. -/
def cwfFrom (lo : Nat) (c : Cells) : Bool :=
  match c with
  | [] => true
  | (a, x) :: t => lo ≤ a && x != 0 && cwfFrom (a + 1) t

/-- Memory and blocks are canonical. -/
def Memory.wf (c : Cells) : Bool := cwfFrom 0 c

/-- The `n` bytes from `lo`, renumbered from 0. -/
def csub (c : Cells) (lo n : Nat) : Cells :=
  match c with
  | [] => []
  | (a, x) :: t => if lo ≤ a ∧ a < lo + n then (a - lo, x) :: csub t lo n else csub t lo n

/-- The entries below `n`. -/
def cbelow (c : Cells) (n : Nat) : Cells :=
  match c with
  | [] => []
  | (a, x) :: t => if a < n then (a, x) :: cbelow t n else cbelow t n

/-- The entries from `n` up. -/
def cfrom (c : Cells) (n : Nat) : Cells :=
  match c with
  | [] => []
  | (a, x) :: t => if n ≤ a then (a, x) :: cfrom t n else cfrom t n

/-- Every offset raised by `n`. -/
def cshift (c : Cells) (n : Nat) : Cells := c.map fun e => (e.1 + n, e.2)

/-- Replace the `n` bytes from `lo` by those of `d`. -/
def csplice (c : Cells) (lo n : Nat) (d : Cells) : Cells :=
  cbelow c lo ++ cshift (cbelow d n) lo ++ cfrom c (lo + n)

/-- Bytes to their sparse form, the first at offset `o`. -/
def cpack (o : Nat) (bs : List Byte) : Cells :=
  match bs with
  | [] => []
  | b :: t => if b = 0 then cpack (o + 1) t else (o, b) :: cpack (o + 1) t

/-- `n` bytes from offset `o` of cells none of which lies below `o`. -/
def cunpack (c : Cells) (o n : Nat) : List Byte :=
  match n with
  | 0 => []
  | n + 1 =>
    match c with
    | [] => 0 :: cunpack [] (o + 1) n
    | (a, x) :: t => if a = o then x :: cunpack t (o + 1) n else 0 :: cunpack ((a, x) :: t) (o + 1) n

/-- The `n` bytes from `lo`, as a list. -/
def cbytes (c : Cells) (lo n : Nat) : List Byte := cunpack (csub c lo n) 0 n

/-- Little-endian value of a byte list (R6). -/
def leNat (bs : List Byte) : Nat :=
  match bs with
  | [] => 0
  | b :: t => b.toNat + 256 * leNat t

/-- The `n` little-endian bytes of a value. -/
def leBytes (n v : Nat) : List Byte :=
  match n with
  | 0 => []
  | n + 1 => BitVec.ofNat 8 v :: leBytes n (v / 256)

/-- The little-endian value of `n` bytes at `o`. -/
def cle (c : Cells) (o n : Nat) : Nat :=
  match n with
  | 0 => 0
  | n + 1 => (cget c o).toNat + 256 * cle c (o + 1) n

/-- Write bytes one after another from `o`. -/
def cputs (c : Cells) (o : Nat) (bs : List Byte) : Cells :=
  match bs with
  | [] => c
  | b :: t => cputs (cput c o b) (o + 1) t

/-- Write a little-endian value of `n` bytes. -/
def cputLe (c : Cells) (o n v : Nat) : Cells := cputs c o (leBytes n v)

/-- One bit of the byte sequence, bit 0 of byte 0 first. -/
def cbit (c : Cells) (i : Nat) : Bool := (cget c (i / 8)).getLsbD (i % 8)
def cputBit (c : Cells) (i : Nat) (b : Bool) : Cells :=
  let m : Byte := 1 <<< (i % 8)
  let x := cget c (i / 8)
  cput c (i / 8) (if b then x ||| m else x &&& ~~~m)

/-- `w` bits from bit `i` of the byte sequence. -/
def cbits (c : Cells) (i w : Nat) : Nat :=
  match w with
  | 0 => 0
  | w + 1 => (if cbit c i then 1 else 0) + 2 * cbits c (i + 1) w

/-! ## The block (R272, R273)

Offsets 0 to 4,095 are the payload and 4,096 to 4,351 the side record. Beyond them stand what the storage keeps for
itself: a mark for each of the 1,024 payload words (R275), the words that hold an undetected error, uncorrectable and
correctable (R378), and for an HBM or far slot the owner and key it was stored under (R276). -/

def sideAt : Nat := 4096
def markAt : Nat := 4352
def latentAt : Nat := 4480
def softAt : Nat := 4608
def tagAt : Nat := 4736
def blockStride : Nat := 8192

def blkValid (b : Cells) : Bool := (cget b (sideAt + 240)).getLsbD 0
def blkPoison (b : Cells) : Bool := (cget b (sideAt + 240)).getLsbD 1
def blkFormat (b : Cells) : Byte := cget b (sideAt + 241)
def blkGen (b : Cells) : BitVec 16 := BitVec.ofNat 16 (cle b (sideAt + 242) 2)
def blkCheck (b : Cells) : Word := BitVec.ofNat 32 (cle b (sideAt + 244) 4)
def setFlags (b : Cells) (valid poison : Bool) : Cells :=
  cput b (sideAt + 240) ((if valid then 1 else 0) + (if poison then 2 else 0))
def setFormat (b : Cells) (f : Byte) : Cells := cput b (sideAt + 241) f
def setGen (b : Cells) (g : BitVec 16) : Cells := cputLe b (sideAt + 242) 2 g.toNat
def setCheck (b : Cells) (w : Word) : Cells := cputLe b (sideAt + 244) 4 w.toNat
/-- Raise the generation by 1, modulo 2^16 (R135, R173). -/
def bumpGen (b : Cells) : Cells := setGen b (blkGen b + 1)
def blkMarked (b : Cells) (w : Nat) : Bool := cbit b (8 * markAt + w)

/-- The side record's byte as a format code; none for a reserved code (R31). -/
def fmtOfByte (b : Byte) : Option Fmt := if b.toNat < 32 then Fmt.ofCode (b.setWidth 5) else none
def fmtByte (f : Fmt) : Byte := f.code.setWidth 8

/-- A write into a void block first makes it valid (R135): a zeroed payload and scale records, the page's format code and
generation 1; into a valid block it raises the generation. CHECK keeps no former value. POISON and the marks stay: only voiding clears
them (R275). -/
def openBlock (b : Cells) (code : Byte) : Cells :=
  if blkValid b then bumpGen b
  else setGen (setFormat (setFlags (cfrom b markAt) true (blkPoison b)) code) 1

/-- The payload word (4 bytes) holds or gets a mark: `detect` finds an undetected error in words `lo` to `hi`, marks the
word and sets POISON (R275), and clears the correctable ones it rewrites (R383). -/
def detectWord (b : Cells) (w : Nat) : Cells :=
  let b := if cbit b (8 * softAt + w) then cputBit b (8 * softAt + w) false else b
  if cbit b (8 * latentAt + w) then
    let b := cputBit (cputBit b (8 * latentAt + w) false) (8 * markAt + w) true
    setFlags b (blkValid b) true
  else b
def detectFrom (b : Cells) (w n : Nat) : Cells :=
  match n with
  | 0 => b
  | n + 1 => detectFrom (detectWord b w) (w + 1) n
/-- The words that `n` bytes from `off` touch. -/
def detect (b : Cells) (off n : Nat) : Cells := detectFrom b (off / 4) ((off + n + 3) / 4 - off / 4)
/-- Any of those words is marked. -/
def markedIn (b : Cells) (off n : Nat) : Bool :=
  (List.range ((off + n + 3) / 4 - off / 4)).any fun k => blkMarked b (off / 4 + k)
/-- Whether a read of the whole payload meets an undetected error; most blocks hold none. -/
def hasLatent (b : Cells) : Bool := b.any fun e => latentAt ≤ e.1 && e.1 < tagAt
def detectAll (b : Cells) : Cells := if hasLatent b then detectFrom b 0 1024 else b
/-- A write replaces the storage of the words it touches: an undetected error there is gone (R378). -/
def rewriteWord (b : Cells) (w : Nat) : Cells :=
  if hasLatent b then cputBit (cputBit b (8 * latentAt + w) false) (8 * softAt + w) false else b

/-! ## CHECK and the ports (R242, R276, R358, R359) -/

/-- One bit step of CRC-32C. -/
def crcBit (c : Word) : Word := if c.getLsbD 0 then (c >>> 1) ^^^ 0x82F63B78 else c >>> 1
def crcByte (c : Word) (b : Byte) : Word :=
  let c := c ^^^ b.setWidth 32
  crcBit (crcBit (crcBit (crcBit (crcBit (crcBit (crcBit (crcBit c)))))))
/-- CRC-32C continued from `crc` over a byte list (R242). -/
def crc32c (crc : Word) (bs : List Byte) : Word :=
  bs.foldl crcByte (crc ^^^ 0xFFFFFFFF) ^^^ 0xFFFFFFFF

/-- CHECK over the owner, the payload and side-record bytes 0 to 243 (R276). -/
def checkOf (owner : BitVec 12) (b : Cells) : Word :=
  crc32c 0 (leBytes 4 owner.toNat ++ cbytes b 0 4340)

/-- The number of a slot in the machine's storage: 64 tile slots and 512 berth slots for each of 1,024 cores, 8,192 quay
slots for each of 16 quadrants, 15,728,640 HBM slots for each of 16 stacks, then the far tier (R277). -/
def slotNumber : Slot → Nat
  | .tile c i => 64 * c + i
  | .berth c i => 65536 + 512 * c + i
  | .quay q i => 589824 + 8192 * q + i
  | .hbm k i => 720896 + 15728640 * k + i
  | .far i => 252379136 + i
def slotBase (sl : Slot) : Nat := blockStride * slotNumber sl
/-- A slot behind the encrypting ports. -/
def slotPorted : Slot → Bool
  | .hbm .. | .far _ => true
  | _ => false

/-- The block as the storage holds it. -/
def rawBlock (m : Cells) (sl : Slot) : Cells := csub m (slotBase sl) blockStride
/-- Bytes brought to the canonical form: of two entries at one offset the first counts, as a read has it. -/
def cnorm (c : Cells) : Cells := if Memory.wf c then c else c.foldr (fun e d => cput d e.1 e.2) []
def setRawBlock (m : Cells) (sl : Slot) (b : Cells) : Cells := csplice m (slotBase sl) blockStride (cnorm b)

/-- The owner key bound to an owner; zero when none is. -/
def ownerKey (s : State) (o : BitVec 12) : BitVec 512 :=
  match s.owners.find? (fun r => r.id == o) with
  | some r => r.key
  | none => 0

/-- The owner and key a stored block was formed under, as one number; none when the slot has received no block. -/
def storedTag (b : Cells) : Option Nat :=
  if cget b (tagAt + 66) = 0 then none else some (cle b tagAt 66)
def tagOf (s : State) (o : BitVec 12) : Nat := o.toNat + 65536 * (ownerKey s o).toNat

/-- The data key and the tweak key of an owner: SHAKE256 over the owner key and the owner's identifier (R358). -/
def blockKeys (tag : Nat) : List Byte × List Byte :=
  let k := shakeBytes 64 (leBytes 64 (tag / 65536) ++ leBytes 2 (tag % 65536))
  (k.take 32, k.drop 32)
/-- The tweak of a slot: LEVEL, the stack and the slot's number (R359). -/
def tweakOf (sl : Slot) : List Byte :=
  leBytes 16 (match sl with
    | .hbm k i => 3 * 2 ^ 61 + k * 2 ^ 56 + i
    | .far i => 4 * 2 ^ 61 + i
    | _ => 0)
/-- The 4,352 bytes that the storage of a slot holds: a block as its port encrypted it, under the keys that formed it; what a slot that
has received none holds is free (R276). -/
def atRest (sl : Slot) (b : Cells) : List Byte :=
  match storedTag b with
  | some tag => xts false (blockKeys tag).1 (blockKeys tag).2 (tweakOf sl) (cbytes b 0 4352)
  | none => (List.range 4352).map fun o => Config.unformed (cbelow b markAt) (slotNumber sl) o
/-- What stored bytes decrypt to under an owner's keys: themselves, with the marks of the storage, under the keys that formed them. -/
def decryptAs (s : State) (owner : BitVec 12) (sl : Slot) (b : Cells) : Cells :=
  let tag := tagOf s owner
  if storedTag b = some tag then cbelow b tagAt
  else cpack 0 (xts true (blockKeys tag).1 (blockKeys tag).2 (tweakOf sl) (atRest sl b))
/-- The check of R276 on leaving an HBM or far slot: a block formed under the requesting owner's keys passes, and other contents when
the CHECK they decrypt to is the one recomputed. -/
def checkPasses (s : State) (owner : BitVec 12) (sl : Slot) (b : Cells) : Bool :=
  storedTag b == some (tagOf s owner) || let d := decryptAs s owner sl b; blkCheck d == checkOf owner d
/-- What a port delivers when a block leaves an HBM or far slot under an owner's keys (R276): the block as it decrypts, or, when the
check fails, a valid poisoned block with every payload word marked. -/
def depart (s : State) (owner : BitVec 12) (sl : Slot) (b : Cells) : Cells :=
  let d := decryptAs s owner sl b
  if checkPasses s owner sl b then d
  else cbelow d sideAt ++ cpack sideAt (List.replicate 240 0 ++ [3] ++ List.replicate 15 0 ++ List.replicate 128 0xFF)

/-- What a port stores when a block arrives (R276): CHECK is formed, and the block is kept under the owner's keys. -/
def arrive (s : State) (owner : BitVec 12) (b : Cells) : Cells :=
  let b := cbelow b tagAt
  cputLe (cput (setCheck b (checkOf owner b)) (tagAt + 66) 1) tagAt 66 (tagOf s owner)

/-- The block in a slot as a request of `owner` meets it. -/
def getBlock (s : State) (owner : BitVec 12) (sl : Slot) : Cells :=
  let b := rawBlock s.mem sl
  if slotPorted sl then depart s owner sl b else b
/-- Put a block into a slot for a request of `owner`. -/
def putBlock (s : State) (owner : BitVec 12) (sl : Slot) (b : Cells) : State :=
  { s with mem := setRawBlock s.mem sl (if slotPorted sl then arrive s owner b else cbelow b tagAt) }
/-- Void a slot (R274). -/
def voidSlot (s : State) (sl : Slot) : State := { s with mem := setRawBlock s.mem sl [] }
def voidSlots (s : State) (l : List Slot) : State := l.foldl voidSlot s

end Sys2Proof.Machine
end

