-- ==== Sys2Proof/Machine/Fp.lean ====
section
/-! DEFINITION. Number formats and exact arithmetic (02): every operation works on an exact value and rounds once. -/

namespace Sys2Proof.Machine

/-! ## Flags (R49, R73) -/
def fNV : BitVec 5 := 1
def fDZ : BitVec 5 := 2
def fOF : BitVec 5 := 4
def fUF : BitVec 5 := 8
def fNX : BitVec 5 := 16

/-- An exact value: `fin neg m e` is ±m · 2^e with m > 0. -/
inductive Num where
  | nan
  | inf (neg : Bool)
  | zero (neg : Bool)
  | fin (neg : Bool) (m : Nat) (e : Int)
  deriving DecidableEq, Repr, Inhabited

/-- A finite value from a mantissa that may be zero. -/
def Num.mk (neg : Bool) (m : Nat) (e : Int) : Num := if m = 0 then .zero neg else .fin neg m e
def Num.isNan : Num → Bool
  | .nan => true
  | _ => false
def Num.isFinite : Num → Bool
  | .zero _ | .fin .. => true
  | _ => false
def Num.neg : Num → Num
  | .nan => .nan
  | .inf s => .inf (!s)
  | .zero s => .zero (!s)
  | .fin s m e => .fin (!s) m e
def Num.sign : Num → Bool
  | .nan => false
  | .inf s | .zero s | .fin s _ _ => s
def Num.abs : Num → Num
  | .nan => .nan
  | .inf _ => .inf false
  | .zero _ => .zero false
  | .fin _ m e => .fin false m e

/-- The geometry of a floating-point format (R25): exponent and mantissa bits and bias. -/
structure FpFmt where
  e : Nat
  m : Nat
  bias : Int
  deriving DecidableEq, Repr
def fpFmt : Fmt → FpFmt
  | .bf16 => ⟨8, 7, 127⟩
  | .f16 => ⟨5, 10, 15⟩
  | .e4m3 | .sqe4m3 => ⟨4, 3, 7⟩
  | .e5m2 | .sqe5m2 => ⟨5, 2, 15⟩
  | .e2m1 | .sqe2m1 => ⟨2, 1, 1⟩
  | _ => ⟨8, 23, 127⟩
def isFp : Fmt → Bool
  | .f32 | .bf16 | .f16 | .e4m3 | .e5m2 | .e2m1 => true
  | _ => false
/-- E4M3 and E2M1 have no infinity, and E2M1 no NaN (R25). -/
def hasInf : Fmt → Bool
  | .f32 | .bf16 | .f16 | .e5m2 | .sqe5m2 => true
  | _ => false
/-- Element width in bits (R10, R55). -/
def fmtWidth : Fmt → Nat
  | .f32 | .i32 | .n32 => 32
  | .bf16 | .f16 | .n16 => 16
  | .e2m1 | .sqe2m1 => 4
  | .i64 | .n64 => 64
  | .untyped | .e4m3 | .e5m2 | .i8 | .n8 | .sqe4m3 | .sqe5m2 | .sqi8 => 8

/-- Canonical NaN codes (R27). -/
def canonNan : Fmt → Nat
  | .bf16 => 0x7FC0
  | .f16 => 0x7E00
  | .e4m3 | .sqe4m3 => 0x7F
  | .e5m2 | .sqe5m2 => 0x7E
  | .e2m1 | .sqe2m1 => 0x7
  | _ => 0x7FC00000
def nan32 : Word := 0x7FC00000
def negInf32 : Word := 0xFF800000
def posInf32 : Word := 0x7F800000

/-- The exact value of a code (R25, R26); the payload formats of the SQ family decode as their element formats. -/
def fpDecode (f : Fmt) (code : Nat) : Num :=
  let g := fpFmt f
  let man := code % 2 ^ g.m
  let ex := code / 2 ^ g.m % 2 ^ g.e
  let neg := code / 2 ^ (g.m + g.e) % 2 = 1
  if ex = 2 ^ g.e - 1 ∧ hasInf f then (if man = 0 then .inf neg else .nan)
  else if (f = .e4m3 ∨ f = .sqe4m3) ∧ ex = 15 ∧ man = 7 then .nan
  else if ex = 0 then Num.mk neg man (1 - g.bias - g.m)
  else .fin neg (2 ^ g.m + man) (ex - g.bias - g.m)

def num32 (w : Word) : Num := fpDecode .f32 w.toNat

/-- Whether a discarded fraction rounds the magnitude up: `r` of `d`, with `sticky` a positive part below one unit of r. -/
def roundsUp (rnd : Rnd) (neg odd : Bool) (r d : Nat) (sticky : Bool) : Bool :=
  let inexact := r != 0 || sticky
  match rnd with
  | .rz => false
  | .rd => neg && inexact
  | .ru => !neg && inexact
  | .rne => if 2 * r = d then sticky || odd else decide (d < 2 * r)

/-- m · 2^e (and a positive part below 2^e when `sticky`) cut to a multiple of 2^q: the multiple and whether it is inexact. -/
def roundAt (rnd : Rnd) (neg : Bool) (m : Nat) (e : Int) (sticky : Bool) (q : Int) : Nat × Bool :=
  if q ≤ e then
    let k := m * 2 ^ (e - q).toNat
    (if roundsUp rnd neg (k % 2 = 1) 0 1 sticky then k + 1 else k, sticky)
  else
    let d := 2 ^ (q - e).toNat
    let k := m / d
    let r := m % d
    (if roundsUp rnd neg (k % 2 = 1) r d sticky then k + 1 else k, r != 0 || sticky)

/-- The largest finite magnitude as a multiple of 2^q, and that q (R25). -/
def maxFinite (f : Fmt) : Nat × Int :=
  let g := fpFmt f
  match f with
  | .e4m3 | .sqe4m3 => (14, 5)
  | .e2m1 | .sqe2m1 => (3, 1)
  | _ => (2 ^ (g.m + 1) - 1, 2 ^ g.e - 2 - g.bias - g.m)

def signBit (f : Fmt) (neg : Bool) : Nat := if neg then 2 ^ ((fpFmt f).m + (fpFmt f).e) else 0
/-- The code of k · 2^q, a representable magnitude. -/
def packFinite (f : Fmt) (neg : Bool) (k : Nat) (q : Int) : Nat :=
  let g := fpFmt f
  let (k, q) := if k = 2 ^ (g.m + 1) then (2 ^ g.m, q + 1) else (k, q)
  signBit f neg + (if k < 2 ^ g.m then k else (q + g.m + g.bias).toNat * 2 ^ g.m + (k - 2 ^ g.m))
def maxCode (f : Fmt) (neg : Bool) : Nat := packFinite f neg (maxFinite f).1 (maxFinite f).2
def infCode (f : Fmt) (neg : Bool) : Nat := signBit f neg + (2 ^ (fpFmt f).e - 1) * 2 ^ (fpFmt f).m

/-- IEEE 754-2019 gives infinity, and not the largest finite value, on an overflow in this mode (R32). -/
def overflowsToInf (rnd : Rnd) (neg : Bool) : Bool :=
  match rnd with
  | .rne => true
  | .rz => false
  | .rd => neg
  | .ru => !neg

/-- Round a nonzero magnitude into a floating-point format (R32, R49): the code and the flags. A result is tiny when the rounded
value is below the smallest normal one, as R169's worked example has it (log 75, DEDUCED). -/
def roundFin (f : Fmt) (rnd : Rnd) (sat neg : Bool) (m : Nat) (e : Int) (sticky : Bool) : Nat × BitVec 5 :=
  let g := fpFmt f
  let top : Int := e + Nat.log2 m
  let emin : Int := 1 - g.bias
  let q := max top emin - g.m
  let (k, inexact) := roundAt rnd neg m e sticky q
  let (mk, mq) := maxFinite f
  if mq < q ∨ (q = mq ∧ mk < k) then
    let code := match f with
      | .e2m1 | .sqe2m1 => maxCode f neg
      | .e4m3 | .sqe4m3 => if sat || !overflowsToInf rnd neg then maxCode f neg else canonNan f
      | _ => if sat || !overflowsToInf rnd neg then maxCode f neg else infCode f neg
    (code, fOF ||| fNX)
  else
    let tiny := k < 2 ^ g.m
    (packFinite f neg k q, (if inexact then fNX else 0) ||| (if inexact && tiny then fUF else 0))

/-- Any exact value into a format (R32). -/
def roundNum (f : Fmt) (rnd : Rnd) (sat : Bool) (x : Num) : Nat × BitVec 5 :=
  match x with
  | .nan => match f with
    | .e4m3 | .e2m1 => (canonNan f, fNV)
    | _ => (canonNan f, 0)
  | .inf s => match f with
    | .e4m3 => (if sat then maxCode f s else canonNan f, fNV)
    | .e2m1 => (maxCode f s, fNV)
    | _ => (infCode f s, 0)
  | .zero s => (signBit f s, 0)
  | .fin s m e => roundFin f rnd sat s m e false

def word (n : Nat) : Word := BitVec.ofNat 32 n
/-- rne into FP32 (R13). -/
def rne32 (x : Num) : Word × BitVec 5 := let (c, f) := roundNum .f32 .rne false x; (word c, f)

/-! ## Exact sums and products -/

/-- The exact sum; the sign of an exact zero follows the rounding mode, and ∞ − ∞ is invalid (IEEE 754-2019). -/
def addNum (rnd : Rnd) (x y : Num) : Num × BitVec 5 :=
  match x, y with
  | .nan, _ | _, .nan => (.nan, 0)
  | .inf a, .inf b => if a = b then (.inf a, 0) else (.nan, fNV)
  | .inf a, _ => (.inf a, 0)
  | _, .inf b => (.inf b, 0)
  | .zero a, .zero b => (.zero (if a = b then a else rnd = .rd), 0)
  | .zero _, y => (y, 0)
  | x, .zero _ => (x, 0)
  | .fin a m e, .fin b n f =>
    let q := min e f
    let i : Int := m * 2 ^ (e - q).toNat
    let j : Int := n * 2 ^ (f - q).toNat
    let t := (if a then -i else i) + (if b then -j else j)
    if t = 0 then (.zero (rnd = .rd), 0) else (.fin (t < 0) t.natAbs q, 0)

/-- The exact product; ∞ × 0 is invalid. -/
def mulNum (x y : Num) : Num × BitVec 5 :=
  match x, y with
  | .inf _, .zero _ | .zero _, .inf _ => (.nan, fNV)
  | .nan, _ | _, .nan => (.nan, 0)
  | .inf a, y => (.inf (a != y.sign), 0)
  | x, .inf b => (.inf (x.sign != b), 0)
  | .zero a, y => (.zero (a != y.sign), 0)
  | x, .zero b => (.zero (x.sign != b), 0)
  | .fin a m e, .fin b n f => (.fin (a != b) (m * n) (e + f), 0)

/-- x · y + z with the product exact (R158): ∞ × 0 is invalid even when z is NaN. -/
def fmaNum (rnd : Rnd) (x y z : Num) : Num × BitVec 5 :=
  let (p, f) := mulNum x y
  if f != 0 then (.nan, f) else addNum rnd p z

/-- One rounding into FP32 with SAT of R158: the value alone changes. -/
def finish32 (rnd : Rnd) (sat : Bool) (r : Num × BitVec 5) : Word × BitVec 5 :=
  let (c, f) := roundNum .f32 rnd (sat && r.1.isFinite) r.1
  (word c, f ||| r.2)

def add32 (rnd : Rnd) (sat : Bool) (a b : Word) : Word × BitVec 5 := finish32 rnd sat (addNum rnd (num32 a) (num32 b))
def sub32 (rnd : Rnd) (sat : Bool) (a b : Word) : Word × BitVec 5 := finish32 rnd sat (addNum rnd (num32 a) (num32 b).neg)
def mul32 (rnd : Rnd) (sat : Bool) (a b : Word) : Word × BitVec 5 := finish32 rnd sat (mulNum (num32 a) (num32 b))
def fma32 (rnd : Rnd) (sat : Bool) (a b c : Word) : Word × BitVec 5 :=
  finish32 rnd sat (fmaNum rnd (num32 a) (num32 b) (num32 c))

/-! ## Comparison, minimum and maximum (R47, R161) -/

/-- x < y over exact values, NaN excluded; −0 and +0 are equal here. -/
def numLt (x y : Num) : Bool :=
  match x, y with
  | .nan, _ | _, .nan => false
  | .inf a, .inf b => a && !b
  | .inf a, _ => a
  | _, .inf b => !b
  | .zero _, .zero _ => false
  | .zero _, .fin b _ _ => !b
  | .fin a _ _, .zero _ => a
  | .fin a m e, .fin b n f =>
    if a != b then a
    else
      let q := min e f
      let i := m * 2 ^ (e - q).toNat
      let j := n * 2 ^ (f - q).toNat
      if a then decide (j < i) else decide (i < j)
def numEq (x y : Num) : Bool := !x.isNan && !y.isNan && !numLt x y && !numLt y x

/-- Minimum and maximum: a NaN gives NaN and invalid, and −0 lies below +0. -/
def minNum (x y : Num) : Num × BitVec 5 :=
  if x.isNan || y.isNan then (.nan, fNV)
  else if numLt x y || (numEq x y && x.sign) then (x, 0) else (y, 0)
def maxNum (x y : Num) : Num × BitVec 5 :=
  if x.isNan || y.isNan then (.nan, fNV)
  else if numLt y x || (numEq x y && !x.sign) then (x, 0) else (y, 0)
def min32 (a b : Word) : Word × BitVec 5 :=
  let (x, f) := minNum (num32 a) (num32 b); (word (roundNum .f32 .rne false x).1, f)
def max32 (a b : Word) : Word × BitVec 5 :=
  let (x, f) := maxNum (num32 a) (num32 b); (word (roundNum .f32 .rne false x).1, f)

/-! ## Correctly rounded functions (R48) -/

/-- Quotient of positive magnitudes as a mantissa of at least 40 bits, its exponent and whether a remainder is left. -/
def divMag (m : Nat) (e : Int) (n : Nat) (f : Int) : Nat × Int × Bool :=
  let k := 40 + Nat.log2 n
  let a := m * 2 ^ k
  (a / n, e - f - k, a % n != 0)

def div32 (a b : Word) : Word × BitVec 5 :=
  let x := num32 a
  let y := num32 b
  let s := x.sign != y.sign
  match x, y with
  | .nan, _ | _, .nan => (nan32, 0)
  | .inf _, .inf _ | .zero _, .zero _ => (nan32, fNV)
  | .inf _, _ => (word (infCode .f32 s), 0)
  | .zero _, _ | _, .inf _ => (word (signBit .f32 s), 0)
  | _, .zero _ => (word (infCode .f32 s), fDZ)
  | .fin _ m e, .fin _ n f =>
    let (q, qe, st) := divMag m e n f
    let (c, g) := roundFin .f32 .rne false s q qe st
    (word c, g)

/-- Integer square root by bits, from bit `i` down. -/
def isqrtFrom (n : Nat) (r : Nat) (i : Nat) : Nat :=
  let r' := r + 2 ^ i
  let r := if r' * r' ≤ n then r' else r
  match i with
  | 0 => r
  | i + 1 => isqrtFrom n r i
def isqrt (n : Nat) : Nat := isqrtFrom n 0 (Nat.log2 n / 2)

def sqrt32 (a : Word) : Word × BitVec 5 :=
  match num32 a with
  | .nan => (nan32, 0)
  | .zero s => (word (signBit .f32 s), 0)
  | .inf s => if s then (nan32, fNV) else (posInf32, 0)
  | .fin s m e =>
    if s then (nan32, fNV)
    else
      let k : Nat := if e % 2 = 0 then 80 else 81
      let n := m * 2 ^ k
      let r := isqrt n
      let (c, g) := roundFin .f32 .rne false false r ((e - k) / 2) (r * r != n)
      (word c, g)

def rcp32 (a : Word) : Word × BitVec 5 := div32 0x3F800000 a

def rsqrt32 (a : Word) : Word × BitVec 5 :=
  match num32 a with
  | .nan => (nan32, 0)
  | .zero s => (word (infCode .f32 s), fDZ)
  | .inf s => if s then (nan32, fNV) else (0, 0)
  | .fin s m e =>
    if s then (nan32, fNV)
    else
      -- 1 / sqrt(m 2^e) = sqrt(2^k / m) 2^((-e-k)/2), with e + k even
      let k : Nat := if e % 2 = 0 then 160 else 161
      let n := 2 ^ k / m
      let r := isqrt n
      let (c, g) := roundFin .f32 .rne false false r ((-e - k) / 2) (r * r * m != 2 ^ k)
      (word c, g)

/-- Bounds of 2^(2^−i) for i from 1, in units of 2^−p, times the bounds so far, for each set bit of a fraction, its
highest bit first. The lower bound is cut down and the upper one rounded up at every step. -/
def exp2Bits (p : Nat) (frac : Nat) (w : Nat) (lo hi clo chi : Nat) : Nat × Nat :=
  match w with
  | 0 => (lo, hi)
  | w + 1 =>
    let clo := isqrt (clo * 2 ^ p)
    let chi := isqrt (chi * 2 ^ p) + 1
    if frac.testBit w then exp2Bits p frac w (lo * clo / 2 ^ p) (hi * chi / 2 ^ p + 1) clo chi
    else exp2Bits p frac w lo hi clo chi

/-- 2^n · 2^f for a nonzero fraction f = frac · 2^−w, rounded once: tried at rising precision until both bounds round to
one value. -/
def exp2Frac (n : Int) (frac w : Nat) (fuel : Nat) (p : Nat) : Nat × BitVec 5 :=
  let (lo, hi) := exp2Bits p frac w (2 ^ p) (2 ^ p) (2 * 2 ^ p) (2 * 2 ^ p)
  let r := roundFin .f32 .rne false false lo (n - p) true
  match fuel with
  | 0 => r
  | fuel + 1 =>
    if r = roundFin .f32 .rne false false hi (n - p) false then r else exp2Frac n frac w fuel (2 * p)

def exp232 (a : Word) : Word × BitVec 5 :=
  match num32 a with
  | .nan => (nan32, 0)
  | .inf s => (if s then 0 else posInf32, 0)
  | .zero _ => (0x3F800000, 0)
  | .fin s m e =>
    if 8 ≤ e + Nat.log2 m then (if s then (0, fUF ||| fNX) else (posInf32, fOF ||| fNX))
    else
      let w := (-e).toNat
      let k := m * 2 ^ e.toNat
      let t : Int := if s then -(k : Int) else k
      let n := t / 2 ^ w
      let frac := (t % 2 ^ w).toNat
      let (c, g) := if frac = 0 then roundFin .f32 .rne false false 1 n false else exp2Frac n frac w 2 128
      (word c, g)

/-- The first `k` fraction bits of log2 of y in [1, 2), y within its bounds in units of 2^−p, while both bounds agree. -/
def log2Bits (p : Nat) (lo hi : Nat) (k : Nat) (acc : Nat) (used : Nat) : Nat × Nat :=
  match k with
  | 0 => (acc, used)
  | k + 1 =>
    let lo := lo * lo / 2 ^ p
    let hi := hi * hi / 2 ^ p + 1
    if 2 * 2 ^ p ≤ lo then log2Bits p (lo / 2) (hi / 2 + 1) k (2 * acc + 1) (used + 1)
    else if hi < 2 * 2 ^ p then log2Bits p lo hi k (2 * acc) (used + 1)
    else (acc, used)

def log232 (a : Word) : Word × BitVec 5 :=
  match num32 a with
  | .nan => (nan32, 0)
  | .zero _ => (negInf32, fDZ)
  | .inf s => if s then (nan32, fNV) else (posInf32, 0)
  | .fin s m e =>
    if s then (nan32, fNV)
    else
      let l := Nat.log2 m
      let n : Int := e + l
      if m = 2 ^ l then
        if n = 0 then (0, 0)
        else let (c, g) := roundFin .f32 .rne false (n < 0) n.natAbs 0 false; (word c, g)
      else
        let p := 400
        let y := m * 2 ^ (p - l)
        let (acc, used) := log2Bits p y y 160 0 0
        let v : Int := n * 2 ^ used + acc
        let (c, g) :=
          if 0 ≤ v then roundFin .f32 .rne false false v.natAbs (-used) true
          else roundFin .f32 .rne false true (-v - 1).natAbs (-used) true
        (word c, g)

/-! ## Conversions (R32 to R34, R167) -/

def isInt : Fmt → Bool
  | .i8 | .i32 | .i64 | .n8 | .n16 | .n32 | .n64 => true
  | _ => false
def isSigned : Fmt → Bool
  | .i8 | .i32 | .i64 => true
  | _ => false
def intMin (f : Fmt) : Int := if isSigned f then -(2 ^ (fmtWidth f - 1)) else 0
def intMax (f : Fmt) : Int := if isSigned f then 2 ^ (fmtWidth f - 1) - 1 else 2 ^ fmtWidth f - 1

/-- The value of an integer code. -/
def intDecode (f : Fmt) (code : Nat) : Int :=
  let w := fmtWidth f
  let c := code % 2 ^ w
  if isSigned f ∧ 2 ^ (w - 1) ≤ c then (c : Int) - 2 ^ w else c
def intNum (i : Int) : Num := Num.mk (i < 0) i.natAbs 0

/-- FP to integer (R33): always saturating. -/
def numToInt (f : Fmt) (rnd : Rnd) (x : Num) : Int × BitVec 5 :=
  match x with
  | .nan => (0, fNV)
  | .inf s => (if s then intMin f else intMax f, fNV)
  | .zero _ => (0, 0)
  | .fin s m e =>
    let (k, inexact) := roundAt rnd s m e false 0
    let i : Int := if s then -(k : Int) else k
    if i < intMin f then (intMin f, fNV) else if intMax f < i then (intMax f, fNV)
    else (i, if inexact then fNX else 0)

/-- Clamp an integer to a format's range, raising overflow where it clamps (R28, R34). -/
def clampInt (f : Fmt) (i : Int) : Int × BitVec 5 :=
  if i < intMin f then (intMin f, fOF) else if intMax f < i then (intMax f, fOF) else (i, 0)

/-- The low `w` bits of an integer. -/
def intCode (w : Nat) (i : Int) : Nat := (i % 2 ^ w).toNat

/-- A code of `src` to a code of `dst` (R168): the code has the width of `dst`. -/
def convert (src dst : Fmt) (rnd : Rnd) (sat : Bool) (code : Nat) : Nat × BitVec 5 :=
  if isFp src then
    let x := fpDecode src (code % 2 ^ fmtWidth src)
    if isFp dst then roundNum dst rnd sat x
    else let (i, f) := numToInt dst rnd x; (intCode (fmtWidth dst) i, f)
  else
    let i := intDecode src code
    if isFp dst then roundNum dst rnd sat (intNum i)
    else if sat then let (j, f) := clampInt dst i; (intCode (fmtWidth dst) j, f)
    else (intCode (fmtWidth dst) i, 0)

/-- The lane form of a code (R167): zero-extended, and .i8 sign-extended. -/
def laneForm (f : Fmt) (code : Nat) : Word :=
  match f with
  | .i8 => word (intCode 32 (intDecode .i8 code))
  | _ => word (code % 2 ^ fmtWidth f)

/-- A code read into a lane, narrow FP widened exactly to FP32 and a NaN made canonical (R58, R167, R176). -/
def widen (f : Fmt) (code : Nat) : Word :=
  match f with
  | .f32 | .i32 | .n32 => word code
  | .bf16 | .f16 | .e4m3 | .e5m2 | .e2m1 => (rne32 (fpDecode f (code % 2 ^ fmtWidth f))).1
  | _ => laneForm f code

/-! ## The square-scaled family (R35 to R42) -/

/-- A scale record: E, the 32 row and the 32 column micro-exponents (R39). -/
structure Scale where
  e : Nat
  r : List Nat
  c : List Nat
  deriving DecidableEq, Repr, Inhabited

def unpack3 (v : Nat) (n : Nat) : List Nat := (List.range n).map fun i => v / 8 ^ i % 8
def pack3 (l : List Nat) : Nat :=
  match l with
  | [] => 0
  | x :: t => x % 8 + 8 * pack3 t
def scaleOfBytes (b : List Byte) : Scale :=
  ⟨(b.headD 0).toNat, unpack3 (leNat ((b.drop 1).take 12)) 32, unpack3 (leNat ((b.drop 13).take 12)) 32⟩
def scaleBytes (s : Scale) : List Byte :=
  leBytes 1 s.e ++ leBytes 12 (pack3 s.r) ++ leBytes 12 (pack3 s.c) ++ [0, 0, 0]

/-- The exact value of an SQ payload under its scales (R36). -/
def sqDecode (f : Fmt) (code : Nat) (e r c : Nat) : Num :=
  if e = 255 then .nan
  else
    let k : Int := (e : Int) - 127 + r + c
    let x := if f = .sqi8 then intNum (intDecode .i8 code) else fpDecode f (code % 2 ^ fmtWidth f)
    match x with
    | .fin s m g => .fin s m (g + k)
    | x => x

/-- floor(log2 |x|); none for zero, NaN and ∞. -/
def logOf : Num → Option Int
  | .fin _ m e => some (e + Nat.log2 m)
  | _ => none
def maxOpt (l : List (Option Int)) : Option Int :=
  l.foldl (fun a b => match a, b with
    | some x, some y => some (max x y)
    | some x, none => some x
    | none, b => b) none
def emaxOf : Fmt → Int
  | .sqe2m1 => 2 | .sqe4m3 => 8 | .sqe5m2 => 15 | _ => 6
/-- ceil(x / 2) -/
def ceilHalf (x : Int) : Int := (x + 1) / 2

/-- One payload of a fit: y · 2^−s rounded and clamped (R40); inexact also when sat clamps, underflow when a nonzero y
gives a zero payload, and no other flag (R41). -/
def fitOne (f : Fmt) (y : Num) (s : Int) : Nat × BitVec 5 :=
  match y with
  | .fin neg m e =>
    if f = .sqi8 then
      let (k, inexact) := roundAt .rne neg m (e - s) false 0
      let k' := min k 127
      let i : Int := if neg then -(k' : Int) else k'
      (intCode 8 i, (if inexact || k' != k then fNX else 0) ||| (if k' = 0 then fUF else 0))
    else
      let (c, g) := roundFin f .rne true neg m (e - s) false
      let mag := c % 2 ^ (fmtWidth f - 1)
      (c, (g &&& fNX) ||| (if mag = 0 then fUF else 0))
  | y => (if f = .sqi8 then 0 else signBit f y.sign, 0)

/-- The fit of a 32 × 32 scale block given by rows (R40): payloads by rows, the scale record and the flags. -/
def fitBlock (f : Fmt) (y : List (List Num)) : List (List Nat) × Scale × BitVec 5 :=
  let zeros : List Nat := List.replicate 32 0
  if y.any (fun r => r.any (fun x => !x.isFinite)) then
    (y.map (fun r => r.map (fun _ => 0)), ⟨255, zeros, zeros⟩, fNV)
  else
    let logs := y.map (fun r => r.map logOf)
    let rows := logs.map maxOpt
    let cols := (List.range 32).map fun j => maxOpt (logs.map fun r => (r[j]?).getD none)
    match maxOpt rows with
    | none => (y.map (fun r => r.map (fun x => (fitOne f x 0).1)), ⟨0, zeros, zeros⟩, 0)
    | some m =>
      let e := min 254 (max 0 (m - 14 - emaxOf f + 127))
      let mu (o : Option Int) : Nat := match o with
        | some x => (max 0 (ceilHalf (x - m + 14))).toNat
        | none => 0
      let rs : List Nat := rows.map mu
      let cs : List Nat := cols.map mu
      let out : List (List (Nat × BitVec 5)) := (y.zip rs).map fun p =>
        (p.1.zip cs).map fun q => fitOne f q.1 (e - 127 + Int.ofNat p.2 + Int.ofNat q.2)
      (out.map (fun r => r.map (·.1)), ⟨e.toNat, rs, cs⟩,
       out.foldl (fun a r => r.foldl (fun a p => a ||| p.2) a) 0)

/-! ## Reductions and triples (R46, R182, R248) -/

/-- One level of the pairwise tree. -/
def treeLevel (op : Word → Word → Word × BitVec 5) (l : List Word) : List Word × BitVec 5 :=
  match l with
  | a :: b :: t =>
    let (x, f) := op a b
    let (r, g) := treeLevel op t
    (x :: r, f ||| g)
  | l => (l, 0)
def treeLevels (op : Word → Word → Word × BitVec 5) (l : List Word) (n : Nat) : List Word × BitVec 5 :=
  match n with
  | 0 => (l, 0)
  | n + 1 =>
    let (l', f) := treeLevel op l
    let (r, g) := treeLevels op l' n
    (r, f ||| g)
/-- The seven-level tree over 128 lanes (R46). -/
def tree128 (op : Word → Word → Word × BitVec 5) (l : List Word) : Word × BitVec 5 :=
  let (r, f) := treeLevels op l 7
  (r.headD 0, f)

/-- A triple: o, m and l (R182). -/
structure Triple where
  o : List Word
  m : Word
  l : Word
  deriving DecidableEq, Repr

/-- The combine of two triples, B of the higher index (R182): the triple, and the flags of the steps that form dd and s,
of the l step, and of each o step. -/
def combineTriple (a b : Triple) : Triple × BitVec 5 × BitVec 5 × List (BitVec 5) :=
  let none5 := a.o.map fun _ => (0 : BitVec 5)
  let ma := num32 a.m
  let mb := num32 b.m
  if ma.isNan || mb.isNan then (⟨a.o.map (fun _ => nan32), nan32, nan32⟩, 0, 0, none5)
  else if ma == .inf true && mb == .inf true then (⟨a.o.map (fun _ => 0), negInf32, 0⟩, 0, 0, none5)
  else
    let (big, small) := if numLt ma mb then (b, a) else (a, b)
    if num32 small.m == .inf true then (⟨big.o, big.m, big.l⟩, 0, 0, none5)
    else
      let (dd, f1) := sub32 .rne false small.m big.m
      let (s, f2) := exp232 dd
      let (l, f3) := fma32 .rne false small.l s big.l
      let os := (small.o.zip big.o).map fun (x, y) => fma32 .rne false x s y
      (⟨os.map (·.1), big.m, l⟩, f1 ||| f2, f3, os.map (·.2))

/-! ## Atomic operations on elements (R139, R247, R249) -/

/-- op(old, operand) over `f`, codes of the width of `f`: the new code and the flags. -/
def atomCombine (op : AtomOp) (f : Fmt) (old x : Nat) : Nat × BitVec 5 :=
  let w := fmtWidth f
  match op with
  | .swap => (x, 0)
  | .and => (old &&& x, 0)
  | .or => (old ||| x, 0)
  | .xor => (old ^^^ x, 0)
  | .add =>
    if isFp f then
      let (s, g) := addNum .rne (fpDecode f old) (fpDecode f x)
      let (c, h) := roundNum f .rne false s
      (c, g ||| h)
    else ((old + x) % 2 ^ w, 0)
  | .min =>
    if isFp f then let (m, g) := minNum (fpDecode f old) (fpDecode f x); ((roundNum f .rne false m).1, g)
    else (if intDecode f x < intDecode f old then x else old, 0)
  | .max =>
    if isFp f then let (m, g) := maxNum (fpDecode f old) (fpDecode f x); ((roundNum f .rne false m).1, g)
    else (if intDecode f old < intDecode f x then x else old, 0)

end Sys2Proof.Machine
end

