-- ==== Sys2Proof/Machine/Reads.lean ====
section
/-! DEFINITION. What an instruction reads as it issues, by the units of R379: 0 scalar registers, 1 predicates, 2 vector registers,
3 accumulators, 6 control registers by number. An undetected error there is met by that read (R378). -/

namespace Sys2Proof.Machine

def gs (l : List Reg) : List (Nat × Nat) := l.map fun r => (0, r.toNat)
def ps (l : List PReg) : List (Nat × Nat) := l.map fun r => (1, r.toNat)
def vs (l : List Reg) : List (Nat × Nat) := l.map fun r => (2, r.toNat)
def accReads (l : List Spec) : List (Nat × Nat) := l.map fun sp => (3, sp.num.toNat % 4)
/-- The index of a direction. -/
def indexReads (sp : Spec) : List (Nat × Nat) := if sp.dir == .whole then [] else [(0, sp.idx.toNat)]
/-- The shape and the index of a tile specifier. -/
def tileReads (l : List Spec) : List (Nat × Nat) := l.flatMap fun sp => [(6, 0x10 + sp.num.toNat)] ++ indexReads sp
def boundReads (b : BitVec 4) : List (Nat × Nat) := if b = 0 then [] else [(6, 0x30 + b.toNat), (6, 0x41)]
/-- VOIDMODE, which says what a read of a void block does (R69). -/
def voidReads : List (Nat × Nat) := [(6, 0x58)]
def drainReads (dr : Drain) : List (Nat × Nat) :=
  accReads [dr.a] ++ tileReads ([dr.d] ++ dr.res.toList) ++ (match dr.scl with | some v => vs [v, v + 1] | none => [])
    ++ [(6, 0x20 + dr.vc.toNat)] ++ boundReads dr.bound ++ (if dr.drop then [(6, 0x70), (6, 0x71), (6, 0x72)] else []) ++ if dr.res.isSome then voidReads else []
def nearReads : Near → List (Nat × Nat)
  | .tile _ => []
  | .reg g => gs [g]
/-- The shapes that the allocator reads (R64). -/
def shapeReads : List (Nat × Nat) := (List.range 8).map fun t => (6, 0x10 + t)
def agudReads (gen : BitVec 2) : List (Nat × Nat) :=
  (List.range 8).filterMap fun i => if gen.getLsbD (i / 4) then some (6, 0x68 + i) else none

/-- The registers that an instruction's own operation reads, its guard apart. -/
def readsOf : Instr → List (Nat × Nat)
  | .add _ _ a b | .sub _ _ a b | .mul _ _ a b | .mulh _ _ a b | .mulhn _ _ a b | .div _ _ a b | .divn _ _ a b | .rem _ _ a b
  | .remn _ _ a b | .min _ _ a b | .max _ _ a b | .minn _ _ a b | .maxn _ _ a b | .and _ _ a b | .or _ _ a b | .xor _ _ a b
  | .shl _ _ a b | .shr _ _ a b | .sar _ _ a b | .cmp _ _ a b _ => gs [a, b]
  | .clz _ _ a | .popc _ _ a | .addi _ _ a _ | .andi _ _ a _ | .ori _ _ a _ | .xori _ _ a _ | .shli _ _ a _ | .shri _ _ a _
  | .sari _ _ a _ | .cmpi _ _ a _ _ => gs [a]
  | .sel _ _ a b e => gs [a, b, e]
  | .ld _ _ base _ _ | .lda _ _ base _ _ _ => gs [base] ++ voidReads
  | .st _ d base _ _ | .stl _ d base _ _ _ => gs [d, base]
  | .amo _ _ a b _ _ => gs [a, b] ++ voidReads
  | .cas _ _ a b e _ => gs [a, b, e] ++ voidReads
  | .bc _ _ _ a _ | .br _ _ a | .loop _ _ a _ => gs [a]
  | .waitp _ a b => gs [a, b]
  | .mfc _ _ n => [(6, n.toNat)]
  | .mtc _ d _ => gs [d]
  | .hsel _ a | .hcmd _ _ a | .hwait _ _ a => gs [a]
  | .hrd _ _ b => gs [b]
  | .hwr _ b e => gs [b, e]
  | .vadd _ _ a b _ _ | .vsub _ _ a b _ _ | .vmul _ _ a b _ _ | .vdiv _ _ a b | .vmin _ _ a b | .vmax _ _ a b | .vcps _ _ a b
  | .viadd _ _ a b _ _ | .visub _ _ a b _ _ | .vimul _ _ a b _ _ | .vimulh _ _ a b _ | .vimin _ _ a b _ | .vimax _ _ a b _
  | .vand _ _ a b _ | .vor _ _ a b _ | .vxor _ _ a b _ | .vshl _ _ a b _ | .vshr _ _ a b _ | .vsar _ _ a b _
  | .vcmp _ _ a b _ | .vicmp _ _ a b _ | .vperm _ _ a b => vs [a, b]
  | .vsqrt _ _ a | .vrcp _ _ a | .vrsq _ _ a | .vexp2 _ _ a | .vlog2 _ _ a | .vabs _ _ a | .vneg _ _ a | .vpopc _ _ a
  | .vclass _ _ a _ | .vmov _ _ a | .vrsum _ _ a _ | .vrmax _ _ a _ | .vrmin _ _ a _ | .vramax _ _ a | .vcvt _ _ a _ _ _ _
  | .vcvtMxImport _ _ a _ _ => vs [a]
  | .vfma _ _ a b e _ _ | .vfms _ _ a b e _ _ | .vfnma _ _ a b e _ _ => vs [a, b, e]
  | .pand _ _ a b | .por _ _ a b | .pxor _ _ a b => ps [a, b]
  | .pnot _ _ a | .pcnt _ _ a | .pfirst _ _ a => ps [a]
  | .vsel _ _ a b e => vs [a, b] ++ ps [e]
  | .vbcst _ _ a _ => gs [a]
  | .vextr _ _ a b | .vrot _ _ a b => vs [a] ++ gs [b]
  | .vins _ _ a b => gs [a, b]
  | .vmovDirRead _ _ sp _ => if sp.acc then accReads [sp] ++ indexReads sp else tileReads [sp] ++ voidReads
  | .vmovDirWrite _ v sp _ _ _ bound => vs [v] ++ tileReads [sp] ++ boundReads bound
  | .vld _ _ base _ _ => gs [base] ++ voidReads
  | .vst _ d base _ _ => vs [d] ++ gs [base]
  | .vldg _ _ a b _ => gs [a] ++ vs [b] ++ voidReads
  | .vsts _ d a b _ => vs [d, b] ++ gs [a]
  | .vpark _ v => vs [v] ++ shapeReads
  | .vunpark _ _ sp => tileReads [sp]
  | .vtri _ _ a b => vs [a, a + 1, b, b + 1]
  | .vtrin _ _ a _ => vs [a, a + 1]
  | .vbnd _ v bound => vs [v] ++ boundReads bound
  | .mma _ _ d a b vc | .mmat _ _ d a b vc => accReads [d] ++ tileReads [a, b] ++ [(6, 0x20 + vc.toNat)] ++ voidReads
  | .macc _ _ d a => accReads [d, a]
  | .mscl _ _ d v _ => accReads [d] ++ vs [v]
  | .mmsk _ _ d g => accReads [d] ++ gs [g]
  | .mred _ _ _ a _ | .mtrn _ _ _ a => accReads [a]
  | .mdrn _ _ dr | .mdrnq _ _ dr => drainReads dr
  | .xch _ near far cnt _ => nearReads near ++ gs [far, cnt]
  | .xchs _ near far cnt _ => nearReads near ++ gs [far, cnt]
  | .xchg _ near far cnt _ | .xcht _ near far cnt _ | .xtil _ near far cnt _ | .xtilt _ near far cnt _ =>
    gs [near, far, cnt] ++ voidReads
  | .xfar _ near far cnt => gs [near, far, cnt]
  | .xchp _ near far cnt _ => gs [near, far, cnt] ++ [(6, 0x48), (6, 0x49)]
  | .xdrop _ near => nearReads near
  | .xtstv _ near _ => nearReads near
  | .xpen _ near far => gs [near, far]
  | .xwake _ far | .xdoze _ far | .xwin _ far _ | .xkick _ far _ => gs [far]
  | .xcrck _ far _ => gs [far] ++ [(6, 0x60)]
  | .xnsend _ sp _ => tileReads [sp] ++ voidReads
  | .xnrecv _ sp _ => tileReads [sp]
  | .xagu _ gen => agudReads gen
  | .xred _ near far cnt _ _ | .xtri _ near far cnt _ => gs [near, far, cnt] ++ voidReads
  | .xrch _ near far cnt _ | .xrchc _ near far cnt _
  | .xcas _ near far cnt _ => gs [near, far, cnt]
  | .xamo _ near far _ _ | .xamor _ near far _ _ => gs [near, far]
  | _ => []

end Sys2Proof.Machine
end

