-- ==== Sys2Proof/Machine/Ops.lean ====
section
/-! DEFINITION. The named operations over registers, cores, gangs and the outside (03, 04, 13, 20): one home for every
register, the code chains, the causes and the taking of a trap, the return from one, holds, and what the device reports. -/

namespace Sys2Proof.Machine

/-- What a step answers. -/
abbrev Out := Host.Outcome State Fault Refusal

/-! ## Finding and changing gangs and cores -/

/-- Change one entry of a vector. -/
def vmod {α : Type} {n : Nat} (v : Vector α n) (i : Nat) (f : α → α) : Vector α n :=
  if h : i < n then v.set i (f v[i]) else v

def getGang (s : State) (id : Nat) : Option Gang := s.gangs.find? (fun g => g.id == id)
def modGang (s : State) (id : Nat) (f : Gang → Gang) : State :=
  { s with gangs := s.gangs.map fun g => if g.id == id then f g else g }
def modCore (g : Gang) (i : Nat) (f : Core → Core) : Gang := { g with cores := g.cores.modify i f }
def modCores (g : Gang) (f : Core → Core) : Gang := { g with cores := g.cores.map f }
def modMember (s : State) (k : CoreId) (f : Core → Core) : State := modGang s k.gang fun g => modCore g k.idx f
def getMember (s : State) (k : CoreId) : Option (Gang × Core) := do
  let g ← getGang s k.gang
  let c ← g.cores[k.idx]?
  some (g, c)
/-- A gang of no launch: the harbourmaster's core runs beside it. -/
def noGang : Gang := { id := 0, part := 0, desc := {} }
/-- The members of a gang (R330): four cores for each router group. -/
def Gang.size (g : Gang) : Nat := 4 * g.desc.w * g.desc.h
/-- The member index of a core (R332): a secondary reads as its primary. -/
def memberOf (g : Gang) (i : Nat) : Nat := i % g.size
def isSecondary (g : Gang) (i : Nat) : Bool := g.size ≤ i
/-- The logical number and the package quadrant of a core (R16). -/
def coreNum (x y : Nat) : Nat := 32 * y + x
def quadOf (x y : Nat) : Nat := 4 * (2 * (y / 16) + x / 16) + 2 * (y % 16 / 8) + x % 16 / 8
def Core.num (c : Core) : Nat := coreNum c.x c.y
def Core.quad (c : Core) : Nat := quadOf c.x c.y

/-! ## Counters and the calendar of outside events (logs 2 and 11, DESIGN CHOICE) -/

/-- The next of the machine's serial numbers. -/
def fresh (s : State) : Nat × State := (s.serial, { s with serial := s.serial + 1 })
/-- A free value over the counter of free values. -/
def draw {α : Type} (f : Nat → α) (s : State) : α × State := (f s.free, { s with free := s.free + 1 })
def insertEvent (l : List (Nat × Instr)) (t : Nat) (i : Instr) : List (Nat × Instr) :=
  match l with
  | [] => [(t, i)]
  | (u, j) :: r => if t < u then (t, i) :: (u, j) :: r else (u, j) :: insertEvent r t i
/-- An event of the outside, `d` package cycles from now. -/
def post (s : State) (d : Nat) (i : Instr) : State := { s with agenda := insertEvent s.agenda (s.ptide + d) i }
/-- The route to a chip uses a link; one that the host has given it since goes round the links that were dead then (R393). -/
def routeUses (s : State) (chip : BitVec 22) (alt : Bool) (l : Nat) : Bool := Config.routeVia chip alt l && !s.around.contains (chip, l)
/-- Package cycles until the last port on the route to a chip has retrained (R310, R390). -/
def routePause (s : State) (chip : BitVec 22) : Nat :=
  s.ports.toList.zipIdx.foldl (fun a p =>
    if s.ptide < p.1.paused && routeUses s chip (s.alternate.contains chip) p.2 then max a (p.1.paused - s.ptide) else a) 0
/-- Package cycles that a message to a chip takes on the fabric: a free time, past any pause of its route. -/
def travel (s : State) (chip : BitVec 22) : Nat × State :=
  let (d, s) := draw Config.fabricTime s
  (d + routePause s chip, s)

/-! ## Registers (R53, R54) -/

def Regs.rg (r : Regs) (i : Reg) : Dword := if i = 0 then 0 else r.g[i.toNat]'(by have := i.isLt; omega)
/-- A register by number, g0 reading zero. -/
def Regs.rgn (r : Regs) (i : Nat) : Dword := if i = 0 then 0 else (r.g[i]?).getD 0
def Regs.setG (r : Regs) (i : Reg) (v : Dword) : Regs :=
  if i = 0 then r else { r with g := r.g.set i.toNat v (by have := i.isLt; omega) }
def Regs.rp (r : Regs) (i : PReg) : Pred := if i = 0 then BitVec.allOnes 128 else r.p[i.toNat]'(by have := i.isLt; omega)
def Regs.setP (r : Regs) (i : PReg) (v mask : Pred) : Regs :=
  if i = 0 then r else { r with p := r.p.set i.toNat (v &&& mask ||| r.rp i &&& ~~~mask) (by have := i.isLt; omega) }
def Regs.rv (r : Regs) (i : Reg) : Lanes := r.v[i.toNat]'(by have := i.isLt; omega)
/-- Lane by lane: the new value where the mask is set. -/
def mergeLanes (old new : Lanes) (mask : Pred) : Lanes :=
  if mask = BitVec.allOnes 128 then new else Vector.ofFn fun k => if mask.getLsbD k.val then new[k] else old[k]
def Regs.setV (r : Regs) (i : Reg) (v : Lanes) (mask : Pred) : Regs :=
  { r with v := r.v.set i.toNat (mergeLanes (r.rv i) v mask) (by have := i.isLt; omega) }

/-! ## Tile shapes and the parking allocator (R55, R56, R64) -/

def tshpFmt (t : Dword) : Option Fmt := fmtOfByte (t.extractLsb' 24 8)
def tshpRows (t : Dword) : Nat := let n := (t.extractLsb' 16 8).toNat; if n = 0 then 128 else n
def tshpCols (t : Dword) (f : Fmt) : Nat := let n := (t.extractLsb' 0 10).toNat; if n = 0 then 2048 / fmtWidth f else n
/-- Whether MTC takes a TSHP value (R56). -/
def tshpOk (t : Dword) : Bool :=
  match tshpFmt t with
  | none => false
  | some f =>
    let cols := tshpCols t f
    (t.extractLsb' 16 8).toNat < 0x80 && cols * fmtWidth f ≤ 2048
      && (!f.isSq || tshpRows t % 32 == 0 && cols % 32 == 0)
/-- The eight tiles, and the pair m of tile t, in the order the allocator tries them. -/
def parkFree (r : Regs) (t m : Nat) : Bool :=
  tshpRows ((r.ctl.tshp[t]?).getD 0) ≤ 2 * m && !r.park.getLsbD (64 * t + m)
def freePairs (r : Regs) : List (Nat × Nat) :=
  (List.range 8).flatMap fun t => ((List.range 64).filter fun m => parkFree r t m).map fun m => (t, m)
/-- PARKFREE (R64). -/
def parkReg (r : Regs) : Dword :=
  let l := freePairs r
  match l.head? with
  | none => 0x10000
  | some (t, m) => BitVec.ofNat 64 (l.length * 2 ^ 17 + t * 2 ^ 8 + 2 * m)

/-! ## Pending landings (R62) -/

/-- An access that will land a register. -/
def accLands : AccOp → Bool
  | .load d _ | .amo d .. | .cas d .. => d != 0
  | .vload .. => true
  | .result l _ => l.long
  | _ => false
def Core.pending (c : Core) : Nat :=
  (c.regs.landings.filter (·.long)).length + (c.accesses.filter fun a => accLands a.op).length
    + (c.fences.filter fun f => f.d != 0).length

/-! ## Control registers (R65 to R73) -/

/-- The bits a register holds; the others are reserved (R7). -/
def ctlMask (n : Nat) : Dword :=
  if n = 1 then 0xFFFFFFFFFFFFFFFF
  else if 0x10 ≤ n ∧ n < 0x18 then 0xFFFF03FF
  else if 0x20 ≤ n ∧ n < 0x24 then 0xFF
  else if n = 0x40 ∨ n = 0x41 ∨ n = 0x48 ∨ n = 0x49 ∨ n = 0x60 ∨ n = 0x72 then 0xFFFFFFFF
  else if n = 0x58 then 3
  else if 0x68 ≤ n ∧ n < 0x70 then 0xFFFFFFFF8000FFFF
  else if n = 0x80 then 0x3FF
  else if n = 0x85 then 7
  else if n = 0x86 then 0x800003FFFFFFFFFF
  else if n = 0x87 then 0xFFFFFFFFFF
  else if n = 0xA0 then 0x3FFFFFFF1F
  else if n = 0xA8 ∨ n = 0xB0 then 0x1F
  else if n = 0xC0 then 0x1FF
  else 0xFFFFFFFFFFFFFFFF

/-- MFC at gang tide `tide` (R65); none for a number absent from the map. -/
def readCtl (c : Core) (tide : Nat) (n : Nat) : Option Dword :=
  let r := c.regs.ctl
  match n with
  | 0x000 => some (BitVec.ofNat 64 tide)
  | 0x001 => some r.phase
  | 0x002 => some r.gangid
  | 0x003 => some r.coreloc
  | 0x004 => some r.ensign
  | 0x040 => some r.bndlog
  | 0x041 => some r.bndm
  | 0x048 => some r.pruneref
  | 0x049 => some r.pmargin
  | 0x050 => some (parkReg c.regs)
  | 0x058 => some r.voidmode
  | 0x060 => some r.crcx
  | 0x070 => some r.seed0
  | 0x071 => some r.seed1
  | 0x072 => some r.dropp
  | 0x080 => some r.trapc
  | 0x081 => some r.tval
  | 0x082 => some r.trapq[0]
  | 0x083 => some r.trapq[1]
  | 0x084 => some r.trapq[2]
  | 0x085 => some r.tnull
  | 0x086 => some r.bpaddr
  | 0x087 => some r.trappc
  | 0x090 => some (BitVec.ofNat 64 c.pending)
  | 0x0A0 => some r.fstat
  | 0x0A8 => some r.aflags
  | 0x0B0 => some r.fpcsr
  | 0x0C0 => some r.capb
  | n =>
    if 0x10 ≤ n ∧ n < 0x18 then r.tshp[n - 0x10]?
    else if 0x20 ≤ n ∧ n < 0x24 then r.vcnt[n - 0x20]?
    else if n = 0x30 then some 0
    else if 0x30 < n ∧ n < 0x40 then r.bnd[n - 0x30]?
    else if 0x68 ≤ n ∧ n < 0x70 then r.agud[n - 0x68]?
    else none

/-- The registers MTC may not write (R66). -/
def ctlReadOnly (n : Nat) : Bool :=
  n < 5 || n == 0x50 || (0x80 ≤ n && n ≤ 0x85) || n == 0x87 || n == 0x90 || n == 0xC0

/-- A write to a register, its reserved bits dropped (R7). BND0, TIDE, PARKFREE and LANDN keep nothing (R66, log 15, DEDUCED). -/
def setCtl (r : Ctl) (n : Nat) (value : Dword) : Ctl :=
  let v := value &&& ctlMask n
  match n with
  | 0x001 => { r with phase := v }
  | 0x040 => { r with bndlog := v }
  | 0x041 => { r with bndm := v }
  | 0x048 => { r with pruneref := v }
  | 0x049 => { r with pmargin := v }
  | 0x058 => { r with voidmode := v }
  | 0x060 => { r with crcx := v }
  | 0x070 => { r with seed0 := v }
  | 0x071 => { r with seed1 := v }
  | 0x072 => { r with dropp := v }
  | 0x080 => { r with trapc := v }
  | 0x081 => { r with tval := v }
  | 0x082 => { r with trapq := r.trapq.set 0 v }
  | 0x083 => { r with trapq := r.trapq.set 1 v }
  | 0x084 => { r with trapq := r.trapq.set 2 v }
  | 0x085 => { r with tnull := v }
  | 0x086 => { r with bpaddr := v }
  | 0x087 => { r with trappc := v }
  | 0x0A0 => { r with fstat := v }
  | 0x0A8 => { r with aflags := v }
  | 0x0B0 => { r with fpcsr := v }
  | 0x0C0 => { r with capb := v }
  | n =>
    if h : 0x10 ≤ n ∧ n < 0x18 then { r with tshp := r.tshp.set (n - 0x10) v (by omega) }
    else if h : 0x20 ≤ n ∧ n < 0x24 then { r with vcnt := r.vcnt.set (n - 0x20) v (by omega) }
    else if h : 0x30 < n ∧ n < 0x40 then { r with bnd := r.bnd.set (n - 0x30) v (by omega) }
    else if h : 0x68 ≤ n ∧ n < 0x70 then { r with agud := r.agud.set (n - 0x68) v (by omega) }
    else r
def setCtlReg (c : Core) (n : Nat) (v : Dword) : Core := { c with regs := { c.regs with ctl := setCtl c.regs.ctl n v } }
def Core.mapCtl (c : Core) (f : Ctl → Ctl) : Core := { c with regs := { c.regs with ctl := f c.regs.ctl } }

/-! ## Causes (R74 to R76) -/

def cIllegalOp : BitVec 8 := 0x01
def cReserved : BitVec 8 := 0x02
def cChain : BitVec 8 := 0x03
def cSchedMiss : BitVec 8 := 0x04
def cManifestMiss : BitVec 8 := 0x05
def cAbsent : BitVec 8 := 0x06
def cPermission : BitVec 8 := 0x07
def cFormat : BitVec 8 := 0x08
def cVoidRead : BitVec 8 := 0x09
def cBound : BitVec 8 := 0x0A
def cAlign : BitVec 8 := 0x0B
def cCapability : BitVec 8 := 0x0C
def cAllowance : BitVec 8 := 0x0D
def cChecksum : BitVec 8 := 0x0E
def cWindowAbort : BitVec 8 := 0x0F
def cPoison : BitVec 8 := 0x10
def cUndo : BitVec 8 := 0x11
def cLandingOverflow : BitVec 8 := 0x12
def cSafeDeadline : BitVec 8 := 0x13
def cTrap : BitVec 8 := 0x14
def cBreak : BitVec 8 := 0x15
def cIllegalPriv : BitVec 8 := 0x16
def cPairMismatch : BitVec 8 := 0x17

/-- A cause of one instruction: its code, its TVAL, for a PERMISSION whether the recheck never absorbs it, and for a BOUND
the BNDLOG bits that it sets (R68). -/
structure Cause where
  code : BitVec 8
  tval : Dword
  never : Bool := false
  hits : BitVec 32 := 0
  reads : List (Slot × Nat × Nat) := []
  deriving DecidableEq, Repr, Inhabited

/-- The place of a code in the order in which one instruction raises its causes (R76); the group in the tens. -/
def causeRank (code : BitVec 8) : Nat :=
  match code.toNat with
  | 0x03 => 0 | 0x15 => 5
  | 0x01 => 10 | 0x02 => 11 | 0x16 => 12
  | 0x04 => 20
  | 0x05 => 30 | 0x06 => 31 | 0x07 => 32 | 0x0C => 33 | 0x0D => 34
  | 0x0B => 40 | 0x08 => 41 | 0x09 => 42 | 0x10 => 43
  | 0x0A => 50
  | 0x11 => 60 | 0x12 => 61
  | 0x0E => 70 | 0x0F => 71
  | _ => 80
/-- The class of a code (R75), the gravest first: fatal 0, fatal after recheck 1, phase abort 2, resumable 3. -/
def causeClass (code : BitVec 8) : Nat :=
  match code.toNat with
  | 0x07 => 1
  | 0x06 | 0x14 | 0x15 => 3
  | 0x04 | 0x09 | 0x0A | 0x0D | 0x0E | 0x0F | 0x10 | 0x11 | 0x12 | 0x13 | 0x17 => 2
  | _ => 0
/-- The causes that leave their instruction to issue again after TRET (R74, R357). -/
def causeReissues (code : BitVec 8) : Bool := code == cAbsent || code == cPermission || code == cBreak

/-- Of a list of causes, the one R76 puts first; the earlier in the list among equals. -/
def firstCause (l : List Cause) : Option Cause :=
  l.foldl (fun a c => match a with
    | none => some c
    | some b => if causeRank c.code < causeRank b.code then some c else some b) none
/-- Of the causes raised on one cycle, the gravest class, then cluster order, then R76's order (R76). -/
def graver (a b : Raised) : Bool :=
  let ka := causeClass a.code
  let kb := causeClass b.code
  ka < kb || ka == kb && (a.cl.code.toNat < b.cl.code.toNat
    || a.cl.code.toNat == b.cl.code.toNat && causeRank a.code < causeRank b.code)
def gravest (l : List Raised) : Option Raised :=
  l.foldl (fun a c => match a with
    | none => some c
    | some b => if graver c b then some c else some b) none

/-- The saved queue and nullify bits as TRAPQ0 to 2 and TNULL hold them (R61, R255). -/
def queueNull (q : Vector QEntry 3) : Dword :=
  (if q[0].null then 1 else 0) ||| (if q[1].null then 2 else 0) ||| (if q[2].null then 4 else 0)
/-- TRAPC of a cause (R71). -/
def trapcOf (cl : Cl) (code : BitVec 8) : Dword := (0 : BitVec 54) ++ cl.code ++ code

/-- TAKING A TRAP (R61, R74): TRAPC, TVAL, TRAPPC, TRAPQ0 to 2 and TNULL of one core. A BREAK notes the issue that it took the place
of, which does not break again (R71). -/
def takeTrap (c : Core) (trapc tval pc : Dword) (q : Vector QEntry 3) : Core :=
  { c.mapCtl fun r => { r with trapc := trapc, tval := tval, trappc := pc, trapq := q.map (·.addr), tnull := queueNull q } with
    resumeBreak := if trapc.setWidth 8 = cBreak then some (Cl.ofCode (trapc.extractLsb' 8 2), pc) else c.resumeBreak }

/-! ## Holds (R262 to R264) -/

def addTo7 (v : Vector Dword 7) (i : Nat) : Vector Dword 7 := vmod v i (· + 1)
/-- A claim starts. -/
def startClaim (s : State) (g : Gang) (cause member : Nat) (barrier : Bool := false) (id : Nat := 0) (fence : Option Nat := none)
    (by_ : Nat := 0) : Gang :=
  let cl : Claim := { cause := cause, start := g.tide, began := s.ptide, member := member, barrier := barrier, id := id, fence := fence, by_ := by_ }
  let ring := g.hold.ring ++ [cl]
  { g with hold := { g.hold with
      holds := addTo7 g.hold.holds cause
      ring := ring.drop (ring.length - 64)
      active := g.hold.active ++ [cl] } }
/-- The claims that meet a condition end. -/
def endClaims (g : Gang) (p : Claim → Bool) : Gang :=
  { g with hold := { g.hold with active := g.hold.active.filter fun c => !p c } }
def Gang.held (g : Gang) : Bool := !g.hold.active.isEmpty
def Gang.claims (g : Gang) (cause : Nat) : Bool := g.hold.active.any fun c => c.cause == cause
/-- The claim a held cycle is attributed to (R263). -/
def blamed (l : List Claim) : Option Claim :=
  l.foldl (fun a c => match a with
    | none => some c
    | some b => if c.began < b.began || c.began == b.began && c.cause < b.cause then some c else some b) none
/-- One package cycle of a held gang. -/
def tickHold (g : Gang) : Gang :=
  match blamed g.hold.active with
  | none => g
  | some b =>
    let up (c : Claim) : Claim := { c with length := if c.length + 1 < 2 ^ 32 then c.length + 1 else c.length }
    { g with hold := { g.hold with
        cycles := addTo7 g.hold.cycles b.cause
        ring := g.hold.ring.map fun c => if g.hold.active.contains c then up c else c
        active := g.hold.active.map up } }

/-- One claim as the ring gives it (R264). -/
def claimBytes (c : Claim) : List Byte :=
  leBytes 8 c.start ++ leBytes 8 (c.length * 2 ^ 32 + c.cause * 2 ^ 29 + c.member * 2 ^ 19 + (if c.barrier then 2 ^ 18 else 0))
/-- HOLDS and CYCLES, then the ring, oldest first (R343, R366, R368). -/
def holdCounters (h : Hold) : List Byte :=
  h.holds.toList.flatMap (fun d => leBytes 8 d.toNat) ++ h.cycles.toList.flatMap (fun d => leBytes 8 d.toNat)
def holdRing (h : Hold) : List Byte :=
  let l := h.ring.flatMap claimBytes
  l ++ List.replicate (1024 - l.length) 0

/-! ## What the device reports (R252, R364, R368, R385 to R387) -/

def pad (l : List Byte) (n : Nat) : List Byte := l ++ List.replicate (n - l.length) 0
def redBytes (f : RedFault) : List Byte :=
  leBytes 8 f.addr.toNat ++ leBytes 8 f.operand.toNat ++ leBytes 2 f.opcode.toNat ++ [f.f, f.cause] ++ List.replicate 12 0
/-- The body of an EVENT (R368): its 32 bytes, and for kinds 0x02 and 0x04 the hold record and the reduction fault log. -/
def eventBody (kind member : Nat) (launch : Word) (a b c : Dword) (g : Option Gang) : List Byte :=
  let head := leBytes 2 kind ++ leBytes 2 member ++ leBytes 4 launch.toNat ++ leBytes 8 a.toNat ++ leBytes 8 b.toNat
    ++ leBytes 8 c.toNat
  match g with
  | some g =>
    if kind = 2 ∨ kind = 4 then
      head ++ holdCounters g.hold ++ holdRing g.hold ++ pad (g.redLog.flatMap redBytes) 512 ++ leBytes 4 g.redMore
    else head
  | none => head
/-- An EVENT of a partition, or of the package. -/
def sendEvent (s : State) (kind member : Nat) (launch : Word) (a b c : Dword) (g : Option Gang := none) (part : BitVec 16 := 0xFFFF) :
    State :=
  { s with outbox := s.outbox ++ [hostMsg 0x10 0 0 part (eventBody kind member launch a b c g)] }
/-- A partition as a header names it. -/
def partField (p : Nat) : BitVec 16 := BitVec.ofNat 16 p
/-- A black-box record (R385, R386). A record of severity 3 flushes the last 64 (R387); one of severity 1 is also an EVENT
of kind 0x0B. -/
def boxAdd (s : State) (code : BitVec 16) (part : Byte) (severity : Byte) (a b : Dword) (launch : Word := 0)
    (member : Nat := 0) (c : Dword := 0) : State :=
  let r : BoxRec := { tide := s.ptide, seq := s.boxSeq, code := code, part := part, severity := severity,
                      launch := launch, member := BitVec.ofNat 16 member, a := a, b := b, c := c }
  let box := s.box ++ [r]
  let box := box.drop (box.length - 1024)
  let s := { s with box := box, boxSeq := s.boxSeq + 1 }
  if severity = 3 then { s with flushed := box.drop (box.length - 64) }
  else if severity = 1 then sendEvent s 0x0B 0 0 (code.setWidth 64) a b
  else s
def partByte (p : Nat) : Byte := BitVec.ofNat 8 p

/-! ## Errors found by a read (R275, R378, R383, R384) -/

def satAdd (d : Dword) (n : Nat) : Dword := BitVec.ofNat 64 (min (d.toNat + n) (2 ^ 64 - 1))
/-- The counter at byte `off` of the error record (R384), and the record with it changed. -/
def counterAt (s : State) (off : Nat) : Dword :=
  let q := (s.quads[off % 128 / 8]?).getD {}
  let k := (s.hbmStacks[off % 128 / 8]?).getD {}
  match off / 128 with
  | 0 => q.sram | 1 => q.internal | 2 => q.quay | 3 => q.marked
  | 4 => k.corrected | 5 => k.marked | 6 => k.spared
  | _ => if off < 960 then ((s.farPorts[(off - 896) / 8]?).getD {}).poisoned else ((s.ports[(off - 960) / 8]?).getD {}).retries
def putCounter (s : State) (off : Nat) (v : Dword) : State :=
  let i := off % 128 / 8
  match off / 128 with
  | 0 => { s with quads := vmod s.quads i fun q => { q with sram := v } }
  | 1 => { s with quads := vmod s.quads i fun q => { q with internal := v } }
  | 2 => { s with quads := vmod s.quads i fun q => { q with quay := v } }
  | 3 => { s with quads := vmod s.quads i fun q => { q with marked := v } }
  | 4 => { s with hbmStacks := vmod s.hbmStacks i fun k => { k with corrected := v } }
  | 5 => { s with hbmStacks := vmod s.hbmStacks i fun k => { k with marked := v } }
  | 6 => { s with hbmStacks := vmod s.hbmStacks i fun k => { k with spared := v } }
  | _ =>
    if off < 960 then { s with farPorts := vmod s.farPorts ((off - 896) / 8) fun p => { p with poisoned := v } }
    else { s with ports := vmod s.ports ((off - 960) / 8) fun p => { p with retries := v } }
/-- Count `n` errors; a counter that crosses a power of two is recorded (R386). -/
def countError (s : State) (off n : Nat) : State :=
  if n = 0 then s
  else
    let old := counterAt s off
    let new := satAdd old n
    let s := putCounter s off new
    if old = 0 ∨ Nat.log2 old.toNat < Nat.log2 new.toNat then boxAdd s 0x0020 0xFF 0 (BitVec.ofNat 64 off) new else s
/-- The far-tier port of a slot. -/
def farPortOf (s : State) (i : Nat) : Option Nat :=
  (List.range 8).find? fun p => match s.farPorts[p]? with | some q => q.first ≤ i && i < q.first + q.count | none => false
/-- The counters of a slot's corrected errors and of its marked words; a far slot's port counts the blocks that arrived poisoned. -/
def slotCounters (s : State) : Slot → Nat × Nat
  | .tile c _ | .berth c _ => (8 * quadOf (c % 32) (c / 32), 384 + 8 * quadOf (c % 32) (c / 32))
  | .quay q _ => (256 + 8 * q, 384 + 8 * q)
  | .hbm k _ => (512 + 8 * k, 640 + 8 * k)
  | .far i => (896 + 8 * (farPortOf s i).getD 0, 896 + 8 * (farPortOf s i).getD 0)
/-- The words that hold a flag in `b` and no longer in `c`, as units of `per` words. -/
def unitsGone (b c : Cells) (at_ per : Nat) : List Nat :=
  (((List.range 1024).filter fun w => cbit b (8 * at_ + w) && !cbit c (8 * at_ + w)).map fun w => w / per).eraseDups
/-- The bytes of one unit of a slot's error correction (R383): 64 bits of SRAM, a sector of HBM. -/
def eccUnit : Slot → Nat
  | .hbm .. => 32
  | _ => 8
/-- The units that `n` bytes from `off` of a slot touch are read: an uncorrectable error there is marked and a correctable one written
back. They are counted (R384): corrected words, or sectors of HBM, and marked words; at the far tier a block that arrives poisoned.
`failed` adds a failed check (R276). With the state, the HBM sectors corrected and the words marked. -/
def scrub (s : State) (sl : Slot) (off n : Nat) (failed : Bool := false) : State × List Nat × List Nat :=
  let b := rawBlock s.mem sl
  if !hasLatent b && !failed then (s, [], [])
  else
    let u := eccUnit sl
    let b' := detect b (off / u * u) (off % u + n + (u - 1) - (off % u + n + (u - 1)) % u)
    let s := { s with mem := setRawBlock s.mem sl b' }
    let words := unitsGone b b' latentAt 1
    let bad := words.length + if failed then 1 else 0
    let good := unitsGone b b' softAt (match sl with | .hbm .. => 8 | _ => 1)
    match sl with
    | .far _ => (countError s (slotCounters s sl).2 (min bad 1), [], words)
    | .hbm .. => (countError (countError s (slotCounters s sl).1 good.length) (slotCounters s sl).2 bad, good, words)
    | _ => (countError (countError s (slotCounters s sl).1 good.length) (slotCounters s sl).2 bad, [], words)
/-- What a read finds in an HBM row is recorded there, each corrected sector, and once that it holds uncorrectable words (R388). -/
def noteRows (s : State) (sl : Slot) (sectors words : List Nat) : State :=
  match sl with
  | .hbm k i =>
    let note (bad : Bool) (s : State) : State :=
      let row := Config.hbmRow k i
      let (left, s) := draw Config.spareRowLeft s
      post s 0 (.hbmRowSpare k row bad left (Config.rowSlots k row))
    let s := sectors.foldl (fun s _ => note false s) s
    if words.isEmpty then s else note true s
  | _ => s
def readPart (s : State) (sl : Slot) (off n : Nat) : State :=
  let (s, sectors, words) := scrub s sl off n
  noteRows s sl sectors words
def readSlot (s : State) (sl : Slot) : State := readPart s sl 0 4096
/-- The same for parts of several slots, each a slot, an offset and a number of bytes. -/
def readParts (s : State) (l : List (Slot × Nat × Nat)) : State :=
  if ((l.map (·.1)).eraseDups).any fun sl => hasLatent (rawBlock s.mem sl) then l.foldl (fun s p => readPart s p.1 p.2.1 p.2.2) s else s
/-- The same for a whole block leaving its slot toward `owner`; a failed check counts too (R276). -/
def readBlock (s : State) (owner : BitVec 12) (sl : Slot) : State :=
  let (s, sectors, words) := scrub s sl 0 4096 (slotPorted sl && !checkPasses s owner sl (rawBlock s.mem sl))
  noteRows s sl sectors words

/-- The contents of two slots change places in one step (R205, R211, R212), as their reads leave them. -/
def swapSlots (s : State) (owner : BitVec 12) (a b : Slot) : State :=
  if a = b then s
  else
    let s := readBlock (readBlock s owner a) owner b
    let x := getBlock s owner a
    let y := getBlock s owner b
    putBlock (putBlock s owner a y) owner b x

/-! ## Undetected errors of registers (R378, R379, R391) -/

def modQuad (s : State) (q : Nat) (f : Quad → Quad) : State := { s with quads := vmod s.quads q f }
/-- The physical column of a logical one, by R391. -/
def physColumn (q : Quad) (x : Nat) : Nat := if x % 8 < q.retired.getD 8 then x % 8 else x % 8 + 1
/-- An internal error of R379 is charged to its physical core, by its column and its row in the quadrant; three charged to one core
within 2^42 package cycles retire it, with its column. -/
def chargeCore (s : State) (c : Core) : State :=
  match s.quads[c.quad]? with
  | none => s
  | some q =>
    let col := physColumn q c.x
    let place := 16 * (c.y % 8) + col
    let charges := (q.charges.filter fun e => s.ptide < e.2 + 2 ^ 42) ++ [(place, s.ptide)]
    let s := modQuad s c.quad fun q => { q with charges := charges }
    if 3 ≤ (charges.filter fun e => e.1 == place).length then
      post (modQuad s c.quad fun q => { q with charges := charges.filter fun e => e.1 != place }) 0 (.coreRetire c.quad col)
    else s

/-- TVAL of a POISON that names a unit and an entry (R379). -/
def unitTval (unit entry : Nat) : Dword := BitVec.ofNat 64 (0xFFF * 2 ^ 52 + unit % 16 * 2 ^ 8 + entry % 256)
/-- An internal or a rollback-state uncorrectable error is counted (R384). -/
def internalCounted (s : State) (c : Core) : State := countError s (128 + 8 * c.quad) 1
/-- An internal uncorrectable error has been met (R379): counted, and charged to its core. -/
def internalFound (s : State) (c : Core) : State := chargeCore (internalCounted s c) c
/-- A register is overwritten before any instruction has read it: its error is counted as corrected. -/
def overwriteFault (s : State) (c : Core) (unit entry : Nat) : State × Core :=
  if c.faults.any fun f => f.1 == unit && f.2.1 == entry then
    (countError s (8 * c.quad) 1, { c with faults := c.faults.filter fun f => !(f.1 == unit && f.2.1 == entry) })
  else (s, c)
/-- A trap overwrites the registers that it saves into (R378). -/
def overwriteTrap (s : State) (c : Core) : State × Core :=
  [0x80, 0x81, 0x82, 0x83, 0x84, 0x85, 0x87].foldl (fun (a : State × Core) n => overwriteFault a.1 a.2 6 n) (s, c)
/-- The first undetected error that a read list meets. -/
def faultMet (c : Core) (reads : List (Nat × Nat)) : Option (Nat × Nat) :=
  if c.faults.isEmpty then none else reads.find? fun r => c.faults.any fun f => f.1 == r.1 && f.2.1 == r.2

/-! ## Chains (R59, R61, R77 to R80, R95, R96) -/

/-- The mark of no successor (R79). -/
def markAddr : Dword := 0xFFFFFFFFFFFFFFFF
def addrLine (a : Dword) : Nat := (a >>> 3).toNat
def addrSyl (a : Dword) : Nat := (a.extractLsb' 0 3).toNat
/-- The line a code address lies in; none beyond the image or with bits 63:40 set. -/
def lineAt (lines : List (BitVec 512)) (a : Dword) : Option Line :=
  if a.toNat < 2 ^ 40 then lines[addrLine a]? else none

/-- next() of R59 and R79, with the line that its mark keeps (R95). -/
def nextAddr (lines : List (BitVec 512)) (a : Dword) : QEntry :=
  match lineAt lines a with
  | none => { addr := markAddr, line := markAddr }
  | some l =>
    let n := addrLine a
    match (List.range 8).find? (fun k => addrSyl a < k && k ≤ l.occ && !l.isExt k) with
    | some k => { addr := BitVec.ofNat 64 (8 * n + k) }
    | none =>
      if l.isEnd then { addr := markAddr, line := BitVec.ofNat 64 (8 * n) }
      else { addr := (BitVec.ofNat 64 n + l.offset.signExtend 64) <<< 3 }

/-- Decode what cluster `cl` is about to issue at `a`, `kept` being the line kept with a mark; or the cause of R95, with
the address that TRAPPC names. -/
def fetchAt (hb : Bool) (lines : List (BitVec 512)) (cl : Cl) (a kept : Dword) : Except Raised Instr :=
  match lineAt lines a with
  | none =>
    let v := if a = markAddr then kept else a &&& ~~~7
    .error { code := cChain, cl := cl, tval := v, pc := v }
  | some l =>
    let first := a &&& ~~~7
    let syl : Dword := (l.syl (addrSyl a)).setWidth 64
    match decodeAt hb cl l (addrSyl a) with
    | .ok i => .ok i
    | .error .chain => .error { code := cChain, cl := cl, tval := first, pc := first }
    | .error .illegalOp => .error { code := cIllegalOp, cl := cl, tval := syl, pc := a }
    | .error .reserved => .error { code := cReserved, cl := cl, tval := syl, pc := a }
    | .error .link => .error { code := cReserved, cl := cl, tval := l.link.setWidth 64, pc := first }
    | .error .illegalPriv => .error { code := cIllegalPriv, cl := cl, tval := syl, pc := a }

/-- The syllable at a code address, zero-extended, and its common fields. -/
def sylAt (lines : List (BitVec 512)) (a : Dword) : Syl :=
  match lineAt lines a with
  | none => 0
  | some l => l.syl (addrSyl a)

def clIndex : Cl → Nat
  | .s => 0 | .v => 1 | .m => 2 | .x => 3
def pointIndex : Cl → Fin 3
  | .m => 1 | .x => 2 | _ => 0

/-- Where a cluster stands: the code address it issues next, the line kept with a mark, and the cycle. -/
def issueAddr (c : Core) : Cl → Dword
  | .s => c.regs.q[0].addr
  | cl => c.regs.points[pointIndex cl].addr
def issueLine (c : Core) : Cl → Dword
  | .s => c.regs.q[0].line
  | cl => c.regs.points[pointIndex cl].line
def issueCycle (c : Core) : Cl → Nat
  | .s => c.regs.sNext
  | cl => c.regs.points[pointIndex cl].next
def Core.modPoint (c : Core) (cl : Cl) (f : Point → Point) : Core :=
  { c with regs := { c.regs with points := vmod c.regs.points (pointIndex cl).val f } }

/-! ## The issuing instruction's surroundings -/

/-- What an instruction sees as it issues: its cluster, its gang and its core as they stand on its issue cycle. -/
structure Ctx where
  k : CoreId
  hb : Bool
  cl : Cl
  g : Gang
  core : Core
  s : State

/-- The core at the machine's cursor, for an instruction of cluster `cl`. -/
def ctxOf (s : State) (cl : Cl) : Option Ctx :=
  match s.cur with
  | .core k c => if c = cl then (getMember s k).map fun p => ⟨k, false, cl, p.1, p.2, s⟩ else none
  | .harbour =>
    if cl = .s then some ⟨⟨0, 0⟩, true, .s, { noGang with tide := s.harbour.tide, lines := s.harbour.firmware },
      s.harbour.core, s⟩ else none
  | .device => none
/-- The same for an instruction that every cluster has. -/
def ctxAny (s : State) : Option Ctx :=
  match s.cur with
  | .core _ c => ctxOf s c
  | .harbour => ctxOf s .s
  | .device => none

def Ctx.tide (x : Ctx) : Nat := x.g.tide
def Ctx.tideD (x : Ctx) : Dword := BitVec.ofNat 64 x.g.tide
def Ctx.pc (x : Ctx) : Dword := issueAddr x.core x.cl
def Ctx.rg (x : Ctx) (i : Reg) : Dword := x.core.regs.rg i
def Ctx.rv (x : Ctx) (i : Reg) : Lanes := x.core.regs.rv i
def Ctx.rp (x : Ctx) (i : PReg) : Pred := x.core.regs.rp i
def Ctx.ctl (x : Ctx) : Ctl := x.core.regs.ctl
def Ctx.member (x : Ctx) : Nat := memberOf x.g x.k.idx
/-- PHASE.SPAN is the slack span (R67). -/
def Ctx.slack (x : Ctx) : Bool := x.ctl.phase.extractLsb' 0 2 == 1
def Ctx.syl (x : Ctx) : Dword := (sylAt x.g.lines x.pc).setWidth 64
/-- SCHED_MISS with the tide in TVAL (R261). -/
def Ctx.miss (x : Ctx) : Cause := { code := cSchedMiss, tval := x.tideD }
/-- A cause of the form itself, with the syllable in TVAL (R95). -/
def Ctx.formCause (x : Ctx) (code : BitVec 8) : Cause := { code := code, tval := x.syl }

/-- Put a core back where the context found it. -/
def putCore (x : Ctx) (s : State) (c : Core) : State :=
  if x.hb then { s with harbour := { s.harbour with core := c } } else modMember s x.k fun _ => c

/-! ## Issuing (R59, R60, R83, R84, R86, R94, R257, R259) -/

/-- What an instruction does to its own issue point: cycles beyond IDLE + 1, the target of a taken branch, whether it
nullifies both delay slots, and how it counts for joins and barriers (R105, R145). -/
structure How where
  idle : Nat := 0
  target : Option Dword := none
  nullSlots : Bool := false
  rdv : Bool := false
  kind : Nat := 0
  deriving Inhabited

/-- The ring of R84. -/
def leftOf : Cl → Cl
  | .s => .v | .x => .s | .m => .x | .v => .m
def rightOf : Cl → Cl
  | .s => .x | .x => .m | .m => .v | .v => .s
/-- FIFO numbers: left and right of each cluster (R340). -/
def fifoL (cl : Cl) : Nat := 2 * clIndex cl
def fifoR (cl : Cl) : Nat := 2 * clIndex cl + 1
def tokenAt (t : Tokens) (f : Nat) : Nat := (t[f]?).getD 0

/-- A pop from an empty FIFO (R259). -/
def popMiss (x : Ctx) (c : Common) : Option Cause :=
  if (c.popL && tokenAt x.core.regs.tokens (fifoL x.cl) == 0) || (c.popR && tokenAt x.core.regs.tokens (fifoR x.cl) == 0)
  then some x.miss else none
def popTokens (c : Common) (cl : Cl) (t : Tokens) : Tokens :=
  let t := if c.popL then vmod t (fifoL cl) (· - 1) else t
  if c.popR then vmod t (fifoR cl) (· - 1) else t
/-- The pushes that the end of the cycle makes: to the left neighbour's right FIFO, and to the right neighbour's left. -/
def pushedBy (c : Common) (cl : Cl) : List Nat :=
  (if c.pushL then [fifoR (leftOf cl)] else []) ++ (if c.pushR then [fifoL (rightOf cl)] else [])
def pushes (c : Common) (cl : Cl) : List AtEnd := (pushedBy c cl).map .push

/-- The S queue after an issue (R59). -/
def advanceQueue (lines : List (BitVec 512)) (q : Vector QEntry 3) (how : How) : Vector QEntry 3 :=
  let nq2 : QEntry := match how.target with
    | some t => { addr := t, line := markAddr }
    | none => { nextAddr lines q[2].addr with null := false }
  #v[{ q[1] with null := q[1].null || how.nullSlots }, { q[2] with null := q[2].null || how.nullSlots }, nq2]

/-- The idle count of the group a V syllable belongs to: its first member's (R86). -/
def groupIdle (lines : List (BitVec 512)) (a : Dword) : Nat :=
  match lineAt lines a with
  | none => 0
  | some l => (l.syl (addrSyl a - groupPos l (addrSyl a))).common.idle.toNat

/-- The issue point of an instruction's cluster after it has issued. An IDLE in a V group delays the next issue as its last member
alone (R86, R94; log 101, DESIGN CHOICE), and an RDV in a V group parks V at once (R86, R104; log 102, DESIGN CHOICE). -/
def advance (x : Ctx) (c : Common) (how : How) (core : Core) : Core :=
  match x.cl with
  | .s => { core with regs := { core.regs with
      q := advanceQueue x.g.lines core.regs.q how
      sNext := x.tide + how.idle + c.idle.toNat + 1 } }
  | cl =>
    let e := nextAddr x.g.lines x.pc
    let idle := if cl = .v then groupIdle x.g.lines x.pc else c.idle.toNat
    core.modPoint cl fun p => { p with
      addr := e.addr, line := e.line
      next := if c.group then p.next else x.tide + how.idle + idle + 1
      parked := how.rdv, joined := p.joined || how.rdv }

/-- Everything an issue does beside the instruction's own effect. -/
def retire (x : Ctx) (c : Common) (how : How) (core : Core) : Core :=
  let core := advance x c how { core with
    regs := { core.regs with tokens := popTokens c x.cl core.regs.tokens }
    atEnd := core.atEnd ++ pushes c x.cl
    resumeBreak := core.resumeBreak.filter (·.1 != x.cl) }
  { core with issuedNow := core.issuedNow ++ [{ cl := x.cl, sync := c.sync, rdv := how.rdv, kind := how.kind, pc := x.pc }] }

def isRdv : Instr → Bool
  | .rdv _ => true
  | _ => false
/-- The members of a V group after the one at `a`. -/
def groupRest (lines : List (BitVec 512)) (a : Dword) (fuel : Nat := 3) : List Dword :=
  match fuel with
  | 0 => []
  | n + 1 =>
    if (sylAt lines a).common.group then
      let b := (nextAddr lines a).addr
      b :: groupRest lines b n
    else []
/-- How the members of a V group that a suppressed one keeps back count: all of them will issue on this cycle (R86, R153). -/
def heldGroup (lines : List (BitVec 512)) (cl : Cl) (a : Dword) : List Issued :=
  let one (b : Dword) : Issued :=
    { cl := .v, sync := false, kind := 0, pc := b, rdv := match fetchAt false lines .v b 0 with | .ok i => isRdv i | .error _ => false }
  if cl = .v then (groupRest lines a).map one else []
/-- A cause is raised: it joins the cycle's causes, and its instruction counts as issued for bundles and joins. A TRAP has
issued (R151); every other cause leaves its instruction where it stands. The rest of a group goes on, so that its causes
are met too, unless the instruction will issue again (R75): then it counts with it. -/
def raise (x : Ctx) (c : Common) (how : How) (e : Cause) : Core :=
  let issued : Issued := { cl := x.cl, sync := c.sync, rdv := how.rdv, kind := how.kind, pc := x.pc }
  if e.code = cTrap then
    let core := retire x c how x.core
    { core with raised := core.raised ++ [{ code := e.code, cl := x.cl, tval := e.tval, pc := issueAddr core x.cl }] }
  else
    let q : Raised := { code := e.code, cl := x.cl, tval := e.tval, pc := x.pc, never := e.never, pushes := pushedBy c x.cl }
    let core := x.core.mapCtl fun r => { r with bndlog := r.bndlog ||| e.hits.setWidth 64 }
    let core := { core with
      raised := x.core.raised ++ [q]
      issuedNow := x.core.issuedNow ++ [issued] }
    if c.group && causeClass e.code != 3 && (e.code != cPermission || e.never) then
      core.modPoint x.cl fun p => { p with addr := (nextAddr x.g.lines x.pc).addr, line := (nextAddr x.g.lines x.pc).line }
    else { core with issuedNow := core.issuedNow ++ heldGroup x.g.lines x.cl x.pc }

/-- An instruction's own effect: its core after it and whatever else it changes, or the first of its causes. -/
abbrev Body := Ctx → Except Cause (Core × State)
/-- An effect on the core alone. -/
def onCore (f : Ctx → Except Cause Core) : Body := fun x => (f x).map fun c => (c, x.s)
def pureCore (f : Ctx → Core) : Body := fun x => .ok (f x, x.s)
/-- No effect. -/
def nothing : Body := fun x => .ok (x.core, x.s)

/-- The guard on lane 0 (R82), and lane by lane for V. -/
def guardOn (x : Ctx) (c : Common) : Bool := !c.en || (x.rp c.guard).getLsbD 0 != c.sense
def laneMask (x : Ctx) (c : Common) : Pred :=
  if !c.en then BitVec.allOnes 128 else if c.sense then ~~~(x.rp c.guard) else x.rp c.guard

/-- The instruction is guarded off, in V in every lane (R82). -/
def guardedOff (x : Ctx) (c : Common) : Bool := if x.cl = .v then laneMask x c = 0 else !guardOn x c
/-- VOIDMODE is read by an exchange that reads tables (R218). -/
def tableReads (x : Ctx) (i : Instr) : List (Nat × Nat) :=
  match i with
  | .xch _ _ _ _ gen | .xchp _ _ _ _ gen =>
    if (List.range 2).any fun G => gen.getLsbD G && (List.range 4).any fun d => ((x.core.regs.latch[4 * G + d]?).getD 0).getLsbD 31
    then voidReads else []
  | _ => []
/-- The registers that the issuing instruction reads: its guard, the FIFOs that it pops, and its operands (R379); guarded off it has
no operand fault (R82, R187). -/
def readsAt (x : Ctx) (c : Common) : List (Nat × Nat) :=
  (if c.en then [(1, c.guard.toNat)] else []) ++ (if c.popL then [(6, fifoL x.cl)] else []) ++ (if c.popR then [(6, fifoR x.cl)] else [])
    ++ if guardedOff x c then [] else match fetchAt x.hb x.g.lines x.cl x.pc (issueLine x.core x.cl) with
      | .ok i => readsOf i ++ tableReads x i
      | .error _ => []
/-- POISON of an undetected error in a register that the instruction reads. -/
def registerPoison (x : Ctx) (c : Common) : Option Cause :=
  if x.core.faults.isEmpty then none
  else (faultMet x.core (readsAt x c)).map fun r => { code := cPoison, tval := unitTval r.1 r.2 }
/-- A read that finds tile words damaged marks them (R275), and one that finds a register damaged is counted (R384). -/
def poisonFound (x : Ctx) (e : Cause) : State :=
  if e.code = cPoison then
    if e.tval.extractLsb' 52 12 = 0xFFF then internalFound x.s x.core else readParts x.s e.reads
  else x.s
/-- ISSUING ONE INSTRUCTION: the first cause that it meets, in R76's order, of the pop of an empty FIFO, a damaged register and the
instruction itself; with none its effect, and the issue point. -/
def issueIn (x : Ctx) (c : Common) (how : Ctx → How) (body : Body) : Out :=
  let own : List Cause := match body x with | .error e => [e] | .ok _ => []
  match firstCause ((popMiss x c).toList ++ (registerPoison x c).toList ++ own), body x with
  | some e, _ => .next (putCore x (poisonFound x e) (raise x c (how x) e))
  | none, .ok (core, s) => .next (putCore x s (retire x c (how x) core))
  | none, .error e => .next (putCore x (poisonFound x e) (raise x c (how x) e))

/-- An instruction of cluster `cl`: its effect when the guard is on, and when it is off. -/
def issueHow (cl : Cl) (c : Common) (how : Ctx → How) (on off : Body) (s : State) : Out :=
  match ctxOf s cl with
  | none => .fault .noCore
  | some x => issueIn x c how (if guardOn x c then on else off)
def issue (cl : Cl) (c : Common) (on off : Body) (s : State) : Out := issueHow cl c (fun _ => {}) on off s
/-- A V instruction takes its guard lane by lane. -/
def issueV (c : Common) (f : Ctx → Pred → Except Cause Core) (s : State) : Out :=
  match ctxOf s .v with
  | none => .fault .noCore
  | some x => issueIn x c (fun _ => {}) (onCore fun x => f x (laneMask x c))

/-- A V instruction with a lane guard and effects beyond its core. -/
def issueVmem (c : Common) (f : Ctx → Pred → Except Cause (Core × State)) (s : State) : Out :=
  match ctxOf s .v with
  | none => .fault .noCore
  | some x => issueIn x c (fun _ => {}) (fun x => f x (laneMask x c))

/-- An instruction that every cluster has, unguarded (R94, R104). -/
def issueAny (c : Common) (how : How) (s : State) : Out :=
  match ctxAny s with
  | none => .fault .noCore
  | some x => issueIn x c (fun _ => how) nothing

/-- THE RETURN FROM A TRAP (R61, R153): the queue and the nullify bits of one core from TRAPQ0 to 2 and TNULL, the other
issue points as they were kept; after a BREAK the one issue that it took the place of does not break again (takeTrap, R71). -/
def returnFromTrap (c : Core) : Core :=
  let r := c.regs.ctl
  let entry (i : Fin 3) : QEntry :=
    { addr := r.trapq[i], line := if c.regs.q[i].addr = r.trapq[i] then c.regs.q[i].line else markAddr,
      null := r.tnull.getLsbD i.val }
  { c with trapped := false, regs := { c.regs with q := Vector.ofFn entry } }

/-! ## The translation queue (R352, R354) -/

/-- The step that executes a command record: the operation of its OP field, and RESET's step for an unknown OP. -/
def cmdEvent (n : Nat) (r : CmdRec) : Instr :=
  match (r.dw0.extractLsb' 56 8).toNat with
  | 1 => .invalidate n r
  | 2 => .populate n r
  | 3 => .refresh n r
  | 4 => .kill n r
  | _ => .reset n r
def queueFull (s : State) : Bool := 64 ≤ (s.tickets.filter fun t => t.acked.isNone).length
/-- A record takes its place and its ticket. -/
def addTicket (s : State) (r : CmdRec) (host : Bool) : State :=
  let n := s.nextTicket
  let keep := s.tickets.filter fun t => t.acked.isNone || n < t.num + 256
  { s with tickets := keep ++ [{ num := n, cmd := r, host := host }], nextTicket := n + 1 }
/-- The harbourmaster's own records that found the queue full enter it as it empties. -/
def enqueueOwn (s : State) : State :=
  match s.backlog with
  | r :: rest => if queueFull s then s else addTicket { s with backlog := rest } r false
  | [] => s
/-- Let the oldest command that has not begun execute, when none is executing: an INVALIDATE that waits for its slots has
been applied, and holds up none (R356). -/
def pumpQueue (s : State) : State :=
  let s := enqueueOwn s
  match s.tickets.find? (fun t => t.acked.isNone && !(t.applied.isSome && t.cmd.dw0.extractLsb' 56 8 == 1)) with
  | some t =>
    if t.applied.isNone && !(s.agenda.any fun e => e.2 == cmdEvent t.num t.cmd) then
      let (d, s) := draw Config.serviceTime s
      post s d (cmdEvent t.num t.cmd)
    else s
  | none => s
/-- Post a command record: its ticket. -/
def postCmd (s : State) (r : CmdRec) (host : Bool) : Nat × State :=
  (s.nextTicket, pumpQueue (addTicket s r host))
/-- A record that the harbourmaster posts itself; it waits while the queue is full. -/
def postOwn (s : State) (r : CmdRec) : State := pumpQueue { s with backlog := s.backlog ++ [r] }

/-- The destination g[d] of a landing; a write to g0 is discarded. -/
def gDest (d : Reg) : Dest := if d = 0 then .none else .g d
/-- A seventeenth landing raises SCHED_MISS, which comes before the causes of the target (R62, R76). -/
def landingFull (x : Ctx) (lands : Bool) : Bool := lands && 16 ≤ x.core.pending
/-- A landing joins the core, or is the seventeenth (R62). -/
def addLanding (x : Ctx) (l : Landing) (core : Core) : Except Cause Core :=
  if l.long && 16 ≤ core.pending then .error x.miss
  else .ok { core with regs := { core.regs with landings := core.regs.landings ++ [{ l with pc := x.pc }] } }
/-- A scalar result with latency `lat` (R125): a write to g0 is discarded. -/
def landG (x : Ctx) (d : Reg) (v : Dword) (lat : Nat) (core : Core) : Except Cause Core :=
  if d = 0 then .ok core
  else addLanding x { dest := .g d, value := v, due := x.tide + lat, issued := x.tide, cl := x.cl, long := 1 < lat } core

end Sys2Proof.Machine
end

