-- ==== Sys2Proof/Machine/Flags.lean ====
section
/-! DEFINITION. Flags: FPCSR, AFLAGS, BNDLOG and FSTAT are sticky and take a write of the program before the hardware's own
bits of the same cycle (R50, R68, R72, R73); the bound checks (R174); VOIDMODE.SEEN (R69). -/

namespace Sys2Proof.Machine

/-- OR five flags into FPCSR. -/
def orFpcsr (c : Core) (f : BitVec 5) : Core :=
  if f = 0 then c else c.mapCtl fun r => { r with fpcsr := r.fpcsr ||| f.setWidth 64 }
def orAflags (c : Core) (f : BitVec 5) : Core :=
  if f = 0 then c else c.mapCtl fun r => { r with aflags := r.aflags ||| f.setWidth 64 }
/-- OR hits into BNDLOG: HIT in bits 15:0, NAN in bits 31:16. -/
def orBndlog (c : Core) (h : BitVec 32) : Core :=
  if h = 0 then c else c.mapCtl fun r => { r with bndlog := r.bndlog ||| h.setWidth 64 }
def setSeen (c : Core) : Core := c.mapCtl fun r => { r with voidmode := r.voidmode ||| 2 }
/-- VOIDMODE.MODE is 1. -/
def warnMode (c : Core) : Bool := c.regs.ctl.voidmode.getLsbD 0

/-- A FENCE's status word joins FSTAT (R72): bits 4:0 ORed, FAILED added with saturation, FIRST kept while nonzero. -/
def orFstat (fstat w : Dword) : Dword :=
  let bits := (fstat ||| w) &&& 0x1F
  let failed := (fstat.extractLsb' 8 8).toNat + (w.extractLsb' 8 8).toNat
  let first := if fstat.extractLsb' 16 22 = 0 then w.extractLsb' 16 22 else fstat.extractLsb' 16 22
  (first.setWidth 64 <<< 16) ||| (BitVec.ofNat 64 (if failed < 256 then failed else 255) <<< 8) ||| bits

/-! ## Bounds (R68, R174) -/

/-- The limits and the mode of entry `b`. -/
structure Bound where
  b : Nat
  low : Word
  high : Word
  mode : Nat
  deriving DecidableEq, Repr
def boundOf (r : Ctl) (b : Nat) : Bound :=
  let e := (r.bnd[b]?).getD 0
  { b := b, low := e.extractLsb' 0 32, high := e.extractLsb' 32 32,
    mode := if b = 0 then 0 else (r.bndm >>> (2 * b)).toNat % 4 }
/-- A value in range: low ≤ x ≤ high, with −0 equal to +0 and a NaN never. -/
def inRange (q : Bound) (x : Word) : Bool :=
  let v := num32 x
  !v.isNan && !(num32 q.low).isNan && !(num32 q.high).isNan && !numLt v (num32 q.low) && !numLt (num32 q.high) v
/-- One check: the value that goes on, the BNDLOG bits, and whether BOUND is raised. -/
def checkBound (q : Bound) (x : Word) : Word × BitVec 32 × Bool :=
  if q.b = 0 ∨ q.mode = 0 ∨ inRange q x then (x, 0, false)
  else
    let nan := (num32 x).isNan
    let hits : BitVec 32 := BitVec.ofNat 32 (2 ^ q.b + (if nan then 2 ^ (16 + q.b) else 0))
    if q.mode = 1 then (x, hits, false)
    else if q.mode = 2 then (if numLt (num32 q.high) (num32 x) then q.high else q.low, hits, false)
    else (x, hits, true)
/-- TVAL of BOUND (R74). -/
def boundTval (q : Bound) (x : Word) : Dword := x ++ BitVec.ofNat 32 q.b

end Sys2Proof.Machine
end

