-- ==== Sys2Proof/Machine/Operands.lean ====
section
/-! DEFINITION. Operand forms: translation and reach of an address (R132, R133, R177, R278 to R292), tile blocks and
directions (R57, R58, R204), generators and block sequences (R207, R216, R217), and the logs and cards that a write or a
command needs (R137, R266, R306). -/

namespace Sys2Proof.Machine

/-! ## The manifest (R278, R279, R282) -/

def meValid (e : MEntry) : Bool := e.dw0.getLsbD 63
def mePresent (e : MEntry) : Bool := e.dw0.getLsbD 62
def meWrite (e : MEntry) : Bool := e.dw0.getLsbD 61
def meRead (e : MEntry) : Bool := e.dw0.getLsbD 60
def meCow (e : MEntry) : Bool := e.dw0.getLsbD 59
def meWindow (e : MEntry) : Bool := e.dw0.getLsbD 58
def mePsize (e : MEntry) : Nat := (e.dw0.extractLsb' 56 2).toNat
def meLevel (e : MEntry) : Nat := (e.dw0.extractLsb' 53 3).toNat
def meDouble (e : MEntry) : Bool := e.dw0.getLsbD 52
def meVba (e : MEntry) : Nat := (e.dw0.extractLsb' 0 52).toNat
def meFormat (e : MEntry) : Byte := e.dw1.extractLsb' 56 8
def meCount (e : MEntry) : Nat := (e.dw1.extractLsb' 32 24).toNat
def meSlot (e : MEntry) : Nat := (e.dw1.extractLsb' 0 32).toNat
/-- Blocks in a page (R281). -/
def pageBlocks (psize : Nat) : Nat :=
  if psize = 0 then 1 else if psize = 1 then 512 else if psize = 2 then 262144 else 8388608
def meCovers (e : MEntry) (w : Nat) : Bool := meValid e && meVba e ≤ w && w < meVba e + meCount e

/-- Where an address leads, with the rights and the format of its page. -/
structure Page where
  slot : Slot
  level : Nat
  read : Bool
  write : Bool
  cow : Bool
  window : Bool
  code : Byte
  deriving DecidableEq, Repr, Inhabited

/-- The first package stack of a partition, and its number of stacks (R18). -/
def partStacks (count : Nat) : Nat := 16 / count
def partStack0 (count part : Nat) : Nat := partStacks count * part

/-- The core that member `m` of a gang is, in the copy of core index `i` (R332). -/
def coreOfMember (g : Gang) (i m : Nat) : Nat :=
  match g.cores[if isSecondary g i then g.size + m else m]? with
  | some c => c.num
  | none => 0
/-- The quay slot of gang quadrant `q` and gang-relative slot `j` (R230, R277), in the copy of core index `i`. -/
def quaySlot (g : Gang) (i q j : Nat) : Slot :=
  let quays := if isSecondary g i then g.quays2 else g.quays
  match quays[q]? with
  | some (pq, banks) => .quay pq (128 * (banks[j / 128]?).getD 0 + j % 128)
  | none => .quay 0 0
/-- slot(LEVEL, member, SLOT). A SLOT of HBM beyond the partition's stacks or past the last slot of a stack, which no check of R347 or
R355 keeps out, is the far slot that its bits name (R18; log 99, DESIGN CHOICE). -/
def slotOf (s : State) (g : Gang) (i level member v : Nat) : Slot :=
  if level = 1 then .berth (coreOfMember g i member) (v % 512)
  else if level = 2 then quaySlot g i (v / 2 ^ 13 % 16) (v % 2 ^ 13)
  else if level = 3 then .hbm (partStack0 s.partCount g.part + v / 2 ^ 24 % 16) (v % 2 ^ 24)
  else .far v

/-- The entry that maps a VBA: a block entry before a run (R280). -/
def findEntry (m : Manifest) (w : Nat) : Option MEntry :=
  match m.find? (fun p => 4096 ≤ p.1 && meCovers p.2 w) with
  | some p => some p.2
  | none => (m.find? fun p => p.1 < 4096 && meCovers p.2 w).map (·.2)

def vbaTval (v : BitVec 52) : Dword := v.setWidth 64
/-- TRANSLATION of a VBA for core index `i` of a gang (R282); `anyway` goes on past an absent entry (R407). -/
def translate (s : State) (g : Gang) (i : Nat) (v : BitVec 52) (anyway : Bool := false) : Except Cause Page :=
  let p := (v.extractLsb' 40 12).toNat
  let w := (v.extractLsb' 0 40).toNat
  let own := memberOf g i
  if p = 0 ∧ w < 0x40 then
    .ok { slot := .tile (coreOfMember g i own) w, level := 0, read := true, write := true, cow := false,
          window := false, code := 0 }
  else match findEntry g.manifest w with
    | none => .error { code := cManifestMiss, tval := vbaTval v }
    | some e =>
      let member := (meSlot e / 2 ^ 9) % 2 ^ 11
      if p != 0 && (meLevel e != 1 || member != 0x7FF || g.size ≤ p - 1) then
        .error { code := cManifestMiss, tval := vbaTval v }
      else if !mePresent e && !anyway then .error { code := cAbsent, tval := vbaTval v }
      else
        let m := if p != 0 then p - 1 else if member = 0x7FF then own else member
        .ok { slot := slotOf s g i (meLevel e) m (meSlot e + (w - meVba e)), level := meLevel e, read := meRead e,
              write := meWrite e, cow := meCow e, window := meWindow e, code := meFormat e }
def Ctx.page (x : Ctx) (v : BitVec 52) : Except Cause Page := translate x.s x.g x.k.idx v
/-- Pages of the manifest alone: two formats agree when equal, or one untyped (R210). -/
def formatsAgree (a b : Byte) : Bool := a == b || a == 0 || b == 0

/-! ## Routes and reach (R133, R208, R291, R292) -/

/-- The index of a pair of quadrants a < b. -/
def pairIndex (a b : Nat) : Nat := if a < b then 15 * a - a * (a - 1) / 2 + (b - a - 1) else 15 * b - b * (b - 1) / 2 + (a - b - 1)
def quadRank (g : Gang) (q : Nat) : Nat :=
  match g.quays.findIdx? (fun e => e.1 == q) with
  | some i => i
  | none => (g.quays2.findIdx? (fun e => e.1 == q)).getD 0
/-- Whether the route between two package quadrants is charged the non-minimal time. -/
def routeSlow (s : State) (g : Gang) (a b : Nat) : Bool :=
  s.routes.getLsbD (pairIndex a b) || g.desc.route.getLsbD (pairIndex (quadRank g a) (quadRank g b))
/-- The cycles that a route adds to its base within one quadrant. -/
def routeExtra (s : State) (g : Gang) (a b : Nat) : Nat := if a = b then 0 else if routeSlow s g a b then 36 else 18

/-- The latency of an S access of core number `own` (R133), and of an exchange pair with an own-berth near (R208): none for
a slot never reached. -/
def reachLat (s : State) (g : Gang) (own : Nat) (near : Nat) : Slot → Option Nat
  | .berth c _ =>
    if c = own then some near
    else some (40 + routeExtra s g (quadOf (own % 32) (own / 32)) (quadOf (c % 32) (c / 32)))
  | .quay q _ => some (30 + routeExtra s g (quadOf (own % 32) (own / 32)) q)
  | .hbm .. => some 600
  | .tile .. | .far _ => none
/-- The scope of a slot relative to a core (R297). -/
def slotScope (own : Nat) : Slot → Scope
  | .tile .. => .core
  | .berth c _ => if c = own then .core
    else if quadOf (c % 32) (c / 32) = quadOf (own % 32) (own / 32) then .quad else .pkg
  | .quay q _ => if q = quadOf (own % 32) (own / 32) then .quad else .pkg
  | .hbm .. | .far _ => .pkg
def scopeMax (a b : Scope) : Scope := if a.code.toNat < b.code.toNat then b else a
def ownBerth (own : Nat) : Slot → Bool
  | .berth c _ => c == own
  | _ => false
def ownTile (own : Nat) : Slot → Bool
  | .tile c _ => c == own
  | _ => false

/-! ## The rights of an access (R134, R282) -/

/-- PERMISSION of a page for a read or a write: never absorbed for a window page. -/
def rightCause (p : Page) (v : BitVec 52) (rd wr : Bool) : List Cause :=
  if wr && p.window then [{ code := cPermission, tval := vbaTval v, never := true }]
  else if rd && !p.read || wr && (!p.write || p.cow) then [{ code := cPermission, tval := vbaTval v }]
  else []
/-- A format code that a page or a block may decode by: a known one. -/
def codeKnown (b : Byte) : Bool := (fmtOfByte b).isSome
/-- FORMAT of a block whose code disagrees with the code its decode uses (R31, R284). -/
def blockDisagrees (use : Byte) (b : Cells) : Bool :=
  blkValid b && (!codeKnown use || blkFormat b != 0 && blkFormat b != use || !codeKnown (blkFormat b))

/-- Where an S access goes, once it meets no cause of R133 and R134: the page, the slot and the latency. -/
structure Target where
  page : Page
  vba : BitVec 52
  off : Nat
  lat : Nat
  deriving DecidableEq, Repr, Inhabited
/-- The causes of an S access to `ea` (R133, R134), in R76's order. -/
def sTarget (x : Ctx) (ea : Dword) (size : Nat) (rd wr : Bool) : Except Cause Target :=
  let v := ea.extractLsb' 12 52
  match x.page v with
  | .error e => .error e
  | .ok p =>
    let lat := reachLat x.s x.g x.core.num 6 p.slot
    let causes :=
      (if !x.slack && !ownBerth x.core.num p.slot then [x.miss] else [])
      ++ (if lat.isNone then [({ code := cPermission, tval := vbaTval v, never := true } : Cause)] else [])
      ++ rightCause p v rd wr
      ++ (if ea.toNat % size != 0 then [{ code := cAlign, tval := ea }] else [])
      ++ (if ((fmtOfByte p.code).map Fmt.isSq).getD true then [{ code := cFormat, tval := vbaTval v }] else [])
    match firstCause causes with
    | some e => .error e
    | none => .ok { page := p, vba := v, off := (ea.extractLsb' 0 12).toNat, lat := lat.getD 0 }

/-! ## The swap log (R137, R213, R266) -/

def undoCause : Cause := { code := cUndo, tval := 1024 }
/-- Take an entry that was reserved (`reserved` true) or not. -/
def takeLog (c : Core) (order : Nat) (e : LogEntry) (wasReserved : Bool := true) : Core :=
  { c with log := { order := order, entry := e } :: c.log, reserved := if wasReserved then c.reserved - 1 else c.reserved }
/-- The before-image buffers in use, those of a waiting XDROP with them (R227, R266). -/
def images (c : Core) : Nat :=
  (c.log.filter fun e => match e.entry with | .image .. => true | _ => false).length
    + (c.atEnd.flatMap fun e => match e with | .drop l _ => l | _ => []).length
/-- A block has a before-image since the later of the phase's start and its last arrival by exchange. -/
def imagedIn (log : List LogCell) (sl : Slot) : Bool :=
  match log with
  | [] => false
  | e :: t =>
    match e.entry with
    | .swap a b => if a = sl ∨ b = sl then false else imagedIn t sl
    | .unit a b .. => if a.contains sl || b.contains sl then false else imagedIn t sl
    | .mirror a _ => if a = sl then false else imagedIn t sl
    | .image a _ dropped => if a = sl ∧ dropped = false then true else imagedIn t sl
    | _ => imagedIn t sl

/-! ## Tiles (R203, R204, R57, R58) -/

/-- The eight blocks of a tile. -/
def tileSlots (core t : Nat) : List Slot := (List.range 8).map fun b => .tile core (8 * t + b)
def tileBlocks (s : State) (core t : Nat) : List Cells := (tileSlots core t).map (rawBlock s.mem)
/-- The block and the byte that byte `x` of row `i` lies at. -/
def tileLoc (sq : Bool) (i x : Nat) : Nat × Nat :=
  if sq then (2 * (i / 32) + x / 128, 128 * (i % 32) + x % 128) else (i / 16, 256 * (i % 16) + x)
/-- The block and the bit of element (i, j). -/
def elemLoc (f : Fmt) (i j : Nat) : Nat × Nat :=
  let bit := j * fmtWidth f
  let (b, o) := tileLoc f.isSq i (bit / 8)
  (b, 8 * o + bit % 8)
def blockAt (l : List Cells) (b : Nat) : Cells := (l[b]?).getD []
def elemCode (l : List Cells) (f : Fmt) (i j : Nat) : Nat :=
  let (b, o) := elemLoc f i j
  cbits (blockAt l b) o (fmtWidth f)
/-- The scale record that column `j` of its block's strip uses: its offset in the side record (R38). -/
def scaleAt (f : Fmt) (j : Nat) : Nat := sideAt + 28 * (j % (if f = .sqe2m1 then 256 else 128) / 32)
def sqE (b : Cells) (o : Nat) : Nat := (cget b o).toNat
def sqR (b : Cells) (o i : Nat) : Nat := cbits b (8 * (o + 1) + 3 * (i % 32)) 3
def sqC (b : Cells) (o j : Nat) : Nat := cbits b (8 * (o + 13) + 3 * (j % 32)) 3
/-- The exact value of an element of a floating-point or SQ tile (R25, R36). -/
def elemNum (l : List Cells) (f : Fmt) (i j : Nat) : Num :=
  let code := elemCode l f i j
  if f.isSq then
    let b := blockAt l (elemLoc f i j).1
    let o := scaleAt f j
    sqDecode f code (sqE b o) (sqR b o i) (sqC b o j)
  else fpDecode f code
/-- An element as a lane (R58), with the flags of an SQ value beyond FP32 (R36). -/
def elemLane (l : List Cells) (f : Fmt) (i j : Nat) : Word × BitVec 5 :=
  if f.isSq then rne32 (elemNum l f i j) else (widen f (elemCode l f i j), 0)

/-- The element or cell of lane `k` (R57). -/
def dirElem (acc : Bool) (d : Dir) (idx : Dword) (k : Nat) : Nat × Nat :=
  let n := (idx.extractLsb' 0 7).toNat
  let seg := if acc then 0 else (idx.extractLsb' 7 2).toNat
  match d with
  | .whole | .row => (n, 128 * seg + k)
  | .col => (k, n + 128 * seg)
  | .diag => (k, 128 * seg + k)
def inShape (shape : Dword) (f : Fmt) (p : Nat × Nat) : Bool := p.1 < tshpRows shape && p.2 < tshpCols shape f
def specIdx (x : Ctx) (sp : Spec) : Dword := x.core.regs.rgn sp.idx.toNat
def specShape (x : Ctx) (sp : Spec) : Dword := x.ctl.tshp[sp.num.toNat]'(by have := sp.num.isLt; omega)
/-- The lanes that reach an element: active and within the shape. -/
def lanesIn (shape : Dword) (f : Fmt) (d : Dir) (idx : Dword) (mask : Pred) : List Nat :=
  (List.range 128).filter fun k => mask.getLsbD k && inShape shape f (dirElem false d idx k)
/-- The blocks those lanes reach, in ascending order. -/
def blocksIn (shape : Dword) (f : Fmt) (d : Dir) (idx : Dword) (mask : Pred) : List Nat :=
  let hit := (lanesIn shape f d idx mask).map fun k =>
    let p := dirElem false d idx k
    (elemLoc f p.1 p.2).1
  (List.range 8).filter fun b => hit.contains b
/-- The VBA of a tile block (R203). -/
def tileVba (t b : Nat) : Dword := BitVec.ofNat 64 (8 * t + b)
def formatAt (v : Dword) : Cause := { code := cFormat, tval := v }

/-- A read of a void block raises VOID_READ, or gives zeros in warn mode (R69). -/
def voidCause (x : Ctx) (tval : Dword) (b : Cells) : List Cause :=
  if !blkValid b && !warnMode x.core then [{ code := cVoidRead, tval := tval }] else []
/-- The bytes a decode of a block sees: none of a void block's (R274). -/
def readable (b : Cells) : Cells := if blkValid b then b else []

/-- The words of tile elements that a read touches: the tile's own slots, at the elements' places. -/
def elemWords (core t : Nat) (f : Fmt) (l : List (Nat × Nat)) : List (Slot × Nat × Nat) :=
  (l.map fun p => (Slot.tile core (8 * t + (elemLoc f p.1 p.2).1), 4 * ((elemLoc f p.1 p.2).2 / 32), 4)).eraseDups
/-- The words that a direction read touches. -/
def dirWords (x : Ctx) (sp : Spec) (mask : Pred) : List (Slot × Nat × Nat) :=
  match tshpFmt (specShape x sp) with
  | none => []
  | some f => elemWords x.core.num sp.num.toNat f
      ((lanesIn (specShape x sp) f sp.dir (specIdx x sp) mask).map (dirElem false sp.dir (specIdx x sp)))
/-- What a direction read delivers, or its first cause (R57, R58, R170): the lanes, their flags, and whether a void block
was read in warn mode. -/
def dirRead (x : Ctx) (sp : Spec) (mask : Pred) : Except Cause (Lanes × BitVec 5 × Bool) :=
  let shape := specShape x sp
  let idx := specIdx x sp
  let t := sp.num.toNat
  if mask = 0 then .ok (Vector.replicate 128 0, 0, false)
  else match tshpFmt shape with
  | none => .error (formatAt (tileVba t 0))
  | some f =>
    let raw := (tileBlocks x.s x.core.num t).map detectAll
    let blocks := raw.map readable
    let touched := blocksIn shape f sp.dir idx mask
    let lanes := lanesIn shape f sp.dir idx mask
    let marked := lanes.find? fun k =>
      let p := dirElem false sp.dir idx k
      let (b, o) := elemLoc f p.1 p.2
      blkMarked (blockAt blocks b) (o / 32)
    let causes :=
      (if f = .i64 ∨ f = .n64 then [formatAt (tileVba t 0)] else [])
      ++ ((touched.filter fun b => blockDisagrees (fmtByte f) (blockAt raw b)).map fun b => formatAt (tileVba t b))
      ++ touched.flatMap (fun b => voidCause x (tileVba t b) (blockAt raw b))
      ++ (match marked with
          | some k =>
            let p := dirElem false sp.dir idx k
            [({ code := cPoison, tval := tileVba t (elemLoc f p.1 p.2).1, reads := dirWords x sp mask } : Cause)]
          | none => [])
    match firstCause causes with
    | some e => .error e
    | none =>
      let val (k : Nat) : Word × BitVec 5 :=
        let p := dirElem false sp.dir idx k
        if mask.getLsbD k && inShape shape f p then elemLane blocks f p.1 p.2 else (0, 0)
      .ok (Vector.ofFn fun k => (val k.val).1, lanes.foldl (fun a k => a ||| (val k).2) 0,
        touched.any fun b => !blkValid (blockAt raw b))

/-! ## Writes to tile blocks (R173, R266) -/

/-- The valid count of R190: 0x81 to 0xFF act as 128. -/
def validCount (v : Dword) : Nat := let n := (v.extractLsb' 0 8).toNat; if n < 128 then n else 128
/-- The rows and columns that a drain writes into a tile of `shape` (R196). -/
def drainRows (shape : Dword) (n : Nat) : Nat := min n (tshpRows shape)
def drainCols (shape : Dword) (f : Fmt) : Nat := min 128 (tshpCols shape f)
/-- The blocks of tile `t` that a drain writes: 16 rows each, or the first of each strip it fits (R200, R204). -/
def drainBlocks (core t : Nat) (shape : Dword) (f : Fmt) (n : Nat) : List Slot :=
  let rows := drainRows shape n
  if f.isSq then (List.range ((rows + 31) / 32)).map fun q => .tile core (8 * t + 2 * q)
  else (List.range ((rows + 15) / 16)).map fun b => .tile core (8 * t + b)

/-- Lane k of a parked register: 64 lanes in each of two rows. -/
def parkedLoc (sq : Bool) (n k : Nat) : Nat × Nat := tileLoc sq (n + k / 64) (4 * (k % 64))
/-- The blocks of rows n and n + 1 of tile t, whose TSHP is `shape`, that the active lanes are written to (R180). -/
def parkedSlots (core : Nat) (shape : Dword) (t n : Nat) (mask : Pred) : List Slot :=
  let sq := ((tshpFmt shape).map Fmt.isSq).getD false
  ((((List.range 128).filter fun k => mask.getLsbD k).map fun k => (parkedLoc sq n k).1).eraseDups).map
    fun b => .tile core (8 * t + b)

/-- The tile blocks that writes on their way will reach and that hold no before-image yet. -/
def pendingSlots (c : Core) : List Slot :=
  let ofLanding (l : Landing) : List Slot := match l.dest with
    | .tile sp idx shape =>
      match tshpFmt shape with
      | some f => (blocksIn shape f sp.dir idx l.mask).map fun b => .tile c.num (8 * sp.num.toNat + b)
      | none => []
    | _ => []
  let ofCmd (m : Option MCmd) : List Slot := match m with
    | some { instr := .mdrn _ _ dr, active := true, shapeA := sh, valid := n, .. } =>
      drainBlocks c.num dr.d.num.toNat sh dr.ty n
    | some { instr := .mdrnq _ _ dr, active := true, shapeA := sh, valid := n, .. } =>
      drainBlocks c.num dr.d.num.toNat sh dr.ty n
    | _ => []
  let ofEnd (e : AtEnd) : List Slot := match e with
    | .park t n _ mask => parkedSlots c.num ((c.regs.ctl.tshp[t]?).getD 0) t n mask
    | _ => []
  (c.regs.landings.flatMap ofLanding ++ c.cmds.toList.flatMap ofCmd ++ c.atEnd.flatMap ofEnd).filter fun sl => !imagedIn c.log sl
/-- Room in the log for `n` entries beside those that writes on their way will take. -/
def logFree (c : Core) (n : Nat) : Bool := c.log.length + c.reserved + (pendingSlots c).eraseDups.length + n ≤ 1024
/-- Room for `n` before-images beside them. -/
def imageFree (c : Core) (n : Nat) : Bool := images c + (pendingSlots c).eraseDups.length + n ≤ 64 && logFree c n
/-- Room for the before-images of a write to `slots`, or UNDO_OVERFLOW (R266). -/
def imageRoom (c : Core) (slots : List Slot) : Option Cause :=
  let waiting := (pendingSlots c).eraseDups
  let new := (slots.filter fun sl => !imagedIn c.log sl && !waiting.contains sl).eraseDups
  if new.isEmpty || imageFree c new.length then none else some undoCause
/-- A write to `slots` finds the buffers and the entries that its before-images take (R266): a swap since its issue may have made one of
them new. -/
def imagesFit (c : Core) (slots : List Slot) : Bool :=
  let new := (slots.filter fun sl => !imagedIn c.log sl).eraseDups
  new.isEmpty || images c + new.length ≤ 64 && c.log.length + c.reserved + new.length ≤ 1024
/-- Keep a block's before-image if it has none. -/
def keepImage (s : State) (c : Core) (sl : Slot) : State × Core :=
  if imagedIn c.log sl then (s, c)
  else
    let (n, s) := fresh s
    (s, takeLog c n (.image sl (rawBlock s.mem sl) false) false)

/-! ## Generators and block sequences (R70, R207, R216 to R218) -/

def aguInd (d : Dword) : Bool := d.getLsbD 31
def aguCount (d : Dword) : Nat := let n := (d.extractLsb' 0 16).toNat; if n = 0 then 1 else n
def aguStride (d : Dword) : Int := (d.extractLsb' 32 32).toInt
def aguTable (d : Dword) : Nat := (d.extractLsb' 32 32).toNat
def genDim (l : Vector Dword 8) (G d : Nat) : Dword := (l[4 * G + d]?).getD 0
def genLength (l : Vector Dword 8) (G : Nat) : Nat :=
  aguCount (genDim l G 0) * aguCount (genDim l G 1) * aguCount (genDim l G 2) * aguCount (genDim l G 3)
/-- The direct part of offset(G, p), and the table VBA and entry of its indirect dimension. -/
def genOffset (l : Vector Dword 8) (G p : Nat) : Int × Option (Nat × Nat) :=
  let go := (List.range 4).foldl (fun (a : Nat × Int × Option (Nat × Nat)) d =>
    let w := genDim l G d
    let i := a.1 % aguCount w
    let q := a.1 / aguCount w
    if aguInd w then (q, a.2.1, some (aguTable w, i)) else (q, a.2.1 + aguStride w * i, a.2.2))
    (p % genLength l G, 0, none)
  (go.2.1, go.2.2)
def genIndirect (l : Vector Dword 8) (G : Nat) : Bool := (List.range 4).any fun d => aguInd (genDim l G d)
/-- Two indirect dimensions, or one of more than 512 entries (R70, R218). -/
def genBad (l : Vector Dword 8) (G : Nat) : Bool :=
  1 < ((List.range 4).filter fun d => aguInd (genDim l G d)).length
    || (List.range 4).any fun d => aguInd (genDim l G d) && 512 < aguCount (genDim l G d)
/-- The block tables a set of generators reads. -/
def genTables (l : Vector Dword 8) (gen : BitVec 2) : List Nat :=
  (List.range 2).flatMap fun G =>
    if gen.getLsbD G then ((List.range 4).filter fun d => aguInd (genDim l G d)).map fun d => aguTable (genDim l G d)
    else []
def addVba (v : Dword) (o : Int) : BitVec 52 := (v + BitVec.ofInt 64 o).setWidth 52

/-! ## The job list (R306, R307) -/

def overlaps (a b : List Region) : Bool := a.any fun r => b.contains r
/-- An edge of an earlier card into one whose first cycle is `first`, unmet (R307). A card that is open completes only at
the joint commit or at its return. -/
def cardConflict (j : Card) (reads writes : List Region) (first : Nat) : Bool :=
  (overlaps j.writes reads || overlaps j.writes writes) && (j.open_ || first ≤ j.last)
    || overlaps j.reads writes && (j.open_ && j.readEnd = j.last || first ≤ j.readEnd)
/-- Every edge into a command is met; an XPEN holds its word's slot until it has written it (R306). -/
def cardsMeet (c : Core) (reads writes : List Region) (first : Nat) : Bool :=
  !(c.cards.any fun j => cardConflict j reads writes first)
    && !(c.pens.any fun p => reads.contains (.slot p.slot) || writes.contains (.slot p.slot))
def addCard (c : Core) (k : Card) : Core := { c with cards := c.cards ++ [k] }

/-! ## Words and elements in a block -/

/-- Write one element's code of `w` bits at bit `bit` of a block, its word rewritten (R378). -/
def putCode (b : Cells) (bit w code : Nat) : Cells :=
  let b := rewriteWord b (bit / 32)
  if w = 4 then
    let old := (cget b (bit / 8)).toNat
    cput b (bit / 8) (BitVec.ofNat 8 (if bit % 8 = 0 then old / 16 * 16 + code % 16 else code % 16 * 16 + old % 16))
  else cputLe b (bit / 8) (w / 8) code
/-- A block of the machine's own levels changed in place. -/
def modBlock (s : State) (sl : Slot) (f : Cells → Cells) : State :=
  { s with mem := setRawBlock s.mem sl (f (rawBlock s.mem sl)) }
/-- A block written outside the swap log for the first time by its instruction (R173, R201, R266): its before-image kept,
and the block opened with format code `code`. -/
def openTile (s : State) (c : Core) (code : Byte) (sl : Slot) : State × Core :=
  let (s, c) := keepImage s c sl
  (modBlock s sl fun b => openBlock b code, c)

/-- The element's bytes as a number, and a write of them: the block opened or its generation raised (R135), marks of the
rewritten words kept (R275), an undetected error there gone (R378). -/
def readElem (b : Cells) (off size : Nat) : Nat := cle b off size
def writeElem (b : Cells) (page : Byte) (off size v : Nat) : Cells :=
  let b := openBlock b page
  cputLe (rewriteWord b (off / 4)) off size v

end Sys2Proof.Machine
end

