-- ==== Sys2Proof/Machine/Scalar.lean ====
section
/-! DEFINITION. S cluster: integer arithmetic, logic, compares and immediates (R127 to R131). -/

namespace Sys2Proof.Machine

/-! ## Results -/

def divS (a b : Dword) : Dword :=
  if b = 0 then BitVec.allOnes 64 else BitVec.ofInt 64 (a.toInt.tdiv b.toInt)
def divU (a b : Dword) : Dword := if b = 0 then BitVec.allOnes 64 else BitVec.ofNat 64 (a.toNat / b.toNat)
def remS (a b : Dword) : Dword := if b = 0 then a else BitVec.ofInt 64 (a.toInt.tmod b.toInt)
def remU (a b : Dword) : Dword := if b = 0 then a else BitVec.ofNat 64 (a.toNat % b.toNat)
def mulHighS (a b : Dword) : Dword := BitVec.ofInt 64 (a.toInt * b.toInt / 2 ^ 64)
def mulHighU (a b : Dword) : Dword := BitVec.ofNat 64 (a.toNat * b.toNat / 2 ^ 64)
def minS (a b : Dword) : Dword := if a.toInt ≤ b.toInt then a else b
def maxS (a b : Dword) : Dword := if a.toInt ≤ b.toInt then b else a
def minU (a b : Dword) : Dword := if a.toNat ≤ b.toNat then a else b
def maxU (a b : Dword) : Dword := if a.toNat ≤ b.toNat then b else a
def shiftCount (b : Dword) : Nat := (b.extractLsb' 0 6).toNat
/-- Leading zeros of the low `n` bits. -/
def leadingZeros (a : Dword) : Nat → Nat
  | 0 => 0
  | n + 1 => if a.getLsbD n then 0 else 1 + leadingZeros a n
/-- One bits among the low `n`. -/
def countOnes {w : Nat} (a : BitVec w) : Nat → Nat
  | 0 => 0
  | n + 1 => (if a.getLsbD n then 1 else 0) + countOnes a n
/-- The relations of R128. -/
def relHolds {w : Nat} (rel : Rel) (a b : BitVec w) : Bool :=
  match rel with
  | .eq => a == b
  | .ne => a != b
  | .lt => decide (a.toInt < b.toInt)
  | .le => decide (a.toInt ≤ b.toInt)
  | .ltn => decide (a.toNat < b.toNat)
  | .len => decide (a.toNat ≤ b.toNat)
def boolWord (b : Bool) : Dword := if b then 1 else 0

/-! ## The shared forms -/

/-- g[d] ← f(g[a], g[b]) with latency `lat` (R125). -/
def alu2 (c : Common) (d a b : Reg) (lat : Nat) (f : Dword → Dword → Dword) (s : State) : Out :=
  issue .s c (onCore fun x => landG x d (f (x.rg a) (x.rg b)) lat x.core) nothing s
/-- g[d] ← f(g[a]) with L = 1. -/
def alu1 (c : Common) (d a : Reg) (f : Dword → Dword) (s : State) : Out :=
  issue .s c (onCore fun x => landG x d (f (x.rg a)) 1 x.core) nothing s

/-! ## R127 -/

def execAdd (c : Common) (d a b : Reg) (s : State) : Out := alu2 c d a b 1 (fun u w => u + w) s
def execSub (c : Common) (d a b : Reg) (s : State) : Out := alu2 c d a b 1 (fun u w => u - w) s
def execMul (c : Common) (d a b : Reg) (s : State) : Out := alu2 c d a b 3 (fun u w => u * w) s
def execMulh (c : Common) (d a b : Reg) (s : State) : Out := alu2 c d a b 3 mulHighS s
def execMulhn (c : Common) (d a b : Reg) (s : State) : Out := alu2 c d a b 3 mulHighU s
def execDiv (c : Common) (d a b : Reg) (s : State) : Out := alu2 c d a b 12 divS s
def execDivn (c : Common) (d a b : Reg) (s : State) : Out := alu2 c d a b 12 divU s
def execRem (c : Common) (d a b : Reg) (s : State) : Out := alu2 c d a b 12 remS s
def execRemn (c : Common) (d a b : Reg) (s : State) : Out := alu2 c d a b 12 remU s
def execMin (c : Common) (d a b : Reg) (s : State) : Out := alu2 c d a b 1 minS s
def execMax (c : Common) (d a b : Reg) (s : State) : Out := alu2 c d a b 1 maxS s
def execMinn (c : Common) (d a b : Reg) (s : State) : Out := alu2 c d a b 1 minU s
def execMaxn (c : Common) (d a b : Reg) (s : State) : Out := alu2 c d a b 1 maxU s
def execAnd (c : Common) (d a b : Reg) (s : State) : Out := alu2 c d a b 1 (fun u w => u &&& w) s
def execOr (c : Common) (d a b : Reg) (s : State) : Out := alu2 c d a b 1 (fun u w => u ||| w) s
def execXor (c : Common) (d a b : Reg) (s : State) : Out := alu2 c d a b 1 (fun u w => u ^^^ w) s
def execShl (c : Common) (d a b : Reg) (s : State) : Out := alu2 c d a b 1 (fun u w => u <<< shiftCount w) s
def execShr (c : Common) (d a b : Reg) (s : State) : Out := alu2 c d a b 1 (fun u w => u >>> shiftCount w) s
def execSar (c : Common) (d a b : Reg) (s : State) : Out := alu2 c d a b 1 (fun u w => u.sshiftRight (shiftCount w)) s
def execClz (c : Common) (d a : Reg) (s : State) : Out := alu1 c d a (fun u => BitVec.ofNat 64 (leadingZeros u 64)) s
def execPopc (c : Common) (d a : Reg) (s : State) : Out := alu1 c d a (fun u => BitVec.ofNat 64 (countOnes u 64)) s

/-! ## R128 -/

def execSel (c : Common) (d a b e : Reg) (s : State) : Out :=
  issue .s c (onCore fun x => landG x d (if x.rg e = 0 then x.rg b else x.rg a) 1 x.core) nothing s
def execCmp (c : Common) (d a b : Reg) (rel : Rel) (s : State) : Out :=
  alu2 c d a b 1 (fun u w => boolWord (relHolds rel u w)) s

/-! ## R130, R131 -/

def execAddi (c : Common) (d a : Reg) (imm : BitVec 23) (s : State) : Out := alu1 c d a (fun u => u + imm.signExtend 64) s
def execAndi (c : Common) (d a : Reg) (imm : BitVec 23) (s : State) : Out := alu1 c d a (fun u => u &&& imm.setWidth 64) s
def execOri (c : Common) (d a : Reg) (imm : BitVec 23) (s : State) : Out := alu1 c d a (fun u => u ||| imm.setWidth 64) s
def execXori (c : Common) (d a : Reg) (imm : BitVec 23) (s : State) : Out := alu1 c d a (fun u => u ^^^ imm.setWidth 64) s
def execShli (c : Common) (d a : Reg) (n : BitVec 6) (s : State) : Out := alu1 c d a (fun u => u <<< n.toNat) s
def execShri (c : Common) (d a : Reg) (n : BitVec 6) (s : State) : Out := alu1 c d a (fun u => u >>> n.toNat) s
def execSari (c : Common) (d a : Reg) (n : BitVec 6) (s : State) : Out := alu1 c d a (fun u => u.sshiftRight n.toNat) s
def execCmpi (c : Common) (d a : Reg) (rel : Rel) (imm : BitVec 20) (s : State) : Out :=
  alu1 c d a (fun u => boolWord (relHolds rel u (imm.signExtend 64))) s
def execLiOne (c : Common) (d : Reg) (imm : BitVec 29) (s : State) : Out :=
  issue .s c (onCore fun x => landG x d (imm.signExtend 64) 1 x.core) nothing s
def execLiTwo (c : Common) (d : Reg) (imm : Dword) (s : State) : Out :=
  issue .s c (onCore fun x => landG x d imm 1 x.core) nothing s

end Sys2Proof.Machine
end

