-- ==== Sys2Proof/Machine/Branch.lean ====
section
/-! DEFINITION. S cluster: branches with two delay slots (R59, R60, R141, R142). -/

namespace Sys2Proof.Machine

def condHolds (cond : Cond) (v : Dword) : Bool :=
  match cond with
  | .z => v == 0
  | .nz => v != 0
  | .neg => decide (v.toInt < 0)
  | .nneg => decide (0 ≤ v.toInt)
  | .pos => decide (0 < v.toInt)
  | .npos => decide (v.toInt ≤ 0)
def relTarget (x : Ctx) (off : BitVec 24) : Dword := x.pc + off.signExtend 64
/-- The fate of the queue: the target when taken, and the delay slots' nullify bits (R141). -/
def branchHow (nul : Nul) (taken : Bool) (t : Dword) : How :=
  { target := if taken then some t else none,
    nullSlots := match nul with
      | .none => false
      | .nt => !taken
      | .nk => taken }
/-- A branch; guarded off it is not taken and nullifies nothing. -/
def branch (c : Common) (how : Ctx → How) (effect : Ctx → Except Cause Core) (s : State) : Out :=
  issueHow .s c (fun x => if guardOn x c then how x else {}) (onCore effect) nothing s

def execB (c : Common) (nul : Nul) (off : BitVec 24) (s : State) : Out :=
  branch c (fun x => branchHow nul true (relTarget x off)) (fun x => .ok x.core) s
def execBc (c : Common) (nul : Nul) (cond : Cond) (a : Reg) (off : BitVec 24) (s : State) : Out :=
  branch c (fun x => branchHow nul (condHolds cond (x.rg a)) (relTarget x off)) (fun x => .ok x.core) s
def execBr (c : Common) (nul : Nul) (a : Reg) (s : State) : Out :=
  branch c (fun x => branchHow nul true (x.rg a)) (fun x => .ok x.core) s
/-- The link is next(q2) as it stands before the queue advances. -/
def execCall (c : Common) (nul : Nul) (a : Reg) (off : BitVec 24) (s : State) : Out :=
  branch c (fun x => branchHow nul true (relTarget x off))
    (fun x => landG x a (nextAddr x.g.lines x.core.regs.q[2].addr).addr 1 x.core) s
def execLoop (c : Common) (nul : Nul) (a : Reg) (off : BitVec 24) (s : State) : Out :=
  branch c (fun x => branchHow nul (x.rg a - 1 != 0) (relTarget x off)) (fun x => landG x a (x.rg a - 1) 1 x.core) s

end Sys2Proof.Machine
end

