-- ==== Sys2Proof/Machine/Control.lean ====
section
/-! DEFINITION. NOP, IDLE and RDV of every cluster (R94, R104, R105), and the S cluster's phases, traps, control registers
and privileged forms (R143, R145 to R147, R151 to R154, R350 to R352). -/

namespace Sys2Proof.Machine

def execNop (c : Common) (s : State) : Out := issueAny c {} s
def execIdle (c : Common) (n : BitVec 35) (s : State) : Out := issueAny c { idle := n.toNat } s
/-- V, M and X issue nothing after an RDV until the next FORK. -/
def execRdv (c : Common) (s : State) : Out := issueAny c { rdv := true } s

/-! ## Starting and barriers -/

/-- FORK n starts V, M and X n cycles on (R104), or raises SCHED_MISS while one has not joined (R143). -/
def execFork (c : Common) (n : BitVec 35) (s : State) : Out :=
  issue .s c (onCore fun x =>
    if x.core.regs.points.all (·.joined) then
      .ok { x.core with regs := { x.core.regs with
        points := x.core.regs.points.map fun p => { p with next := x.tide + n.toNat, parked := false, joined := false } } }
    else .error x.miss) nothing s

/-- PHASE with its SPAN. -/
def withSpan (phase : Dword) (span : Dword) : Dword := phase &&& ~~~3 ||| span
/-- SLACK opens the slack span (R145); in the slack span it raises SCHED_MISS. -/
def execSlack (c : Common) (s : State) : Out :=
  issueHow .s c (fun _ => { kind := 1 }) (onCore fun x =>
    if x.slack then .error x.miss
    else .ok { x.core with atEnd := x.core.atEnd ++ [.ctl 1 (withSpan x.ctl.phase 1)] }) nothing s
/-- COMMIT closes the phase; its barrier and its checks are the cycle's (R145, R146). -/
def execCommit (c : Common) (s : State) : Out :=
  issueHow .s c (fun _ => { kind := 2 }) (pureCore fun x =>
    { x.core with atEnd := x.core.atEnd ++ [.ctl 1 (withSpan x.ctl.phase 2)] }) nothing s
/-- SAFE names a live map of the image (R147). -/
def execSafe (c : Common) (map : BitVec 8) (s : State) : Out :=
  issueHow .s c (fun _ => { kind := 3 + map.toNat }) (onCore fun x =>
    if map.toNat < x.g.livemaps.length then .ok x.core else .error (x.formCause cReserved)) nothing s

/-! ## Traps -/

def execTrap (c : Common) (imm : BitVec 35) (s : State) : Out :=
  issue .s c (fun _ => .error { code := cTrap, tval := imm.setWidth 64 }) nothing s

/-- The member core that HSEL selected: the gang and index that stand on its logical core. -/
def selectedMember (s : State) : Option CoreId :=
  (s.gangs.find? fun g => g.cores.any fun c => c.num == s.harbour.selected).bind fun g =>
    (g.cores.findIdx? fun c => c.num == s.harbour.selected).map fun i => ⟨g.id, i⟩
/-- TRET to one core of a gang: the hold of cause 5 ends once no member is left that trapped (R153, R256). -/
def tretMember (s : State) (k : CoreId) : State :=
  modGang s k.gang fun g =>
    let g := modCore g k.idx fun c => if c.trapped then returnFromTrap c else c
    if g.cores.any (·.trapped) then g else endClaims g fun c => c.cause == 5
/-- In a core's own program TRET raises ILLEGAL_PRIV. On the harbourmaster it ends the handler of its own causes, else it acts
on the selected core (R350, R353, log 16, DEDUCED). -/
def execTret (c : Common) (s : State) : Out :=
  issue .s c (fun x =>
    if !x.hb then .error (x.formCause cIllegalPriv)
    else if x.s.harbour.handler then
      .ok (returnFromTrap x.core, { x.s with harbour := { x.s.harbour with handler := false } })
    else match selectedMember x.s with
      | some k => .ok (x.core, tretMember x.s k)
      | none => .ok (x.core, x.s)) nothing s

/-! ## Control register moves (R65, R154) -/

/-- The cause of decode of MFC and MTC, which no guard turns off (R65, R96, R115): a number absent from the map, and for MTC a register
marked RO. -/
def ctlDecode (x : Ctx) (n : Nat) (writes : Bool) : Option Cause :=
  if (readCtl x.core x.tide n).isNone then some (x.formCause cIllegalOp)
  else if writes && ctlReadOnly n then some (x.formCause cIllegalPriv)
  else none
def ctlOff (n : Nat) (writes : Bool) : Body := fun x =>
  match ctlDecode x n writes with
  | some e => .error e
  | none => nothing x
def execMfc (c : Common) (d : Reg) (num : BitVec 12) (s : State) : Out :=
  issue .s c (onCore fun x =>
    match readCtl x.core x.tide num.toNat with
    | some v => landG x d v 1 x.core
    | none => .error (x.formCause cIllegalOp)) (ctlOff num.toNat false) s
/-- A number absent from the map raises ILLEGAL_OP, and a TSHP value that R56 refuses raises FORMAT. -/
def ctlCause (x : Ctx) (n : Nat) (v : Dword) : Option Cause :=
  if (readCtl x.core x.tide n).isNone then some (x.formCause cIllegalOp)
  else if 0x10 ≤ n ∧ n < 0x18 ∧ tshpOk v = false then some { code := cFormat, tval := v }
  else none
def execMtc (c : Common) (d : Reg) (num : BitVec 12) (s : State) : Out :=
  issue .s c (onCore fun x =>
    match (ctlDecode x num.toNat true).or (ctlCause x num.toNat (x.rg d)) with
    | some e => .error e
    | none => .ok { x.core with atEnd := x.core.atEnd ++ [.ctl num (x.rg d)] }) (ctlOff num.toNat true) s

/-! ## The privileged forms (R350 to R352) -/

/-- An S form that a core refuses with ILLEGAL_PRIV (R95, R119). -/
def privileged (body : Body) : Body := fun x => if x.hb then body x else .error (x.formCause cIllegalPriv)

def execHsel (c : Common) (a : Reg) (s : State) : Out :=
  issue .s c (privileged fun x =>
    .ok (x.core, { x.s with harbour := { x.s.harbour with selected := ((x.rg a).extractLsb' 0 10).toNat } })) nothing s
/-- HRD of a core that holds no placed gang gives 0 (R351). -/
def execHrd (c : Common) (d b : Reg) (s : State) : Out :=
  issue .s c (privileged (onCore fun x =>
    let n := ((x.rg b).extractLsb' 0 12).toNat
    if (readCtl x.core x.tide n).isNone then .error (x.formCause cIllegalOp)
    else
      let v := match (selectedMember x.s).bind (getMember x.s) with
        | some (g, core) => (readCtl core g.tide n).getD 0
        | none => 0
      landG x d v 4 x.core)) nothing s
/-- HWR joins the core's writes of the cycle, and in a hold stands at once (R351). -/
def hwrMember (s : State) (k : CoreId) (n : Nat) (v : Dword) : State :=
  modGang s k.gang fun g => modCore g k.idx fun c =>
    if g.held then setCtlReg c n v else { c with atEnd := c.atEnd ++ [.ctl (BitVec.ofNat 12 n) v] }
def execHwr (c : Common) (b e : Reg) (s : State) : Out :=
  issue .s c (privileged fun x =>
    let n := ((x.rg b).extractLsb' 0 12).toNat
    match ctlCause x n (x.rg e) with
    | some q => .error q
    | none =>
      if n < 5 then .error (x.formCause cIllegalPriv)
      else match selectedMember x.s with
        | some k => .ok (x.core, hwrMember x.s k n (x.rg e))
        | none => .ok (x.core, x.s)) nothing s

/-- The instruction waits: it issues again on the harbourmaster's next cycle. -/
def stall (x : Ctx) : State :=
  putCore x x.s { x.core with regs := { x.core.regs with sNext := x.tide + 1 } }
/-- A command record in the harbourmaster's memory. -/
def recordAt (m : Cells) (a : Nat) : CmdRec :=
  let d (i : Nat) : Dword := BitVec.ofNat 64 (cle m (a + 8 * i) 8)
  ⟨d 0, d 1, d 2, d 3, d 4, d 5, d 6, d 7⟩
/-- HCMD posts a record, or waits while the queue is full (R352). -/
def execHcmd (c : Common) (d a : Reg) (s : State) : Out :=
  match ctxOf s .s with
  | none => .fault .noCore
  | some x =>
    if x.hb && guardOn x c && queueFull x.s && (x.rg a).toNat % 64 == 0 then .next (stall x)
    else issue .s c (privileged fun x =>
      if (x.rg a).toNat % 64 != 0 then .error { code := cAlign, tval := x.rg a }
      else
        let (n, s') := postCmd x.s (recordAt x.s.harbour.mem (x.rg a).toNat) false
        (landG x d (BitVec.ofNat 64 n) 1 x.core).map fun core => (core, s')) nothing s
/-- The status that HWAIT gives a ticket: 0xFF for one not among the last 256, and none while it is not acknowledged. -/
def ticketStatus (s : State) (n : Nat) : Option Dword :=
  if n + 256 < s.nextTicket then some 0xFF
  else match s.tickets.find? (fun t => t.num == n) with
    | some t => t.acked
    | none => some 0xFF
def execHwait (c : Common) (d a : Reg) (s : State) : Out :=
  match ctxOf s .s with
  | none => .fault .noCore
  | some x =>
    match ticketStatus x.s (x.rg a).toNat with
    | none => if x.hb && guardOn x c then .next (stall x) else issue .s c (privileged nothing) nothing s
    | some v => issue .s c (privileged (onCore fun x => landG x d v 1 x.core)) nothing s

end Sys2Proof.Machine
end

