-- ==== Sys2Proof/Machine/VecArith.lean ====
section
/-! DEFINITION. V cluster: FP32 and integer lanes, compares, predicates, moves, reductions and conversions (R155 to
R169). -/

namespace Sys2Proof.Machine

/-! ## The shared forms (R155, R157) -/

/-- A result lane by lane, with its flags. -/
abbrev LaneFn := Fin 128 → Word × BitVec 5
/-- The flags of the active lanes, ORed. -/
def laneFlags (f : LaneFn) (mask : Pred) : BitVec 5 :=
  (List.finRange 128).foldl (fun a k => if mask.getLsbD k.val then a ||| (f k).2 else a) 0
def lanesOf (f : LaneFn) : Lanes := Vector.ofFn fun k => (f k).1
/-- v[d] ← f in the active lanes, `lat` cycles after issue: a landing that counts though no lane is active (R62, R157; log 100,
DESIGN CHOICE). -/
def landV (x : Ctx) (d : Reg) (f : LaneFn) (mask : Pred) (lat : Nat) (core : Core) : Except Cause Core :=
  addLanding x { dest := .v d, lanes := lanesOf f, mask := mask, due := x.tide + lat, issued := x.tide, cl := .v,
                 flags := laneFlags f mask, long := 1 < lat } core
/-- A predicate from its lanes. -/
def predOf (f : Fin 128 → Bool) : Pred := (BitVec.ofBoolListLE (List.ofFn f)).cast List.length_ofFn
/-- p[d] ← f in the active lanes, with L = 1; a write to p0 is discarded. -/
def landP (x : Ctx) (d : PReg) (f : Fin 128 → Bool) (flags : BitVec 5) (mask : Pred) (core : Core) : Except Cause Core :=
  let v : Pred := predOf f
  addLanding x { dest := if d = 0 then .none else .p d, pred := v, mask := mask, due := x.tide + 1, issued := x.tide, cl := .v,
                 flags := flags, long := false } core

def vec1 (c : Common) (d a : Reg) (lat : Nat) (f : Word → Word × BitVec 5) (s : State) : Out :=
  issueV c (fun x mask => landV x d (fun k => f (x.rv a)[k]) mask lat x.core) s
def vec2 (c : Common) (d a b : Reg) (lat : Nat) (f : Word → Word → Word × BitVec 5) (s : State) : Out :=
  issueV c (fun x mask => landV x d (fun k => f (x.rv a)[k] (x.rv b)[k]) mask lat x.core) s
def vec3 (c : Common) (d a b e : Reg) (lat : Nat) (f : Word → Word → Word → Word × BitVec 5) (s : State) : Out :=
  issueV c (fun x mask => landV x d (fun k => f (x.rv a)[k] (x.rv b)[k] (x.rv e)[k]) mask lat x.core) s
/-- A result that raises no flag. -/
def quiet (w : Word) : Word × BitVec 5 := (w, 0)

/-! ## R158, R159 -/

def isNan32 (a : Word) : Bool := (num32 a).isNan
def flipSign (a : Word) : Word := a ^^^ 0x80000000
/-- |a| with the sign of b; a NaN in a gives the canonical NaN. -/
def copySign (a b : Word) : Word := if isNan32 a then nan32 else a &&& 0x7FFFFFFF ||| b &&& 0x80000000
def execVadd (c : Common) (d a b : Reg) (rnd : Rnd) (sat : Bool) (s : State) : Out := vec2 c d a b 4 (add32 rnd sat) s
def execVsub (c : Common) (d a b : Reg) (rnd : Rnd) (sat : Bool) (s : State) : Out := vec2 c d a b 4 (sub32 rnd sat) s
def execVmul (c : Common) (d a b : Reg) (rnd : Rnd) (sat : Bool) (s : State) : Out := vec2 c d a b 4 (mul32 rnd sat) s
def execVdiv (c : Common) (d a b : Reg) (s : State) : Out := vec2 c d a b 12 div32 s
def execVmin (c : Common) (d a b : Reg) (s : State) : Out := vec2 c d a b 1 min32 s
def execVmax (c : Common) (d a b : Reg) (s : State) : Out := vec2 c d a b 1 max32 s
def execVcps (c : Common) (d a b : Reg) (s : State) : Out := vec2 c d a b 1 (fun u w => quiet (copySign u w)) s
def execVsqrt (c : Common) (d a : Reg) (s : State) : Out := vec1 c d a 12 sqrt32 s
def execVrcp (c : Common) (d a : Reg) (s : State) : Out := vec1 c d a 8 rcp32 s
def execVrsq (c : Common) (d a : Reg) (s : State) : Out := vec1 c d a 8 rsqrt32 s
def execVexp2 (c : Common) (d a : Reg) (s : State) : Out := vec1 c d a 8 exp232 s
def execVlog2 (c : Common) (d a : Reg) (s : State) : Out := vec1 c d a 8 log232 s
def execVabs (c : Common) (d a : Reg) (s : State) : Out := vec1 c d a 1 (fun u => quiet (copySign u 0)) s
def execVneg (c : Common) (d a : Reg) (s : State) : Out := vec1 c d a 1 (fun u => quiet (copySign u (flipSign u))) s
def execVfma (c : Common) (d a b e : Reg) (rnd : Rnd) (sat : Bool) (s : State) : Out :=
  vec3 c d a b e 4 (fma32 rnd sat) s
def execVfms (c : Common) (d a b e : Reg) (rnd : Rnd) (sat : Bool) (s : State) : Out :=
  vec3 c d a b e 4 (fun u v w => fma32 rnd sat u v (flipSign w)) s
def execVfnma (c : Common) (d a b e : Reg) (rnd : Rnd) (sat : Bool) (s : State) : Out :=
  vec3 c d a b e 4 (fun u v w => fma32 rnd sat (flipSign u) v w) s

/-! ## R160 -/

def laneTy (n : Bool) : Fmt := if n then .n32 else .i32
def laneInt (n : Bool) (w : Word) : Int := if n then (w.toNat : Int) else w.toInt
/-- An exact integer result wrapped, or clamped with overflow raised (R28, R29). -/
def intLane (n sat : Bool) (i : Int) : Word × BitVec 5 :=
  if sat then ((BitVec.ofInt 32 (clampInt (laneTy n) i).1), (clampInt (laneTy n) i).2) else (BitVec.ofInt 32 i, 0)
def vint (c : Common) (d a b : Reg) (lat : Nat) (n sat : Bool) (f : Int → Int → Int) (s : State) : Out :=
  vec2 c d a b lat (fun u w => intLane n sat (f (laneInt n u) (laneInt n w))) s
def laneShift (b : Word) : Nat := (b.extractLsb' 0 5).toNat
def execViadd (c : Common) (d a b : Reg) (n sat : Bool) (s : State) : Out := vint c d a b 1 n sat (fun i j => i + j) s
def execVisub (c : Common) (d a b : Reg) (n sat : Bool) (s : State) : Out := vint c d a b 1 n sat (fun i j => i - j) s
def execVimul (c : Common) (d a b : Reg) (n sat : Bool) (s : State) : Out := vint c d a b 3 n sat (fun i j => i * j) s
def execVimulh (c : Common) (d a b : Reg) (n : Bool) (s : State) : Out :=
  vint c d a b 3 n false (fun i j => i * j / 2 ^ 32) s
def execVimin (c : Common) (d a b : Reg) (n : Bool) (s : State) : Out := vint c d a b 1 n false min s
def execVimax (c : Common) (d a b : Reg) (n : Bool) (s : State) : Out := vint c d a b 1 n false max s
def execVand (c : Common) (d a b : Reg) (_n : Bool) (s : State) : Out := vec2 c d a b 1 (fun u w => quiet (u &&& w)) s
def execVor (c : Common) (d a b : Reg) (_n : Bool) (s : State) : Out := vec2 c d a b 1 (fun u w => quiet (u ||| w)) s
def execVxor (c : Common) (d a b : Reg) (_n : Bool) (s : State) : Out := vec2 c d a b 1 (fun u w => quiet (u ^^^ w)) s
def execVshl (c : Common) (d a b : Reg) (_n : Bool) (s : State) : Out :=
  vec2 c d a b 1 (fun u w => quiet (u <<< laneShift w)) s
def execVshr (c : Common) (d a b : Reg) (_n : Bool) (s : State) : Out :=
  vec2 c d a b 1 (fun u w => quiet (u >>> laneShift w)) s
def execVsar (c : Common) (d a b : Reg) (_n : Bool) (s : State) : Out :=
  vec2 c d a b 1 (fun u w => quiet (u.sshiftRight (laneShift w))) s
def execVpopc (c : Common) (d a : Reg) (s : State) : Out := vec1 c d a 1 (fun u => quiet (BitVec.ofNat 32 (countOnes u 32))) s

/-! ## R161 to R163 -/

/-- The relation, and its flag: a NaN raises invalid under the ordered relations. -/
def frelHolds (rel : FRel) (a b : Word) : Bool × BitVec 5 :=
  let x := num32 a
  let y := num32 b
  let nan := x.isNan || y.isNan
  let inv : BitVec 5 := if nan then fNV else 0
  match rel with
  | .eq => (numEq x y, 0)
  | .ne => (!numEq x y, 0)
  | .lt => (numLt x y, inv)
  | .le => (numLt x y || numEq x y, inv)
  | .gt => (numLt y x, inv)
  | .ge => (numLt y x || numEq x y, inv)
  | .un => (nan, 0)
def execVcmp (c : Common) (d : PReg) (a b : Reg) (rel : FRel) (s : State) : Out :=
  issueV c (fun x mask =>
    let r (k : Fin 128) := frelHolds rel (x.rv a)[k] (x.rv b)[k]
    landP x d (fun k => (r k).1) (laneFlags (fun k => (0, (r k).2)) mask) mask x.core) s
def execVicmp (c : Common) (d : PReg) (a b : Reg) (rel : Rel) (s : State) : Out :=
  issueV c (fun x mask => landP x d (fun k => relHolds rel (x.rv a)[k] (x.rv b)[k]) 0 mask x.core) s
/-- The mask bit of an FP32 value's class (R163). -/
def classBit (a : Word) : Nat :=
  let neg := a.getLsbD 31
  let e := (a.extractLsb' 23 8).toNat
  let m := (a.extractLsb' 0 23).toNat
  if e = 255 then (if m = 0 then (if neg then 0 else 7) else if neg then 9 else 8)
  else if e = 0 then (if m = 0 then (if neg then 3 else 4) else if neg then 2 else 5)
  else if neg then 1 else 6
def execVclass (c : Common) (d : PReg) (a : Reg) (mask : BitVec 10) (s : State) : Out :=
  issueV c (fun x act => landP x d (fun k => mask.getLsbD (classBit (x.rv a)[k])) 0 act x.core) s

/-! ## R164 -/

def pred2 (c : Common) (d a b : PReg) (f : Pred → Pred → Pred) (s : State) : Out :=
  issueV c (fun x mask => landP x d (fun k => (f (x.rp a) (x.rp b)).getLsbD k.val) 0 mask x.core) s
def execPand (c : Common) (d a b : PReg) (s : State) : Out := pred2 c d a b (fun p q => p &&& q) s
def execPor (c : Common) (d a b : PReg) (s : State) : Out := pred2 c d a b (fun p q => p ||| q) s
def execPxor (c : Common) (d a b : PReg) (s : State) : Out := pred2 c d a b (fun p q => p ^^^ q) s
def execPnot (c : Common) (d a : PReg) (s : State) : Out := pred2 c d a a (fun p _ => ~~~p) s
def execPcnt (c : Common) (d : Reg) (a : PReg) (s : State) : Out :=
  issueV c (fun x mask => landG x d (BitVec.ofNat 64 (countOnes (x.rp a &&& mask) 128)) 2 x.core) s
def execPfirst (c : Common) (d : Reg) (a : PReg) (s : State) : Out :=
  issueV c (fun x mask =>
    let n := ((List.range 128).find? fun k => (x.rp a &&& mask).getLsbD k).getD 128
    landG x d (BitVec.ofNat 64 n) 2 x.core) s

/-! ## R165 -/

def laneIndex (v : Dword) : Fin 128 := (v.extractLsb' 0 7).toFin
def wordIndex (v : Word) : Fin 128 := (v.extractLsb' 0 7).toFin
def execVsel (c : Common) (d a b : Reg) (e : PReg) (s : State) : Out :=
  issueV c (fun x mask =>
    landV x d (fun k => quiet (if (x.rp e).getLsbD k.val then (x.rv a)[k] else (x.rv b)[k])) mask 1 x.core) s
def execVmov (c : Common) (d a : Reg) (s : State) : Out := vec1 c d a 1 quiet s
def execVbcst (c : Common) (d a : Reg) (ty : Fmt) (s : State) : Out :=
  issueV c (fun x mask => landV x d (fun _ => quiet (widen ty (x.rg a).toNat)) mask 1 x.core) s
def execVextr (c : Common) (d a b : Reg) (s : State) : Out :=
  issueV c (fun x mask =>
    let n := laneIndex (x.rg b)
    if mask.getLsbD n.val then landG x d ((x.rv a)[n].setWidth 64) 2 x.core else .ok x.core) s
def execVins (c : Common) (d a b : Reg) (s : State) : Out :=
  issueV c (fun x mask =>
    let n := laneIndex (x.rg b)
    landV x d (fun _ => quiet ((x.rg a).setWidth 32)) (mask &&& BitVec.ofNat 128 (2 ^ n.val)) 1 x.core) s
def execVperm (c : Common) (d a b : Reg) (s : State) : Out :=
  issueV c (fun x mask => landV x d (fun k => quiet (x.rv a)[wordIndex (x.rv b)[k]]) mask 2 x.core) s
def execVrot (c : Common) (d a b : Reg) (s : State) : Out :=
  issueV c (fun x mask => landV x d (fun k => quiet (x.rv a)[k + laneIndex (x.rg b)]) mask 2 x.core) s

/-! ## R166 -/

/-- g[d] ← the reduction of 128 lanes, with its flags on the landing cycle. -/
def landReduced (x : Ctx) (d : Reg) (v : Dword) (flags : BitVec 5) (lat : Nat) : Except Cause Core :=
  if d = 0 then
    addLanding x { dest := .none, due := x.tide + lat, issued := x.tide, cl := .v, flags := flags, long := false } x.core
  else addLanding x { dest := .g d, value := v, due := x.tide + lat, issued := x.tide, cl := .v, flags := flags } x.core
/-- The lanes of a reduction, an inactive one giving `idn`. -/
def laneList (v : Lanes) (mask : Pred) (idn : Word) : List Word :=
  (List.finRange 128).map fun k => if mask.getLsbD k.val then v[k] else idn
/-- Minimum or maximum over FP32 lanes: −∞ or +∞ stands for an inactive lane (R47). -/
def fpReduce (op : Word → Word → Word × BitVec 5) (idn : Word) (v : Lanes) (mask : Pred) : Word × BitVec 5 :=
  tree128 op (laneList v mask idn)
def intReduce (n : Bool) (op : Int → Int → Int) (idn : Int) (v : Lanes) (mask : Pred) : Dword :=
  let r := (laneList v mask (BitVec.ofInt 32 idn)).foldl (fun a w => op a (laneInt n w)) idn
  if n then BitVec.ofInt 64 r else (BitVec.ofInt 32 r).signExtend 64
def execVrsum (c : Common) (d a : Reg) (ty : Fmt) (s : State) : Out :=
  issueV c (fun x mask =>
    if ty = .f32 then
      let r := tree128 (add32 .rne false) (laneList (x.rv a) mask 0x80000000)
      landReduced x d (r.1.setWidth 64) r.2 10
    else landReduced x d (intReduce false (fun i j => i + j) 0 (x.rv a) mask) 0 10) s
/-- VRMAX and VRMIN share all but the operation and its identities. -/
def reduceMinMax (c : Common) (d a : Reg) (ty : Fmt) (fop : Word → Word → Word × BitVec 5) (fidn : Word)
    (iop : Int → Int → Int) (iidn : Fmt → Int) (s : State) : Out :=
  issueV c (fun x mask =>
    if ty = .f32 then
      let r := fpReduce fop fidn (x.rv a) mask
      landReduced x d (r.1.setWidth 64) r.2 6
    else landReduced x d (intReduce (ty == .n32) iop (iidn ty) (x.rv a) mask) 0 6) s
def execVrmax (c : Common) (d a : Reg) (ty : Fmt) (s : State) : Out := reduceMinMax c d a ty max32 negInf32 max intMin s
def execVrmin (c : Common) (d a : Reg) (ty : Fmt) (s : State) : Out := reduceMinMax c d a ty min32 posInf32 min intMax s
def execVramax (c : Common) (d a : Reg) (s : State) : Out :=
  issueV c (fun x mask =>
    let r := tree128 max32 ((laneList (x.rv a) mask 0).map fun w => copySign w 0)
    landReduced x d (r.1.setWidth 64) r.2 6) s

/-! ## R168, R169 -/

def execVcvt (c : Common) (d a : Reg) (src : Fmt) (rnd : Rnd) (sat : Bool) (ty : Fmt) (s : State) : Out :=
  vec1 c d a 2 (fun u => (laneForm ty (convert src ty rnd sat u.toNat).1, (convert src ty rnd sat u.toNat).2)) s

/-- One lane's element code and MX scale (R169). -/
def mxCode (f : Fmt) (w : Word) : Nat := w.toNat % 2 ^ fmtWidth f
def mxScale (w : Word) : Nat := (w.extractLsb' 8 8).toNat
/-- The import of one square over its active lanes (R42): E, each lane's micro-exponent and payload in the SQ lane layout,
and the flags of the active lanes. -/
def mxImport (f : Fmt) (col : Bool) (lanes : List (Word × Bool)) : List Word × BitVec 5 :=
  let act := lanes.filter (·.2)
  if act.any fun p => mxScale p.1 == 255 then (lanes.map fun _ => 0x00FF0000, fNV)
  else
    let hi := act.foldl (fun a p => max a (mxScale p.1)) 0
    let lo := act.foldl (fun a p => min a (mxScale p.1)) 255
    let e := max lo (hi - 7)
    let one (p : Word × Bool) : Word × BitVec 5 :=
      let xs := mxScale p.1
      let code := mxCode f p.1
      let r : Nat × BitVec 5 :=
        if e ≤ xs then (code, 0)
        else match fpDecode f code with
          | .fin n k g => roundFin f .rne false n k (g + xs - e) false
          | .nan => (canonNan f, 0)
          | _ => (code, 0)
      (BitVec.ofNat 32 (e * 2 ^ 16 + (xs - e) * 2 ^ (if col then 11 else 8) + r.1), if p.2 then r.2 else 0)
    (lanes.map fun p => (one p).1, lanes.foldl (fun a p => a ||| (one p).2) 0)
def execVcvtMxImport (c : Common) (d a : Reg) (src : Fmt) (col : Bool) (s : State) : Out :=
  issueV c (fun x mask =>
    let quarter (q : Nat) := mxImport src col ((List.range 32).map fun i =>
      (((x.rv a)[32 * q + i]?).getD 0, mask.getLsbD (32 * q + i)))
    let all := [quarter 0, quarter 1, quarter 2, quarter 3]
    let words := all.flatMap (·.1)
    addLanding x { dest := .v d, lanes := Vector.ofFn fun k => (words[k.val]?).getD 0, mask := mask, due := x.tide + 2,
                   issued := x.tide, cl := .v, flags := all.foldl (fun a q => a ||| q.2) 0 } x.core) s

end Sys2Proof.Machine
end

