-- ==== Sys2Proof/Machine/VecTile.lean ====
section
/-! DEFINITION. V cluster: direction access to tiles and accumulators, bounds, parking and attention triples (R170 to R175,
R180 to R183). -/

namespace Sys2Proof.Machine

/-! ## Direction reads (R170) -/

/-- The raw cells of an accumulator direction (R57). -/
def accRead (x : Ctx) (sp : Spec) : Lanes :=
  let a := (x.core.acc[sp.num.toNat]?).getD (Vector.replicate 128 (Vector.replicate 128 0))
  Vector.ofFn fun k =>
    let p := dirElem true sp.dir (specIdx x sp) k.val
    (((a[p.1]?).getD (Vector.replicate 128 0))[p.2]?).getD 0
/-- T is absent or the tile's own format, or FORMAT of the tile as a whole (R58, R170). -/
def typeCause (x : Ctx) (sp : Spec) (ty : Fmt) : Option Cause :=
  if ty = .untyped ∨ tshpFmt (specShape x sp) = some ty then none else some (formatAt (tileVba sp.num.toNat 0))
def execVmovDirRead (c : Common) (v : Reg) (sp : Spec) (ty : Fmt) (s : State) : Out :=
  issueVmem c (fun x mask =>
    let land (lanes : Lanes) (flags : BitVec 5) (core : Core) (s : State) : Except Cause (Core × State) :=
      (addLanding x { dest := .v v, lanes := lanes, mask := mask, due := x.tide + 3, issued := x.tide, cl := .v,
                      flags := flags } core).map fun c => (c, s)
    if sp.acc then land (accRead x sp) 0 x.core x.s
    else if landingFull x true then .error x.miss
    else match (if mask = 0 then none else typeCause x sp ty), dirRead x sp mask with
      | some e, _ | none, .error e => .error e
      | none, .ok (lanes, flags, seen) =>
        land lanes flags (if seen then setSeen x.core else x.core) (readParts x.s (dirWords x sp mask))) s

/-! ## Direction writes (R171 to R174) -/

/-- A checked FP32 lane as an element of format `f`, with its flags. -/
def elemOfLane (f : Fmt) (rnd : Rnd) (sat : Bool) (w : Word) : Nat × BitVec 5 :=
  match f with
  | .f32 => (w.toNat, 0)
  | .untyped => (w.toNat % 256, 0)
  | .i8 | .i32 => convert .i32 f rnd sat w.toNat
  | .n8 | .n16 | .n32 => convert .n32 f rnd sat w.toNat
  | f => convert .f32 f rnd sat w.toNat
/-- The lanes of an SQ write of one scale block agree on the fields that the block shares (R172): E and, by direction, the
row or the column micro-exponent. -/
def sqAgree (shape : Dword) (f : Fmt) (sp : Spec) (idx : Dword) (v : Lanes) (mask : Pred) : Bool :=
  let lanes := lanesIn shape f sp.dir idx mask
  let shared (k : Nat) : Word := ((v[k]?).getD 0) &&& (if sp.dir = .col then 0x00FF3800 else 0x00FF0700)
  lanes.all fun k => lanes.all fun j => k / 32 != j / 32 || shared k == shared j
/-- FORMAT of the lowest block of tile `t` among `touched` whose own code disagrees with the shape's format (R31, R58, R284). -/
def blockFormat (x : Ctx) (t : Nat) (f : Fmt) (touched : List Nat) : Option Cause :=
  (touched.find? fun b => blockDisagrees (fmtByte f) (rawBlock x.s.mem (.tile x.core.num (8 * t + b)))).map fun b =>
    formatAt (tileVba t b)
/-- The causes of FORMAT of a direction write (R31, R58, R171, R172). -/
def dirWriteFormat (x : Ctx) (sp : Spec) (rnd : Rnd) (sat : Bool) (ty : Fmt) (bound : BitVec 4) (v : Reg) (mask : Pred) :
    Option Cause :=
  let shape := specShape x sp
  let bad := some (formatAt (tileVba sp.num.toNat 0))
  match tshpFmt shape with
  | none => bad
  | some f =>
    let own := blockFormat x sp.num.toNat f (blocksIn shape f sp.dir (specIdx x sp) mask)
    if f = .i64 ∨ f = .n64 then bad
    else if f.isSq then
      if ty = f ∧ rnd = .rne ∧ sat = false ∧ (sp.dir = .row ∨ sp.dir = .col) ∧ bound = 0
          ∧ sqAgree shape f sp (specIdx x sp) (x.rv v) mask then own else bad
    else if (ty != .untyped && ty != f) || (bound != 0 && !isFp f) then bad
    else own
/-- The lanes that will be written, as a mask. -/
def writtenMask (shape : Dword) (f : Fmt) (d : Dir) (idx : Dword) (mask : Pred) : Pred :=
  predOf fun k => mask.getLsbD k.val && inShape shape f (dirElem false d idx k.val)
/-- One lane through the bound check and the conversion. -/
def checkedLane (q : Bound) (f : Fmt) (rnd : Rnd) (sat : Bool) (w : Word) : Word × BitVec 5 × BitVec 32 × Bool :=
  let b := checkBound q w
  let e := if f.isSq then (b.1.toNat, (0 : BitVec 5)) else elemOfLane f rnd sat b.1
  (BitVec.ofNat 32 e.1, e.2, b.2.1, b.2.2)
def execVmovDirWrite (c : Common) (v : Reg) (sp : Spec) (rnd : Rnd) (sat : Bool) (ty : Fmt) (bound : BitVec 4) (s : State) :
    Out :=
  issueV c (fun x mask =>
    if mask = 0 then .ok x.core
    else if landingFull x true then .error x.miss
    else match dirWriteFormat x sp rnd sat ty bound v mask with
      | some e => .error e
      | none =>
        let shape := specShape x sp
        let f := (tshpFmt shape).getD .untyped
        let idx := specIdx x sp
        let m := writtenMask shape f sp.dir idx mask
        let q := boundOf x.ctl bound.toNat
        let one (k : Fin 128) := checkedLane q f rnd sat (x.rv v)[k]
        let act := activeLanes' m
        let hits := act.foldl (fun a k => a ||| (one k).2.2.1) (0 : BitVec 32)
        match act.find? fun k => (one k).2.2.2 with
        | some k => .error { code := cBound, tval := boundTval q (x.rv v)[k], hits := hits }
        | none =>
          let slots := (blocksIn shape f sp.dir idx mask).map fun b => Slot.tile x.core.num (8 * sp.num.toNat + b)
          match imageRoom x.core slots with
          | some e => .error e
          | none =>
            addLanding x { dest := .tile sp idx shape, lanes := Vector.ofFn fun k => (one k).1, mask := m, due := x.tide + 3,
                           issued := x.tide, cl := .v, flags := act.foldl (fun a k => a ||| (one k).2.1) 0,
                           hits := hits } x.core) s
where
  activeLanes' (m : Pred) : List (Fin 128) := (List.finRange 128).filter fun k => m.getLsbD k.val

/-! ## VBND (R175) -/

def execVbnd (c : Common) (v : Reg) (bound : BitVec 4) (s : State) : Out :=
  issueV c (fun x mask =>
    if bound = 0 then .ok x.core
    else
      let q := boundOf x.ctl bound.toNat
      let one (k : Fin 128) := checkBound q (x.rv v)[k]
      let act := (List.finRange 128).filter fun k => mask.getLsbD k.val
      let hits := act.foldl (fun a k => a ||| (one k).2.1) (0 : BitVec 32)
      match act.find? fun k => (one k).2.2 with
      | some k => .error { code := cBound, tval := boundTval q (x.rv v)[k], hits := hits }
      | none =>
        addLanding x { dest := .v v, lanes := Vector.ofFn fun k => (one k).1, mask := mask, due := x.tide + 1, issued := x.tide,
                       cl := .v, hits := hits, long := false } x.core) s

/-! ## Parking (R180, R181) -/

/-- The blocks of rows n and n + 1 of a tile that the active lanes are written to. -/
def pairSlots (x : Ctx) (t n : Nat) (mask : Pred) : List Slot :=
  parkedSlots x.core.num ((x.ctl.tshp[t]?).getD 0) t n mask
def execVpark (c : Common) (v : Reg) (s : State) : Out :=
  issueV c (fun x mask =>
    match (freePairs x.core.regs).head? with
    | none => .error x.miss
    | some (t, m) =>
      match imageRoom x.core (pairSlots x t (2 * m) mask) with
      | some e => .error e
      | none => .ok { x.core with atEnd := x.core.atEnd ++ [.park t (2 * m) (x.rv v) mask] }) s
def execVunpark (c : Common) (v : Reg) (sp : Spec) (s : State) : Out :=
  issueVmem c (fun x mask =>
    let t := sp.num.toNat
    let n := ((specIdx x sp).extractLsb' 0 7).toNat
    if n % 2 = 1 ∨ x.core.regs.park.getLsbD (64 * t + n / 2) = false ∨ landingFull x true = true then .error x.miss
    else
      let sq := ((tshpFmt (specShape x sp)).map Fmt.isSq).getD false
      let blocks := (tileBlocks x.s x.core.num t).map detectAll
      let loc (k : Nat) := parkedLoc sq n k
      let lanes := (List.range 128).filter fun k => mask.getLsbD k
      let words := lanes.map fun k => (Slot.tile x.core.num (8 * t + (loc k).1), (loc k).2, 4)
      let bad := lanes.find? fun k => blkMarked (blockAt blocks (loc k).1) ((loc k).2 / 4)
      match bad with
      | some k => .error { code := cPoison, tval := tileVba t (loc k).1, reads := words }
      | none =>
        let core := { x.core with atEnd := x.core.atEnd ++ [.unpark (64 * t + n / 2)] }
        (addLanding x { dest := .v v,
                        lanes := Vector.ofFn fun k => BitVec.ofNat 32 (cle (blockAt blocks (loc k.val).1) (loc k.val).2 4),
                        mask := mask, due := x.tide + 3, issued := x.tide, cl := .v } core).map fun c => (c, readParts x.s words)) s

/-! ## Attention triples (R182, R183) -/

def tripleOf (x : Ctx) (a : Reg) : Triple := ⟨(x.rv a).toList, (x.rv (a + 1))[0], (x.rv (a + 1))[1]⟩
def execVtri (c : Common) (d a b : Reg) (s : State) : Out :=
  issueV c (fun x mask =>
    let (r, f12, fl, fo) := combineTriple (tripleOf x a) (tripleOf x b)
    let flags := (if mask != 0 then f12 else 0) ||| (if mask.getLsbD 1 then fl else 0)
      ||| (List.range 128).foldl (fun q k => if mask.getLsbD k then q ||| (fo[k]?).getD 0 else q) 0
    let top : Lanes := Vector.ofFn fun k => if k.val = 0 then r.m else if k.val = 1 then r.l else (x.rv (a + 1))[k]
    match addLanding x { dest := .v d, lanes := Vector.ofFn fun k => (r.o[k.val]?).getD 0, mask := mask, due := x.tide + 12,
                         issued := x.tide, cl := .v, flags := flags } x.core with
    | .error e => .error e
    | .ok core => addLanding x { dest := .v (d + 1), lanes := top, mask := mask, due := x.tide + 12, issued := x.tide,
                                 cl := .v } core) s
def execVtrin (c : Common) (d a b : Reg) (s : State) : Out :=
  issueV c (fun x mask =>
    let l := (x.rv (a + 1))[1]
    let masked := l &&& 0x7FFFFFFF == 0
    match landV x d (fun k => if masked then (0, 0) else div32 (x.rv a)[k] l) mask 12 x.core with
    | .error e => .error e
    | .ok core => landV x b (fun _ => (if masked then 1 else 0, 0)) (mask &&& 1) 12 core) s

end Sys2Proof.Machine
end

