-- ==== Sys2Proof/Machine/Matrix.lean ====
section
/-! DEFINITION. M cluster (09): stamped commands, the operands read on the issue cycle, the timetable of R185 and what each
of its cycles writes. -/

namespace Sys2Proof.Machine

/-! ## Issue on a stamp (R184 to R188) -/

/-- A command's unit, the cycles it occupies it, the cycle of its completion from its issue (R185), and its card (R306). -/
structure MPlan where
  unit : Fin 3
  steps : Nat
  last : Nat
  reads : List Region
  writes : List Region

/-- SCHED_MISS with the stamp in TVAL (R184 to R186). -/
def stampMiss (stamp : BitVec 36) : Cause := { code := cSchedMiss, tval := stamp.setWidth 64 }

/-- A command on its stamp's cycle: its unit must be free and its card's edges met; a guarded-off one takes both and does
nothing else (R187). `words` are the tile words that it reads. -/
def mBody (c : Common) (stamp : BitVec 36) (i : Instr) (p : MPlan) (read : Ctx → MCmd → Except Cause (Core × MCmd))
    (words : List (Slot × Nat × Nat)) : Body := fun x =>
    if x.core.cmds[p.unit].isSome || !cardsMeet x.core p.reads p.writes x.tide then .error (stampMiss stamp)
    else
      let cmd : MCmd := { instr := i, pc := x.pc, issued := x.tide, active := guardOn x c }
      let card : Card := { reads := p.reads, writes := p.writes, first := x.tide, readEnd := x.tide, last := x.tide + p.last }
      match (if guardOn x c then read x cmd else .ok (x.core, cmd)) with
      | .error e => .error { e with reads := words }
      | .ok (core, cmd) =>
        .ok (addCard { core with cmds := core.cmds.set p.unit (some cmd) } card, if guardOn x c then readParts x.s words else x.s)

/-- A stamped command: it waits for P + stamp, issues then, and raises SCHED_MISS when it is reached later (R184). Of two SCHED_MISS
the one that gives TVAL is the late stamp, then the pop of an empty FIFO, then the busy unit (R83, R259; log 103, DESIGN CHOICE). -/
def issueM (c : Common) (stamp : BitVec 36) (i : Instr) (plan : Ctx → MPlan)
    (read : Ctx → MCmd → Except Cause (Core × MCmd)) (s : State) (words : Ctx → List (Slot × Nat × Nat) := fun _ => []) : Out :=
  match ctxOf s .m with
  | none => .fault .noCore
  | some x =>
    let at_ := x.g.phaseStart + stamp.toNat
    if x.tide < at_ then .next s
    else if at_ < x.tide then .next (putCore x x.s (raise x c {} (stampMiss stamp)))
    else issueIn x c (fun _ => {}) fun x => mBody c stamp i (plan x) read (words x) x

def tileRegions (x : Ctx) (t : BitVec 3) : List Region := (tileSlots x.core.num t.toNat).map .slot
def accOf (x : Ctx) (n : BitVec 3) : Acc := (x.core.acc[n.toNat]?).getD (Vector.replicate 128 (Vector.replicate 128 0))
def cellOf (a : Acc) (i j : Nat) : Word := (((a[i]?).getD (Vector.replicate 128 0))[j]?).getD 0

/-! ## Tile operands -/

/-- The blocks of rows 0 to `rows` − 1 and columns 0 to `cols` − 1 of a tile of format `f`. -/
def regionBlocks (f : Fmt) (rows cols : Nat) : List Nat :=
  if cols = 0 then []
  else
    let hit := (List.range rows).flatMap fun i => [(elemLoc f i 0).1, (elemLoc f i (cols - 1)).1]
    (List.range 8).filter fun b => hit.contains b
/-- The causes of reading that region of tile `t`, and the lowest block that each names (R31, R190, R275). -/
def regionCauses (x : Ctx) (t : Nat) (f : Fmt) (rows cols : Nat) (raw : List Cells) : List Cause :=
  let touched := regionBlocks f rows cols
  let marked := touched.filter fun b => blkPoison (blockAt raw b) && (List.range rows).any fun i =>
    (List.range cols).any fun j => (elemLoc f i j).1 == b && blkMarked (blockAt raw b) ((elemLoc f i j).2 / 32)
  ((touched.filter fun b => blockDisagrees (fmtByte f) (blockAt raw b)).map fun b => formatAt (tileVba t b))
  ++ touched.flatMap (fun b => voidCause x (tileVba t b) (blockAt raw b))
  ++ marked.map fun b => ({ code := cPoison, tval := tileVba t b } : Cause)
/-- The words of the region. -/
def regionWords (x : Ctx) (t : Nat) (f : Fmt) (rows cols : Nat) : List (Slot × Nat × Nat) :=
  let n := (cols * fmtWidth f + 7) / 8
  let parts := if f.isSq && 128 < n then [(0, 128), (128, n - 128)] else [(0, n)]
  (List.range rows).flatMap fun i => parts.map fun p =>
    let (b, o) := tileLoc f.isSq i p.1
    (.tile x.core.num (8 * t + b), o / 4 * 4, (o % 4 + p.2 + 3) / 4 * 4)
def tileRead (x : Ctx) (t : Nat) : List Cells := (tileBlocks x.s x.core.num t).map detectAll
def anyVoid (f : Fmt) (rows cols : Nat) (raw : List Cells) : Bool :=
  (regionBlocks f rows cols).any fun b => !blkValid (blockAt raw b)

/-! ## MMA and MMAT (R43 to R45, R189 to R191) -/

def mmaTakes (f : Fmt) (transposed : Bool) : Bool :=
  match f with
  | .bf16 | .f16 => true
  | .e4m3 | .e5m2 | .e2m1 | .i8 | .sqe2m1 | .sqe4m3 | .sqe5m2 | .sqi8 => !transposed
  | _ => false
/-- FORMAT of a pairing (R189). -/
def mmaFormat (ta tb : Nat) (fa fb : Option Fmt) (transposed : Bool) : Option Cause :=
  match fa, fb with
  | some a, some b =>
    if !mmaTakes a transposed then some (formatAt (tileVba ta 0))
    else if !mmaTakes b transposed || fmtWidth a != fmtWidth b || (a == .i8) != (b == .i8) then some (formatAt (tileVba tb 0))
    else none
  | none, _ => some (formatAt (tileVba ta 0))
  | _, none => some (formatAt (tileVba tb 0))

/-- Rows and columns of the output, and the terms of each (R190). -/
structure MmaDims where
  rows : Nat
  cols : Nat
  k : Nat
  g : Nat
  deriving DecidableEq, Repr
def mmaDims (m : MCmd) (fa fb : Fmt) (transposed : Bool) : MmaDims :=
  let rb := tshpRows m.shapeB
  let cb := tshpCols m.shapeB fb
  { rows := min m.valid (tshpRows m.shapeA)
    cols := min 128 (if transposed then cb else rb)
    k := min (tshpCols m.shapeA fa) (if transposed then rb else cb)
    g := 16 / fmtWidth fa }

def mmaPlan (d a b : Spec) (x : Ctx) : MPlan :=
  { unit := 0, steps := 128, last := 127, reads := tileRegions x a.num ++ tileRegions x b.num, writes := [.acc d.num.toNat] }
/-- The operands of an MMA as read on its issue cycle. -/
def mmaRead (a b : Spec) (vc : BitVec 2) (transposed : Bool) (x : Ctx) (m : MCmd) : Except Cause (Core × MCmd) :=
  let ta := a.num.toNat
  let tb := b.num.toNat
  let sa := specShape x a
  let sb := specShape x b
  match mmaFormat ta tb (tshpFmt sa) (tshpFmt sb) transposed with
  | some e => .error e
  | none =>
    let fa := (tshpFmt sa).getD .bf16
    let fb := (tshpFmt sb).getD .bf16
    let m := { m with shapeA := sa, shapeB := sb, valid := validCount x.ctl.vcnt[vc.toFin] }
    let n := mmaDims m fa fb transposed
    let used := n.rows != 0 && n.cols != 0 && n.k != 0
    let ra := tileRead x ta
    let rb := tileRead x tb
    let bRows := if transposed then n.k else n.cols
    let bCols := if transposed then n.cols else n.k
    let causes := if used then regionCauses x ta fa n.rows n.k ra ++ regionCauses x tb fb bRows bCols rb else []
    match firstCause causes with
    | some e => .error e
    | none =>
      let seen := used && (anyVoid fa n.rows n.k ra || anyVoid fb bRows bCols rb)
      .ok (if seen then setSeen x.core else x.core,
        { m with tileA := ra.map readable, tileB := rb.map readable })

/-- The tile words that it reads. -/
def mmaWords (i : Instr) (a b : Spec) (vc : BitVec 2) (transposed : Bool) (x : Ctx) : List (Slot × Nat × Nat) :=
  match tshpFmt (specShape x a), tshpFmt (specShape x b) with
  | some fa, some fb =>
    let n := mmaDims { instr := i, pc := x.pc, issued := x.tide, active := true, shapeA := specShape x a, shapeB := specShape x b
                       valid := validCount x.ctl.vcnt[vc.toFin] } fa fb transposed
    if n.rows = 0 ∨ n.cols = 0 ∨ n.k = 0 then []
    else regionWords x a.num.toNat fa n.rows n.k
      ++ regionWords x b.num.toNat fb (if transposed then n.k else n.cols) (if transposed then n.cols else n.k)
  | _, _ => []
/-- The exact group sum of R43 and R44. -/
def groupSum (p : List (Num × Num)) : Num × BitVec 5 :=
  match p with
  | [] => (.zero true, 0)
  | (a, b) :: t =>
    let first := mulNum a b
    t.foldl (fun acc q =>
      let (y, f) := mulNum q.1 q.2
      let (z, g) := addNum .rne acc.1 y
      (z, acc.2 ||| f ||| g)) first
/-- One cell and one group: nothing when the group has no term. -/
def macCell (old : Word) (p : List (Num × Num)) : Word × BitVec 5 :=
  if p.isEmpty then (old, 0)
  else
    let (s, f) := groupSum p
    let (z, g) := addNum .rne (num32 old) s
    let (r, h) := rne32 z
    (r, f ||| g ||| h)
/-- The INT32 cell of an .i8 group (R45). -/
def intCell (old : Word) (p : List (Int × Int)) : Word := old + BitVec.ofInt 32 (p.foldl (fun a q => a + q.1 * q.2) 0)

/-- Change rows `lo` to `lo` + `n` − 1 of an accumulator, cell by cell, and OR the flags. -/
def updRows (acc : Acc) (lo n : Nat) (f : Nat → Nat → Word → Word × BitVec 5) : Acc × BitVec 5 :=
  (List.range n).foldl (fun a r =>
    let row := ((List.range 128).map fun j => f (lo + r) j (cellOf a.1 (lo + r) j)).toArray
    (vmod a.1 (lo + r) fun _ => Vector.ofFn fun j => (row.getD j.val (0, 0)).1,
     row.foldl (fun q e => q ||| e.2) a.2)) (acc, 0)

/-- k-step t of an MMA (R190). -/
def mmaStep (m : MCmd) (transposed : Bool) (t : Nat) (acc : Acc) : Acc × BitVec 5 :=
  let fa := (tshpFmt m.shapeA).getD .bf16
  let fb := (tshpFmt m.shapeB).getD .bf16
  let n := mmaDims m fa fb transposed
  let terms := ((List.range n.g).map (n.g * t + ·)).filter fun k => k < n.k
  let at_ (k j : Nat) : Nat × Nat := if transposed then (k, j) else (j, k)
  if fa = .i8 then
    let a := ((List.range n.rows).map fun i => terms.map fun k => intDecode .i8 (elemCode m.tileA fa i k)).toArray
    let b := ((List.range n.cols).map fun j => terms.map fun k =>
      intDecode .i8 (elemCode m.tileB fb (at_ k j).1 (at_ k j).2)).toArray
    updRows acc 0 n.rows fun i j w => if j < n.cols then (intCell w ((a.getD i []).zip (b.getD j [])), 0) else (w, 0)
  else
    let a := ((List.range n.rows).map fun i => terms.map fun k => elemNum m.tileA fa i k).toArray
    let b := ((List.range n.cols).map fun j => terms.map fun k => elemNum m.tileB fb (at_ k j).1 (at_ k j).2).toArray
    updRows acc 0 n.rows fun i j w => if j < n.cols then macCell w ((a.getD i []).zip (b.getD j [])) else (w, 0)

def execMma (c : Common) (stamp : BitVec 36) (d a b : Spec) (vc : BitVec 2) (s : State) : Out :=
  issueM c stamp (.mma c stamp d a b vc) (mmaPlan d a b) (mmaRead a b vc false) s (mmaWords (.mma c stamp d a b vc) a b vc false)
def execMmat (c : Common) (stamp : BitVec 36) (d a b : Spec) (vc : BitVec 2) (s : State) : Out :=
  issueM c stamp (.mmat c stamp d a b vc) (mmaPlan d a b) (mmaRead a b vc true) s (mmaWords (.mmat c stamp d a b vc) a b vc true)

/-! ## The accumulator unit (R192) -/

def unitPlan (d : Spec) (reads : List Region) : MPlan :=
  { unit := 1, steps := 16, last := 15, reads := reads, writes := [.acc d.num.toNat] }
def execMzero (c : Common) (stamp : BitVec 36) (d : Spec) (s : State) : Out :=
  issueM c stamp (.mzero c stamp d) (fun _ => unitPlan d []) (fun x m => .ok (x.core, m)) s
def execMacc (c : Common) (stamp : BitVec 36) (d a : Spec) (s : State) : Out :=
  issueM c stamp (.macc c stamp d a) (fun _ => unitPlan d [.acc a.num.toNat])
    (fun x m => .ok (x.core, { m with accA := accOf x a.num })) s
def execMscl (c : Common) (stamp : BitVec 36) (d : Spec) (v : Reg) (col : Bool) (s : State) : Out :=
  issueM c stamp (.mscl c stamp d v col) (fun _ => unitPlan d [.v v.toNat])
    (fun x m => .ok (x.core, { m with vecA := x.rv v })) s
def execMmsk (c : Common) (stamp : BitVec 36) (d : Spec) (g : Reg) (s : State) : Out :=
  issueM c stamp (.mmsk c stamp d g) (fun _ => unitPlan d [.g g.toNat])
    (fun x m => .ok (x.core, { m with g := x.rg g })) s
def execMtrn (c : Common) (stamp : BitVec 36) (d a : Spec) (s : State) : Out :=
  issueM c stamp (.mtrn c stamp d a) (fun _ => unitPlan d [.acc a.num.toNat])
    (fun x m => .ok (x.core, { m with accA := accOf x a.num })) s

/-! ## MRED (R193) -/

def execMred (c : Common) (stamp : BitVec 36) (v : Reg) (a : Spec) (max : Bool) (s : State) : Out :=
  issueM c stamp (.mred c stamp v a max)
    (fun _ => { unit := 2, steps := 16, last := 23, reads := [.acc a.num.toNat], writes := [.v v.toNat] })
    (fun x m =>
      let rows := (accOf x a.num).toArray.map fun r => tree128 (if max then max32 else add32 .rne false) r.toList
      let flags := rows.foldl (fun q e => q ||| e.2) (0 : BitVec 5)
      (addLanding x { dest := .v v, lanes := Vector.ofFn fun k => (rows.getD k.val (0, 0)).1, mask := BitVec.allOnes 128,
                      due := x.tide + 24, issued := x.tide, cl := .m, flags := flags } x.core).map fun core => (core, { m with accA := accOf x a.num })) s

/-! ## Drains (R194 to R201) -/

/-- The decision of R199 for the element at global position (row, col). -/
def philox (seed0 seed1 : Dword) (i j : Nat) : Word :=
  let bits (v : Nat) : Word := BitVec.ofNat 32 v
  let go := (List.range 10).foldl (fun (x : Word × Word × Word × Word × Word × Word) _ =>
    let (x0, x1, x2, x3, k0, k1) := x
    let p := 0xD2511F53 * x0.toNat
    let q := 0xCD9E8D57 * x2.toNat
    (bits (q / 2 ^ 32) ^^^ x1 ^^^ k0, bits q, bits (p / 2 ^ 32) ^^^ x3 ^^^ k1, bits p, k0 + 0x9E3779B9, k1 + 0xBB67AE85))
    (bits (128 * (seed1.extractLsb' 16 16).toNat + i), bits (128 * (seed1.extractLsb' 0 16).toNat + j),
     seed1.extractLsb' 32 32, 0, seed0.extractLsb' 0 32, seed0.extractLsb' 32 32)
  go.1
def dropped (m : MCmd) (i j : Nat) : Bool :=
  (philox m.seed0 m.seed1 i j).toNat < (m.dropp.extractLsb' 0 32).toNat

/-- y of R196 before its bound check, with its flags. -/
def drainY (m : MCmd) (dr : Drain) (i j : Nat) : Word × BitVec 5 :=
  let lane (v : Lanes) (k : Nat) : Num := num32 ((v[k]?).getD 0)
  let x := num32 (cellOf m.accA i j)
  let (x, f1) := if dr.scl.isSome then
      let (y, f) := mulNum x (lane m.vecA i)
      let (z, g) := mulNum y (lane m.vecB j)
      (z, f ||| g)
    else (x, 0)
  let x := if dr.drop && dropped m i j then Num.zero x.sign else x
  let (x, f2) := match dr.res with
    | some _ =>
      let f := (tshpFmt m.shapeB).getD .f32
      addNum .rne x (if inShape m.shapeB f (i, j) then elemNum m.tileB f i j else .zero false)
    | none => (x, 0)
  let (w, f3) := rne32 x
  (w, f1 ||| f2 ||| f3)
/-- The bound of a drain as read on its issue cycle: limits in `bnd`, mode in `mode`. -/
def drainBound (m : MCmd) (dr : Drain) : Bound :=
  { b := dr.bound.toNat, low := m.bnd.extractLsb' 0 32, high := m.bnd.extractLsb' 32 32, mode := m.mode }

def isIntDrain (ty : Fmt) : Bool := ty == .i8 || ty == .i32
def drainPlan (dr : Drain) (x : Ctx) : MPlan :=
  { unit := 2, steps := 64, last := 63
    reads := [.acc dr.a.num.toNat]
      ++ (match dr.res with | some t => tileRegions x t.num | none => [])
      ++ (match dr.scl with | some v => [.v v.toNat, .v (v.toNat + 1)] | none => [])
    writes := tileRegions x dr.d.num }

/-- The residual's format, FORMAT unless it is floating-point or SQ (R195). -/
def residualFormat (x : Ctx) (dr : Drain) : List Cause :=
  match dr.res with
  | none => []
  | some t =>
    match tshpFmt (specShape x t) with
    | some f => if isFp f || f.isSq then [] else [formatAt (tileVba t.num.toNat 0)]
    | none => [formatAt (tileVba t.num.toNat 0)]
/-- The first element whose y fails a trapping bound, and the BNDLOG bits of all that fail (R198). -/
def drainTrap (m : MCmd) (dr : Drain) (rows cols : Nat) : Option Cause :=
  let q := drainBound m dr
  if q.b = 0 ∨ q.mode != 3 then none
  else
    let ys := (List.range rows).flatMap fun i => (List.range cols).map fun j => (drainY m dr i j).1
    let hits := ys.foldl (fun h y => h ||| (checkBound q y).2.1) (0 : BitVec 32)
    (ys.find? fun y => (checkBound q y).2.2).map fun y => { code := cBound, tval := boundTval q y, hits := hits }

/-- FORMAT of the lowest block of td to be written whose own code disagrees with td's format (R31, R284; log 97, DEDUCED). -/
def drainFormat (x : Ctx) (dr : Drain) (valid : Nat) : Option Cause :=
  let td := dr.d.num.toNat
  ((List.range 8).find? fun b =>
    let sl : Slot := .tile x.core.num (8 * td + b)
    (drainBlocks x.core.num td (specShape x dr.d) dr.ty valid).contains sl && blockDisagrees (fmtByte dr.ty) (rawBlock x.s.mem sl)).map
    fun b => formatAt (tileVba td b)
/-- The words of its residual that a drain reads. -/
def drainWords (dr : Drain) (x : Ctx) : List (Slot × Nat × Nat) :=
  match dr.res with
  | none => []
  | some t =>
    let shape := specShape x dr.d
    let f := (tshpFmt (specShape x t)).getD .f32
    regionWords x t.num.toNat f (min (drainRows shape (validCount x.ctl.vcnt[dr.vc.toFin])) (tshpRows (specShape x t)))
      (min (drainCols shape dr.ty) (tshpCols (specShape x t) f))
/-- The operands of a drain as read on its issue cycle, and the causes it raises there. -/
def drainRead (dr : Drain) (x : Ctx) (m : MCmd) : Except Cause (Core × MCmd) :=
  let td := dr.d.num.toNat
  let shape := specShape x dr.d
  if tshpFmt shape != some dr.ty then .error (formatAt (tileVba td 0))
  else
    let entry := (x.ctl.bnd[dr.bound.toNat]?).getD 0
    let vec (k : Nat) : Lanes := match dr.scl with
      | some v => (x.core.regs.v[v.toNat + k]?).getD (Vector.replicate 128 0)
      | none => Vector.replicate 128 0
    let m := { m with
      shapeA := shape, accA := accOf x dr.a.num, valid := validCount x.ctl.vcnt[dr.vc.toFin]
      vecA := vec 0, vecB := vec 1, bnd := entry, mode := (boundOf x.ctl dr.bound.toNat).mode
      seed0 := x.ctl.seed0, seed1 := x.ctl.seed1, dropp := x.ctl.dropp }
    let rows := drainRows shape m.valid
    let cols := drainCols shape dr.ty
    let (raw, m) := match dr.res with
      | some t => (tileRead x t.num.toNat, { m with shapeB := specShape x t })
      | none => ([], m)
    let fr := (tshpFmt m.shapeB).getD .f32
    let rr := min rows (tshpRows m.shapeB)
    let rc := min cols (tshpCols m.shapeB fr)
    let m := { m with tileB := raw.map readable }
    match (residualFormat x dr).head?.or (drainFormat x dr m.valid) with
    | some e => .error e
    | none =>
      let causes := match dr.res with
        | some t => regionCauses x t.num.toNat fr rr rc raw
        | none => []
      match firstCause causes with
      | some e => .error e
      | none =>
        match (if isIntDrain dr.ty then none else drainTrap m dr rows cols) with
        | some e => .error e
        | none =>
          match imageRoom x.core (drainBlocks x.core.num td shape dr.ty m.valid) with
          | some e => .error e
          | none => .ok (if dr.res.isSome && anyVoid fr rr rc raw then setSeen x.core else x.core, m)

def execMdrn (c : Common) (stamp : BitVec 36) (dr : Drain) (s : State) : Out :=
  issueM c stamp (.mdrn c stamp dr) (drainPlan dr) (drainRead dr) s (drainWords dr)
def execMdrnq (c : Common) (stamp : BitVec 36) (dr : Drain) (s : State) : Out :=
  issueM c stamp (.mdrnq c stamp dr) (drainPlan dr) (drainRead dr) s (drainWords dr)

/-- The four words of R201 over a list of values: the maximum of |y|, the minimum, the maximum, and the exponent bound. -/
def summaryOf (ys : List Num) : List Word :=
  if ys.any (·.isNan) then List.replicate 4 nan32
  else
    let top := (ys.map Num.abs).foldl (fun a y => (maxNum a y).1) (.zero false)
    let low := ys.foldl (fun a y => (minNum a y).1) (.inf false)
    let high := ys.foldl (fun a y => (maxNum a y).1) (.inf true)
    let bound : Num := match top with
      | .fin _ m e => intNum (e + Nat.log2 m + 1)
      | .inf _ => .inf false
      | _ => .inf true
    [(rne32 top).1, (rne32 low).1, (rne32 high).1, (rne32 bound).1]
/-- Join the summary of values written earlier by the same command. -/
def joinSummary (old new : List Word) : List Word :=
  match old, new with
  | [a, b, c, d], [p, q, r, t] => [(max32 a p).1, (min32 b q).1, (max32 c r).1, (max32 d t).1]
  | _, new => new
def readSummary (b : Cells) : List Word := (List.range 4).map fun k => BitVec.ofNat 32 (cle b (sideAt + 224 + 4 * k) 4)
def writeSummary (b : Cells) (w : List Word) : Cells := cputs b (sideAt + 224) (w.flatMap fun x => leBytes 4 x.toNat)

/-- What element (i, j) of an MDRN receives: its code, the exact y of the summary, its flags and BNDLOG bits. -/
def drainElem (m : MCmd) (dr : Drain) (i j : Nat) : Nat × Num × BitVec 5 × BitVec 32 :=
  if isIntDrain dr.ty then
    let (code, f) := convert .i32 dr.ty .rne dr.sat (cellOf m.accA i j).toNat
    (code, intNum (intDecode dr.ty code), f, 0)
  else
    let (y, f) := drainY m dr i j
    let (y, h, _) := checkBound (drainBound m dr) y
    let (code, g) := if dr.ty = .f32 then (y.toNat, 0) else convert .f32 dr.ty dr.rnd dr.sat y.toNat
    (code, num32 y, f ||| g, h)
/-- Rows 2u and 2u + 1 of an MDRN. -/
def drainStep (s : State) (core : Core) (m : MCmd) (dr : Drain) (u : Nat) : State × Core × BitVec 5 × BitVec 32 :=
  let rows := ((List.range 2).map (2 * u + ·)).filter fun i => i < drainRows m.shapeA m.valid
  let cells := rows.flatMap fun i => (List.range (drainCols m.shapeA dr.ty)).map fun j => (i, j, drainElem m dr i j)
  if cells.isEmpty then (s, core, 0, 0)
  else
    let sl : Slot := .tile core.num (8 * dr.d.num.toNat + u / 8)
    let first := u % 8 = 0
    let (s, core) := if first then openTile s core (fmtByte dr.ty) sl else (s, core)
    let write (b : Cells) : Cells :=
      let sum := summaryOf (cells.map fun e => e.2.2.2.1)
      let b' := cells.foldl (fun b e => putCode b (elemLoc dr.ty e.1 e.2.1).2 (fmtWidth dr.ty) e.2.2.1) b
      writeSummary b' (if first then sum else joinSummary (readSummary b) sum)
    (modBlock s sl write, core, cells.foldl (fun f e => f ||| e.2.2.2.2.1) 0, cells.foldl (fun h e => h ||| e.2.2.2.2.2) 0)

/-- Strip q of an MDRNQ (R200): each scale block of columns 0 to 127 fitted, payloads and records written together. -/
def fitStrip (s : State) (core : Core) (m : MCmd) (dr : Drain) (q : Nat) : State × Core × BitVec 5 × BitVec 32 :=
  let n := drainRows m.shapeA m.valid
  if n ≤ 32 * q then (s, core, 0, 0)
  else
    let bound := drainBound m dr
    let elem (i j : Nat) : Word × BitVec 5 × BitVec 32 :=
      if i < n then
        let (y, f) := drainY m dr i j
        let (y, h, _) := checkBound bound y
        (y, f, h)
      else (0, 0, 0)
    let ks := List.range (drainCols m.shapeA dr.ty / 32)
    let blocks := ks.map fun k => (k, (List.range 32).map fun a => (List.range 32).map fun b => elem (32 * q + a) (32 * k + b))
    let sl : Slot := .tile core.num (8 * dr.d.num.toNat + 2 * q)
    let (s, core) := openTile s core (fmtByte dr.ty) sl
    let fits := blocks.map fun e => (e.1, fitBlock dr.ty (e.2.map fun r => r.map fun y => num32 y.1))
    let putFit (b : Cells) (e : Nat × List (List Nat) × Scale × BitVec 5) : Cells :=
      let b := cputs b (sideAt + 28 * e.1) (scaleBytes e.2.2.1)
      (e.2.1.zipIdx).foldl (fun b r => (r.1.zipIdx).foldl (fun b p =>
        putCode b (elemLoc dr.ty (32 * q + r.2) (32 * e.1 + p.2)).2 (fmtWidth dr.ty) p.1) b) b
    let ys := blocks.flatMap fun e => e.2.flatten
    let write (b : Cells) : Cells :=
      let b := fits.foldl putFit b
      let b := if dr.ty = .sqe2m1 then b else csplice b (sideAt + 112) 112 []
      writeSummary b (summaryOf (ys.map fun y => num32 y.1))
    (modBlock s sl write, core,
      ys.foldl (fun f y => f ||| y.2.1) (fits.foldl (fun f e => f ||| e.2.2.2) 0), ys.foldl (fun h y => h ||| y.2.2) 0)

/-! ## M_COMMAND_STEP (R185, R202) -/

/-- The cycles a command occupies its unit. -/
def mSteps : Instr → Nat
  | .mma .. | .mmat .. => 128
  | .mdrn .. | .mdrnq .. => 64
  | _ => 16
/-- An accumulator command's cell (R192). -/
def unitCell (m : MCmd) (i j : Nat) (old : Word) : Word × BitVec 5 :=
  match m.instr with
  | .mzero .. => (0, 0)
  | .macc .. => add32 .rne false old (cellOf m.accA i j)
  | .mscl _ _ _ _ col => mul32 .rne false old ((m.vecA[if col then j else i]?).getD 0)
  | .mmsk .. => if (j : Int) < m.g.toInt then (old, 0) else (negInf32, 0)
  | .mtrn .. => (cellOf m.accA j i, 0)
  | _ => (old, 0)
/-- An accumulator of a core rewritten; its shadow is stale from now (R266). -/
def writeAcc (core : Core) (d : Spec) (r : Acc × BitVec 5) : Core × BitVec 5 :=
  ({ core with acc := vmod core.acc d.num.toNat fun _ => r.1
               accWritten := core.accWritten ||| BitVec.ofNat 4 (2 ^ d.num.toNat) }, r.2)
/-- The block that a drain opens on this step. -/
def stepSlots (core : Core) (m : MCmd) : List Slot :=
  let sl (td b : Nat) : List Slot := [.tile core.num (8 * td + b)]
  if !m.active then []
  else match m.instr with
    | .mdrn _ _ dr => if m.step % 8 = 0 && 2 * m.step < drainRows m.shapeA m.valid then sl dr.d.num.toNat (m.step / 8) else []
    | .mdrnq _ _ dr =>
      if m.step % 16 = 15 && 32 * (m.step / 16) < drainRows m.shapeA m.valid then sl dr.d.num.toNat (2 * (m.step / 16)) else []
    | _ => []
/-- One step of a command's timetable: the state, the core, and the flags and BNDLOG bits that wait for completion. -/
def mStep (s : State) (core : Core) (m : MCmd) : State × Core × BitVec 5 × BitVec 32 :=
  let t := m.step
  if !m.active then (s, core, 0, 0)
  else match m.instr with
    | .mma _ _ d _ _ _ =>
      let (core, f) := writeAcc core d (mmaStep m false t ((core.acc[d.num.toNat]?).getD (Vector.replicate 128 (Vector.replicate 128 0))))
      (s, core, f, 0)
    | .mmat _ _ d _ _ _ =>
      let (core, f) := writeAcc core d (mmaStep m true t ((core.acc[d.num.toNat]?).getD (Vector.replicate 128 (Vector.replicate 128 0))))
      (s, core, f, 0)
    | .mzero _ _ d | .macc _ _ d _ | .mscl _ _ d _ _ | .mmsk _ _ d _ | .mtrn _ _ d _ =>
      let (core, f) := writeAcc core d (updRows ((core.acc[d.num.toNat]?).getD (Vector.replicate 128 (Vector.replicate 128 0)))
        (8 * t) 8 (unitCell m))
      (s, core, f, 0)
    | .mdrn _ _ dr => drainStep s core m dr t
    | .mdrnq _ _ dr => if t % 16 = 15 then fitStrip s core m dr (t / 16) else (s, core, 0, 0)
    | _ => (s, core, 0, 0)

/-- One cycle of the command in unit `u` of a core. On the last, its flags and BNDLOG bits join the registers, and the unit
is free from the next cycle. A step that opens a block without room for its before-image raises UNDO_OVERFLOW and writes nothing (R266). -/
def execMCommandStep (k : CoreId) (u : Nat) (s : State) : Out :=
  match getMember s k with
  | none => .next s
  | some (_, core) =>
    match (core.cmds[u]?).getD none with
    | none => .next s
    | some m =>
      let fits := imagesFit core (stepSlots core m)
      let (s, core, f, h) := if fits then mStep s core m else (s, core, 0, 0)
      let core := if fits then core
        else { core with raised := core.raised ++ [{ code := cUndo, cl := .m, tval := 1024, pc := m.pc }] }
      let m := { m with step := m.step + 1, flags := m.flags ||| f, hits := m.hits ||| h }
      let core := if m.step < mSteps m.instr then { core with cmds := vmod core.cmds u fun _ => some m }
        else orBndlog (orFpcsr { core with cmds := vmod core.cmds u fun _ => none } m.flags) m.hits
      let (s, core) := match m.instr with
        | .mzero _ _ d | .mtrn _ _ d _ =>
          if m.active && m.step = 16 then overwriteFault s core 3 d.num.toNat else (s, core)
        | _ => (s, core)
      .next (modMember s k fun _ => core)

end Sys2Proof.Machine
end

