-- ==== Sys2Proof/Machine/ScalarMem.lean ====
section
/-! DEFINITION. S cluster: word access to memory and local atomics (R132 to R140), waiting and ordering (R144, R148, R149),
as entries of the load and store queues (R295, R296). -/

namespace Sys2Proof.Machine

/-- Bytes of an element of S memory access. -/
def typeBytes (ty : Fmt) : Nat := fmtWidth ty / 8
/-- ea ← g[base] + sext(offset) × size (R132). -/
def effAddr (x : Ctx) (base : Reg) (off : BitVec 16) (size : Nat) : Dword :=
  x.rg base + off.signExtend 64 * BitVec.ofNat 64 size
/-- What LD, LDA, AMO and CAS place in g[d] (R132, R139). -/
def extendElem (ty : Fmt) (v : Nat) : Dword :=
  match ty with
  | .i8 => (BitVec.ofNat 8 v).signExtend 64
  | .i32 => (BitVec.ofNat 32 v).signExtend 64
  | _ => BitVec.ofNat 64 v

/-- An access takes its serial number and joins the queues (R296). -/
def enqueue (x : Ctx) (a : Access) (core : Core) : Core × State :=
  let (n, s) := fresh x.s
  ({ core with accesses := core.accesses ++ [{ a with serial := n, voidMode := warnMode x.core }] }, s)

/-- The port time of an access of `n` bytes that makes no entry, guarded off, nullified or with no active lane: where it leads to a
berth, a request of its own, since a guard, a mask or a nullify bit changes no cycle (R82, R258, R296; log 93, DEDUCED). -/
def portTime (x : Ctx) (ea : Dword) (n : Nat) (wr : Bool) (core : Core) : Core × State :=
  match x.page (ea.extractLsb' 12 52) with
  | .ok { slot := .berth b i, .. } =>
    let off := (ea.extractLsb' 0 12).toNat
    if x.hb || 4096 < off + n then (core, x.s)
    else
      let (m, s) := fresh x.s
      ({ core with asks := core.asks ++ [⟨m, .berth b i, off, n, wr, x.cl, x.tide⟩] }, s)
  | _ => (core, x.s)
def justTime (ea : Ctx → Dword) (n : Nat) (wr : Bool) : Body := fun x => .ok (portTime x (ea x) n wr x.core)
/-- The address, the bytes and the direction of an S access. -/
def accessOf (x : Ctx) : Instr → Option (Dword × Nat × Bool)
  | .ld _ _ base ty off | .lda _ _ base _ ty off => some (effAddr x base off (typeBytes ty), typeBytes ty, false)
  | .st _ _ base ty off | .stl _ _ base _ ty off => some (effAddr x base off (typeBytes ty), typeBytes ty, true)
  | .amo _ _ a _ _ ty | .cas _ _ a _ _ ty => some (x.rg a, typeBytes ty, true)
  | .waitp _ a _ => some (x.rg a, 4, false)
  | _ => none

/-- The harbourmaster's own data memory: every byte of it readable and writable, aligned accesses alone (R352, log 5, DESIGN CHOICE). -/
def harbourTarget (ea : Dword) (size : Nat) : Except Cause Target :=
  if ea.toNat % size != 0 then .error { code := cAlign, tval := ea }
  else .ok { page := { (default : Page) with read := true, write := true }, vba := ea.extractLsb' 12 52,
             off := (ea.extractLsb' 0 12).toNat, lat := 6 }
def target (x : Ctx) (ea : Dword) (size : Nat) (rd wr : Bool) : Except Cause Target :=
  if x.hb then harbourTarget ea size else sTarget x ea size rd wr

/-- One S access (R133 to R136): its causes and its landing, then its queue entry. A plain store keeps an undo entry from its issue on, and
raises UNDO_OVERFLOW there; a read-modify-write takes it as it is performed (R137; log 96, DESIGN CHOICE). -/
def access (x : Ctx) (ea : Dword) (ty : Fmt) (rd wr : Bool) (op : AccOp) (acquire : Bool) (release : Option Scope) :
    Except Cause (Core × State) :=
  if landingFull x (accLands op) then .error x.miss
  else match target x ea (typeBytes ty) rd wr with
  | .error e => .error e
  | .ok t =>
    if wr && !rd && !x.hb && !logFree x.core 1 then .error undoCause
    else
      let core := if wr && !rd && !x.hb then { x.core with reserved := x.core.reserved + 1 } else x.core
      let lat := match op with | .waitp _ => 1 | _ => t.lat
      let scope := scopeMax ((release.getD .core)) (slotScope x.core.num t.page.slot)
      .ok (enqueue x { serial := 0, op := op, cl := .s, spots := [⟨t.page.slot, 8 * t.off, t.page.code, vbaTval t.vba⟩],
                       pc := x.pc, issued := x.tide, due := x.tide + lat,
                       acquire := acquire, release := release.map fun _ => scope, inLoad := rd, inStore := wr } core)

def execLd (c : Common) (d base : Reg) (ty : Fmt) (off : BitVec 16) (s : State) : Out :=
  issue .s c (fun x => access x (effAddr x base off (typeBytes ty)) ty true false (.load d ty) false none)
    (justTime (fun x => effAddr x base off (typeBytes ty)) (typeBytes ty) false) s
def execSt (c : Common) (d base : Reg) (ty : Fmt) (off : BitVec 16) (s : State) : Out :=
  issue .s c (fun x => access x (effAddr x base off (typeBytes ty)) ty false true (.store ty (x.rg d)) false none)
    (justTime (fun x => effAddr x base off (typeBytes ty)) (typeBytes ty) true) s
def execLda (c : Common) (d base : Reg) (_sc : Scope) (ty : Fmt) (off : BitVec 16) (s : State) : Out :=
  issue .s c (fun x => access x (effAddr x base off (typeBytes ty)) ty true false (.load d ty) true none)
    (justTime (fun x => effAddr x base off (typeBytes ty)) (typeBytes ty) false) s
def execStl (c : Common) (d base : Reg) (sc : Scope) (ty : Fmt) (off : BitVec 16) (s : State) : Out :=
  issue .s c (fun x => access x (effAddr x base off (typeBytes ty)) ty false true (.store ty (x.rg d)) false (some sc))
    (justTime (fun x => effAddr x base off (typeBytes ty)) (typeBytes ty) true) s
def execAmo (c : Common) (d a b : Reg) (op : AtomOp) (ty : Fmt) (s : State) : Out :=
  issue .s c (fun x => access x (x.rg a) ty true true (.amo d op ty (x.rg b)) false none)
    (justTime (fun x => x.rg a) (typeBytes ty) true) s
def execCas (c : Common) (d a b e : Reg) (ty : Fmt) (s : State) : Out :=
  issue .s c (fun x => access x (x.rg a) ty true true (.cas d ty (x.rg b) (x.rg e)) false none)
    (justTime (fun x => x.rg a) (typeBytes ty) true) s

/-- WAITP reads as an LD.n32 does, and is an acquire at system scope (R148). -/
def execWaitp (c : Common) (a b : Reg) (s : State) : Out :=
  issue .s c (fun x => access x (x.rg a) .n32 true false (.waitp ((x.rg b).setWidth 32)) true none)
    (justTime (fun x => x.rg a) 4 false) s

/-- QMARK: one marker at the tail of both queues (R144). -/
def execQmark (c : Common) (s : State) : Out :=
  issue .s c (fun x =>
    let m : Access := { serial := 0, op := .marker, cl := .s, spots := [], pc := x.pc,
                        issued := x.tide, due := x.tide, inLoad := true, inStore := true }
    .ok (enqueue x m x.core)) nothing s

/-- FENCE's L when no effect is late (R149). -/
def fenceLat : Scope → Nat
  | .core => 2 | .quad => 24 | .pkg | .sys => 96
def execFence (c : Common) (d : Reg) (sc : Scope) (s : State) : Out :=
  issue .s c (fun x =>
    if d != 0 && 16 ≤ x.core.pending then .error x.miss
    else
      let (n, s) := fresh x.s
      .ok ({ x.core with fences := x.core.fences ++
        [{ serial := n, d := d, scope := sc, issued := x.tide, due := x.tide + fenceLat sc, pc := x.pc }] }, s)) nothing s

end Sys2Proof.Machine
end

