-- ==== Sys2Proof/Machine/Exchange.lean ====
section
/-! DEFINITION. X cluster, inside the package (10): the block sequences and checks of an exchange at its issue, its pairs and
units as their cycles come, voids, pennants, quay banks and neighbour links. -/

namespace Sys2Proof.Machine

/-! ## Pairs (R207, R208, R210, R217, R218) -/

/-- The base latency of a pair and whether it belongs to the slack span alone; none where the pair is never reached. -/
def pairReach (x : Ctx) (near far : Slot) : Option (Nat × Bool) :=
  let own := x.core.num
  if ownBerth own far && (ownTile own near || ownBerth own near) then some (16, false)
  else if ownBerth own near then (reachLat x.s x.g own 16 far).map fun l => (l, true)
  else none

/-- The formats of a transposed unit, and its blocks (R221). -/
def unitSize (code : Byte) : Option Nat :=
  match fmtOfByte code with
  | some .bf16 | some .f16 | some .sqe2m1 => some 8
  | some .sqe4m3 | some .sqe5m2 | some .sqi8 => some 4
  | _ => none

/-- What a pair's translation finds: its causes, its slots when both sides translate, its base, its span and its formats. -/
structure PairInfo where
  causes : List Cause
  slots : Option (Slot × Slot)
  base : Nat
  slack : Bool
  code : Byte
  deriving Repr

/-- The pair of a translation that was whole. -/
def PairInfo.pair (p : PairInfo) : Option Pair := p.slots.map fun q => { near := q.1, far := q.2, reach := p.base, code := p.code }
/-- What a guarded-off exchange keeps of a pair for its timing (R215). -/
def PairInfo.timed (p : PairInfo) : Pair := p.pair.getD { near := .tile 0 0, far := .tile 0 0, skip := true }
def pageOrCause (x : Ctx) (v : BitVec 52) : Option Page × List Cause :=
  match x.page v with
  | .ok p => (some p, [])
  | .error e => (none, [e])
/-- The page of an address, absent or not (R407). -/
def pageAnyway (x : Ctx) (v : BitVec 52) : Option Page :=
  match translate x.s x.g x.k.idx v true with
  | .ok p => some p
  | .error _ => none
def pairInfo (x : Ctx) (nv fv : BitVec 52) (unit : Bool) : PairInfo :=
  let (n, nc) := pageOrCause x nv
  let (f, fc) := pageOrCause x fv
  match n, f with
  | some p, some q =>
    let own := x.core.num
    let reach := pairReach x p.slot q.slot
    let mine := ownTile own p.slot || ownBerth own p.slot
    { causes :=
        (if !mine then [({ code := cPermission, tval := vbaTval nv, never := true } : Cause)]
         else if reach.isNone then [{ code := cPermission, tval := vbaTval fv, never := true }] else [])
        ++ rightCause p nv false true ++ rightCause q fv false true
        ++ (if (if unit then p.code != q.code || (unitSize p.code).isNone else !formatsAgree p.code q.code)
            then [formatAt (vbaTval fv)] else [])
      slots := some (p.slot, q.slot)
      base := (reach.map (·.1)).getD 16, slack := (reach.map (·.2)).getD false, code := p.code }
  | n, f =>
    let reach : Option (Nat × Bool) := do
      let p ← n.or (pageAnyway x nv)
      let q ← f.or (pageAnyway x fv)
      pairReach x p.slot q.slot
    { causes := nc ++ fc, slots := none, base := (reach.map (·.1)).getD 16, slack := (reach.map (·.2)).getD false, code := 0 }

/-- The address of one side of pair `k`: the base and k, or the generator's offset with the entry of its table. -/
def sideVba (l : Vector Dword 8) (G : Nat) (named : Bool) (base : Dword) (pos k : Nat) (entry : Dword) : BitVec 52 :=
  if named then
    let (o, ind) := genOffset l G (pos + k)
    addVba base (o + (match ind with | some _ => (entry.extractLsb' 0 32).toInt | none => 0))
  else addVba base (Int.ofNat k)
/-- The entry of its table that pair position `p` of generator `G` uses (R218). -/
def entryIndex (l : Vector Dword 8) (G p : Nat) : Option Nat := (genOffset l G p).2.map (·.2)

/-- The pair's partner on the far side: itself, or for XTIL and XTILT the block of unit (v, u) (R223). -/
def partner (side size k : Nat) : Nat :=
  if side = 0 ∨ size = 0 then k
  else
    let w := k / size
    (w % side * side + w / side) * size + k % size
def genOf (i : Instr) : BitVec 2 :=
  match i with
  | .xch _ _ _ _ g | .xchs _ _ _ _ g | .xchg _ _ _ _ g | .xchp _ _ _ _ g | .xcht _ _ _ _ g | .xtil _ _ _ _ g
  | .xtilt _ _ _ _ g => g
  | _ => 0
def isUnit : Instr → Bool
  | .xcht .. | .xtil .. | .xtilt .. => true
  | _ => false
def isPrune : Instr → Bool
  | .xchp .. => true
  | _ => false
/-- The two addresses of pair `k` of an exchange, under the entries of its tables (R207, R223). -/
def pairVbas (e : Exch) (k : Nat) (ent : Dword × Dword) : BitVec 52 × BitVec 52 :=
  let gen := genOf e.instr
  (sideVba e.latch 1 (gen.getLsbD 1) e.near e.pos1 k ent.2,
   sideVba e.latch 0 (gen.getLsbD 0) e.far e.pos0 (partner e.side e.size k) ent.1)

/-- A unit has one listed format, and the exchange one U (R221): FORMAT of a pair whose page holds another than its unit's first, or one
of another U. -/
def unitFormat (e : Exch) (first : Byte) (code : Byte) (far : BitVec 52) : List Cause :=
  if isUnit e.instr && (code != first || unitSize code != some e.size) then [formatAt (vbaTval far)] else []
/-- Entry `i` of a table block as it stands: 0 for a void one. -/
def tableEntry (b : Cells) (i : Nat) : Dword := if blkValid b then BitVec.ofNat 64 (cle b (8 * i) 8) else 0
/-- The tables of the named generators, where they translate, and the causes of those that may not be used (R218). -/
def findTables (x : Ctx) (l : Vector Dword 8) (gen : BitVec 2) : List (Nat × Slot × Dword) × List Cause :=
  (List.range 2).foldl (fun a G =>
    if gen.getLsbD G then
      match (List.range 4).find? fun d => aguInd (genDim l G d) with
      | none => a
      | some d =>
        let v : BitVec 52 := BitVec.ofNat 52 (aguTable (genDim l G d))
        match x.page v with
        | .error e => (a.1, a.2 ++ [e])
        | .ok p =>
          if ownBerth x.core.num p.slot then (a.1 ++ [(G, p.slot, vbaTval v)], a.2 ++ rightCause p v true false)
          else (a.1, a.2 ++ [{ code := cPermission, tval := vbaTval v, never := true }])
    else a) ([], [])
/-- The index into its table that pair `k` uses for generator `G`. -/
def tableIndex (e : Exch) (G k : Nat) : Nat :=
  let p := if G = 0 then e.pos0 + partner e.side e.size k else e.pos1 + k
  (entryIndex e.latch G p).getD 0
/-- The entries of pair `k` as their tables stand. -/
def entriesAt (s : State) (e : Exch) (k : Nat) : Dword × Dword :=
  let one (G : Nat) : Dword :=
    match e.tables.find? fun t => t.1 == G with
    | some t => tableEntry (rawBlock s.mem t.2.1) (tableIndex e G k)
    | none => 0
  (one 0, one 1)
/-- A slot stands in the swap or undo log of the phase (R218). -/
def inLog (log : List LogCell) (sl : Slot) : Bool :=
  log.any fun c => match c.entry with
    | .swap a b => a == sl || b == sl
    | .unit a b .. => a.contains sl || b.contains sl
    | .word a .. => a == sl
    | .image a .. | .mirror a _ => a == sl
    | .staged .. => false

/-! ## The exchange forms (R205 to R224, R371) -/

/-- The near base: the tile's window, or the register. -/
def nearBase (x : Ctx) : Near → Dword
  | .tile sp => BitVec.ofNat 64 (8 * sp.num.toNat)
  | .reg g => x.rg g
def nearTile : Near → Bool
  | .tile _ => true
  | .reg _ => false

/-- The causes of an exchange that its own fields and the latches raise: RESERVED_FIELD (R70, R218, R219). -/
def exchangeForm (x : Ctx) (i : Instr) (l : Vector Dword 8) (gen : BitVec 2) : List Cause :=
  let named := (List.range 2).filter fun G => gen.getLsbD G
  let ind := named.any fun G => genIndirect l G
  let bad := (named.any fun G => genBad l G)
    || (match i with | .xchs .. => ind | .xchg .. => !ind | _ => false)
  if bad then [x.formCause cReserved] else []

/-- The record of an exchange as its issue makes it, before its pairs are known. -/
def exchangeRecord (x : Ctx) (i : Instr) (near : Near) (far cnt : Reg) (active : Bool) : Exch :=
  let l := x.core.regs.latch
  let gen := genOf i
  let named := (List.range 2).filter fun G => gen.getLsbD G
  let ind := named.any fun G => genIndirect l G
  let plain := match i with | .xch .. => true | _ => false
  let pos (k : Nat) : Nat := if plain then 0 else (x.core.regs.gpos[k]?).getD 0
  let side := match i with | .xtil .. | .xtilt .. => min ((x.rg cnt).extractLsb' 0 4).toNat 8 | _ => 0
  let e : Exch :=
    { serial := x.s.serial, instr := i, pc := x.pc, issued := x.tide, near := nearBase x near, far := x.rg far, n := 0,
      pos0 := pos 0, pos1 := pos 1, latch := l, base := 16, delay := if ind then 6 else 0, indirect := ind, active := active,
      side := side, pruneref := x.ctl.pruneref.setWidth 32, pmargin := x.ctl.pmargin.setWidth 32, warn := warnMode x.core,
      tables := (findTables x l gen).1 }
  if isUnit i then
    let first := pairVbas { e with size := 1, side := 0 } 0 (entriesAt x.s { e with size := 1, side := 0 } 0)
    let code := match pageAnyway x first.2 with | some p => p.code | none => 0
    let u := (unitSize code).getD 8
    { e with size := u, format := code
             n := match i with | .xcht .. => ((x.rg cnt).extractLsb' 0 13).toNat | _ => side * side * u }
  else
    let n := ((x.rg cnt).extractLsb' 0 13).toNat
    { e with n := if nearTile near then min n 8 else n }

/-- An exchange on its issue cycle. -/
def exchange (i : Instr) (near : Near) (far cnt : Reg) (active : Bool) : Body := fun x =>
  let gen := genOf i
  let l := x.core.regs.latch
  let e := exchangeRecord x i near far cnt active
  let infos := (List.range e.n).map fun k =>
    let v := pairVbas e k (entriesAt x.s e k)
    pairInfo x v.1 v.2 (isUnit i)
  let base := infos.foldl (fun a p => max a p.base) 16
  let regions : List Region := infos.flatMap fun p => match p.slots with
    | some (a, b) => [.slot a, .slot b]
    | none => []
  let formats : List Cause := infos.zipIdx.flatMap fun p =>
    if p.1.slots.isSome then
      unitFormat e (((infos[p.2 / e.size * e.size]?).map (·.code)).getD 0) p.1.code (pairVbas e p.2 (entriesAt x.s e p.2)).2
    else []
  let plan := (e.n != 0 && x.tide + e.delay < x.core.channelFree)
    || (!x.slack && infos.any (·.slack))
    || !cardsMeet x.core regions regions x.tide
    || (active && e.tables.any fun t => inLog x.core.log t.2.1)
  let align := match i with
    | .xcht .. => if (unitSize e.format).isSome && e.n % e.size != 0 then
        [({ code := cAlign, tval := (pairVbas e 0 (entriesAt x.s e 0)).2.setWidth 64 <<< 12 } : Cause)] else []
    | _ => []
  let causes := (if plan then [x.miss] else [])
    ++ (if active then
          exchangeForm x i l gen ++ (findTables x l gen).2 ++ align ++ (if e.indirect then [] else infos.flatMap (·.causes) ++ formats)
          ++ (if e.n != 0 && !logFree x.core e.n then [undoCause] else [])
        else [])
  match firstCause causes with
  | some c => .error c
  | none =>
    let pairs : List Pair := if !active then infos.map (·.timed) else if e.indirect then [] else infos.filterMap (·.pair)
    let e := { e with base := base, pairs := pairs
                      judged := if e.indirect || (isPrune i && active) then 0 else e.n }
    let gpos := match i with
      | .xch .. => x.core.regs.gpos
      | _ => (Vector.ofFn fun G : Fin 2 =>
          if active && gen.getLsbD G.val then (x.core.regs.gpos[G] + e.n) % genLength l G.val else x.core.regs.gpos[G] : Vector Nat 2)
    let core := { x.core with regs := { x.core.regs with gpos := gpos } }
    if e.n = 0 then .ok (core, x.s)
    else
      let last := x.tide + e.delay + base + 8 * e.n
      let core := addCard core { reads := regions, writes := regions, first := x.tide, readEnd := last, last := last,
                                 id := e.serial }
      .ok ({ core with exchs := core.exchs ++ [e], channelFree := x.tide + e.delay + 8 * e.n
                       reserved := if active then core.reserved + e.n else core.reserved }, (fresh x.s).2)

def exchangeForms (c : Common) (i : Instr) (near : Near) (far cnt : Reg) (s : State) : Out :=
  issue .x c (exchange i near far cnt true) (exchange i near far cnt false) s
def execXch (c : Common) (near : Near) (far cnt : Reg) (gen : BitVec 2) (s : State) : Out :=
  exchangeForms c (.xch c near far cnt gen) near far cnt s
def execXchs (c : Common) (near : Near) (far cnt : Reg) (gen : BitVec 2) (s : State) : Out :=
  exchangeForms c (.xchs c near far cnt gen) near far cnt s
def execXchg (c : Common) (near far cnt : Reg) (gen : BitVec 2) (s : State) : Out :=
  exchangeForms c (.xchg c near far cnt gen) (.reg near) far cnt s
def execXchp (c : Common) (near far cnt : Reg) (gen : BitVec 2) (s : State) : Out :=
  exchangeForms c (.xchp c near far cnt gen) (.reg near) far cnt s
def execXcht (c : Common) (near far cnt : Reg) (gen : BitVec 2) (s : State) : Out :=
  exchangeForms c (.xcht c near far cnt gen) (.reg near) far cnt s
def execXtil (c : Common) (near far cnt : Reg) (gen : BitVec 2) (s : State) : Out :=
  exchangeForms c (.xtil c near far cnt gen) (.reg near) far cnt s
def execXtilt (c : Common) (near far cnt : Reg) (gen : BitVec 2) (s : State) : Out :=
  exchangeForms c (.xtilt c near far cnt gen) (.reg near) far cnt s

/-! ## Timetable of an exchange in flight (R209) -/

/-- The swap cycle of pair `k`. -/
def swapCycle (e : Exch) (k : Nat) : Nat := e.issued + e.delay + e.base + 8 * (k + 1)
/-- The pair whose swap cycle moves the next pairs: the next pair itself, or the last of its unit; a guarded-off exchange may end within
a unit. -/
def nextSwap (e : Exch) : Nat := min (e.swapped / e.size * e.size + (e.size - 1)) (e.n - 1)
def modExch (c : Core) (serial : Nat) (f : Exch → Exch) : Core :=
  { c with exchs := c.exchs.map fun e => if e.serial = serial then f e else e }
def findExch (c : Core) (serial : Nat) : Option Exch := c.exchs.find? fun e => e.serial == serial
/-- One cycle more for the exchange `serial` and its card (R208, R286, R290). -/
def penalise (c : Core) (serial : Nat) : Core :=
  let c := modExch c serial fun e => { e with base := e.base + 1 }
  { c with cards := c.cards.map fun j => if j.id = serial then { j with readEnd := j.readEnd + 1, last := j.last + 1 } else j }
/-- The pairs up to `n` have had their swap cycles; after the last the exchange leaves. -/
def exchangePast (c : Core) (serial n : Nat) : Core :=
  let c := modExch c serial fun e => { e with swapped := n }
  { c with exchs := c.exchs.filter fun e => e.swapped < e.n }

/-! ## EXCHANGE_PAIR_TRANSLATE (R210, R218, R220, R407) -/

/-- A cause of an exchange in flight, and the mark that stops it for this cycle. -/
def exchangeRaise (c : Core) (e : Exch) (q : Cause) : Core :=
  modExch { c with raised := c.raised ++ [{ code := q.code, cl := .x, tval := q.tval, pc := e.pc, never := q.never }] }
    e.serial fun e => { e with stopped := true }
/-- The exact test of R220: b + PMARGIN < PRUNEREF, and never with a NaN or an ∞ − ∞. -/
def pruned (b margin ref : Word) : Bool :=
  let s := (addNum .rne (num32 b) (num32 margin)).1
  let r := num32 ref
  let nan := (num32 b).isNan || (num32 margin).isNan || r.isNan || s.isNan
  let same := match s, r with
    | .inf a, .inf b => a == b
    | _, _ => false
  !nan && !same && numLt s r
/-- The bound of pair `k`: of the entries that addressed it, or of the far block's tile summary. -/
def pruneBound (s : State) (g : Gang) (e : Exch) (far : Slot) : Word :=
  let hi (d : Dword) : Word := d.extractLsb' 32 32
  match e.tables with
  | [] => BitVec.ofNat 32 (cle (getBlock s g.desc.owner far) (sideAt + 232) 4)
  | [t] => if t.1 = 0 then hi e.entry.1 else hi e.entry.2
  | _ => (max32 (hi e.entry.1) (hi e.entry.2)).1
/-- The context of a step of core `k` beside any instruction. -/
def stepCtx (s : State) (k : CoreId) (cl : Cl) : Option Ctx :=
  (getMember s k).map fun p => ⟨k, false, cl, p.1, p.2, s⟩

/-- Pair `judged` of an exchange on its first channel cycle. -/
def execExchangePairTranslate (k : CoreId) (serial : Nat) (s : State) : Out :=
  match stepCtx s k .x with
  | none => .next s
  | some x =>
    match findExch x.core serial with
    | none => .next s
    | some e =>
      if e.n ≤ e.judged then .next s
      else if !e.active then .next (modMember s k fun c => modExch c serial fun e => { e with judged := e.judged + 1 })
      else
        let v := pairVbas e e.judged e.entry
        let info := pairInfo x v.1 v.2 (isUnit e.instr)
        let table : List Cause := match e.entryBad with
          | some q => [{ code := q.1, tval := q.2 }]
          | none => []
        let unit := if info.slots.isNone then [] else
          unitFormat e (((e.pairs[e.judged / e.size * e.size]?).map (·.code)).getD info.code) info.code v.2
        let causes := if e.indirect then
            (if info.slack && !x.slack then [x.miss] else []) ++ table ++ info.causes ++ unit
          else []
        match firstCause causes with
        | some q => .next (modMember s k fun c => exchangeRaise c e q)
        | none =>
          match (if e.indirect then info.pair else e.pairs[e.judged]?) with
          | none => .next (modMember s k fun c => modExch c serial fun e => { e with judged := e.judged + 1 })
          | some p =>
            let skip := isPrune e.instr && pruned (pruneBound s x.g e p.far) e.pmargin e.pruneref
            let put (l : List Pair) : List Pair :=
              if e.indirect then l ++ [{ p with skip := skip }] else l.modify e.judged fun p => { p with skip := skip }
            .next (modMember s k fun c =>
              let c := modExch c serial fun e => { e with pairs := put e.pairs, judged := e.judged + 1 }
              if skip then { c with reserved := c.reserved - 1 } else c)

/-! ## EXCHANGE_PAIR_SWAP (R205, R211 to R213, R332) -/

/-- The block that a pair of a paired gang sends toward a shared slot is kept for the comparison. -/
def noteSent (s : State) (g : Gang) (k : CoreId) (p : Pair) : State :=
  if g.desc.pair && slotPorted p.far then
    modMember s k fun c => { c with outward := c.outward ++ [(p.far, 0, cbelow (rawBlock s.mem p.near) latentAt)] }
  else s
/-- A secondary's near slots take what its primary's pairs brought into the primary's. -/
def followPrimary (s : State) (g : Gang) (k : CoreId) (near : List Slot) : State :=
  match g.cores[memberOf g k.idx]? with
  | none => s
  | some c => near.foldl (fun s sl => match sl with
      | .berth _ i => { s with mem := setRawBlock s.mem sl (rawBlock s.mem (.berth c.num i)) }
      | _ => s) s

def execExchangePairSwap (k : CoreId) (serial : Nat) (s : State) : Out :=
  match getMember s k with
  | none => .next s
  | some (g, core) =>
    match findExch core serial with
    | none => .next s
    | some e =>
      match e.pairs[e.swapped]? with
      | some p =>
        if e.active && !p.skip then
          let s := noteSent s g k p
          if isSecondary g k.idx && slotPorted p.far then
            let (n, s) := fresh s
            .next (modMember (followPrimary s g k [p.near]) k fun c =>
              exchangePast (takeLog c n (.mirror p.near (rawBlock s.mem p.near))) serial (e.swapped + 1))
          else
            let s := swapSlots s g.desc.owner p.near p.far
            let (n, s) := fresh s
            .next (modMember s k fun c => exchangePast (takeLog c n (.swap p.near p.far)) serial (e.swapped + 1))
        else .next (modMember s k fun c => exchangePast c serial (e.swapped + 1))
      | none => .next (modMember s k fun c => exchangePast c serial (e.swapped + 1))

/-! ## UNIT_SWAP (R221 to R224, R373) -/

/-- The square's elements for a format: width in bits, rows per block, bytes of a row. -/
structure UnitGeo where
  width : Nat
  rows : Nat
  stride : Nat
  deriving DecidableEq, Repr
def unitGeo (code : Byte) : UnitGeo :=
  match fmtOfByte code with
  | some .sqe2m1 => ⟨4, 32, 128⟩
  | some .sqe4m3 | some .sqe5m2 | some .sqi8 => ⟨8, 32, 128⟩
  | _ => ⟨16, 16, 256⟩
/-- Where element (i, j) lies: its block and its bit. -/
def unitLoc (q : UnitGeo) (i j : Nat) : Nat × Nat := (i / q.rows, 8 * (q.stride * (i % q.rows)) + q.width * j)
/-- Byte `y` of destination block `b`: element (i, j) there comes from (j, i). -/
def transposeByte (q : UnitGeo) (src : Array (Array Byte)) (b y : Nat) : Byte :=
  let i := q.rows * b + y / q.stride
  let at_ (j : Nat) : Nat :=
    let (s, bit) := unitLoc q j i
    let byte := ((src.getD s #[]).getD (bit / 8) 0).toNat
    if q.width = 4 then byte / 2 ^ (bit % 8) % 16 else byte
  let x := y % q.stride
  match q.width with
  | 4 => BitVec.ofNat 8 (at_ (2 * x) + 16 * at_ (2 * x + 1))
  | 8 => BitVec.ofNat 8 (at_ x)
  | _ =>
    let (s, bit) := unitLoc q (x / 2) i
    (src.getD s #[]).getD (bit / 8 + x % 2) 0
/-- A destination word is marked when it receives any element of a marked source word (R224). -/
def transposeMark (q : UnitGeo) (src : Array Cells) (b w : Nat) : Bool :=
  (List.range (32 / q.width)).any fun t =>
    let bit := 32 * w + q.width * t
    let i := q.rows * b + bit / (8 * q.stride)
    let j := bit % (8 * q.stride) / q.width
    let (s, p) := unitLoc q j i
    blkMarked (src.getD s []) (p / 32)
/-- The unit-wide tile summary (R224). -/
def unitSummary (blocks : List Cells) : List Word :=
  let l := blocks.map readSummary
  if l.any fun w => w.any fun x => (num32 x).isNan then List.replicate 4 nan32
  else match l with
    | [] => List.replicate 4 0
    | a :: t => t.foldl joinSummary a
/-- Scale record `t` of a block with its rows and columns exchanged (R37). -/
def swapScales (b : Cells) (t : Nat) : List Byte :=
  let o := sideAt + 28 * t
  cbytes b o 1 ++ cbytes b (o + 13) 12 ++ cbytes b (o + 1) 12 ++ cbytes b (o + 25) 3
/-- A unit transposed: all of its blocks valid. -/
def transposeUnit (code : Byte) (blocks : List Cells) : List Cells :=
  let q := unitGeo code
  let src := (blocks.map fun b => (cbytes b 0 4096).toArray).toArray
  let arr := blocks.toArray
  let sum := unitSummary blocks
  let anyMark := blocks.any blkPoison
  blocks.zipIdx.map fun (b, i) =>
    let pay := cpack 0 ((List.range 4096).map fun y => transposeByte q src i y)
    let b' := csplice b 0 4096 pay
    let b' := if q.rows = 32 then
        (List.range blocks.length).foldl (fun d t => cputs d (sideAt + 28 * t) (swapScales (arr.getD t []) i)) b'
      else b'
    let b' := writeSummary b' sum
    let marks := if anyMark then (List.range 1024).filter fun w => transposeMark q arr i w else []
    let b' := csplice b' markAt 384 []
    setFlags (marks.foldl (fun d w => cputBit d (8 * markAt + w) true) b') true (!marks.isEmpty)

/-- One side of a unit on its way: all void moves as it is; a mixed one has its voids read as zeros (R221). -/
def moveUnit (code : Byte) (transpose : Bool) (blocks : List Cells) : List Cells :=
  if blocks.all fun b => !blkValid b then blocks
  else
    let full := blocks.map fun b => if blkValid b then b else setFlags [] true false
    if transpose then transposeUnit code full else full
def mixedUnit (blocks : List Cells) : Bool := blocks.any blkValid && blocks.any fun b => !blkValid b
/-- What stands in one side's slots is moved, where that changes it. -/
def moveSide (code : Byte) (transpose : Bool) (owner : BitVec 12) (s : State) (l : List Slot) : State :=
  let old := l.map fun sl => getBlock s owner sl
  let new := moveUnit code transpose old
  if new = old then s else (l.zip new).foldl (fun s p => putBlock s owner p.1 p.2) s
/-- The contents of two units change places, pair by pair in ascending order (R205, R211), and are moved. -/
def swapUnits (s : State) (owner : BitVec 12) (a b : List Slot) (code : Byte) (transpose : Bool) : State :=
  [a, b].foldl (moveSide code transpose owner) ((a.zip b).foldl (fun s p => swapSlots s owner p.1 p.2) s)
/-- The same undone: the moves, then the pairs in descending order. -/
def unswapUnits (s : State) (owner : BitVec 12) (a b : List Slot) (code : Byte) (transpose : Bool) : State :=
  (a.zip b).foldr (fun p s => swapSlots s owner p.1 p.2) ([b, a].foldl (moveSide code transpose owner) s)
/-- The pairs of the next unit of an exchange. -/
def unitPairs (e : Exch) : List Pair := (e.pairs.drop e.swapped).take e.size
def transposes : Instr → Bool
  | .xtil .. => false
  | _ => true
/-- A unit's format, its first pair's. -/
def unitCode (e : Exch) : Byte := ((unitPairs e).head?.map (·.code)).getD e.format
/-- A block that the transposition of a unit cannot decode: its own code disagrees with the page's (R31), or it is not formatted as the
SQ page that holds it (R370; log 97, DEDUCED). -/
def unitDisagrees (code : Byte) (b : Cells) : Bool :=
  blockDisagrees code b || blkValid b && ((fmtOfByte code).map Fmt.isSq).getD false && blkFormat b != code
/-- What a unit raises when its swap cycle has come: FORMAT where it cannot decode a valid block, and VOID_READ for a mixed unit, its lowest void block in TVAL (R221). -/
def unitCause (s : State) (g : Gang) (e : Exch) : Option Cause :=
  let l := unitPairs e
  let side (near : Bool) : List Cells := l.map fun p => getBlock s g.desc.owner (if near then p.near else p.far)
  let vba (near : Bool) (k : Nat) : Dword :=
    let v := pairVbas e (e.swapped + k) (entriesAt s e (e.swapped + k))
    vbaTval (if near then v.1 else v.2)
  let first (near : Bool) : Option Dword :=
    if mixedUnit (side near) then ((side near).findIdx? fun b => !blkValid b).map (vba near) else none
  let wrong (near : Bool) : Option Dword :=
    if transposes e.instr then ((side near).findIdx? (unitDisagrees (unitCode e))).map (vba near) else none
  match (wrong true).or (wrong false) with
  | some v => some (formatAt v)
  | none =>
    if e.warn then none
    else ((first true).or (first false)).map fun v => { code := cVoidRead, tval := v }
def execUnitSwap (k : CoreId) (serial : Nat) (s : State) : Out :=
  match getMember s k with
  | none => .next s
  | some (g, core) =>
    match findExch core serial with
    | none => .next s
    | some e =>
      let l := unitPairs e
      let a := l.map (·.near)
      let b := l.map (·.far)
      let past (c : Core) : Core := exchangePast c serial (e.swapped + e.size)
      if !e.active || l.length < e.size then .next (modMember s k past)
      else
        let voids := (a ++ b).filter fun sl => !blkValid (getBlock s g.desc.owner sl)
        let get (q : List Slot) : List Cells := q.map fun sl => getBlock s g.desc.owner sl
        let seen := mixedUnit (get a) || mixedUnit (get b)
        let s := l.foldl (fun s p => noteSent s g k p) s
        if isSecondary g k.idx && b.any slotPorted then
          let s := a.foldl (fun s sl =>
            let (n, s) := fresh s
            modMember s k fun c => takeLog c n (.mirror sl (rawBlock s.mem sl))) s
          .next (modMember (followPrimary s g k a) k past)
        else
        let s := swapUnits s g.desc.owner a b (unitCode e) (transposes e.instr)
        let s := (List.range e.size).foldl (fun s u =>
          let (n, s) := fresh s
          modMember s k fun c => takeLog c n (.unit a b (transposes e.instr) (unitCode e) u (if seen then voids else []))) s
        .next (modMember s k fun c => past (if seen then setSeen c else c))

/-! ## XAGU (R216) -/

def execXagu (c : Common) (gen : BitVec 2) (s : State) : Out :=
  issue .x c (pureCore fun x =>
    let r := x.core.regs
    { x.core with regs := { r with
      latch := Vector.ofFn fun i : Fin 8 => if gen.getLsbD (i.val / 4) then r.ctl.agud[i] else r.latch[i]
      gpos := Vector.ofFn fun G : Fin 2 => if gen.getLsbD G.val then 0 else r.gpos[G] } }) nothing s

/-! ## XDROP and XTSTV (R227, R228) -/

/-- The blocks of a near field, with their VBAs. -/
def nearVbas (x : Ctx) : Near → List (BitVec 52)
  | .tile sp => (List.range 8).map fun b => BitVec.ofNat 52 (8 * sp.num.toNat + b)
  | .reg g => [(x.rg g).setWidth 52]
/-- The slots they reach in the own berth or tile file, and the causes of those that do not or, where `wr`, may not be
written. -/
def nearSlots (x : Ctx) (near : Near) (wr : Bool) : List Slot × List Cause :=
  (nearVbas x near).foldl (fun a v =>
    match x.page v with
    | .error e => (a.1, a.2 ++ [e])
    | .ok p =>
      if ownBerth x.core.num p.slot || ownTile x.core.num p.slot then
        (a.1 ++ [p.slot], a.2 ++ if wr then rightCause p v false true else [])
      else (a.1, a.2 ++ [{ code := cPermission, tval := vbaTval v, never := true }])) ([], [])

def dropBody (near : Near) (active : Bool) : Body := fun x =>
  let (slots, bad) := nearSlots x near true
  let last := x.tide + if nearTile near then 2 else 6
  let regions := slots.map Region.slot
  let n := slots.length
  let causes := (if cardsMeet x.core [] regions x.tide then [] else [x.miss])
    ++ (if active then bad ++ (if imageFree x.core n then [] else [undoCause]) else [])
  match firstCause causes with
  | some e => .error e
  | none =>
    let core := addCard x.core { reads := [], writes := regions, first := x.tide, readEnd := x.tide, last := last }
    let core := if active then
        { core with atEnd := core.atEnd ++ [.drop slots last], reserved := core.reserved + n } else core
    .ok (core, modGang x.s x.k.gang fun g => { g with dropPhase := true })
def execXdrop (c : Common) (near : Near) (s : State) : Out := issue .x c (dropBody near true) (dropBody near false) s
/-- The blocks of an XDROP become void, each first kept in a before-image buffer. -/
def dropSlots (s : State) (c : Core) (l : List Slot) : State × Core :=
  l.foldl (fun (a : State × Core) sl =>
    let (n, s) := fresh a.1
    let old := rawBlock s.mem sl
    (voidSlot s sl, takeLog a.2 n (.image sl old true))) (s, c)

/-- The status of R228: the valid bits of a tile's blocks, or VALID, FORMAT and GEN of one block. -/
def voidStatus (s : State) (l : List Slot) : Dword :=
  match l with
  | [sl] =>
    let b := rawBlock s.mem sl
    BitVec.ofNat 64 ((if blkValid b then 2 ^ 24 else 0) + (blkFormat b).toNat * 2 ^ 16 + (blkGen b).toNat)
  | l => BitVec.ofNat 64 (l.zipIdx.foldl (fun a p => a + if blkValid (rawBlock s.mem p.1) then 2 ^ p.2 else 0) 0)
def tstvBody (near : Near) (d : Reg) (active : Bool) : Body := onCore fun x =>
  let (slots, bad) := nearSlots x near false
  let lat := if nearTile near then 2 else 6
  let reads := slots.map Region.slot
  let causes := (if cardsMeet x.core reads [.g d.toNat] x.tide && !landingFull x (active && d != 0) then [] else [x.miss])
    ++ (if active then bad else [])
  match firstCause causes with
  | some e => .error e
  | none =>
    let last := x.tide + lat - 1
    let core := addCard x.core { reads := reads, writes := [.g d.toNat], first := x.tide, readEnd := last, last := last }
    if !active || d = 0 then .ok core
    else addLanding x { dest := .g d, due := x.tide + lat, issued := x.tide, cl := .x, test := slots } core
def execXtstv (c : Common) (near : Near) (d : Reg) (s : State) : Out :=
  issue .x c (tstvBody near d true) (tstvBody near d false) s

/-! ## XPEN (R229) -/

def penBody (near far : Reg) (active : Bool) : Body := fun x =>
  let ea := x.rg near
  let t := sTarget x ea 4 false true
  let slot? : Option Page := match x.page (ea.extractLsb' 12 52) with | .ok p => some p | .error _ => none
  let regions : List Region := match slot? with | some p => [.slot p.slot] | none => []
  let causes := (if cardsMeet x.core [] regions x.tide then [] else [x.miss])
    ++ (if active then (match t with | .error e => [e] | .ok _ => []) ++ (if logFree x.core 1 then [] else [undoCause]) else [])
  match firstCause causes, slot? with
  | some e, _ => .error e
  | none, none => .ok (x.core, x.s)
  | none, some p =>
    let lat := (reachLat x.s x.g x.core.num 6 p.slot).getD 0
    let (n, s) := fresh x.s
    .ok ({ x.core with
      pens := x.core.pens ++ [{ serial := n, served := (match p.slot with | .berth .. | .hbm .. => false | _ => true), slot := p.slot, off := (ea.extractLsb' 0 12).toNat, value := (x.rg far).setWidth 32,
                                code := p.code, issued := x.tide, due := x.tide + lat, pc := x.pc, active := active }]
      reserved := if active then x.core.reserved + 1 else x.core.reserved }, s)
def execXpen (c : Common) (near far : Reg) (s : State) : Out := issue .x c (penBody near far true) (penBody near far false) s
/-- A pennant may be written: its cycle has come, and no exchange that issued before it is in flight. -/
def penReady (c : Core) (tide : Nat) (p : Pen) : Bool :=
  p.due ≤ tide && p.served && c.exchs.all fun e => p.issued ≤ e.issued
/-- The write, with its undo entry. -/
def writePen (s : State) (g : Gang) (i : Nat) (c : Core) (p : Pen) : State × Core :=
  let c := { c with pens := c.pens.filter fun q => q.serial != p.serial }
  if !p.active then (s, c)
  else
    let b := getBlock s g.desc.owner p.slot
    let (n, s) := fresh s
    (if slotPorted p.slot && isSecondary g i then s
     else putBlock s g.desc.owner p.slot (writeElem b p.code p.off 4 p.value.toNat),
     takeLog (if g.desc.pair && slotPorted p.slot then
         { c with outward := c.outward ++ [(p.slot, p.off, cputLe [] 0 4 p.value.toNat)] } else c) n (.word p.slot p.off 4 (readElem b p.off 4) (blkGen b) (!blkValid b)))

/-! ## Quay banks (R230, R290) -/

/-- The physical bank that gang bank `j` of package quadrant `q` is, for core index `i`. -/
def gangBank (g : Gang) (i q j : Nat) : Option Nat :=
  match (if isSecondary g i then g.quays2 else g.quays).find? fun e => e.1 == q with
  | some e => e.2[j]?
  | none => none
def asleep (g : Gang) (q b : Nat) : Bool := g.drowsy.contains (q, b)
def waking (g : Gang) (q b : Nat) : Bool := g.waking.any fun w => w.1 == q && w.2.1 == b
/-- XWAKE and XDOZE act at the end of their cycle, which a phase abort of the cycle takes from them (R269). -/
def bankBody (wake : Bool) (far : Reg) : Body := pureCore fun x =>
  match gangBank x.g x.k.idx x.core.quad ((x.rg far).extractLsb' 0 6).toNat with
  | none => x.core
  | some b => { x.core with atEnd := x.core.atEnd ++ [.bank wake x.core.quad b] }
/-- The bank is awake from c + 24; a bank about to doze stays awake. One that is waking dozes once it is awake. -/
def wakeBank (g : Gang) (q b tide : Nat) : Gang :=
  if asleep g q b && !waking g q b then { g with waking := g.waking ++ [(q, b, tide + 24)] }
  else { g with dozing := g.dozing.filter fun e => e != (q, b) }
def dozeBank (g : Gang) (q b : Nat) : Gang :=
  if asleep g q b && !waking g q b || g.dozing.contains (q, b) then g else { g with dozing := g.dozing ++ [(q, b)] }
def execXwake (c : Common) (far : Reg) (s : State) : Out := issue .x c (bankBody true far) nothing s
def execXdoze (c : Common) (far : Reg) (s : State) : Out := issue .x c (bankBody false far) nothing s
/-- A bank is awake: no access waits on it any more. -/
def execBankWakeDone (gang q b : Nat) (s : State) : Out :=
  .next (modGang s gang fun g =>
    let g := { g with drowsy := g.drowsy.filter (fun e => e != (q, b)), waking := g.waking.filter fun w => !(w.1 == q && w.2.1 == b) }
    endClaims g fun c => c.cause == 1 && c.id == 64 * q + b)
/-- A bank goes to retention; its contents stay. -/
def execBankDoze (gang q b : Nat) (s : State) : Out :=
  .next (modGang s gang fun g =>
    if g.dozing.contains (q, b) then
      { g with drowsy := g.drowsy ++ [(q, b)], dozing := g.dozing.filter fun e => e != (q, b) }
    else g)

/-! ## Neighbour links (R231, R232) -/

/-- The tile blocks that a direction touches, and FORMAT where a link may not carry the tile (R231). -/
def linkBlocks (x : Ctx) (sp : Spec) : List Slot × List Cause :=
  let shape := specShape x sp
  match tshpFmt shape with
  | none => (tileSlots x.core.num sp.num.toNat, [formatAt (tileVba sp.num.toNat 0)])
  | some f =>
    ((blocksIn shape f sp.dir (specIdx x sp) (BitVec.allOnes 128)).map fun b => .tile x.core.num (8 * sp.num.toNat + b),
     if f.isSq || f == .i64 || f == .n64 then [formatAt (tileVba sp.num.toNat 0)] else [])
def facing : Side → Side
  | .n => .s | .s => .n | .e => .w | .w => .e
/-- The index of the member core one step away, in the same copy of the gang. -/
def neighbour (g : Gang) (i : Nat) (c : Core) (d : Side) : Option Nat :=
  let next : Option (Nat × Nat) := match d with
    | .n => if c.y = 0 then none else some (c.x, c.y - 1)
    | .s => some (c.x, c.y + 1)
    | .w => if c.x = 0 then none else some (c.x - 1, c.y)
    | .e => some (c.x + 1, c.y)
  next.bind fun p => (List.range g.cores.length).find? fun j =>
    isSecondary g j == isSecondary g i && (match g.cores[j]? with | some o => o.x == p.1 && o.y == p.2 | none => false)
def sendBody (sp : Spec) (d : Side) (active : Bool) : Body := fun x =>
  let (slots, bad) := linkBlocks x sp
  let reads := slots.map Region.slot
  let other := neighbour x.g x.k.idx x.core d
  let miss := !cardsMeet x.core reads [] x.tide || (active && other.isNone)
  match firstCause ((if miss then [x.miss] else []) ++ if active then bad else []) with
  | some e => .error e
  | none =>
    let core := addCard x.core { reads := reads, writes := [], first := x.tide, readEnd := x.tide, last := x.tide }
    if !active then .ok (core, x.s)
    else match dirRead x sp (BitVec.allOnes 128), other with
      | .error e, _ => .error e
      | .ok _, none => .ok (core, x.s)
      | .ok (lanes, _, seen), some j =>
        .ok (if seen then setSeen core else core,
          modMember (readParts x.s (dirWords x sp (BitVec.allOnes 128))) ⟨x.k.gang, j⟩ fun c => { c with links := c.links ++ [{ side := facing d, lanes := lanes, due := x.tide + 2 }] })
def execXnsend (c : Common) (sp : Spec) (dir : Side) (s : State) : Out := issue .x c (sendBody sp dir true) (sendBody sp dir false) s
def recvBody (sp : Spec) (d : Side) (active : Bool) : Body := onCore fun x =>
  let (slots, bad) := linkBlocks x sp
  let writes := slots.map Region.slot
  let here := x.core.links.find? fun l => l.side == d && l.due == x.tide
  let miss := !cardsMeet x.core [] writes x.tide || (active && here.isNone) || landingFull x active
  let own := ((tshpFmt (specShape x sp)).bind fun f =>
    blockFormat x sp.num.toNat f (blocksIn (specShape x sp) f sp.dir (specIdx x sp) (BitVec.allOnes 128))).toList
  let room := if active then own ++ (imageRoom x.core slots).toList else []
  match firstCause ((if miss then [x.miss] else []) ++ if active then bad ++ room else []) with
  | some e => .error e
  | none =>
    let core := addCard x.core { reads := [], writes := writes, first := x.tide, readEnd := x.tide, last := x.tide + 2 }
    let core := { core with links := core.links.filter fun l => !(l.side == d && l.due == x.tide) }
    match active, here with
    | true, some l =>
      let shape := specShape x sp
      let f := (tshpFmt shape).getD .untyped
      let idx := specIdx x sp
      let m := writtenMask shape f sp.dir idx (BitVec.allOnes 128)
      let one (k : Fin 128) := elemOfLane f .rne false l.lanes[k]
      let flags := ((List.finRange 128).filter fun k => m.getLsbD k.val).foldl (fun q k => q ||| (one k).2) 0
      addLanding x { dest := .tile sp idx shape, lanes := Vector.ofFn fun k => BitVec.ofNat 32 (one k).1, mask := m,
                     due := x.tide + 3, issued := x.tide, cl := .x, flags := flags } core
    | _, _ => .ok core
def execXnrecv (c : Common) (sp : Spec) (dir : Side) (s : State) : Out := issue .x c (recvBody sp dir true) (recvBody sp dir false) s
/-- The instruction of X that lanes no XNRECV takes are charged to: the one of this cycle, or else the next (R61, R232; log 94,
DEDUCED). -/
def linkPc (c : Core) : Dword := ((c.issuedNow.find? fun i => i.cl == .x).map (·.pc)).getD (issueAddr c .x)
/-- NEIGHBOUR_ARRIVAL: lanes that no XNRECV of their cycle takes raise SCHED_MISS on the receiver. -/
def execNeighbourArrival (k : CoreId) (s : State) : Out :=
  match getMember s k with
  | none => .next s
  | some (g, core) =>
    let lost := core.links.any fun l => l.due ≤ g.tide
    .next (modMember s k fun c =>
      let c := { c with links := c.links.filter fun l => g.tide < l.due }
      if lost then
        { c with raised := c.raised ++ [{ code := cSchedMiss, cl := .x, tval := BitVec.ofNat 64 g.tide, pc := linkPc c }] }
      else c)

/-! ## XFAR and its standing exchange (R225, R226) -/

/-- Near and far slots of an XFAR, and their causes. -/
def farPairs (x : Ctx) (near far : Dword) (n : Nat) : List (Slot × Slot) × List Cause :=
  (List.range n).foldl (fun a k =>
    let nv := addVba near (Int.ofNat k)
    let fv := addVba far (Int.ofNat k)
    match pageOrCause x nv, pageOrCause x fv with
    | (some p, _), (some q, _) =>
      let reach := (if ownBerth x.core.num p.slot then [] else [({ code := cPermission, tval := vbaTval nv, never := true } : Cause)])
        ++ (match q.slot with | .far _ => [] | _ => [{ code := cPermission, tval := vbaTval fv, never := true }])
      (a.1 ++ [(p.slot, q.slot)], a.2 ++ reach ++ rightCause p nv false true ++ rightCause q fv false true
        ++ if formatsAgree p.code q.code then [] else [formatAt (vbaTval fv)])
    | (_, e1), (_, e2) => (a.1, a.2 ++ e1 ++ e2)) ([], [])
/-- The pennant word's page and causes: own berth, writable, 4-aligned. -/
def pennantPage (x : Ctx) (ea : Dword) : Option Page × List Cause :=
  let v := ea.extractLsb' 12 52
  match x.page v with
  | .error e => (none, [e])
  | .ok p => (some p,
      (if ownBerth x.core.num p.slot then [] else [{ code := cPermission, tval := vbaTval v, never := true }])
      ++ rightCause p v false true
      ++ (if ea.toNat % 4 = 0 then [] else [{ code := cAlign, tval := ea }])
      ++ (if ((fmtOfByte p.code).map Fmt.isSq).getD true then [formatAt (vbaTval v)] else []))
def farBody (near far cnt : Reg) (active : Bool) : Body := fun x =>
  let w := x.rg cnt
  let pen := x.core.regs.rgn (cnt.toNat + 1)
  let (pairs, bad) := farPairs x (x.rg near) (x.rg far) (w.extractLsb' 0 13).toNat
  let (page, badPen) := pennantPage x pen
  let reads := pairs.flatMap fun p => [Region.slot p.1, Region.slot p.2]
  let miss := !x.slack || !cardsMeet x.core reads [] x.tide || (active && 4 ≤ x.core.standing.length)
  match firstCause ((if miss then [x.miss] else [])
      ++ if active then bad ++ badPen ++ (if logFree x.core 1 then [] else [undoCause]) else []) with
  | some e => .error e
  | none =>
    let (n, s) := fresh x.s
    let core := addCard x.core { reads := reads, writes := [], first := x.tide, readEnd := x.tide, last := x.tide,
                                 open_ := true, id := n }
    match active, page with
    | true, some p =>
      .ok (takeLog { core with standing := core.standing ++
             [{ serial := n, pairs := pairs, value := (w.extractLsb' 32 32), pennant := p.slot,
                penOff := (pen.extractLsb' 0 12).toNat, penCode := p.code }] } n
             (.staged (.far n) [x.syl, x.rg near, x.rg far, w, pen]) false, s)
    | _, _ => .ok (core, s)
def execXfar (c : Common) (near far cnt : Reg) (s : State) : Out := issue .x c (farBody near far cnt true) (farBody near far cnt false) s

/-- The port of a standing exchange is up, or it names none. -/
def farUp (s : State) (t : Standing) : Bool :=
  t.pairs.all fun p => match p.2 with
    | .far i => (match farPortOf s i with | some q => ((s.farPorts[q]?).map (·.up)).getD true | none => true)
    | _ => true
/-- The secondary's slot at the place of a primary's berth slot. -/
def mirrorSlots (g : Gang) (k : CoreId) (sl : Slot) : List Slot :=
  match sl, g.cores[k.idx + g.size]? with
  | .berth _ i, some c => [.berth c.num i]
  | _, _ => []
/-- XFAR_PAIR_SWAP: the next pair of a released exchange, while its port is up; after the last, the pennant. -/
def execXfarPairSwap (k : CoreId) (serial : Nat) (s : State) : Out :=
  match getMember s k with
  | none => .next s
  | some (g, core) =>
    match core.standing.find? fun t => t.serial == serial with
    | none => .next s
    | some t =>
      if !farUp s t then .next s
      else match t.pairs[t.next]? with
      | some (a, b) =>
        let s := swapSlots s g.desc.owner a b
        let s := if g.desc.pair then followPrimary s g ⟨k.gang, k.idx + g.size⟩ (mirrorSlots g k a) else s
        let s := modMember s k fun c => { c with standing := c.standing.map fun q =>
          if q.serial = serial then { q with next := q.next + 1 } else q }
        let (d, s) := draw Config.farTime s
        .next (post s d (.xfarPairSwap k serial))
      | none =>
        let b := rawBlock s.mem t.pennant
        let s := putBlock s g.desc.owner t.pennant (writeElem b t.penCode t.penOff 4 t.value.toNat)
        let s := if g.desc.pair then followPrimary s g ⟨k.gang, k.idx + g.size⟩ (mirrorSlots g k t.pennant) else s
        .next (modMember s k fun c => { c with standing := c.standing.filter fun q => q.serial != serial })

end Sys2Proof.Machine
end

