-- ==== Sys2Proof/Machine/Fabric.lean ====
section
/-! DEFINITION. X cluster, fabric forms (11, 16): their checks and their issue, snapshots and landings, checked chains,
reduction windows at their home, staged effects at their target, and what returns. -/

namespace Sys2Proof.Machine

/-! ## Capabilities (R233 to R236) -/

def capValid (e : CapEntry) : Bool := e.dw0.getLsbD 63
def capKind (e : CapEntry) : Nat := (e.dw0.extractLsb' 60 3).toNat
def capRead (e : CapEntry) : Bool := e.dw0.getLsbD 58
def capWrite (e : CapEntry) : Bool := e.dw0.getLsbD 59
def capChip (e : CapEntry) : BitVec 22 := e.dw0.extractLsb' 16 22
def capAllow (e : CapEntry) : Nat := (e.dw0.extractLsb' 0 16).toNat
def capBase (e : CapEntry) : Nat := (e.dw1.extractLsb' 0 52).toNat
def capCount (e : CapEntry) : Nat := (e.dw2.extractLsb' 0 32).toNat
/-- No reserved bit is set (R233). -/
def capReservedOk (e : CapEntry) : Bool :=
  e.dw0.extractLsb' 38 20 == 0 && e.dw1.extractLsb' 52 12 == 0 && e.dw2.extractLsb' 32 32 == 0 && e.dw3 == 0
/-- Blocks sent through a channel in the phase. -/
def sentThrough (c : Core) (ch : Nat) : Nat := ((c.sentOn.find? fun p => p.1 == ch).map (·.2)).getD 0
def addSent (c : Core) (ch n : Nat) : Core :=
  { c with sentOn := (ch, sentThrough c ch + n) :: c.sentOn.filter fun p => p.1 != ch }
/-- The blocks that the whole gang has sent through a channel: the counters belong to the gang's channels (R236). The secondaries of a
pair, which send nothing, keep a count of their own for the same checks (R254, R332). -/
def gangSent (g : Gang) (secondary : Bool) (ch : Nat) : Nat :=
  (if secondary then g.cores.drop g.size else g.cores.take g.size).foldl (fun a c => a + sentThrough c ch) 0

/-- The form of a fabric instruction (R235): kinds accepted and permission, the allowance and the block offsets it names, its
near blocks, its planned completion, conditions of its own, and the entries it takes in the log. -/
structure FabForm where
  kinds : List Nat
  write : Bool
  take : Nat := 0
  first : Nat := 0
  blocks : Nat := 0
  near : Dword := 0
  n : Nat := 0
  exchanges : Bool := false
  planned : Nat
  miss : Bool := false
  named : Bool := true
  anySpan : Bool := false
  logs : Nat := 0
  abort : Option Dword := none
  writes : List Region := []

def capOf (g : Gang) (ch : Nat) : CapEntry := (g.caps[ch]?).getD default
def channelMiss (ch : Nat) (code : BitVec 8) : Cause := { code := code, tval := BitVec.ofNat 64 ch }
/-- CAPABILITY and ALLOWANCE of channel `ch` (R234, R236). The counts are the gang's. -/
def capCauses (x : Ctx) (ch : Nat) (f : FabForm) : List Cause :=
  let e := capOf x.g ch
  let bad := x.ctl.capb.toNat ≤ ch || !capValid e || !f.kinds.contains (capKind e)
    || !(if f.write then capWrite e else capRead e) || (f.blocks != 0 && capCount e < f.first + f.blocks) || !f.named
  (if bad then [channelMiss ch cCapability] else [])
    ++ (if f.take != 0 && capAllow e < gangSent x.g (isSecondary x.g x.k.idx) ch + f.take then [channelMiss ch cAllowance] else [])
/-- The near blocks with the codes and addresses of their pages, and their causes (R236, R237, R282). -/
def fabNear (x : Ctx) (f : FabForm) : List (Slot × Byte × Dword) × List Cause :=
  (List.range f.n).foldl (fun a k =>
    let v := addVba f.near (Int.ofNat k)
    match x.page v with
    | .error e => (a.1, a.2 ++ [e])
    | .ok p =>
      if ownBerth x.core.num p.slot then (a.1 ++ [(p.slot, p.code, vbaTval v)], a.2 ++ rightCause p v true f.exchanges)
      else (a.1, a.2 ++ [{ code := cPermission, tval := vbaTval v, never := true }])) ([], [])

/-- A fabric instruction on its issue cycle. `after` is what an active one adds to its record, its core and the machine. -/
def fabric (i : Instr) (ch : BitVec 8) (form : Ctx → FabForm) (active : Bool)
    (after : Ctx → CapEntry → FabOp → Core → Core × FabOp) : Body := fun x =>
  let f := form x
  let chn := ch.toNat
  let (near, bad) := fabNear x f
  let slots := near.map fun p => Region.slot p.1
  let writes := (if f.exchanges then slots else []) ++ f.writes
  let miss := (!f.anySpan && !x.slack) || (f.n != 0 && x.tide < x.core.channelFree) || !cardsMeet x.core slots writes x.tide
    || (active && f.miss)
  let causes := (if miss then [x.miss] else [])
    ++ if active then bad ++ capCauses x chn f ++ (if f.logs = 0 || logFree x.core f.logs then [] else [undoCause])
        ++ (match f.abort with | some v => [{ code := cWindowAbort, tval := v }] | none => [])
      else []
  match firstCause causes with
  | some e => .error e
  | none =>
    let e := capOf x.g chn
    let (n, s) := fresh x.s
    let op : FabOp := { serial := n, instr := i, pc := x.pc, issued := x.tide, planned := f.planned, active := active, ch := chn,
                        n := f.n, near := near, first := f.first, chip := capChip e, base := capBase e, warn := warnMode x.core,
                        done := !active || f.n = 0 }
    let card : Card := { reads := slots, writes := writes, first := x.tide, readEnd := f.planned, last := f.planned,
                         open_ := f.exchanges && f.n != 0 || !f.writes.isEmpty, id := n }
    let core := if slots.isEmpty && writes.isEmpty then x.core else addCard x.core card
    let core := if f.n = 0 then core else { core with channelFree := x.tide + 8 * f.n }
    let (core, op) := if active then after x e op (addSent core chn f.take) else (core, op)
    .ok ({ core with fabs := core.fabs ++ [op] }, modGang s x.k.gang fun g => { g with fabricPhase := true })

def fabForms (c : Common) (i : Instr) (ch : BitVec 8) (form : Ctx → FabForm)
    (after : Ctx → CapEntry → FabOp → Core → Core × FabOp) (s : State) : Out :=
  issue .x c (fabric i ch form true after) (fabric i ch form false after) s
def count13 (x : Ctx) (r : Reg) : Nat := ((x.rg r).extractLsb' 0 13).toNat
def keepOp (_ : Ctx) (_ : CapEntry) (op : FabOp) (core : Core) : Core × FabOp := (core, op)

/-! ## Remote exchange and checked chains (R240 to R243, R406) -/

def exchangeKinds : List Nat := [0, 1, 2, 3]
def remoteForm (near far cnt : Reg) (x : Ctx) : FabForm :=
  let n := count13 x cnt
  { kinds := exchangeKinds, write := true, take := n, first := (x.rg far).toNat, blocks := n, near := x.rg near, n := n,
    exchanges := true, planned := x.tide + 1024 + 8 * n }
def execXrch (c : Common) (near far cnt : Reg) (ch : BitVec 8) (s : State) : Out :=
  fabForms c (.xrch c near far cnt ch) ch (remoteForm near far cnt) keepOp s
def execXrchc (c : Common) (near far cnt : Reg) (ch : BitVec 8) (s : State) : Out :=
  fabForms c (.xrchc c near far cnt ch) ch (remoteForm near far cnt) keepOp s
def isChecked : Instr → Bool
  | .xrchc .. => true
  | _ => false
/-- The planned completion of the core's last XRCHC in flight. -/
def lastChecked (c : Core) : Nat := c.fabs.foldl (fun a o => if isChecked o.instr then max a o.planned else a) 0
def execXcrck (c : Common) (far : Reg) (ch : BitVec 8) (s : State) : Out :=
  fabForms c (.xcrck c far ch) ch
    (fun x => { kinds := [0, 1, 2, 3, 4, 5], write := false, planned := max (x.tide + 2) (lastChecked x.core) })
    (fun x _ op core => (core, { op with value := (x.rg far).setWidth 32, done := true })) s

/-- No route reaches a chip, or it counts as lost, to every gang or to those of one owner (R310, R318, R360). -/
def chipLostTo (s : State) (owner : BitVec 12) (c : BitVec 22) : Bool := s.lostChips.contains c || s.lostTo.contains (owner, c)

/-! ## Windows (R244, R245) -/

def windowDecl (g : Gang) (w : Nat) : Option WinDecl := g.windows[w]?
def execXwin (c : Common) (far : Reg) (ch : BitVec 8) (s : State) : Out :=
  match ctxOf s .x with
  | none => .fault .noCore
  | some x0 =>
    let w := ((x0.rg far).extractLsb' 0 8).toNat
    let index := ((x0.rg far).extractLsb' 42 22).toNat
    let form (x : Ctx) : FabForm :=
      { kinds := [4], write := false, planned := x.tide + 1024, miss := 4 ≤ x.core.armed.length
        named := match windowDecl x.g w with | some d => index < d.contrib | none => false }
    let body : Body := fun x =>
      (fabric (.xwin c far ch) ch form true (fun _ _ op core =>
        ({ core with armed := core.armed ++ [{ ch := op.ch, serial := op.serial, window := w, index := index, pc := op.pc }] },
         { op with window := w, index := index, done := false })) x).map fun r =>
        let e := capOf x.g ch.toNat
        let d := (windowDecl x.g w).getD default
        let msg : Instr := .windowArmAtHome x.g.desc.launch x.g.desc.owner ((x.ctl.ensign.extractLsb' 0 8))
          { d with vba := capBase e, count := capCount e, num := w } index x.s.chip x.k ch x.s.serial
        let s := if isSecondary x.g x.k.idx then r.2
          else if chipLostTo x.s x.g.desc.owner (capChip e) then
            let (d, s) := draw Config.fabricTime r.2
            post s d (.windowGenerationReturn x.k ch x.s.serial .refused)
          else if capChip e = x.s.chip then
            let (d, s) := travel r.2 x.s.chip
            post s d msg
          else { r.2 with sent := r.2.sent ++ [.step (capChip e) msg] }
        (r.1, s)
    issue .x c body (fabric (.xwin c far ch) ch form false keepOp) s
/-- The window armed on a channel: the last, when several have been. -/
def armedOn (c : Core) (ch : Nat) : Option Armed := (c.armed.filter fun a => a.ch == ch && a.latched).getLast?
def contributeForm (near far cnt : Reg) (ch : BitVec 8) (x : Ctx) : FabForm :=
  let n := count13 x cnt
  { kinds := [4], write := true, take := n, first := (x.rg far).toNat, blocks := n, near := x.rg near, n := n,
    planned := x.tide + 1024 + 8 * n, miss := (armedOn x.core ch.toNat).isNone }
def contributeOp (x : Ctx) (_ : CapEntry) (op : FabOp) (core : Core) : Core × FabOp :=
  match armedOn x.core op.ch with
  | some a =>
    ({ core with armed := core.armed.map fun q =>
         if q.serial = a.serial then { q with blocks := q.blocks ++ (List.range op.n).map (op.first + ·) } else q },
     { op with window := a.window, index := a.index, gen := a.gen })
  | none => (core, op)
def execXred (c : Common) (near far cnt : Reg) (ch : BitVec 8) (op : RedOp) (s : State) : Out :=
  fabForms c (.xred c near far cnt ch op) ch (contributeForm near far cnt ch) contributeOp s
def execXtri (c : Common) (near far cnt : Reg) (ch : BitVec 8) (s : State) : Out :=
  fabForms c (.xtri c near far cnt ch) ch (contributeForm near far cnt ch) contributeOp s

/-! ## Staged effects, kicks and aborts (R249, R252, R253, R267) -/

/-- The effect that an atomic stages. -/
def stagedEffect (x : Ctx) (e : CapEntry) (kind : AtomKind) (far : Dword) (operand swap : Dword) (dest : Reg) (serial : Nat) :
    Effect :=
  { kind := kind, chip := capChip e, source := x.s.chip, gang := x.k.gang, idx := x.k.idx, launch := x.g.desc.launch,
    owner := x.g.desc.owner, gen := x.ctl.ensign.extractLsb' 0 8, vba := BitVec.ofNat 52 (capBase e) + far.extractLsb' 12 52,
    off := far.extractLsb' 0 12, operand := operand, swap := swap, dest := dest, serial := serial }
def atomForm (far : Reg) (writes : List Region) (x : Ctx) : FabForm :=
  { kinds := [0, 1, 2], write := true, take := 1, first := ((x.rg far).extractLsb' 12 52).toNat, blocks := 1,
    planned := x.tide + 1, logs := 1, writes := writes }
def stage (x : Ctx) (e : Staged) (regs : List Dword) (op : FabOp) (core : Core) : Core × FabOp :=
  (takeLog core op.serial (.staged e (x.syl :: regs)) false, { op with done := true })
def execXamo (c : Common) (near far : Reg) (ch : BitVec 8) (op : AtomOp) (s : State) : Out :=
  fabForms c (.xamo c near far ch op) ch (atomForm far [])
    (fun x e o core => stage x (.atom (stagedEffect x e (.amo op false) (x.rg far) (x.rg near) 0 0 o.serial) o.ch)
      [x.rg near, x.rg far] o core) s
def execXamor (c : Common) (near far : Reg) (ch : BitVec 8) (op : AtomOp) (s : State) : Out :=
  fabForms c (.xamor c near far ch op) ch (atomForm far [.g near.toNat])
    (fun x e o core => stage x (.atom (stagedEffect x e (.amo op true) (x.rg far) (x.rg near) 0 near o.serial) o.ch)
      [x.rg near, x.rg far] o core) s
def execXcas (c : Common) (near far cnt : Reg) (ch : BitVec 8) (s : State) : Out :=
  fabForms c (.xcas c near far cnt ch) ch (atomForm far [.g near.toNat])
    (fun x e o core => stage x (.atom (stagedEffect x e .cas (x.rg far) (x.rg near) (x.rg cnt) near o.serial) o.ch)
      [x.rg near, x.rg far, x.rg cnt] o core) s
def execXkick (c : Common) (far : Reg) (ch : BitVec 8) (s : State) : Out :=
  fabForms c (.xkick c far ch) ch
    (fun x => { kinds := [5], write := true, take := 1, planned := x.tide + 1, logs := 1 })
    (fun x e o core => stage x (.kick (x.rg far) (capChip e)) [x.rg far] o core) s
def execXabort (c : Common) (ch : BitVec 8) (s : State) : Out :=
  fabForms c (.xabort c ch) ch
    (fun x =>
      let gen : BitVec 16 := match armedOn x.core ch.toNat with | some a => a.gen | none => 0
      { kinds := [0, 1, 2, 3, 4, 5], write := false, planned := x.tide + 1, anySpan := true
        abort := some (gen.setWidth 64 ||| (ch.setWidth 64 <<< 16)) }) keepOp s

/-! ## Sending (R309, R310, R405) -/

/-- A message to a chip: back through this chip's own port, or out. -/
def sendTo (s : State) (chip : BitVec 22) (i : Instr) : State :=
  if chip = s.chip then
    let (d, s) := travel s chip
    post s d i
  else { s with sent := s.sent ++ [.step chip i] }
/-- An armed flip inverts one bit of the next block payload toward its chip, and disarms itself (R405). -/
def outgoing (s : State) (chip : BitVec 22) (b : Cells) : Cells × State :=
  let w := s.inject
  if w.getLsbD 63 && w.extractLsb' 16 22 == chip then
    let off := (w.extractLsb' 0 12).toNat
    let bit := (w.extractLsb' 12 3).toNat
    (cput b off (cget b off ^^^ (1 <<< bit)), { s with inject := w &&& 0x7FFFFFFFFFFFFFFF })
  else (b, s)
def modFab (c : Core) (serial : Nat) (f : FabOp → FabOp) : Core :=
  { c with fabs := c.fabs.map fun o => if o.serial = serial then f o else o }
/-- In paired mode, the primary and the secondary of core `k`; else `k` alone (R332). -/
def modPair (s : State) (k : CoreId) (f : Core → Core) : State :=
  modGang s k.gang fun g =>
    { g with cores := g.cores.zipIdx.map fun p => if p.2 = k.idx || (g.desc.pair && memberOf g p.2 = k.idx) then f p.1 else p.1 }
/-- Change the fabric instruction `o` of a core, and the same instruction of its secondary. -/
def modFabs (s : State) (k : CoreId) (o : FabOp) (f : FabOp → FabOp) : State :=
  modPair s k fun c => { c with fabs := c.fabs.map fun q => if q.issued = o.issued ∧ q.pc = o.pc then f q else q }
/-- What a core of a paired gang sent, or held for the comparison, toward a shared or a remote slot (R332). -/
def noteOutward (g : Gang) (c : Core) (sl : Slot) (off : Nat) (b : Cells) : Core :=
  if g.desc.pair then { c with outward := c.outward ++ [(sl, off, cbelow b latentAt)] } else c
def findFab (c : Core) (serial : Nat) : Option FabOp := c.fabs.find? fun o => o.serial == serial

/-- The cause that the snapshot of a contribution meets: a void or a marked near block (R245, R275). -/
def snapshotCause (s : State) (o : FabOp) : Option Cause :=
  match o.instr, o.near[o.sent]? with
  | .xred .., some (sl, _, v) | .xtri .., some (sl, _, v) =>
    let b := detectAll (rawBlock s.mem sl)
    if !blkValid b then (if o.warn then none else some { code := cVoidRead, tval := v })
    else if markedIn b 0 4096 then some { code := cPoison, tval := v }
    else none
  | _, _ => none
/-- The hold on a late completion ends with its event (R238). -/
def endLate (g : Gang) (serial : Nat) : Gang := endClaims g fun c => c.cause == 3 && c.id == serial
/-- A fabric instruction's completing event: done, with the cause it will raise if it failed. -/
def completeFab (s : State) (k : CoreId) (serial : Nat) (fail : Option (BitVec 8 × Dword)) : State :=
  match getMember s k with
  | none => s
  | some (_, c) =>
    match findFab c serial with
    | none => s
    | some o =>
      modGang (modFabs s k o fun q => { q with done := true, fail := q.fail.or fail }) k.gang fun g => endLate g serial
def checksumFail (ch : Nat) : BitVec 8 × Dword := (cChecksum, BitVec.ofNat 64 (ch * 2 ^ 32))

/-- The run of the present phase, the same on every chip of the gang: PHASE.NUMBER and the aborts of the phase (R265, R269). -/
def phaseRun (g : Gang) : Nat := (((g.cores.map fun c => c.regs.ctl.phase.toNat / 4).head?).getD 0) * 4 + g.aborts
/-- NEAR_BLOCK_SNAPSHOT (R237): block `sent` is read at its near port, after every other performance of the cycle, and sent; or it raises
the cause that it meets there (R245). -/
def execNearBlockSnapshot (k : CoreId) (serial : Nat) (s : State) : Out :=
  match getMember s k with
  | none => .next s
  | some (g, core) =>
    match findFab core serial with
    | none => .next s
    | some o =>
      match o.near[o.sent]? with
      | none => .next s
      | some (sl, code, _) =>
        let next (s : State) : State := modMember s k fun c => modFab c serial fun o => { o with sent := o.sent + 1 }
        if !o.active then .next (next s)
        else match snapshotCause s o with
        | some q =>
          .next (modMember (next (readSlot s sl)) k fun c =>
            { c with raised := c.raised ++ [{ code := q.code, cl := .x, tval := q.tval, pc := o.pc }] })
        | none =>
          let s := readSlot s sl
          let b := cbelow (rawBlock s.mem sl) tagAt
          let own := core.regs.ctl.ensign
          let s := modMember s k fun c => noteOutward g c (.far o.ch) (o.base + o.first + o.sent) b
          if isSecondary g k.idx then
            .next (next (match o.instr with | .xred .. | .xtri .. => if blkValid b then s else modMember s k setSeen | _ => s))
          else match o.instr with
          | .xred _ _ _ _ _ _ | .xtri _ _ _ _ _ =>
            let op : Option RedOp := match o.instr with | .xred _ _ _ _ _ r => some r | _ => none
            let void := !blkValid b
            let b := if void then setFormat [] code else b
            let (b, s) := outgoing s o.chip b
            let s := sendTo s o.chip
              (.windowContributionArrival ⟨g.desc.launch, g.desc.owner, own.extractLsb' 0 8⟩ o.window o.gen o.index (o.first + o.sent) op
                b s.chip k serial)
            .next (next (if void then modMember s k setSeen else s))
          | _ =>
            if chipLostTo s g.desc.owner o.chip then .next (completeFab (next s) k serial (some (checksumFail o.ch)))
            else
            let (b, s) := outgoing s o.chip b
            .next (next (sendTo s o.chip (.landingArrival k serial o.sent (.request s.chip g.desc.launch g.desc.owner
              (own.extractLsb' 0 8) (phaseRun g) (BitVec.ofNat 52 (o.base + o.first + o.sent)) code b))))

/-! ## Landings (R240 to R242) -/

/-- The gang of a launch that stands on this chip under an owner, with the owner's generation. -/
def contextOf (s : State) (launch : Word) (owner : BitVec 12) : Option Gang :=
  s.gangs.find? fun g => g.desc.launch == launch && g.desc.owner == owner && g.status == .placed
def ownerGen (s : State) (o : BitVec 12) : Byte := ((s.owners.find? fun r => r.id == o).map (·.gen)).getD 0
/-- The home's context for a window: the gang itself, else a gang of its ensign's owner where no member is held (R244; log 78, DEDUCED). -/
def windowContext (s : State) (launch : Word) (owner : BitVec 12) : Option Gang :=
  (contextOf s launch owner).or (s.gangs.find? fun g => g.desc.owner == owner && g.status == .placed)
/-- Entries of a launch in the landing buffers: its landings, and the region blocks that its open windows have reserved (R241, R312). -/
def buffered (g : Gang) (launch : Word) : Nat :=
  (if launch = g.desc.launch then (g.landed.filter fun p => !p.copy).length else 0)
    + (g.home.filter fun w => w.launch == launch).foldl (fun a w => a + w.reserved.length) 0
def landingRoom (g : Gang) (sl : Slot) : Bool := buffered g g.desc.launch < 4096 && !(g.landed.any fun p => p.slot == sl)
/-- The payloads that have come in order, and the instructions without them (R242). -/
def foldChain (fabs : List FabOp) : List FabOp × List Cells :=
  match fabs with
  | [] => ([], [])
  | o :: t =>
    if isChecked o.instr && o.active then
      let (o, now) := (List.range o.n).foldl (fun (a : FabOp × List Cells) _ =>
        match a.1.folds.find? fun p => p.1 == a.1.folded with
        | some (j, b) => ({ a.1 with folded := j + 1, folds := a.1.folds.filter fun p => p.1 != j }, a.2 ++ [b])
        | none => a) (o, [])
      if o.folded < o.n then (o :: t, now)
      else
        let (t, more) := foldChain t
        (o :: t, now ++ more)
    else
      let (t, more) := foldChain t
      (o :: t, more)
/-- One payload folded into CRCX. -/
def foldBlock (c : Core) (b : Cells) : Core :=
  c.mapCtl fun r => { r with crcx := (crc32c (r.crcx.setWidth 32) (cbytes b 0 4096)).setWidth 64 }
/-- The folds of an arrival. They are kept to the end of the cycle, where an MTC of the same cycle comes first (R242). -/
def foldCore (c : Core) : Core :=
  let (fabs, now) := foldChain c.fabs
  now.foldl foldBlock { c with fabs := fabs, atEnd := c.atEnd ++ now.map .fold }
/-- The landing that a secondary's near slot takes with its primary's. -/
def mirrorLanding (g : Gang) (k : CoreId) (o : FabOp) (pair : Nat) (b : Cells) : List Pending :=
  if !g.desc.pair then []
  else match g.cores[k.idx + g.size]? with
    | none => []
    | some c => (c.fabs.filter fun q => q.issued == o.issued && q.pc == o.pc).filterMap fun q =>
        (q.near[pair]?).map fun n => ⟨n.1, b, true⟩
/-- LANDING_ARRIVAL. At the target: the context, the page and the room are checked, the near copy waits in the landing buffer
and the remote block is read and sent back; one sent in an aborted run of the phase is discarded (R269). At the issuing chip: the
remote copy waits, or the refusal is kept. -/
def execLandingArrival (k : CoreId) (serial pair : Nat) (l : Landed) (s : State) : Out :=
  match l with
  | .request source launch owner gen run vba format b =>
    let reply (s : State) (r : Landed) : Out := .next (sendTo s source (.landingArrival k serial pair r))
    match contextOf s launch owner with
    | none => reply s .refused
    | some g =>
      if run != phaseRun g then .next s
      else match translate s g 0 vba with
      | .error _ => reply s .refused
      | .ok p =>
        if gen != ownerGen s owner || !p.write || p.cow || p.window || !formatsAgree p.code format then reply s .refused
        else if !landingRoom g p.slot then reply s .overflow
        else
          let s := readBlock s owner p.slot
          let r := cbelow (getBlock s owner p.slot) tagAt
          let s := modGang s g.id fun g => { g with landed := g.landed ++ [{ slot := p.slot, block := b }] }
          let (r, s) := outgoing s source r
          reply s (.block r)
  | .block b =>
    match getMember s k with
    | none => .next s
    | some (g, core) =>
      match findFab core serial with
      | none => .next s
      | some o =>
        match o.near[pair]? with
        | none => .next s
        | some (sl, _, _) =>
          if !landingRoom g sl then .next (completeFab s k serial (some (cLandingOverflow, BitVec.ofNat 64 o.ch)))
          else
            let s := modGang s k.gang fun g => { g with landed := g.landed ++ [{ slot := sl, block := b }] ++ mirrorLanding g k o pair b }
            let s := modFabs s k o fun q =>
              { q with acked := q.acked + 1, folds := if isChecked q.instr then q.folds ++ [(pair, b)] else q.folds }
            let s := modPair s k foldCore
            .next (if o.acked + 1 < o.n then s else completeFab s k serial none)
  | .refused =>
    match getMember s k with
    | some (_, core) =>
      match findFab core serial with
      | some o => .next (completeFab s k serial (some (checksumFail o.ch)))
      | none => .next s
    | none => .next s
  | .overflow =>
    match getMember s k with
    | some (_, core) =>
      match findFab core serial with
      | some o => .next (completeFab s k serial (some (cLandingOverflow, BitVec.ofNat 64 o.ch)))
      | none => .next s
    | none => .next s

/-- FABRIC_COMPLETION: the home acknowledges one block of a contribution; with the last, the instruction is complete. -/
def execFabricCompletion (k : CoreId) (serial : Nat) (s : State) : Out :=
  match getMember s k with
  | none => .next s
  | some (_, core) =>
    match findFab core serial with
    | none => .next s
    | some o =>
      let s := modFabs s k o fun q => { q with acked := q.acked + 1 }
      .next (if o.acked + 1 < o.n then s else completeFab s k serial none)

/-- CRC_COMPARE: the XCRCK of a core whose planned cycle has come (R243, R406). -/
def execCrcCompare (k : CoreId) (s : State) : Out :=
  match getMember s k with
  | none => .next s
  | some (g, core) =>
    let due (o : FabOp) : Bool := (match o.instr with | .xcrck .. => true | _ => false) && o.planned ≤ g.tide
    match core.fabs.find? due with
    | none => .next s
    | some o =>
      let crc : Word := core.regs.ctl.crcx.setWidth 32
      let core := { core with fabs := core.fabs.filter fun p => p.serial != o.serial }
      let found : Dword := BitVec.ofNat 64 (o.ch * 2 ^ 32 + crc.toNat)
      let q : Raised := { code := cChecksum, cl := .x, tval := found, pc := o.pc }
      let core := if o.active && crc != o.value then { core with raised := core.raised ++ [q] } else core
      .next (modMember s k fun _ => core)

/-- A core's fabric instructions whose planned cycle has come and whose event has happened: a window is latched, a failure is
raised, and the instruction leaves (R238, R241, R244). An XCRCK makes its comparison instead. -/
def finishFabs (c : Core) (tide : Nat) : Core :=
  let due (o : FabOp) : Bool := o.done && o.planned ≤ tide && (match o.instr with | .xcrck .. => false | _ => true)
  let latch (a : Armed) (o : FabOp) : Armed := match o.instr with
    | .xwin .. => if a.serial = o.serial && o.active && o.fail.isNone then { a with gen := o.gen, latched := true } else a
    | _ => a
  let gone := c.fabs.filter due
  { c with
    fabs := c.fabs.filter fun o => !due o
    armed := gone.foldl (fun l o => l.map (fun a => latch a o)) c.armed
    raised := c.raised ++ gone.filterMap (fun o => o.fail.map fun q => { code := q.1, cl := .x, tval := q.2, pc := o.pc }) }

/-! ## Windows at their home (R244 to R248, R311, R312) -/

def getWindow (g : Gang) (launch : Word) (w : Nat) : Window :=
  (g.home.find? fun q => q.num == w && q.launch == launch).getD { num := w, launch := launch }
def setWindow (g : Gang) (w : Window) : Gang :=
  { g with home := g.home.filter (fun q => !(q.num == w.num && q.launch == w.launch)) ++ [w] }
/-- The window is of a launch that has no member on this chip. -/
def Window.outside (g : Gang) (w : Window) : Bool := w.launch != g.desc.launch
/-- The open windows of the gang itself that are homed here. -/
def ownWindows (g : Gang) : List Window := g.home.filter fun w => !w.armed.isEmpty && !w.outside g
/-- A window's generation ends: it opens again empty, under the next one. -/
def nextGeneration (w : Window) : Window := { num := w.num, launch := w.launch, gen := w.gen + 1 }
/-- The bitmap of the indices that had armed. -/
def armedBitmap (w : Window) : Nat := w.armed.foldl (fun a e => a ||| 2 ^ e.index) 0
/-- A window aborts: its record is logged, its contributors are told, and its generation ends (R245). A contributor that has been told
of a graver refusal is passed over (R312). -/
def abortWindow (s : State) (gang : Nat) (w : Window) (told : Option (BitVec 22 × CoreId) := none) : State :=
  let s := modGang s gang fun g =>
    { setWindow g (nextGeneration w) with abortLog := g.abortLog ++ [(w.num, w.gen, armedBitmap w)] }
  (w.armed.filter fun e => told != some (e.chip, e.core)).foldl
    (fun s e => sendTo s e.chip (.windowGenerationReturn e.core e.ch e.serial (.aborted w.gen))) s
/-- The clock of a window's deadline: the gang's tide, or the package tide where the home holds no member (R244). -/
def windowClock (s : State) (g : Gang) (w : Window) : Nat := if w.outside g then s.ptide else g.tide

/-- WINDOW_ARM_AT_HOME. -/
def execWindowArmAtHome (launch : Word) (owner : BitVec 12) (gen : Byte) (window : WinDecl) (index : Nat)
    (source : BitVec 22) (k : CoreId) (ch : BitVec 8) (serial : Nat) (s : State) : Out :=
  let reply (s : State) (r : ArmReply) : Out := .next (sendTo s source (.windowGenerationReturn k ch serial r))
  let arming : Arming := { index := index, chip := source, core := k, ch := ch, serial := serial }
  match windowContext s launch owner with
  | none => reply s .refused
  | some g =>
    if gen != ownerGen s owner then reply s .refused
    else
      let w := getWindow g launch window.num
      let w := if w.armed.isEmpty then { w with decl := window } else w
      if w.armed.any fun e => e.index == index then
        .next (abortWindow s g.id { w with armed := w.armed ++ [arming] })
      else
        let w := { w with armed := w.armed ++ [arming], started := some (w.started.getD (windowClock s g w)) }
        reply (modGang s g.id fun g => setWindow g w) (.generation w.gen)

/-- A cause that comes to a core from outside any instruction it is issuing: on the instruction in flight on that channel, or
at once, on the XWIN that armed the window. -/
def failChannel (s : State) (k : CoreId) (a : Armed) (code : BitVec 8) (tval : Dword) : State :=
  match getMember s k with
  | none => s
  | some (_, core) =>
    match core.fabs.filter fun o => o.ch == a.ch && o.active && !o.done with
    | [] => modMember s k fun c => { c with raised := c.raised ++ [{ code := code, cl := .x, tval := tval, pc := a.pc }] }
    | l => l.foldl (fun s o => completeFab s k o.serial (some (code, tval))) s

/-- The flags of a home without members reach a core of this chip, before the boundary at which they join AFLAGS (R247). -/
def keepFlags (a : Armed) (f : BitVec 5) (c : Core) : Core :=
  { c with armed := c.armed.map fun q =>
      if q.pc = a.pc ∧ q.ch = a.ch ∧ q.window = a.window ∧ q.index = a.index then { q with flags := some f } else q }

/-! ### The joint barrier as a core's windows bear on it (R145, R239) -/

def otherChips (s : State) (g : Gang) : List (BitVec 22) := g.desc.chips.filter fun c => c != s.chip
/-- The home of an armed window, where it is a chip that holds no member. -/
def outsideHome (s : State) (g : Gang) (a : Armed) : Option (BitVec 22) :=
  let c := capChip (capOf g a.ch)
  if c == s.chip || g.desc.chips.contains c then none else some c
/-- This chip's armed windows whose home holds no member, with the blocks that they have named. -/
def armedOutside (s : State) (g : Gang) : List (BitVec 22 × Nat × Nat × List Nat) :=
  (g.cores.take g.size).flatMap fun c => c.armed.filterMap fun a =>
    (outsideHome s g a).map fun h => (h, a.window, a.index, a.blocks)
/-- Such a window is incomplete: a block that some contributor, of any chip, has named lacks one of the C contributions (R239, R245). -/
def lacks (s : State) (g : Gang) (h : BitVec 22) (w : Nat) : Bool :=
  let all := (armedOutside s g ++ g.came.flatMap (·.2.armed)).filter fun p => p.1 == h && p.2.1 == w
  let contrib := ((windowDecl g w).map (·.contrib)).getD 0
  (all.flatMap (·.2.2.2)).eraseDups.any fun b => ((all.filter fun p => p.2.2.2.contains b).map (·.2.2.1)).eraseDups.length != contrib
/-- An armed window of this chip whose home holds no member and that is neither complete nor aborted. -/
def outsideLate (s : State) (g : Gang) : Option Armed :=
  (g.cores.take g.size).findSome? fun c => c.armed.find? fun a =>
    match outsideHome s g a with
    | some h => lacks s g h a.window
    | none => false
/-- Every other chip has come to the barrier; and every other chip has voted. -/
def allArrived (s : State) (g : Gang) : Bool := (otherChips s g).all fun c => g.came.any fun p => p.1 == c
def allCame (s : State) (g : Gang) : Bool := (otherChips s g).all fun c => g.came.any fun p => p.1 == c && !p.2.pending
/-- The vote that each other chip gave at this barrier. -/
def votesOf (s : State) (g : Gang) : List (BitVec 22 × Vote) :=
  (otherChips s g).filterMap fun c => g.came.find? fun p => p.1 == c && !p.2.pending
/-- The first aborting vote, by chip identifier. -/
def firstAbort (s : State) (g : Gang) (own : Vote) : Option Vote :=
  let all := (s.chip, own) :: votesOf s g
  (all.foldl (fun (a : Option (BitVec 22 × Vote)) p =>
    if p.2.abort then
      match a with
      | none => some p
      | some q => if p.1.toNat < q.1.toNat then some p else some q
    else a) none).map (·.2)
/-- The homes without members have returned the flags of this chip's windows, which join AFLAGS at the boundary (R247). -/
def flagsIn (s : State) (g : Gang) : Bool :=
  (g.cores.take g.size).all fun c => c.armed.all fun a =>
    match outsideHome s g a with
    | some h => a.flags.isSome || chipLostTo s g.desc.owner h
    | none => true
/-- Nothing keeps the gang at its barrier any more: every chip has voted, and at a commit the flags it is to take have come. -/
def barrierDone (s : State) (g : Gang) : Bool :=
  match g.barrier with
  | none => false
  | some b => !b.own.pending && allCame s g && (!b.commit || (firstAbort s g b.own).isSome || flagsIn s g)
/-- The hold at the barrier ends when nothing keeps the gang there. -/
def endBarrierHold (s : State) (gang : Nat) : State :=
  match getGang s gang with
  | none => s
  | some g => if barrierDone s g then modGang s gang fun g => endClaims g fun c => c.cause == 3 && c.barrier else s
/-- A window of core `k` aborts: at a commit barrier the chip's vote turns to an abort, else its instruction or its XWIN raises the
cause. -/
def windowFails (s : State) (k : CoreId) (a : Armed) (tval : Dword) : State :=
  match getGang s k.gang with
  | none => s
  | some g =>
    if g.barrier.any (·.commit) then
      endBarrierHold (modGang s k.gang fun g => { g with
        barrier := g.barrier.map fun b => { b with own := { abort := true, trapc := trapcOf .x cWindowAbort, tval := tval } } }) k.gang
    else failChannel s k a cWindowAbort tval
/-- WINDOW_GENERATION_RETURN: what the home sends reaches the issuing core. -/
def execWindowGenerationReturn (k : CoreId) (ch : BitVec 8) (serial : Nat) (r : ArmReply) (s : State) : Out :=
  match getMember s k with
  | none => .next s
  | some (_, core) =>
    let arming := core.fabs.find? fun o => (match o.instr with | .xwin .. => true | _ => false) && o.serial == serial && !o.done
    let armed := core.armed.find? fun a => a.serial == serial
    match r, arming with
    | .generation g, some o =>
      .next (completeFab (modFabs s k o fun q => { q with gen := g }) k o.serial none)
    | .refused, some o => .next (completeFab s k o.serial (some (checksumFail o.ch)))
    | .aborted g, _ =>
      match armed with
      | some a => .next (windowFails s k a (g.setWidth 64 ||| (ch.setWidth 64 <<< 16)))
      | none => .next s
    | .flags f, _ =>
      match armed with
      | some a => .next (endBarrierHold (modPair s k (keepFlags a f)) k.gang)
      | none => .next s
    | .format block, _ =>
      let v : Dword := match core.fabs.find? fun o => o.ch == ch.toNat && !o.near.isEmpty with
        | some o => ((o.near[block - o.first]?).map (·.2.2)).getD (((o.near[0]?).map (·.2.2)).getD 0)
        | none => 0
      match armed with
      | some a => .next (failChannel s k a cFormat v)
      | none => .next s
    | _, none => .next s

/-- The formats of a region that XRED and XTRI reduce (R247, R248). -/
def reduces (op : Option RedOp) (code : Byte) : Bool :=
  match op, fmtOfByte code with
  | none, some .f32 => true
  | some _, some .f32 | some _, some .bf16 | some _, some .i32 | some _, some .i64 | some _, some .n32 | some _, some .n64 => true
  | _, _ => false
/-- WINDOW_CONTRIBUTION_ARRIVAL at the home's port. A request of a stale ensign is dropped, and its issuer raises CHECKSUM (R360). -/
def execWindowContributionArrival (launch : Sender) (window : Nat) (gen : BitVec 16) (index blockNo : Nat) (op : Option RedOp)
    (b : Cells) (source : BitVec 22) (k : CoreId) (serial : Nat) (s : State) : Out :=
  match windowContext s launch.launch launch.owner with
  | none => .next s
  | some g =>
    if launch.gen != ownerGen s launch.owner then .next (sendTo s source (.landingArrival k serial blockNo .refused))
    else
      let w := getWindow g launch.launch window
      if w.gen != gen || !(w.armed.any fun e => e.index == index) then .next s
      else
        let code := match translate s g 0 (BitVec.ofNat 52 (w.decl.vba + blockNo)) with | .ok p => p.code | .error _ => 0
        if !reduces op code || blkFormat b != code then
          .next (w.armed.foldl (fun s e =>
            sendTo s e.chip (.windowGenerationReturn e.core e.ch e.serial (.format blockNo))) s)
        else if w.parts.any fun p => p.block == blockNo && p.index == index then .next (abortWindow s g.id w)
        else if !w.reserved.contains blockNo && 4096 ≤ buffered g launch.launch then
          .next (abortWindow (sendTo s source (.landingArrival k serial blockNo .overflow)) g.id w (some (source, k)))
        else
          let w := { w with parts := w.parts ++ [⟨blockNo, index, op, b⟩]
                            reserved := if w.reserved.contains blockNo then w.reserved else w.reserved ++ [blockNo] }
          .next (sendTo (modGang s g.id fun g => setWindow g w) source (.fabricCompletion k serial))

/-- Every block that a contributor has named has all its contributions. -/
def windowComplete (w : Window) : Bool := w.reserved.all fun b => (w.parts.filter fun p => p.block == b).length == w.decl.contrib
/-- A window's generation has reached its deadline (R244). -/
def lateWindow (s : State) (g : Gang) (w : Window) : Bool :=
  !w.judged && match w.started with
  | some t => t + w.decl.deadline ≤ windowClock s g w
  | none => false
/-- WINDOW_DEADLINE: a generation that is still incomplete aborts; the deadline of a complete one has passed for good. -/
def execWindowDeadline (gang window : Nat) (gen : BitVec 16) (s : State) : Out :=
  match getGang s gang with
  | none => .next s
  | some g =>
    match g.home.find? fun w => w.num == window && w.gen == gen && lateWindow s g w with
    | none => .next s
    | some w =>
      if !w.armed.isEmpty && !windowComplete w then .next (abortWindow s gang w)
      else .next (modGang s gang fun g => setWindow g { w with judged := true })

/-! ### The merge (R246 to R248) -/

/-- One pair of elements of a reduction. -/
def redElem (op : RedOp) (f : Fmt) (a b : Nat) : Nat × BitVec 5 :=
  let fp (g : Word → Word → Word × BitVec 5) : Nat × BitVec 5 :=
    let (w, fl) := g (word a) (word b)
    (w.toNat, fl)
  match f with
  | .f32 | .bf16 =>
    match op with
    | .add => fp (add32 .rne false)
    | .min => fp min32
    | .max => fp max32
  | f =>
    match op with
    | .add => ((a + b) % 2 ^ fmtWidth f, 0)
    | .min => (if intDecode f b < intDecode f a then b else a, 0)
    | .max => (if intDecode f a < intDecode f b then b else a, 0)
/-- A payload's elements, a BF16 one widened (R247). -/
def redLeaves (f : Fmt) (b : Cells) : List Nat :=
  let w := fmtWidth f / 8
  let bytes := (cbytes b 0 4096).toArray
  (List.range (4096 / w)).map fun i =>
    let v := (List.range w).foldr (fun j a => (bytes.getD (w * i + j) 0).toNat + 256 * a) 0
    if f = .bf16 then (widen .bf16 v).toNat else v
def redPack (f : Fmt) (l : List Nat) : Cells × BitVec 5 :=
  let out := l.map fun v => if f = .bf16 then convert .f32 .bf16 .rne false v else (v, (0 : BitVec 5))
  (cpack 0 (out.flatMap fun e => leBytes (fmtWidth f / 8) e.1), out.foldl (fun a e => a ||| e.2) 0)
/-- The four triple records of a block (R248). -/
def triLeaves (b : Cells) : List Triple :=
  let w (o : Nat) : Word := BitVec.ofNat 32 (cle b o 4)
  (List.range 4).map fun r => ⟨(List.range 128).map fun j => w (1024 * r + 4 * j), w (1024 * r + 512), w (1024 * r + 516)⟩
def triPack (l : List Triple) : Cells :=
  cpack 0 (l.flatMap fun t => pad (t.o.flatMap (fun x => leBytes 4 x.toNat) ++ leBytes 4 t.m.toNat ++ leBytes 4 t.l.toNat) 1024)
/-- One level of the tree of R246, the left partner the lower index. -/
def mergeLevel {α : Type} (f : α → α → α × BitVec 5) (l : List α) : List α × BitVec 5 :=
  match l with
  | a :: b :: t =>
    let (x, g) := f a b
    let (r, h) := mergeLevel f t
    (x :: r, g ||| h)
  | l => (l, 0)
def mergeTree {α : Type} (f : α → α → α × BitVec 5) (l : List α) (fuel : Nat) : List α × BitVec 5 :=
  match fuel with
  | 0 => (l, 0)
  | n + 1 =>
    if l.length ≤ 1 then (l, 0)
    else
      let (l, g) := mergeLevel f l
      let (r, h) := mergeTree f l n
      (r, g ||| h)
def redNode (op : RedOp) (f : Fmt) (a b : List Nat) : List Nat × BitVec 5 :=
  let l := (a.zip b).map fun p => redElem op f p.1 p.2
  (l.map (·.1), l.foldl (fun q e => q ||| e.2) 0)
/-- A record that its combine does not pass over (R315) holds a NaN. -/
def Triple.spoilt (t : Triple) : Bool :=
  num32 t.m != .inf true && ((num32 t.m).isNan || (num32 t.l).isNan || t.o.any fun w => (num32 w).isNan)
/-- A node of a triple's tree: R182's combine, and the canonical NaN throughout when either record holds a NaN (R316). -/
def mergeTriple (a b : Triple) : Triple × BitVec 5 × BitVec 5 × List (BitVec 5) :=
  if a.spoilt || b.spoilt then (⟨a.o.map fun _ => nan32, nan32, nan32⟩, 0, 0, []) else combineTriple a b
def triNode (a b : List Triple) : List Triple × BitVec 5 :=
  let l := (a.zip b).map fun p => mergeTriple p.1 p.2
  (l.map (·.1), l.foldl (fun q e => e.2.2.2.foldl (fun q g => q ||| g) (q ||| e.2.1 ||| e.2.2.1)) 0)
/-- The payload that a region block receives, and the flags of every node. -/
def mergeBlock (f : Fmt) (parts : List Contrib) (contrib block : Nat) : Cells × BitVec 5 :=
  let mine := (List.range contrib).filterMap fun i => parts.find? fun p => p.block == block && p.index == i
  match (mine[0]?).bind (·.op) with
  | some op =>
    let (l, g) := mergeTree (redNode op f) (mine.map fun p => redLeaves f p.data) 32
    let (pay, h) := redPack f (l.headD [])
    (pay, g ||| h)
  | none =>
    let (l, g) := mergeTree triNode (mine.map fun p => triLeaves p.data) 32
    (triPack (l.headD []), g)
/-- The flags of every node of a window's merges (R247). -/
def windowFlags (s : State) (g : Gang) (w : Window) : BitVec 5 :=
  w.reserved.foldl (fun f b =>
    match translate s g 0 (BitVec.ofNat 52 (w.decl.vba + b)) with
    | .error _ => f
    | .ok p => f ||| (mergeBlock ((fmtOfByte p.code).getD .f32) w.parts w.decl.contrib b).2) 0
/-- The results of a complete window are written, its contributors on this chip take the flags, and its generation ends (R246,
R314). Contributors elsewhere get the flags of a home without members in a message, for which their boundary waits, else with the vote. -/
def writeWindow (s : State) (gang : Nat) (w : Window) : State :=
  match getGang s gang with
  | none => s
  | some g =>
    let flags := windowFlags s g w
    let s := w.reserved.foldl (fun s b =>
      match translate s g 0 (BitVec.ofNat 52 (w.decl.vba + b)) with
      | .error _ => s
      | .ok p =>
        let pay := (mergeBlock ((fmtOfByte p.code).getD .f32) w.parts w.decl.contrib b).1
        let old := getBlock s g.desc.owner p.slot
        let new := setGen (setFormat (setFlags pay true false) p.code) (blkGen old + 1)
        putBlock s g.desc.owner p.slot new) s
    let s := w.armed.foldl (fun s e =>
      if w.outside g then sendTo s e.chip (.windowGenerationReturn e.core e.ch e.serial (.flags flags))
      else if e.chip = s.chip then modPair s e.core fun c => orAflags c flags else s) s
    modGang s gang fun g => setWindow g (nextGeneration w)
/-- A chip that is not the gang's votes: it holds contributors of windows homed here. With a vote to abort they abort; when every chip
that armed one has voted to commit, it is written if complete (R239, R244; log 78, DEDUCED). -/
def voteOutside (s : State) (gang : Nat) (chip : BitVec 22) (v : Vote) : State :=
  match getGang s gang with
  | none => s
  | some g =>
    (g.home.filter fun w => w.outside g && w.armed.any fun e => e.chip == chip).foldl (fun s w =>
      let w := { w with voted := if w.voted.contains chip then w.voted else w.voted ++ [chip] }
      if v.abort then abortWindow s gang w
      else if !(w.armed.all fun e => w.voted.contains e.chip) then modGang s gang fun g => setWindow g w
      else if windowComplete w then writeWindow s gang w
      else abortWindow s gang w) s

/-! ## Staged effects at their target (R249 to R252) -/

def effectForm : AtomKind → BitVec 16 × Byte
  | .amo op false => (0x046, BitVec.ofNat 8 op.code.toNat)
  | .amo op true => (0x047, BitVec.ofNat 8 op.code.toNat)
  | .cas => (0x048, 0)
  | .kick => (0x049, 0)
/-- The element types of a fabric atomic, and whether they support it. -/
def atomSupports (f : Fmt) (k : AtomKind) : Bool :=
  match f, k with
  | .i32, _ | .n32, _ | .i64, _ | .n64, _ => true
  | .f32, .amo op _ | .bf16, .amo op _ => op == .add || op == .min || op == .max || op == .swap
  | .f32, _ | .bf16, _ => true
  | _, _ => false
/-- The first check that fails at the target: its cause code. -/
def effectFault (s : State) (g : Gang) (e : Effect) : Option (BitVec 8) × Option Page :=
  match translate s g 0 e.vba with
  | .error q => (some q.code, none)
  | .ok p =>
    let f := (fmtOfByte p.code).getD .untyped
    let w := fmtWidth f / 8
    let b := detect (getBlock s g.desc.owner p.slot) e.off.toNat w
    (if !p.write || p.cow || p.window then some cPermission
     else if !atomSupports f e.kind then some cFormat
     else if e.off.toNat % w != 0 then some cAlign
     else if !blkValid b then some cVoidRead
     else if blockDisagrees p.code b then some cFormat
     else if markedIn b e.off.toNat w then some cPoison
     else none, some p)
/-- The new element of an effect and the flags; none where a compare fails. -/
def effectNew (e : Effect) (f : Fmt) (old : Nat) : Option Nat × BitVec 5 :=
  let m := 2 ^ fmtWidth f
  match e.kind with
  | .amo op _ =>
    let (v, g) := atomCombine op f old (e.operand.toNat % m)
    (some v, g)
  | .cas => (if old = e.operand.toNat % m then some (e.swap.toNat % m) else none, 0)
  | .kick => (none, 0)
def effectWrites : AtomKind → Bool
  | .amo _ r => r
  | .cas => true
  | .kick => false
/-- The bytes of one element of a page. -/
def pageBytes (p : Page) : Nat := fmtWidth ((fmtOfByte p.code).getD .untyped) / 8
/-- STAGED_EFFECT_PERFORM. -/
def execStagedEffectPerform (e : Effect) (s : State) : Out :=
  let k : CoreId := ⟨e.gang, e.idx⟩
  let reply (s : State) (f : Fmt) (r : AtomReply) : Out :=
    .next (sendTo s e.source (.atomicReturn k e.dest (effectWrites e.kind) f r e.chip e.serial))
  match e.kind with
  | .kick =>
    let (member, part) := match getGang s e.gang with | some g => (memberOf g e.idx, partField g.part) | none => (e.idx, 0xFFFF)
    .next (modMember (sendEvent s 0x03 member e.launch 0 0 e.operand none part) k fun c =>
      { c with outstanding := c.outstanding.filter fun n => n.serial != e.serial })
  | _ =>
    match contextOf s e.launch e.owner with
    | none => reply s .n32 .refused
    | some g =>
      if e.gen != ownerGen s e.owner then reply s .n32 .stale
      else match effectFault s g e with
        | (some code, q) =>
          let s := match q with
            | some p => if code = cPoison then readPart s p.slot e.off.toNat (pageBytes p) else s
            | none => s
          let rec_ : RedFault := { addr := e.vba ++ e.off, operand := e.operand, opcode := (effectForm e.kind).1,
                                   f := (effectForm e.kind).2, cause := code }
          reply (modGang s g.id fun g =>
            if g.redLog.length < 16 then { g with redLog := g.redLog ++ [rec_] } else { g with redMore := g.redMore + 1 }) .n32 .fault
        | (none, none) => reply s .n32 .refused
        | (none, some p) =>
          let f := (fmtOfByte p.code).getD .n32
          let s := readPart s p.slot e.off.toNat (fmtWidth f / 8)
          let b := getBlock s g.desc.owner p.slot
          let old := readElem b e.off.toNat (fmtWidth f / 8)
          let (new, flags) := effectNew e f old
          let s := match new with
            | some v => putBlock s g.desc.owner p.slot (writeElem b p.code e.off.toNat (fmtWidth f / 8) v)
            | none => s
          reply s f (.done (BitVec.ofNat 64 old) flags)

/-- The bits of FSTAT that a lost, refused or failed effect leaves for the next FENCE (R251, R310). -/
def replyStatus (r : AtomReply) (chip : BitVec 22) : Dword :=
  match r with
  | .done .. => 0
  | .fault => 4
  | .stale => 16
  | .refused => 2
  | .dead => 1 ||| (1 <<< 8) ||| (chip.setWidth 64 <<< 16)
/-- What a returning form writes to its register. -/
def returned (ty : Fmt) (r : AtomReply) : Dword :=
  match r with
  | .done old _ => if ty = .i32 then (old.setWidth 32).signExtend 64 else old
  | _ => 0
/-- What has landed by the arrival is overwritten in the checkpoint, its register and its pending landings (R267). -/
def Regs.returning (r : Regs) (d : Reg) (writes : Bool) (v : Dword) (flags : BitVec 5) (tide : Nat) : Regs :=
  let r := if writes then
      { r.setG d v with landings := r.landings.filter fun l => !(l.dest == gDest d && d != 0 && l.due ≤ tide) }
    else r
  { r with ctl := { r.ctl with aflags := r.ctl.aflags ||| flags.setWidth 64 } }
/-- The arrival belongs to the last gang cycle that ran: the gang is held before the next, or a FENCE that the return releases lands on
that one (R149, R238, R250; log 79, DEDUCED). -/
def returnsNow (g : Gang) (c : Core) : Bool :=
  g.stage == .port && (g.held || c.fences.any fun f => f.scope == .sys && f.due ≤ g.tide)
/-- A core as a return reaches it: g[dest] is written at the end of the arrival cycle, as by an instruction issued on it (R250), and
the flags join AFLAGS after an MTC of that cycle (R50). -/
def returnTo (g : Gang) (c : Core) (dest : Reg) (writes : Bool) (v : Dword) (flags : BitVec 5) : Core :=
  let due := if returnsNow g c then g.tide else g.tide + 1
  let l : Landing := { dest := gDest dest, value := v, due := due, issued := due - 1, cl := .x, long := false }
  let c := if writes then { c with regs := { c.regs with landings := c.regs.landings ++ [l] } } else c
  if flags = 0 then c else if returnsNow g c then orAflags c flags else { c with atEnd := c.atEnd ++ [.aflags flags] }
/-- ATOMIC_RETURN: the old element, the flags and the status reach the issuing core, and its checkpoint too (R250, R267). -/
def execAtomicReturn (k : CoreId) (dest : Reg) (writes : Bool) (ty : Fmt) (r : AtomReply) (chip : BitVec 22)
    (serial : Nat) (s : State) : Out :=
  let flags : BitVec 5 := match r with | .done _ f => f | _ => 0
  let v := returned ty r
  let g := (getGang s k.gang).getD noGang
  .next (modPair s k fun c => { returnTo g c dest writes v flags with
    checkpoint := c.checkpoint.returning dest writes v flags g.tide
    fenceBits := orFstat c.fenceBits (replyStatus r chip)
    cards := c.cards.filter fun j => !(j.open_ && j.id == serial)
    outstanding := c.outstanding.filter fun n => n.serial != serial })

end Sys2Proof.Machine
end

