-- ==== Sys2Proof/Machine/VecMem.lean ====
section
/-! DEFINITION. V cluster: berth memory, whole vectors and gathered lanes (R176 to R179, R288). -/

namespace Sys2Proof.Machine

/-- The page formats that T may reach: untyped, T itself, or the .n8, .n16 or .n32 of its width, which gives raw access (R177). -/
def pageTakes (ty : Fmt) (code : Byte) : Bool :=
  match fmtOfByte code with
  | none => false
  | some f =>
    !f.isSq && (f == .untyped || f == ty || (f == .n8 || f == .n16 || f == .n32) && fmtWidth f == fmtWidth ty)

/-- Where an element of a vector access goes: its slot and bit, or its first cause (R76, R177). `bit` is the element's
address in bits, and `count` how many elements run upward from it. -/
def vTarget (x : Ctx) (ty : Fmt) (bit : Nat) (count : Nat) (wr : Bool) : Except Cause Spot :=
  let ea : Dword := BitVec.ofNat 64 (bit / 8)
  let v := ea.extractLsb' 12 52
  match x.page v with
  | .error e => .error e
  | .ok p =>
    let off := bit % 32768
    let w := fmtWidth ty
    let causes :=
      (if !ownBerth x.core.num p.slot then [({ code := cPermission, tval := vbaTval v, never := true } : Cause)] else [])
      ++ rightCause p v (!wr) wr
      ++ (if off % (if w = 4 then 8 else w) != 0 || 32768 < off + count * w then [{ code := cAlign, tval := ea }] else [])
      ++ (if !pageTakes ty p.code then [{ code := cFormat, tval := vbaTval v }] else [])
    match firstCause causes with
    | some e => .error e
    | none => .ok ⟨p.slot, off, p.code, vbaTval v⟩

/-- The lane code that a store writes: an FP lane rounded .rne into T, an integer type's low bits (R176). -/
def storeCode (ty : Fmt) (w : Word) : Nat × BitVec 5 :=
  if isFp ty then convert .f32 ty .rne false w.toNat else (w.toNat % 2 ^ fmtWidth ty, 0)
def storeCodes (ty : Fmt) (v : Lanes) : LaneFn := fun k => (BitVec.ofNat 32 (storeCode ty v[k]).1, (storeCode ty v[k]).2)

/-- The shared part of VLD and VST: one entry over 128 elements from ea. -/
def vecAccess (x : Ctx) (base : Reg) (ty : Fmt) (off : BitVec 16) (mask : Pred) (wr : Bool) (op : AccOp) :
    Except Cause (Core × State) :=
  let w := fmtWidth ty
  let bit := ((8 * (x.rg base).toNat + off.toInt * w) % 2 ^ 67).toNat
  if mask = 0 then .ok (portTime x (BitVec.ofNat 64 (bit / 8)) (16 * w) wr x.core)
  else if landingFull x !wr then .error x.miss
  else
    match vTarget x ty bit 128 wr with
    | .error e => .error e
    | .ok spot =>
      if wr && !logFree x.core 1 then .error undoCause
      else
        let core := if wr then { x.core with reserved := x.core.reserved + 1 } else x.core
        .ok (enqueue x { serial := 0, op := op, cl := .v, spots := [spot], pc := x.pc, issued := x.tide, due := x.tide + 6,
                         inLoad := !wr, inStore := wr } core)

def execVld (c : Common) (d base : Reg) (ty : Fmt) (off : BitVec 16) (s : State) : Out :=
  issueVmem c (fun x mask => vecAccess x base ty off mask false (.vload d ty mask)) s
def execVst (c : Common) (d base : Reg) (ty : Fmt) (off : BitVec 16) (s : State) : Out :=
  issueVmem c (fun x mask =>
    let f := storeCodes ty (x.rv d)
    vecAccess x base ty off mask true (.vstore ty mask (lanesOf f) (laneFlags f mask))) s

/-! ## Gathered lanes -/

/-- The active lanes in ascending order. -/
def activeLanes (mask : Pred) : List (Fin 128) := (List.finRange 128).filter fun k => mask.getLsbD k.val
/-- The penalty of the gather path (R288): of each bank the distinct words, beyond eight. It serves the 128 lanes, so that a guard
changes no cycle (R258): a lane that leads nowhere in the core's berth asks for nothing. -/
def gatherPenalty (x : Ctx) (bits : List Nat) : Nat :=
  let words := (bits.filterMap fun bit =>
    match x.page ((BitVec.ofNat 64 (bit / 8)).extractLsb' 12 52) with
    | .ok { slot := .berth c i, .. } =>
      if c = x.core.num then some ((bit % 32768 / 128 + i) % 32, i, bit % 32768 / 128) else none
    | _ => none).eraseDups
  let worst := (List.range 32).foldl (fun a b => max a (words.filter fun e => e.1 == b).length) 0
  worst - 8
/-- One entry for all active lanes; the cause of the lowest faulting lane, under R76 within that lane (R178), those of the issue
before those of the port (log 105, DEDUCED). -/
def gatherAccess (x : Ctx) (a b : Reg) (ty : Fmt) (mask : Pred) (wr : Bool) (lat : Nat) (op : AccOp) :
    Except Cause (Core × State) :=
  let w := fmtWidth ty
  let bit (k : Fin 128) : Nat := (8 * (x.rg a).toNat + (x.rv b)[k].toNat * w) % 2 ^ 67
  let lanes := activeLanes mask
  if lanes.isEmpty then .ok (x.core, x.s)
  else if landingFull x !wr then .error x.miss
  else
    let go := lanes.foldl (fun (acc : Except Cause (List Spot)) k => do
      let l ← acc
      let spot ← vTarget x ty (bit k) 1 wr
      pure (l ++ [spot])) (.ok [])
    match go with
    | .error e => .error e
    | .ok spots =>
      if wr && !logFree x.core lanes.length then .error undoCause
      else
        let core := if wr then { x.core with reserved := x.core.reserved + lanes.length } else x.core
        .ok (enqueue x { serial := 0, op := op, cl := .v, spots := spots, pc := x.pc, issued := x.tide,
                         due := x.tide + lat + gatherPenalty x ((List.finRange 128).map bit), inLoad := !wr, inStore := wr, served := true, gather := true } core)
def execVldg (c : Common) (d a b : Reg) (ty : Fmt) (s : State) : Out :=
  issueVmem c (fun x mask => gatherAccess x a b ty mask false 14 (.vload d ty mask)) s
def execVsts (c : Common) (d a b : Reg) (ty : Fmt) (s : State) : Out :=
  issueVmem c (fun x mask =>
    let f := storeCodes ty (x.rv d)
    gatherAccess x a b ty mask true 6 (.vstore ty mask (lanesOf f) (laneFlags f mask))) s

end Sys2Proof.Machine
end

