-- ==== Sys2Proof/Machine/Queues.lean ====
section
/-! DEFINITION. The steps of a core's queues and of its element port (R285 to R305): an entry leaves its queue, is performed at
its port, lands its result; a FENCE lands; other agents act; a late HBM transfer arrives. -/

namespace Sys2Proof.Machine

/-! ## The order of entries (R295 to R298, R375) -/

/-- The scope of the slots an entry reaches. -/
def accScope (own : Nat) (a : Access) : Scope := a.spots.foldl (fun q p => scopeMax q (slotScope own p.slot)) .core
def sameQueue (a b : Access) : Bool := a.inLoad && b.inLoad || a.inStore && b.inStore
/-- A performed entry that waits for the cycle on which it brings its result has left the machine of R295. -/
def isResult (a : Access) : Bool := match a.op with | .result .. => true | _ => false
/-- An earlier entry stands before a later one in its queue, which is first in, first out (R295). -/
def before (e a : Access) : Bool := e.left.isNone && !isResult e && sameQueue e a
/-- An earlier entry holds a later one in its queue by R298, until it is performed or, a marker, has retired: a marker of one of its
queues; an acquire; and before an STL every unperformed load, joint entries among them, and the unperformed writes up to the rank of
its effective scope. -/
def holds (own : Nat) (e a : Access) : Bool :=
  !isResult e && ((match e.op with | .marker => true | _ => false) || e.acquire
    || (match a.release with
        | some sc => e.inLoad || e.inStore && (accScope own e).code.toNat ≤ sc.code.toNat
        | none => false))
/-- An effect released before the entry's issue is still out, and the entry is an STL of system scope. -/
def effectsHold (c : Core) (a : Access) : Bool :=
  a.release == some .sys && c.outstanding.any fun p => p.tide ≤ a.issued
/-- The entries that entered the core's queues before `a`. -/
def earlier (c : Core) (a : Access) : List Access := c.accesses.filter fun e => e.serial < a.serial
/-- R298 holds the entry in its queue. -/
def accHeld (c : Core) (a : Access) : Bool := (earlier c a).any (fun e => holds c.num e a) || effectsHold c a
/-- The entry is the head of each queue that it stands in, and nothing holds it there. -/
def mayLeave (c : Core) (a : Access) : Bool :=
  a.left.isNone && !isResult a && !(earlier c a).any (fun e => before e a) && !accHeld c a
def removeAccess (c : Core) (n : Nat) : Core := { c with accesses := c.accesses.filter fun a => a.serial != n }
def modAccess (c : Core) (n : Nat) (f : Access → Access) : Core :=
  { c with accesses := c.accesses.map fun a => if a.serial = n then f a else a }

/-! ## What a port does with an entry (R134 to R137, R139, R140, R176 to R178) -/

/-- The bytes of spot `p` that an entry touches. -/
def spotBytes (a : Access) (p : Spot) : Nat × Nat :=
  let one (w : Nat) : Nat := if a.gather then (if w < 8 then 1 else w / 8) else 16 * w
  (p.bit / 8, match a.op with
    | .marker | .result .. => 0
    | .load _ ty | .store ty _ | .amo _ _ ty _ | .cas _ ty .. => typeBytes ty
    | .waitp _ => 4
    | .vload _ ty _ | .vstore ty .. => one (fmtWidth ty))
/-- The cause that a read of a spot meets in its block (R31, R134, R135, R275). -/
def readCause (warn : Bool) (p : Spot) (b : Cells) (off n : Nat) : Option Cause :=
  if !blkValid b then (if warn then none else some { code := cVoidRead, tval := p.vba })
  else if blockDisagrees p.code b then some { code := cFormat, tval := p.vba }
  else if markedIn b off n then some { code := cPoison, tval := p.vba }
  else none
/-- The landing of a performed read. -/
def accLanding (g : Gang) (a : Access) (dest : Dest) : Landing :=
  { dest := dest, due := g.tide, issued := a.issued, cl := a.cl, long := dest != .none, pc := a.pc }
/-- A result is on its way in the core; that of a committed phase stands in the checkpoint too (R305). -/
def landAccess (c : Core) (a : Access) (l : Landing) : Core :=
  let join (r : Regs) : Regs := { r with landings := r.landings ++ [l] }
  { c with regs := join c.regs, checkpoint := if a.committed then join c.checkpoint else c.checkpoint }
def accRaise (c : Core) (a : Access) (q : BitVec 8 × Dword) : Core :=
  { c with raised := c.raised ++ [{ code := q.1, cl := a.cl, tval := q.2, pc := a.pc }] }
/-- What a performed entry brings on its cycle: its landing, or its cause. An entry performed before its cycle, so that a later one
keeps the order of R298, has left the machine of R295 and keeps what it brings until then. -/
def bring (g : Gang) (a : Access) (l : Landing) (bad : Option (BitVec 8 × Dword)) (c : Core) : Core :=
  if g.tide < a.due then
    { c with accesses := c.accesses ++ [{ a with op := .result l bad, left := some (accScope c.num a), inLoad := false, inStore := false,
                                                  acquire := false, release := none }] }
  else match bad with
    | some q => accRaise c a q
    | none => landAccess c a { l with due := g.tide }
/-- The bytes that a performance reads are scrubbed, those apart that a rebuild has given (R289). -/
def readServed (s : State) (a : Access) (sl : Slot) (off n : Nat) : State :=
  if a.rebuilt.isEmpty then readPart s sl off n
  else (((List.range ((off + n + 15) / 16 - off / 16)).map (off / 16 + ·)).filter fun u => !a.rebuilt.contains u).foldl (fun s u =>
    let lo := max off (16 * u)
    readPart s sl lo (min (off + n) (16 * u + 16) - lo)) s
/-- The undo entry of a write of `n` bytes, kept free for a plain store since its issue (R137); an entry of a committed phase takes none
(R305). -/
def undoWord (s : State) (k : CoreId) (a : Access) (sl : Slot) (off n : Nat) (b : Cells) : State :=
  if a.committed then s
  else
    let (m, s) := fresh s
    modMember s k fun c => takeLog c m (.word sl off n (readElem b off n) (blkGen b) (!blkValid b)) (!a.inLoad)
/-- The element of lane `j` of a vector entry: its spot and its bit. -/
def laneSpot (a : Access) (mask : Pred) (w : Nat) (j : Fin 128) : Option (Spot × Nat) :=
  if a.gather then
    (a.spots[((activeLanes mask).findIdx? fun i => i == j).getD 128]?).map fun p => (p, p.bit)
  else (a.spots[0]?).map fun p => (p, p.bit + w * j.val)

/-- A write of an entry reaches its slot: what a paired gang sends toward a shared slot is kept for the comparison, and a
secondary's write there is not performed (R332). -/
def putShared (s : State) (g : Gang) (k : CoreId) (sl : Slot) (off n : Nat) (b : Cells) : State :=
  let s := if slotPorted sl then modMember s k fun c => noteOutward g c sl off (csub b off n) else s
  if isSecondary g k.idx && slotPorted sl then s else putBlock s g.desc.owner sl b
/-- The write of a read-modify-write finds the log full: it raises UNDO_OVERFLOW after the causes of its read, and does not take effect
(R76, R137). -/
def undoFull (s : State) (k : CoreId) (a : Access) : Bool :=
  a.inLoad && !a.committed && match getMember s k with
    | some (_, c) => !logFree c 1
    | none => false
/-- A scalar read or read-modify-write of one element. -/
def performScalar (s : State) (g : Gang) (k : CoreId) (a : Access) (p : Spot) (ty : Fmt) (d : Reg)
    (new : Nat → Option Nat × BitVec 5) : State :=
  let (off, n) := spotBytes a p
  let s := readServed s a p.slot off n
  let b := getBlock s g.desc.owner p.slot
  match readCause a.voidMode p b off n with
  | some q => modMember s k (bring g a (accLanding g a .none) (some (q.code, q.tval)))
  | none =>
    let old := if blkValid b then readElem b off n else 0
    let (v, f) := new old
    if v.isSome && undoFull s k a then modMember s k (bring g a (accLanding g a .none) (some (undoCause.code, undoCause.tval)))
    else
    let s := match v with
      | some v => putShared (undoWord s k a p.slot off n b) g k p.slot off n (writeElem b p.code off n v)
      | none => s
    modMember s k fun c =>
      let c := if blkValid b then c else setSeen c
      bring g a { accLanding g a (gDest d) with value := extendElem ty old, flags := f } none c
/-- A store of one element. -/
def performStore (s : State) (g : Gang) (k : CoreId) (a : Access) (p : Spot) (v : Nat) : State :=
  let (off, n) := spotBytes a p
  let b := getBlock s g.desc.owner p.slot
  putShared (undoWord s k a p.slot off n b) g k p.slot off n (writeElem b p.code off n v)

/-- The words of an active lane of a vector entry in the block of its spot. -/
def laneBits (a : Access) (mask : Pred) (w : Nat) : List (Fin 128 × Spot × Nat) :=
  (activeLanes mask).filterMap fun j => (laneSpot a mask w j).map fun q => (j, q.1, q.2)
/-- The cause of the lowest faulting lane of a vector read (R178). -/
def vecCause (s : State) (g : Gang) (a : Access) (mask : Pred) (w : Nat) : Option Cause :=
  let blocks := a.spots.map fun p => (p.slot, getBlock s g.desc.owner p.slot)
  (laneBits a mask w).foldl (fun q e =>
    if q.isSome then q
    else
      let b := ((blocks.find? fun r => r.1 == e.2.1.slot).map (·.2)).getD []
      readCause a.voidMode e.2.1 b (e.2.2 / 8) (if w < 8 then 1 else w / 8)) none
def performVload (s : State) (g : Gang) (k : CoreId) (a : Access) (d : Reg) (ty : Fmt) (mask : Pred) : State :=
  let w := fmtWidth ty
  let s := a.spots.foldl (fun s p => readServed s a p.slot (spotBytes a p).1 (spotBytes a p).2) s
  match vecCause s g a mask w with
  | some q => modMember s k (bring g a (accLanding g a .none) (some (q.code, q.tval)))
  | none =>
    let blocks := a.spots.map fun p => (p.slot, getBlock s g.desc.owner p.slot)
    let lane (j : Fin 128) : Word :=
      match (if mask.getLsbD j.val then laneSpot a mask w j else none) with
      | some (p, bit) =>
        let b := ((blocks.find? fun r => r.1 == p.slot).map (·.2)).getD []
        widen ty (if blkValid b then cbits b bit w else 0)
      | none => 0
    modMember s k fun c =>
      let c := if blocks.all fun r => blkValid r.2 then c else setSeen c
      bring g a { accLanding g a (.v d) with lanes := Vector.ofFn lane, mask := mask } none c
/-- The active lanes of a vector store, in ascending order, each block opened once (R177, R178). -/
def performVstore (s : State) (g : Gang) (k : CoreId) (a : Access) (ty : Fmt) (mask : Pred) (codes : Lanes)
    (flags : BitVec 5) : State :=
  let w := fmtWidth ty
  let owner := g.desc.owner
  let undo (s : State) (p : Spot) : State :=
    undoWord s k a p.slot (spotBytes a p).1 (spotBytes a p).2 (getBlock s owner p.slot)
  let s := a.spots.foldl undo s
  let block (s : State) (q : Slot × Byte) : State :=
    let b := openBlock (getBlock s owner q.1) q.2
    let mine := (laneBits a mask w).filter fun e => e.2.1.slot == q.1
    putBlock s owner q.1 (mine.foldl (fun b e => putCode b e.2.2 w codes[e.1].toNat) b)
  let s := ((a.spots.map fun p => (p.slot, p.code)).eraseDups).foldl block s
  modMember s k fun c =>
    if g.tide < a.due then bring g a { accLanding g a .none with flags := flags } none c else { c with atEnd := c.atEnd ++ [.flags flags 0] }

/-- The word of a WAITP reads equal; a void block never does (R148). -/
def waitpEqual (s : State) (g : Gang) (a : Access) (v : Word) : Bool :=
  match a.spots with
  | p :: _ =>
    let b := getBlock s g.desc.owner p.slot
    blkValid b && cle b (p.bit / 8) 4 == v.toNat
  | [] => true
/-- A pennant hold is on for entry `n`. -/
def waiting (g : Gang) (cause n : Nat) : Bool := g.hold.active.any fun c => c.cause == cause && c.id == n
/-- A WAITP read performed: it raises what an LD.n32 would, a void block apart (R31, R148), counts when the word reads equal, and
otherwise holds the tide (R301). -/
def performWaitp (s : State) (g : Gang) (k : CoreId) (a : Access) (v : Word) : State :=
  let s := a.spots.foldl (fun s p => readServed s a p.slot (p.bit / 8) 4) s
  let bad := a.spots.findSome? fun p => readCause true p (getBlock s g.desc.owner p.slot) (p.bit / 8) 4
  let done (s : State) : State :=
    modGang s g.id fun g => endClaims (modCore g k.idx fun c => removeAccess c a.serial) fun c => c.cause == 4 && c.id == a.serial
  match bad with
  | some q => modMember (done s) k fun c => accRaise c a (q.code, q.tval)
  | none =>
    if waitpEqual s g a v then done s
    else if waiting g 4 a.serial then s
    else modGang s g.id fun g => startClaim s g 4 (memberOf g k.idx) false a.serial

/-- The undetected error of a queue entry (R379). -/
def entryFault (g : Gang) (k : CoreId) (a : Access) : Option (Core × Nat) :=
  match g.cores[k.idx]? with
  | some c => if c.faults.isEmpty then none
    else (c.faults.find? fun f => f.1 == 4 && f.2.2 == a.serial).map fun f => (c, f.2.1)
  | none => none
/-- AN ENTRY IS PERFORMED at its port (R136); one that is damaged raises POISON instead. -/
def performAccess (s : State) (g : Gang) (k : CoreId) (a : Access) : State :=
  let gone (s : State) : State := modMember s k fun c => removeAccess c a.serial
  match entryFault g k a with
  | some (c, n) => modMember (gone (internalFound s c)) k fun c => accRaise c a (cPoison, unitTval 4 n)
  | none =>
  match a.op, a.spots with
  | .result l bad, _ => modMember (gone s) k (bring g a l bad)
  | .waitp v, _ => performWaitp s g k a v
  | .load d ty, p :: _ => performScalar (gone s) g k a p ty d fun _ => (none, 0)
  | .amo d op ty operand, p :: _ =>
    performScalar (gone s) g k a p ty d fun old =>
      let r := atomCombine op ty old (operand.toNat % 2 ^ fmtWidth ty)
      (some r.1, r.2)
  | .cas d ty cmp swap, p :: _ =>
    performScalar (gone s) g k a p ty d fun old =>
      (if old = cmp.toNat % 2 ^ fmtWidth ty then some (swap.toNat % 2 ^ fmtWidth ty) else none, 0)
  | .store ty v, p :: _ => performStore (gone s) g k a p (v.toNat % 2 ^ fmtWidth ty)
  | .vload d ty mask, _ => performVload (gone s) g k a d ty mask
  | .vstore ty mask codes flags, _ => performVstore (gone s) g k a ty mask codes flags
  | _, _ => gone s

/-! ## QUEUE_LEAVE, BUFFER_PERFORM, WAITP_REREAD, FENCE_STATUS_LAND (R298, R301, R302, R375) -/

/-- An entry that is performed as it leaves: its target has core scope (R298). -/
def coreScope (c : Core) (a : Access) : Bool := !a.spots.isEmpty && accScope c.num a == .core
/-- The marker or the entry for a buffer that leaves the load or the store queue of a core next, at the end of a cycle (R298, R375);
an entry whose cycle has come does not wait for that. -/
def leaveReady (g : Gang) (c : Core) (store : Bool) : Option Access :=
  c.accesses.find? fun a => mayLeave c a && !coreScope c a && (if store then a.inStore && !a.inLoad else a.inLoad)
    && (g.stage == .finish || a.due ≤ g.tide && !a.held && !a.spots.isEmpty)
/-- A marker retires as it leaves; any other entry joins the buffer of its target's scope. -/
def execQueueLeave (k : CoreId) (store : Bool) (s : State) : Out :=
  match getMember s k with
  | none => .next s
  | some (g, c) =>
    match leaveReady g c store with
    | none => .next s
    | some a =>
      match a.op with
      | .marker => .next (modMember s k fun c => removeAccess c a.serial)
      | _ => .next (modMember s k fun c =>
          let c := removeAccess c a.serial
          { c with accesses := c.accesses ++ [{ a with left := some (accScope c.num a) }] })

def quayBank : Slot → Option (Nat × Nat)
  | .quay q i => some (q, i / 128)
  | _ => none
/-- A secondary's entry that reaches a shared slot, with its primary's of the same instruction (R332). -/
def shared (a : Access) : Bool := a.spots.any fun p => slotPorted p.slot
def sameEntry (a b : Access) : Bool := a.pc == b.pc && a.issued == b.issued && a.cl == b.cl && shared b && !isResult b
def twinOf (g : Gang) (k : CoreId) (a : Access) : Option (CoreId × Access) :=
  if g.desc.pair && !isSecondary g k.idx && shared a && !isResult a then
    (g.cores[k.idx + g.size]?).bind fun c => (c.accesses.find? (sameEntry a)).map fun b => (⟨k.gang, k.idx + g.size⟩, b)
  else none
def followsTwin (g : Gang) (j : Nat) (a : Access) : Bool :=
  isSecondary g j && shared a && !isResult a && match g.cores[j - g.size]? with
    | some c => c.accesses.any (sameEntry a)
    | none => false
/-- Nothing but the timetable keeps an entry from its port: its element port has served it, its bank is awake, its data has come. -/
def portTakes (g : Gang) (j : Nat) (a : Access) : Bool :=
  a.arrived && !followsTwin g j a
    && (a.served || isResult a || !(match a.spots with | { slot := .berth .., .. } :: _ => true | _ => false))
    && (match a.op with | .waitp _ => !waiting g 4 a.serial && g.stage == .port | _ => true)
    && (match a.spots with
        | p :: _ => (match quayBank p.slot with | some (q, b) => !(a.served && waiting g 1 (64 * q + b)) | none => true)
        | [] => true)
/-- Of two unperformed entries of one queue or of one buffer the one that entered it first goes first (R295, R298). -/
def ahead (e a : Access) : Bool :=
  !isResult e && !isResult a && (if e.left.isNone then a.left.isNone && sameQueue e a else e.left == a.left)
/-- The entries of a list, in their order, whose cycle has come, and those that one of these waits for in its queue or buffer, so that
the timetable's outcome is one the machine allows (R303; log 81, DEDUCED). -/
def wanted (c : Core) (tide : Nat) : List Access → List Access
  | [] => []
  | a :: t =>
    let l := wanted c tide t
    if a.due ≤ tide && !(a.left.isNone && accHeld c a) || l.any (ahead a) then a :: l else l
/-- The entry performed now, of the core's own slots as it leaves its queue (`sc` core) or at the head of a buffer: R298 does not hold it,
and did not as the cycle began, until the end of the cycle on which it is free (R375). -/
def bufferReady (g : Gang) (j : Nat) (c : Core) (sc : Scope) : Option Access :=
  (wanted c g.tide c.accesses).find? fun a =>
    (if a.left == some sc then isResult a || !(c.accesses.takeWhile fun e => e.serial != a.serial).any (fun e => ahead e a)
      else a.left.isNone && sc == .core && coreScope c a && mayLeave c a && (g.stage == .finish || !a.held))
    && portTakes g j a
/-- The held entries of a core as a cycle begins. -/
def noteHeld (c : Core) : Core :=
  if c.accesses.isEmpty then c
  else { c with accesses := c.accesses.map fun a => { a with held := a.left.isNone && !isResult a && accHeld c a } }
/-- A drowsy quay bank is reached (R230, R290): a claim of cause 1, until the bank is awake. A bank that no XWAKE has woken
takes the whole wake, one in its wake window the rest of it. -/
def wakeFor (s : State) (g : Gang) (k : CoreId) (q b by_ : Nat) : State :=
  let left := match g.waking.find? fun w => w.1 == q && w.2.1 == b with
    | some w => w.2.2 - g.tide
    | none => 24
  let s := modGang s g.id fun g =>
    startClaim s { g with waking := if waking g q b then g.waking else g.waking ++ [(q, b, g.tide + 24)] } 1 (memberOf g k.idx)
      false (64 * q + b) none by_
  post s left (.bankWakeDone g.id q b)
/-- A transfer comes `d` cycles past its bound: a claim of cause 0, none when it keeps the bound (R133, R294, R407). -/
def lateBy (s : State) (g : Gang) (k : CoreId) (id d : Nat) : Bool × State :=
  if d = 0 then (false, s)
  else (true, post (modGang s g.id fun g => startClaim s g 0 (memberOf g k.idx) false id) d (.hbmPairArrival g.id id))
def lateHbm (s : State) (g : Gang) (k : CoreId) (id : Nat) : Bool × State :=
  let (d, s) := draw Config.hbmLate s
  lateBy s g k id d
def isHbm : Slot → Bool
  | .hbm .. => true
  | _ => false
/-- At a shared slot the port performs the primary's request alone, and the secondary's entry takes what it meets (R332). -/
def performBoth (s : State) (g : Gang) (k : CoreId) (a : Access) : State :=
  let s := match twinOf g k a with
    | some (k', b) => performAccess s g k' b
    | none => s
  performAccess s g k a
def execBufferPerform (k : CoreId) (sc : Scope) (s : State) : Out :=
  match getMember s k with
  | none => .next s
  | some (g, c) =>
    match bufferReady g k.idx c sc with
    | none => .next s
    | some a =>
      match a.spots with
      | [] => .next (performAccess s g k a)
      | p :: _ =>
        if isHbm p.slot && !a.served && a.due ≤ g.tide then
          let (late, s) := lateHbm s g k a.serial
          .next (modMember s k fun c => modAccess c a.serial fun a => { a with served := true, arrived := !late })
        else match quayBank p.slot with
          | some (q, b) =>
            if asleep g q b && !a.served && !isResult a then
              .next (wakeFor (modMember s k fun c => modAccess c a.serial fun a => { a with served := true }) g k q b a.serial)
            else .next (performAccess s g k a)
          | none => .next (performBoth s g k a)

/-- HBM_PAIR_ARRIVAL: the data of a late transfer has come, and its hold ends (R214). -/
def execHbmPairArrival (gang claim : Nat) (s : State) : Out :=
  .next (modGang s gang fun g =>
    let g := modCores g fun c => modAccess c claim fun a => { a with arrived := true }
    endClaims g fun c => c.cause == 0 && c.id == claim)

/-- The core's WAITP that holds the tide. -/
def waitingRead (g : Gang) (c : Core) : Option Access :=
  c.accesses.find? fun a => match a.op with | .waitp _ => waiting g 4 a.serial | _ => false
def execWaitpReread (k : CoreId) (s : State) : Out :=
  match getMember s k with
  | none => .next s
  | some (g, c) =>
    match waitingRead g c with
    | none => .next s
    | some a => .next (performAccess s g k a)

/-- A pennant word will have been written by the end of this cycle. -/
def penSoon (c : Core) (tide : Nat) (p : Pen) : Bool :=
  p.due ≤ tide && p.served && c.exchs.all fun e => p.issued ≤ e.issued || swapCycle e (e.n - 1) ≤ tide
/-- The write entries of the core that a FENCE waits for and that are still to be performed; `soon` passes over a pennant whose write is
due on this cycle (R302). -/
def fenceWaits (c : Core) (tide : Nat) (f : Fence) (soon : Bool) : Bool :=
  let rank (q : Scope) : Bool := q.code.toNat ≤ f.scope.code.toNat
  c.accesses.any (fun a => a.inStore && !a.spots.isEmpty && a.issued < f.issued && rank (accScope c.num a))
    || c.pens.any fun p => p.issued < f.issued && rank (slotScope c.num p.slot) && !(soon && penSoon c tide p)
/-- An effect that a system fence waits for (R149). -/
def fenceEffects (c : Core) (f : Fence) : Bool :=
  f.scope == .sys && c.outstanding.any fun p => p.tide < f.issued
/-- What the next step of a FENCE is, if any: on its L cycle a system fence starts or ends its hold at the ports; past that cycle a write
still awaited moves its landing to the cycle after the write; then it lands. -/
inductive FenceStep where
  | hold | release | move | land
  deriving DecidableEq, Repr
def fenceStep (g : Gang) (c : Core) (f : Fence) : Option FenceStep :=
  let on := waiting g 3 f.serial
  if g.stage = .port ∧ f.issued + fenceLat f.scope ≤ g.tide ∧ fenceEffects c f ∧ !on then some .hold
  else if on ∧ !fenceEffects c f then some .release
  else if g.stage = .port ∧ f.issued + fenceLat f.scope < g.tide ∧ f.due ≤ g.tide ∧ fenceWaits c g.tide f false then some .move
  else if g.stage = .land ∧ f.due ≤ g.tide ∧ !fenceWaits c g.tide f true then some .land
  else none
def fenceReady (g : Gang) (c : Core) : Option (Fence × FenceStep) :=
  c.fences.findSome? fun f => (fenceStep g c f).map fun t => (f, t)
/-- The status word of a FENCE lands, that of an earlier phase's FENCE in the checkpoint too (R266), and joins FSTAT after the
program's own write of the cycle (R150). With REDF set the gang is killed: code 0, which no cause uses. -/
def landFence (g : Gang) (c : Core) (f : Fence) : Core :=
  let w := c.fenceBits
  let l : Landing := { dest := gDest f.d, value := w, due := g.tide, issued := f.issued, cl := .s, long := f.d != 0, pc := f.pc }
  let join (r : Regs) : Regs := { r with landings := r.landings ++ [l] }
  let c := { c with
    fences := c.fences.filter fun q => q.serial != f.serial
    fenceBits := 0
    atEnd := c.atEnd ++ [.fstat w]
    regs := join c.regs
    checkpoint := if f.issued < g.phaseStart then join c.checkpoint else c.checkpoint }
  if w.getLsbD 2 then { c with raised := c.raised ++ [{ code := 0, cl := .s, tval := w, pc := f.pc }] } else c
def execFenceStatusLand (k : CoreId) (s : State) : Out :=
  match getMember s k with
  | none => .next s
  | some (g, c) =>
    match fenceReady g c with
    | none => .next s
    | some (f, .hold) => .next (modGang s k.gang fun g => startClaim s g 3 (memberOf g k.idx) false f.serial)
    | some (f, .release) => .next (modGang s k.gang fun g => endClaims g fun q => q.cause == 3 && q.id == f.serial)
    | some (f, .move) =>
      .next (modMember s k fun c => { c with fences := c.fences.map fun q =>
        if q.serial = f.serial then { q with due := g.tide + 1 } else q })
    | some (f, .land) => .next (modMember s k fun c => landFence g c f)

/-! ## PENDING_LANDING (R62, R125, R126) -/

/-- A landing is of an earlier instruction (R126); of one V group the lower syllable is the earlier (R86). -/
def landsBefore (a b : Landing) : Bool :=
  a.issued < b.issued || a.issued == b.issued && (a.cl.code.toNat < b.cl.code.toNat
    || a.cl == b.cl && a.pc.toNat < b.pc.toNat)
/-- Of the landings whose cycle has come, the one whose instruction issued first. -/
def landingReady (c : Core) (tide : Nat) : Option Landing :=
  c.regs.landings.foldl (fun a l =>
    if l.due ≤ tide then
      match a with
      | none => some l
      | some b => if landsBefore l b then some l else some b
    else a) none
/-- The bytes an SQ write stores: the element's code, and the fields of its scale block that its lane carries (R172). -/
def putSq (f : Fmt) (b : Cells) (i j : Nat) (w : Word) : Cells :=
  let o := scaleAt f j
  let b := putCode b (elemLoc f i j).2 (fmtWidth f) (w.toNat % 2 ^ fmtWidth f)
  let b := cput b o (w.extractLsb' 16 8)
  let three (b : Cells) (bit v : Nat) : Cells :=
    (List.range 3).foldl (fun b t => cputBit b (bit + t) (v.testBit t)) b
  let r := three b (8 * (o + 1) + 3 * (i % 32)) (w.extractLsb' 8 3).toNat
  three r (8 * (o + 13) + 3 * (j % 32)) (w.extractLsb' 11 3).toNat
/-- The tile blocks that a landing writes. -/
def landSlots (core : Core) (l : Landing) : List Slot :=
  match l.dest with
  | .tile sp idx shape =>
    match tshpFmt shape with
    | some f => (blocksIn shape f sp.dir idx l.mask).map fun b => .tile core.num (8 * sp.num.toNat + b)
    | none => []
  | _ => []
/-- A direction write lands (R171 to R173): each block that receives an element opened once, its image kept. -/
def landTile (s : State) (core : Core) (sp : Spec) (idx shape : Dword) (lanes : Lanes) (mask : Pred) : State × Core :=
  match tshpFmt shape with
  | none => (s, core)
  | some f =>
    (blocksIn shape f sp.dir idx mask).foldl (fun (a : State × Core) b =>
      let sl : Slot := .tile core.num (8 * sp.num.toNat + b)
      let (s, core) := openTile a.1 a.2 (fmtByte f) sl
      let mine := (activeLanes mask).filter fun k =>
        let p := dirElem false sp.dir idx k.val
        (elemLoc f p.1 p.2).1 == b
      (modBlock s sl fun c => mine.foldl (fun c k =>
        let p := dirElem false sp.dir idx k.val
        if f.isSq then putSq f c p.1 p.2 lanes[k] else putCode c (elemLoc f p.1 p.2).2 (fmtWidth f) lanes[k].toNat) c,
       core)) (s, core)
/-- A landing's write to its core's registers. -/
def landRegs (r : Regs) (l : Landing) (value : Dword) : Regs :=
  match l.dest with
  | .g d => r.setG d value
  | .p d => r.setP d l.pred l.mask
  | .v d => r.setV d l.lanes l.mask
  | _ => r
/-- A landing falls due: its value is written, and its flags join FPCSR at the end of its cycle: after `due`, the cycle on which the
value is first read, and for MRED's completion before it (R50, R73, R157, R193; log 98, DEDUCED). -/
def execPendingLanding (k : CoreId) (s : State) : Out :=
  match getMember s k with
  | none => .next s
  | some (g, core) =>
    match landingReady core g.tide with
    | none => .next s
    | some l =>
      let value := if l.test.isEmpty then l.value else voidStatus s l.test
      let core := { core with regs := { core.regs with landings := core.regs.landings.erase l } }
      match core.faults.find? fun f => f.1 == 5 && f.2.2 == 4 * l.issued + l.cl.code.toNat with
      | some f =>
        let q : Raised := { code := cPoison, cl := l.cl, tval := unitTval 5 f.2.1, pc := l.pc }
        .next (modMember (internalFound s core) k fun _ => { core with raised := core.raised ++ [q] })
      | none =>
      if !imagesFit core (landSlots core l) then
        let q : Raised := { code := cUndo, cl := l.cl, tval := 1024, pc := l.pc }
        .next (modMember s k fun _ => { core with raised := core.raised ++ [q] })
      else
      let (s, core) := match l.dest with
        | .g d => overwriteFault s core 0 d.toNat
        | .p d => if l.mask = BitVec.allOnes 128 then overwriteFault s core 1 d.toNat else (s, core)
        | .v d => if l.mask = BitVec.allOnes 128 then overwriteFault s core 2 d.toNat else (s, core)
        | _ => (s, core)
      let core := { core with regs := landRegs core.regs l value }
      let (s, core) := match l.dest with
        | .tile sp idx shape => landTile s core sp idx shape l.lanes l.mask
        | _ => (s, core)
      let core := if l.cl = .m then orBndlog (orFpcsr core l.flags) l.hits
        else if l.flags = 0 ∧ l.hits = 0 then core
        else { core with atEnd := core.atEnd ++ [.flags l.flags l.hits] }
      .next (modMember s k fun _ => core)

/-! ## OTHER_AGENT_PERFORM (R298) -/

/-- Another agent's access at a port: it writes bytes of a payload or the whole block as stored, or reads the block. -/
def execOtherAgentPerform (slot : Slot) (act : AgentAct) (s : State) : Out :=
  match act with
  | .writeBytes off bytes =>
    .next (modBlock s slot fun b => cputs ((List.range bytes.length).foldl (fun b k => rewriteWord b ((off + k) / 4)) b) off bytes)
  | .writeBlock b => .next { s with mem := setRawBlock s.mem slot b }
  | .read => .next (readSlot s slot)

/-! ## ELEMENT_PORT_SERVE (R285 to R289) -/

/-- Who asks at an element port. -/
inductive Asker where
  | entry (idx serial : Nat)
  | ask (idx serial : Nat)
  | table (serial G : Nat)
  | pen (idx serial : Nat)
  deriving DecidableEq, Repr
/-- A request at a berth's element port: who, its place in the order of R286 (arrival, class, member, serial number), the
bytes it touches, whether it writes and reads them, the banks where its direct read will find an uncorrectable error, and once it is
served the banks that a rebuild stands in for. -/
structure PortReq where
  who : Asker
  key : List Nat
  slot : Nat
  off : Nat
  n : Nat
  write : Bool
  reads : Bool := !write
  hurt : List Nat := []
  busy : List Nat := []
  deriving DecidableEq, Repr
def classOf : Cl → Nat
  | .s => 1 | .v => 2 | _ => 4
/-- The table reads of an exchange's next pair that are still to be served, once their cycle has come (R218). -/
def tableAsks (g : Gang) (e : Exch) : List (Nat × Slot × Dword) :=
  if e.indirect && e.read < e.n && e.issued + 8 * e.read ≤ g.tide then e.tables.filter fun t => !e.gotten.contains t.1 else []
/-- The requests at core index `j`'s port. -/
def portReqs (g : Gang) (j : Nat) (owner : Core) : List PortReq :=
  let at_ (sl : Slot) : Option Nat := match sl with
    | .berth c i => if c = owner.num then some i else none
    | _ => none
  let ofCore (c : Core) (i : Nat) : List PortReq :=
    c.accesses.filterMap (fun a =>
      match a.served, a.spots with
      | false, p :: _ => (at_ p.slot).map fun sl =>
          { who := .entry i a.serial, key := [a.issued, if i = j then classOf a.cl else 0, i, a.serial], slot := sl,
            off := (spotBytes a p).1, n := (spotBytes a p).2, write := a.inStore, reads := a.inLoad }
      | _, _ => none)
    ++ c.asks.filterMap (fun a => (at_ a.slot).map fun sl =>
        { who := .ask i a.serial, key := [a.issued, if i = j then classOf a.cl else 0, i, a.serial], slot := sl, off := a.off, n := a.n,
          write := a.write, reads := false })
    ++ c.pens.filterMap (fun p =>
      if p.served then none else (at_ p.slot).map fun sl =>
        { who := .pen i p.serial, key := [p.issued, if i = j then 4 else 0, i, p.serial], slot := sl, off := p.off, n := 4, write := true })
  let tables := owner.exchs.flatMap fun e => (tableAsks g e).filterMap fun t => (at_ t.2.1).map fun i =>
    ({ who := .table e.serial t.1, key := [e.issued + 8 * e.read, 3, j, e.serial, t.1], slot := i, off := 8 * tableIndex e t.1 e.read,
       n := 8, write := false } : PortReq)
  g.cores.zipIdx.flatMap (fun p => ofCore p.1 p.2) ++ tables
def keyLt : List Nat → List Nat → Bool
  | a :: s, b :: t => a < b || a == b && keyLt s t
  | _, _ => false
def insertReq (r : PortReq) : List PortReq → List PortReq
  | [] => [r]
  | q :: t => if keyLt r.key q.key then r :: q :: t else q :: insertReq r t
/-- The bank words of the payload that a request touches, 16 bytes each, and the data bank of one (R285). -/
def bankWords (r : PortReq) : List Nat := (List.range ((r.off + r.n + 15) / 16 - r.off / 16)).map fun u => r.off / 16 + u
def bankOf (slot u : Nat) : Nat := (u + slot) % 32
def banksOf (r : PortReq) : List Nat := ((bankWords r).map (bankOf r.slot)).eraseDups
/-- A bank word holds an uncorrectable error that no read has met. -/
def bankHurt (b : Cells) (u : Nat) : Bool := (List.range 4).any fun t => cbit b (8 * latentAt + 4 * u + t)
/-- The same request with the banks whose rebuild its direct read needs (R289). -/
def withHurt (s : State) (owner : Core) (r : PortReq) : PortReq :=
  let b := rawBlock s.mem (.berth owner.num r.slot)
  if !r.reads || !hasLatent b then r
  else { r with hurt := (((bankWords r).filter (bankHurt b)).map (bankOf r.slot)).eraseDups }
/-- Serve the requests in order: those served, given the banks taken and the groups whose rebuild is used. A group rebuilds one busy
bank a cycle, for a request that writes nothing (R286), or what a direct read finds damaged in it (R289; log 17, DEDUCED). -/
def serve (l : List PortReq) (taken rebuilt : List Nat) : List PortReq :=
  match l with
  | [] => []
  | r :: t =>
    let banks := banksOf r
    let busy := banks.filter fun b => taken.contains b
    let group (b : Nat) : Nat := b / 4
    let hurt := ((r.hurt.filter fun b => !busy.contains b).map group).eraseDups
    let groups := busy.map group ++ hurt
    if (busy.isEmpty || !r.write) && groups.eraseDups.length = groups.length && !(groups.any fun q => rebuilt.contains q) then
      { r with busy := busy } :: serve t (taken ++ banks) (rebuilt ++ groups)
    else serve t taken rebuilt
/-- The other bank words of the stripe of bank word `u` in one block (R289; log 17, DEDUCED). -/
def stripeOf (slot u : Nat) : List Nat :=
  let first := (u + slot) / 4 * 4
  (((List.range 4).map fun t => first + t).filter fun x => x != u + slot && slot ≤ x && x - slot < 256).map fun x => x - slot
/-- A bank word is read: directly, when damage found there is rebuilt and written back, or by the rebuild of its group when its bank is
busy. A rebuild that meets damage marks it, and the damaged word that it was to supply (R275, R289). -/
def healWord (slot : Nat) (busy : List Nat) (b : Cells) (u : Nat) : Cells :=
  let direct := !busy.contains (bankOf slot u)
  let others := (stripeOf slot u).filter (bankHurt b)
  let mark (b : Cells) (u : Nat) : Cells := detectFrom b (4 * u) 4
  if direct && !bankHurt b u then b
  else if others.isEmpty then
    if direct then (List.range 4).foldl (fun b t => cputBit b (8 * latentAt + 4 * u + t) false) b else b
  else (if direct then u :: others else others).foldl mark b
/-- The bank words that the rebuilds of a request read, whose correctable errors are written back and counted (R383, R384). -/
def rebuildReads (r : PortReq) (b : Cells) : List Nat :=
  (((bankWords r).filter fun u => r.busy.contains (bankOf r.slot u) || bankHurt b u).flatMap (stripeOf r.slot)).eraseDups
def softWord (b : Cells) (u : Nat) : Cells := (List.range 4).foldl (fun b t => cputBit b (8 * softAt + 4 * u + t) false) b
def healPort (s : State) (owner : Core) (r : PortReq) : State :=
  let sl : Slot := .berth owner.num r.slot
  let b := rawBlock s.mem sl
  if !r.reads || !hasLatent b then s
  else
    let c := (rebuildReads r b).foldl softWord b
    let s := countError { s with mem := setRawBlock s.mem sl c } (slotCounters s sl).1 (unitsGone b c softAt 1).length
    let b := c
    let b' := (bankWords r).foldl (healWord r.slot r.busy) b
    let marked := (unitsGone b b' latentAt 1).filter fun w => blkMarked b' w && !blkMarked b w
    let s := countError { s with mem := setRawBlock s.mem sl b' } (slotCounters s sl).1
      ((unitsGone b b' latentAt 1).length - marked.length)
    countError s (slotCounters s sl).2 marked.length
/-- A table gives the entry of the pair being read; with the last table the pair's entries are complete. -/
def readTable (s : State) (c : Core) (e : Exch) (G : Nat) : Core :=
  match e.tables.find? fun t => t.1 == G with
  | none => c
  | some (_, sl, v) =>
    let b := rawBlock s.mem sl
    let i := tableIndex e G e.read
    let bad : Option (BitVec 8 × Dword) :=
      if !blkValid b then (if e.warn then none else some (cVoidRead, v))
      else if markedIn b (8 * i) 8 then some (cPoison, v) else none
    let d := tableEntry b i
    let c := if !blkValid b && e.warn && e.active then setSeen c else c
    modExch c e.serial fun e =>
      let fresh_ := e.gotten.isEmpty
      let e := { e with entry := if G = 0 then (d, if fresh_ then 0 else e.entry.2) else (if fresh_ then 0 else e.entry.1, d)
                        entryBad := (if fresh_ then none else e.entryBad).or bad }
      if e.gotten.length + 1 < e.tables.length then { e with gotten := e.gotten ++ [G] } else { e with gotten := [], read := e.read + 1 }
/-- A request is served. -/
def serveOne (k : CoreId) (s : State) (r : PortReq) : State :=
  match getMember s k with
  | none => s
  | some (_, c) =>
    let s := healPort s c r
    match r.who with
    | .entry i n => modMember s ⟨k.gang, i⟩ fun c => modAccess c n fun a =>
        { a with served := true, rebuilt := (bankWords r).filter fun u => r.busy.contains (bankOf r.slot u) }
    | .ask i n => modMember s ⟨k.gang, i⟩ fun c => { c with asks := c.asks.filter fun a => a.serial != n }
    | .pen i n => modMember s ⟨k.gang, i⟩ fun c => { c with pens := c.pens.map fun p => if p.serial = n then { p with served := true } else p }
    | .table n G =>
      match findExch c n with
      | some e =>
        let s := match (if r.busy.isEmpty then e.tables.find? fun t => t.1 == G else none) with
          | some (_, sl, _) => readPart s sl (8 * tableIndex e G e.read) 8
          | none => s
        modMember s k fun c => readTable s c e G
      | none => s
/-- A request waits one cycle. -/
def delayOne (k : CoreId) (s : State) (r : PortReq) : State :=
  match r.who with
  | .entry i n => modMember s ⟨k.gang, i⟩ fun c => modAccess c n fun a => { a with due := a.due + 1 }
  | .pen i n => modMember s ⟨k.gang, i⟩ fun c => { c with pens := c.pens.map fun p => if p.serial = n then { p with due := p.due + 1 } else p }
  | .table n _ => modMember s k fun c => penalise c n
  | .ask .. => s
/-- The element port of one member core serves the requests of this cycle. -/
def execElementPortServe (k : CoreId) (s : State) : Out :=
  match getMember s k with
  | none => .next s
  | some (g, c) =>
    let all := ((portReqs g k.idx c).map (withHurt s c)).foldl (fun l r => insertReq r l) []
    let now := serve all [] []
    let s := now.foldl (serveOne k) s
    .next ((all.filter fun r => !(now.any fun q => q.who == r.who)).foldl (delayOne k) s)

end Sys2Proof.Machine
end

