-- ==== Sys2Proof/Machine/Phase.lean ====
section
/-! DEFINITION. Phases (13): the checks of a cycle's end, rollback, barriers between chips and the commit (R105, R145 to R147,
R239, R253, R259, R260, R265 to R270, R304, R332). -/

namespace Sys2Proof.Machine

/-! ## The checks of a cycle (R105, R145, R146, R147, R259, R260) -/

def missAt (tide : Nat) (cl : Cl) (pc : Dword) : Raised := { code := cSchedMiss, cl := cl, tval := BitVec.ofNat 64 tide, pc := pc }
def issuedPc (c : Core) (cl : Cl) : Dword := ((c.issuedNow.find? fun i => i.cl == cl).map (·.pc)).getD 0
/-- The cluster that pushes into a FIFO. -/
def pusher (fifo : Nat) : Cl :=
  let owner : Cl := match fifo / 2 with | 0 => .s | 1 => .v | 2 => .m | _ => .x
  if fifo % 2 = 1 then rightOf owner else leftOf owner
/-- The pops of the instructions that a break or an absent page has put off to a second issue on this cycle (R152, R153). -/
def popsToCome (lines : List (BitVec 512)) (c : Core) : List Nat :=
  (c.raised.filter fun r => causeReissues r.code && !r.never && r.pc == issueAddr c r.cl).flatMap fun r =>
    let f := (sylAt lines r.pc).common
    (if f.popL then [fifoL r.cl] else []) ++ (if f.popR then [fifoR r.cl] else [])
/-- A push that finds its FIFO full after the pops of the cycle, those still to be made among them; a FIFO has one pusher, which pushes
once. An instruction that meets another cause would have pushed too, and this cause comes in its place among its own (R76). -/
def pushMisses (lines : List (BitVec 512)) (tide : Nat) (c : Core) : List Raised :=
  let pops := popsToCome lines c
  let made := c.atEnd.flatMap fun e => match e with | .push f => [(f, issuedPc c (pusher f))] | _ => []
  let kept := c.raised.flatMap fun r => r.pushes.map fun f => (f, r.pc)
  (made ++ kept).filterMap fun p =>
    if 8 + (pops.filter fun x => x == p.1).length ≤ tokenAt c.regs.tokens p.1 then some (missAt tide (pusher p.1) p.2) else none
/-- A bundle, or a join, of which some clusters but not all four issue. -/
def partMisses (tide : Nat) (c : Core) (p : Issued → Bool) : List Raised :=
  let l := c.issuedNow.filter p
  let has (cl : Cl) : Bool := l.any fun i => i.cl == cl
  if l.isEmpty || (has .s && has .v && has .m && has .x) then []
  else l.map fun i => missAt tide i.cl i.pc
/-- The barrier that a core issues on this cycle: 0 none, 1 SLACK, 2 COMMIT, 3 and above SAFE with its map. -/
def barrierOf (c : Core) : Nat := (c.issuedNow.foldl (fun a i => max a i.kind) 0)
/-- A barrier that a member of the chip does not share. -/
def sameBarrier (a b : Nat) : Bool := a == b || (3 ≤ a && 3 ≤ b)
def barrierMisses (g : Gang) (c : Core) : List Raised :=
  let k := barrierOf c
  if k = 0 || g.cores.all fun d => sameBarrier k (barrierOf d) then [] else [missAt g.tide .s (issuedPc c .s)]
/-- COMMIT finds an X or M command of its core still in flight (R146). -/
def commitMisses (tide : Nat) (c : Core) : List Raised :=
  let busy := (c.cards.any fun j => !j.open_ && tide < j.last) || (c.exchs.any fun e => tide < swapCycle e (e.n - 1))
    || (c.fabs.any fun o => tide < o.planned) || (c.pens.any fun p => !penSoon c tide p)
    || c.cmds.any (fun m => match m with | some m => tide + 1 < m.issued + mSteps m.instr | none => false)
  if barrierOf c = 2 && (busy || c.lostLink) then [missAt tide .s (issuedPc c .s)] else []
/-- A SCHED_MISS of the end of the cycle among its own instruction's causes (R76): after one of an earlier group it is not raised, and
it takes the place of one of a later group. -/
def addMiss (raised : List Raised) (m : Raised) : List Raised :=
  let own (q : Raised) : Bool := q.cl == m.cl && q.pc == m.pc
  if raised.any fun q => own q && causeRank q.code < causeRank m.code then raised
  else raised.filter (fun q => !(own q && causeRank m.code < causeRank q.code)) ++ [m]
def checkCore (g : Gang) (c : Core) : Core :=
  { c with raised := (pushMisses g.lines g.tide c ++ partMisses g.tide c (·.sync) ++ partMisses g.tide c (·.rdv)
      ++ barrierMisses g c ++ commitMisses g.tide c).foldl addMiss c.raised }
def checkGang (g : Gang) : Gang := { g with cores := g.cores.map (checkCore g) }

/-! ## PHASE_ROLLBACK and ROLLBACK_END (R269) -/

/-- Two logs, each newest first, as one. -/
def mergeLogs (a : List LogCell) : List LogCell → List LogCell :=
  a.foldr (fun x f => go x f) id
where
  go (x : LogCell) (f : List LogCell → List LogCell) : List LogCell → List LogCell
    | [] => x :: f []
    | y :: t => if y.order < x.order then x :: f (y :: t) else y :: go x f t
/-- One log entry undone. -/
def undoEntry (owner : BitVec 12) (s : State) (e : LogEntry) : State :=
  match e with
  | .swap a b => swapSlots s owner a b
  | .unit a b tr f u voids =>
    if u + 1 = a.length then voids.foldl (fun s sl => putBlock s owner sl []) (unswapUnits s owner a b f tr) else s
  | .word sl off w old gen mv =>
    if mv then putBlock s owner sl [] else putBlock s owner sl (setGen (cputLe (getBlock s owner sl) off w old) gen)
  | .image sl old _ | .mirror sl old => { s with mem := setRawBlock s.mem sl old }
  | .staged .. => s
/-- The entries of every member, the latest arrival first. -/
def undoLogs (s : State) (g : Gang) : State :=
  (g.cores.foldl (fun l c => mergeLogs c.log l) []).foldl (fun s c => undoEntry g.desc.owner s c.entry) s

/-- The checkpoint's registers, its cycles counted from the new start of the phase. -/
def rebase (r : Regs) (base start : Nat) : Regs :=
  let move (t : Nat) : Nat := t + start - base
  { r with
    sNext := move r.sNext
    points := r.points.map fun p => { p with next := move p.next }
    landings := r.landings.map fun l => { l with due := move l.due, issued := move l.issued } }
/-- The unit and entry that the TVAL of an internal POISON names (R379). -/
def unitOf (tval : Dword) : Option (Nat × Nat) :=
  if tval.extractLsb' 52 12 = 0xFFF then some ((tval.extractLsb' 8 4).toNat, (tval.extractLsb' 0 8).toNat) else none
/-- The error that a rollback's cause names in core index `i`. -/
def namedUnit (g : Gang) (i : Nat) (r : Abort) : Option (Nat × Nat) :=
  if r.named && memberOf g i == memberOf g r.member && r.trapc.setWidth 8 == cPoison then unitOf r.tval else none
/-- A rollback restores an accumulator from its shadow: one that the phase wrote, and the one that unit 3 names (R269, R379). -/
def shadowRead (g : Gang) (i : Nat) (r : Abort) (c : Core) (n : Nat) : Bool :=
  c.accWritten.getLsbD n || namedUnit g i r == some (3, n)
/-- The registers with an error that a rollback overwrites unread, each of which counts as corrected (R378). -/
def overwritten (g : Gang) (i : Nat) (r : Abort) (c : Core) : Nat :=
  (c.faults.filter fun f => (f.1 < 3 || f.1 == 6 || f.1 == 3 && shadowRead g i r c f.2.1)
    && namedUnit g i r != some (f.1, f.2.1)).length
/-- A core rolled back on gang cycle `a` (R269, steps 2 to 6). TRAPPC of a cause of S is TRAPQ0, also for a load performed late (R61;
log 77, DEDUCED). The queue is that of cycle `a` before its issues. What a committed phase has still to perform keeps its distance from
the start of the phase, as its landings do (R266, R305). -/
def rollbackCore (g : Gang) (i : Nat) (r : Abort) (c : Core) : Core :=
  let old := c.regs.ctl
  let acc := Vector.ofFn fun j : Fin 4 => if shadowRead g i r c j.val then c.shadow[j] else c.acc[j]
  let mine := r.named && memberOf g i == memberOf g r.member
  let q := if r.forced && (g.stage == .port || g.stage == .land) then c.regs.q else c.qStart
  let move (t : Nat) : Nat := t + (g.tide + 1) - c.checkBase
  let access (a : Access) : Access := { a with due := move a.due, issued := move a.issued }
  let fence (f : Fence) : Fence := { f with due := move f.due, issued := move f.issued }
  let out (p : Released) : Released := { p with tide := move p.tide }
  let accesses : List Access := (c.accesses.filter fun a => a.committed).map access
  let fences : List Fence := (c.fences.filter fun f => f.issued < g.phaseStart).map fence
  let c := { c with
    regs := rebase c.checkpoint c.checkBase (g.tide + 1)
    checkpoint := rebase c.checkpoint c.checkBase (g.tide + 1)
    checkBase := g.tide + 1
    acc := acc, accWritten := 0
    accesses := accesses
    asks := []
    fences := fences
    outstanding := c.outstanding.map out
    exchs := [], cmds := Vector.replicate 3 none, channelFree := 0
    cards := c.cards.filter fun j => j.open_ && c.outstanding.any fun p => p.serial == j.id
    log := [], reserved := 0, fabs := [], sentOn := [], armed := [], pens := [], links := [], atEnd := [], raised := []
    issuedNow := [], outward := [], trapped := false, resumeBreak := none
    standing := c.standing.filter (·.released)
    faults := c.faults.filter fun f => 8 ≤ f.1 || f.1 == 3 && !shadowRead g i r c f.2.1 || f.1 == 4 && c.accesses.any fun a => a.committed && a.serial == f.2.2 }
  let c := { c with lostLink := false }
  let c := c.mapCtl fun k => { k with
    bndlog := k.bndlog ||| old.bndlog, voidmode := k.voidmode ||| (old.voidmode &&& 2), fstat := k.fstat ||| old.fstat
    aflags := k.aflags ||| old.aflags, fpcsr := k.fpcsr ||| old.fpcsr }
  takeTrap c r.trapc r.tval (if mine && r.trapc.extractLsb' 8 2 != Cl.s.code then r.pc else q[0].addr) q
/-- Armed windows homed here abort, and contributions go with them (R245). -/
def abortHome (s : State) (gang : Nat) : State :=
  match getGang s gang with
  | none => s
  | some g => (ownWindows g).foldl (fun s w => abortWindow s gang w) s
/-- Requests of the aborted run on their way through this chip's own port, and their answers (R254, R269). -/
def ofAbortedRun (chip : BitVec 22) (gang : Nat) : Instr → Bool
  | .landingArrival k _ _ (.request source _ _ _ _ _ _ _) => source == chip && k.gang == gang
  | .landingArrival k _ _ _ => k.gang == gang
  | .windowArmAtHome _ _ _ _ _ source k _ _ => source == chip && k.gang == gang
  | .windowContributionArrival _ _ _ _ _ _ _ source k _ => source == chip && k.gang == gang
  | _ => false
/-- The hold of cause 6 and its length. -/
def rollbackLength (g : Gang) : Nat := 16 + g.cores.foldl (fun a c => max a c.log.length) 0
/-- The chips that hear of the gang's votes and aborts: the others that hold it, and the homes of its armed windows. -/
def listeners (s : State) (g : Gang) : List (BitVec 22) :=
  otherChips s g ++ g.cores.flatMap fun c => c.armed.filterMap (outsideHome s g)
/-- The claims that outlive a rollback: those of committed accesses, and those of the owner's kill. -/
def keepClaims (g : Gang) : Gang :=
  let kept (c : Claim) : Bool :=
    c.cause == 0 && g.cores.any (fun d => d.accesses.any fun a => a.committed && a.serial == c.id) || c.fence.isSome
      || c.cause == 3 && g.cores.any (fun d => d.fences.any fun f => f.serial == c.id)
  endClaims g fun c => !kept c
/-- A rollback with one of these causes is forced, and the gang is saved on every chip (R318, R329, R337, R346). -/
def savesAll (trapc : Dword) : Bool := trapc.setWidth 8 == cSafeDeadline || trapc.setWidth 8 == cAbsent
/-- A poisoned payload word: the TVAL is a VBA (R379, R381). -/
def escalates (r : Abort) : Bool := r.trapc.setWidth 8 == cPoison && r.tval.extractLsb' 52 12 != 0xFFF
/-- THE ROLLBACK of a gang. -/
def rollbackGang (s : State) (gang : Nat) (r : Abort) : State :=
  match getGang s gang with
  | none => s
  | some g =>
    let length := rollbackLength g
    let member := memberOf g r.member
    let phase := match g.cores[r.member]? with | some c => c.regs.ctl.phase | none => 0
    let lost := g.cores.any (·.lostLink)
    let s := undoLogs s g
    let s := g.cores.zipIdx.foldl (fun s p => countError s (8 * p.1.quad) (overwritten g p.2 r p.1)) s
    let s := abortHome { s with agenda := s.agenda.filter fun e => !ofAbortedRun s.chip gang e.2 } gang
    let s := if r.tell then
        { s with sent := s.sent ++ (if (listeners s g).isEmpty then [] else [.abort g.desc.launch r.trapc r.tval]) }
      else s
    let s := boxAdd s 0x0012 (partByte g.part) 2 r.trapc r.tval g.desc.launch member phase
    let s := modGang s gang fun g =>
      let g := { g with cores := g.cores.zipIdx.map fun (p : Core × Nat) => rollbackCore g p.2 r p.1 }
      let g := keepClaims { g with
        aborts := g.aborts + 1, forced := if r.forced && savesAll r.trapc then g.forced + 1 else 0
        aborted := none, landed := [], barrier := none, came := [], cameSince := none
        fabricPhase := false, dropPhase := false, phaseStart := g.tide + 1
        saveNext := if lost || g.saveNext.isSome then some 2 else none
        fatal := if escalates r then some { member := member, trapc := cPoison.setWidth 64, tval := r.tval, poison := true }
          else if 3 ≤ g.aborts + 1 then some { member := member, trapc := r.trapc, tval := r.tval } else g.fatal }
      startClaim s g 6 member
    post s length (.rollbackEnd gang)
/-- A rollback, or a save (with no `r`), reads this part of the rollback state: the checkpoint, the log's entries, and the shadows that
it restores or saves (R379, R380). -/
def rollbackReads (g : Gang) (i : Nat) (c : Core) (r : Option Abort) (f : Nat × Nat × Nat) : Bool :=
  if f.1 = 11 then (match r with | some r => shadowRead g i r c f.2.1 | none => true) else if f.1 = 12 then f.2.1 < c.log.length else 8 ≤ f.1
/-- The gang's first member with an undetected error there, and the error. -/
def rollbackFault (g : Gang) (r : Option Abort) : Option (Nat × Core × Nat × Nat) :=
  g.cores.zipIdx.findSome? fun (p : Core × Nat) =>
    (p.1.faults.find? fun f => rollbackReads g p.2 p.1 r f).map fun f => (p.2, p.1, f.1 - 8, f.2.1)
/-- An uncorrectable error in the rollback state is fatal to the gang, and nothing is restored from it (R380). -/
def rollbackFatal (s : State) (gang : Nat) (i : Nat) (c : Core) (unit entry : Nat) : State :=
  modGang (internalCounted s c) gang fun g =>
    { g with aborted := none, stage := if g.aborted.isSome then .port else g.stage, fatal := some { member := memberOf g i, trapc := trapcOf .s cPoison, tval := unitTval unit entry } }
/-- A commit reads the log's staged effects: an error in one of them is found there (R267, R342, R380). -/
def commitFault (g : Gang) : Option (Nat × Core × Nat) :=
  g.cores.zipIdx.findSome? fun (p : Core × Nat) =>
    (p.1.faults.find? fun f => f.1 == 12 && match p.1.log.reverse[f.2.1]? with
      | some { entry := .staged .., .. } => true
      | _ => false).map fun f => (p.2, p.1, f.2.1)
def execPhaseRollback (gang : Nat) (s : State) : Out :=
  match getGang s gang with
  | none => .next s
  | some g =>
    match g.aborted with
    | none => .next s
    | some r =>
      match rollbackFault g (some r) with
      | some (i, c, unit, entry) => .next (rollbackFatal s gang i c unit entry)
      | none => .next (rollbackGang s gang r)
/-- Restoration ends: the re-run's compute span begins on the next gang cycle. -/
def execRollbackEnd (gang : Nat) (s : State) : Out :=
  .next (modGang s gang fun g =>
    { modCores (endClaims g (fun c => c.cause == 6)) noteHeld with tide := g.tide + 1, stage := .port, turn := 0 })


/-! ## Commit (R146, R239, R268, R304) -/

/-- The core's earlier effects on their way through this chip: XFARs to their far-tier ports, or atomics and kicks. -/
def stagedTime (k : CoreId) (far : Bool) (e : Nat × Instr) : Nat :=
  match e.2 with
  | .stagedEffectPerform f => if !far ∧ f.gang = k.gang ∧ f.idx = k.idx then e.1 else 0
  | .xfarPairSwap j _ => if far ∧ j = k then e.1 else 0
  | _ => 0
/-- An effect for this chip, on its way behind the core's earlier ones: they reach any one port in staged order (R267; log 95,
DEDUCED). -/
def afterStaged (s : State) (k : CoreId) (far : Bool) (i : Instr) : State :=
  let (d, s) := draw (if far then Config.farTime else Config.fabricTime) s
  post s (max d (s.agenda.foldl (fun a e => max a (stagedTime k far e)) 0 - s.ptide)) i
/-- A staged effect leaves its core at the boundary; a kick whose channel names a chip that no route reaches is lost (R310; log 95,
DEDUCED). -/
def releaseOne (s : State) (g : Gang) (i : Nat) (c : LogCell) : State :=
  let k : CoreId := ⟨g.id, i⟩
  let out (e : Effect) (s : State) : State := modPair s k fun d => { d with outstanding := d.outstanding ++ [⟨c.order, g.tide, e⟩] }
  match c.entry with
  | .staged (.atom e _) _ =>
    let s := out e s
    if chipLostTo s g.desc.owner e.chip then
      let (d, s) := draw Config.fabricTime s
      post s d (.atomicReturn k e.dest (effectWrites e.kind) .n32 .dead e.chip e.serial)
    else if e.chip = s.chip then afterStaged s k false (.stagedEffectPerform e)
    else sendTo s e.chip (.stagedEffectPerform e)
  | .staged (.kick word chip) _ =>
    let e : Effect := { kind := .kick, chip := s.chip, source := s.chip, gang := g.id, idx := i, launch := g.desc.launch,
                        owner := g.desc.owner, gen := 0, vba := 0, off := 0, operand := word, swap := 0, dest := 0, serial := c.order }
    if chip != 0 && chip != s.chip && chipLostTo s g.desc.owner chip then
      let (d, s) := draw Config.fabricTime (out e s)
      post s d (.atomicReturn k 0 false .n32 .dead chip e.serial)
    else afterStaged (out e s) k false (.stagedEffectPerform e)
  | .staged (.far n) _ =>
    let s := modMember s k fun d => { d with standing := d.standing.map fun t => if t.serial = n then { t with released := true } else t }
    afterStaged s k true (.xfarPairSwap k n)
  | _ => s
/-- The staged effects of the primaries leave, each core's in log order (R254, R267). -/
def releaseAll (s : State) (g : Gang) : State :=
  g.cores.zipIdx.foldl (fun s p =>
    if isSecondary g p.2 then s else p.1.log.reverse.foldl (fun s c => releaseOne s g p.2 c) s) s
/-- The SLOT fields of the halves of every double-buffered run change places (R107, R283); a block entry that stands over a VBA of
either keeps its own (log 104, DEDUCED). -/
def backOf (m : Manifest) (e : MEntry) : Option Nat :=
  (m.find? fun p => meValid p.2 && meVba p.2 == meVba e + meCount e && meCount p.2 == meCount e && !meDouble p.2).map (·.1)
def withSlot (e : MEntry) (sl : Dword) : MEntry := { e with dw1 := e.dw1 &&& 0xFFFFFFFF00000000 ||| sl &&& 0xFFFFFFFF }
def swapDoubles (m : Manifest) : Manifest :=
  m.foldl (fun (n : Manifest) p =>
    if meValid p.2 && meDouble p.2 then
      match backOf m p.2 with
      | some j =>
        match m.find? fun q => q.1 == j with
        | some q => n.map fun r =>
            if r.1 = p.1 then (r.1, withSlot r.2 q.2.dw1) else if r.1 = j then (r.1, withSlot r.2 p.2.dw1) else r
        | none => n
      | none => n
    else n) m
/-- A core at the boundary: the flags that came from homes without members in AFLAGS (R247), logs empty, shadows current, counts reset, and the checkpoint of the next phase taken. -/
def commitCore (g : Gang) (c : Core) : Core :=
  let shadow : Vector Acc 4 := Vector.ofFn fun j => if c.accWritten.getLsbD j.val then c.acc[j] else c.shadow[j]
  let c := c.armed.foldl (fun c a => orAflags c (a.flags.getD 0)) c
  let c := { c with log := [], reserved := 0, sentOn := [], armed := [], outward := [], accWritten := 0, shadow := shadow }
  let done (a : Access) : Access := { a with committed := true }
  let c := { c with
    accesses := c.accesses.map done
    cards := c.cards.filter fun j => j.open_ && c.outstanding.any fun p => p.serial == j.id }
  let c := c.mapCtl fun r => { r with phase := (r.phase &&& ~~~3) + 4 }
  let keep (f : Nat × Nat × Nat) : Bool := f.1 < 8 || f.1 == 11 && !g.cores.any fun d => d.num == c.num && d.accWritten.getLsbD f.2.1
  { c with checkpoint := c.regs, checkBase := g.tide + 1, faults := c.faults.filter keep }
/-- THE COMMIT of a gang on this chip, at the boundary after its COMMIT cycle (R268). -/
def commitGang (s : State) (gang : Nat) : State :=
  match getGang s gang with
  | none => s
  | some g =>
    let s := g.landed.foldl (fun s p => putBlock s g.desc.owner p.slot p.block) s
    let s := modGang s gang fun g => { g with landed := [] }
    let s := (ownWindows g).foldl (fun s w => writeWindow s gang w) s
    let s := releaseAll s g
    modGang s gang fun g =>
      { g with
        manifest := swapDoubles g.manifest
        cores := g.cores.map (commitCore g)
        aborts := 0, forced := 0, fabricPhase := false, dropPhase := false, phaseStart := g.tide + 1 }

/-! ### The comparison of a pair (R332) -/

/-- What the comparison sees of a core: no slot numbers of its own copy, no serial numbers. -/
def pairView (c : Core) : Regs × List Staged × List (Slot × Nat × Cells) × List (List Slot × Word × Nat) :=
  let strip (e : LogCell) : Option Staged := match e.entry with
    | .staged (.atom f ch) _ => some (.atom { f with idx := 0, serial := 0 } ch)
    | .staged (.kick w c) _ => some (.kick w c)
    | .staged (.far _) _ => some (.far 0)
    | _ => none
  ({ c.regs with landings := c.regs.landings.map fun l => { l with test := [] } },
   c.log.filterMap strip, c.outward,
   (c.standing.filter fun t => !t.released).map fun t => (t.pairs.map (·.2), t.value, t.penOff))
/-- The lowest member whose two cores differ. -/
def pairDiffers (g : Gang) : Option Nat :=
  if !g.desc.pair then none
  else (List.range g.size).find? fun m =>
    match g.cores[m]?, g.cores[m + g.size]? with
    | some a, some b => pairView a != pairView b
    | _, _ => false

/-! ### Votes and barriers (R145, R239, R265) -/

/-- The flags that the windows homed here give to contributors on other chips (R247). -/
def flagsOut (s : State) (g : Gang) : List (BitVec 22 × Nat × BitVec 5) :=
  (ownWindows g).flatMap fun w =>
    (w.armed.filter fun e => e.chip != s.chip).map fun e => (e.chip, e.core.idx, windowFlags s g w)
/-- This chip's vote: an abort for a pair that differs, or for a window that is not complete, homed here or armed here and homed where no
member is held. `wants` says that its copy is to be saved at this boundary. -/
def ownVote (s : State) (g : Gang) (wants : Bool) : Vote :=
  match pairDiffers g with
  | some m => { abort := true, trapc := trapcOf .s cPairMismatch, tval := BitVec.ofNat 64 m }
  | none =>
    match (ownWindows g).find? fun w => !windowComplete w with
    | some w =>
      let ch : Dword := ((w.armed.map fun e => e.ch.setWidth 64).headD 0)
      { abort := true, trapc := trapcOf .x cWindowAbort, tval := w.gen.setWidth 64 ||| (ch <<< 16) }
    | none => match outsideLate s g with
      | some a => { abort := true, trapc := trapcOf .x cWindowAbort, tval := a.gen.setWidth 64 ||| (BitVec.ofNat 64 a.ch <<< 16) }
      | none => { abort := false, wants := wants, able := g.cores.all (fun c => c.standing.isEmpty), flags := flagsOut s g
                  armed := armedOutside s g }
/-- The arrivals of other chips from which 2^27 package cycles have passed: those chips have given this one up, and its own arrival is
the first of another barrier (R318). -/
def dropStale (s : State) (g : Gang) : Gang :=
  match g.cameSince with
  | some t => if t + 2 ^ 27 ≤ s.ptide then { g with came := [], cameSince := none } else g
  | none => g
/-- The chip comes to a barrier: it tells the others, and holds until they have come. It votes at a commit when the barrier is complete
(R239). -/
def enterBarrier (s : State) (gang : Nat) (commit wants : Bool) : State :=
  match getGang s gang with
  | none => s
  | some g =>
    let g := dropStale s g
    let v : Vote := if !commit then { abort := false, wants := wants, commit := false }
      else if allArrived s g then ownVote s g wants
      else { abort := false, pending := true, armed := armedOutside s g }
    let others := otherChips s g
    let s := if (listeners s g).isEmpty then s else { s with sent := s.sent ++ [.vote g.desc.launch v] }
    modGang s gang fun g =>
      let g := dropStale s g
      let g := { g with barrier := some { commit := commit, own := v }
                        cameSince := if others.isEmpty then none else some (g.cameSince.getD s.ptide) }
      if barrierDone s g then g else startClaim s g 3 0 true
/-- Every chip has come, and this one votes. -/
def castVote (s : State) (gang : Nat) (wants : Bool) : State :=
  match getGang s gang with
  | none => s
  | some g =>
    let v := ownVote s g wants
    endBarrierHold (modGang { s with sent := s.sent ++ [.vote g.desc.launch v] } gang fun g =>
      { g with barrier := g.barrier.map fun b => { b with own := v } }) gang
/-- One arrival of each other chip is used up. -/
def useVotes (s : State) (g : Gang) : Gang :=
  { g with came := (otherChips s g).foldl (fun l c => l.eraseP fun p => p.1 == c) g.came, barrier := none, cameSince := none }
/-- What the other chips' votes bring to a commit: the flags for contributors here, and whether this boundary is to save the gang, or
may not, on every chip (R247, R270, R329). -/
def takeVotes (s : State) (gang : Nat) (own : Bool) (votes : List Vote) : State :=
  let mine := votes.flatMap fun v => v.flags.filter fun f => f.1 == s.chip
  let s := mine.foldl (fun s f => modPair s ⟨gang, f.2.1⟩ fun c => orAflags c f.2.2) s
  modGang s gang fun g => { g with
    preempt := match g.preempt with
      | some p => some { p with agreed := p.agreed || own || votes.any (·.wants) }
      | none => if own || votes.any (·.wants) then some { since := s.ptide, rotation := own, deadline := false, agreed := true } else none
    barred := votes.any fun v => !v.able }
/-- JOINT_COMMIT: every chip has come. All vote to commit, and this one commits; or every member rolls back. -/
def execJointCommit (gang : Nat) (s : State) : Out :=
  match getGang s gang with
  | none => .next s
  | some g =>
    match g.barrier with
    | none => .next s
    | some b =>
      let s' := modGang s gang fun g => useVotes s (endClaims g fun c => c.cause == 3 && c.barrier)
      let told := takeVotes s' gang b.own.wants ((votesOf s g).map (·.2))
      if !b.commit then .next told
      else match firstAbort s g b.own with
        | none => .next (commitGang told gang)
        | some v =>
          let own := pairDiffers g
          let pc := match own.bind (g.cores[·]?) with | some c => issuedPc c .s | none => 0
          let r : Abort := { trapc := v.trapc, tval := v.tval, member := own.getD 0, pc := pc, named := own.isSome }
          .next (modGang s' gang fun g => { g with aborted := some r })
/-- The chip holds another copy of the gang, or else contributors of a window homed here. -/
def holdsCopy (s : State) (gang : Nat) (chip : BitVec 22) : Bool :=
  match getGang s gang with
  | some g => g.desc.chips.contains chip
  | none => true
/-- JOINT_BARRIER_ARRIVAL of another chip; with the last, the hold ends. A copy that is not placed has no phase to which it belongs. -/
def execJointBarrierArrival (gang : Nat) (chip : BitVec 22) (vote : Vote) (s : State) : Out :=
  if !holdsCopy s gang chip then .next (if vote.pending || !vote.commit then s else voteOutside s gang chip vote)
  else .next (endBarrierHold (modGang s gang fun g =>
    if g.status != .placed then g else
    let came := if vote.pending then g.came else g.came.eraseP fun p => p.1 == chip && p.2.pending
    { g with came := came ++ [(chip, vote)], cameSince := some (g.cameSince.getD s.ptide) }) gang)
/-- ABORT_NOTICE of another chip: the members here roll back on the gang cycle it meets (R253), and where the other copies are then
saved, so is this one. -/
def execAbortNotice (gang : Nat) (trapc tval : Dword) (s : State) : Out :=
  .next (modGang s gang fun g =>
    if g.status = .placed then
      let g := if savesAll trapc then { g with saveNext := some 2 } else g
      if g.aborted.isNone && !g.claims 6 && !g.fatal.any (!·.poison) then { g with aborted := some { trapc := trapc, tval := tval, forced := true } } else g
    else g)
/-- FAR_PORT_ACCEPT: the port of a staged XFAR accepts its release, if it is still up (R226). -/
def execFarPortAccept (gang claim : Nat) (s : State) : Out :=
  let up (t : Standing) : Bool := t.serial == claim && farUp s t
  .next (modGang s gang fun g =>
    if g.cores.any fun c => c.standing.any up then
      let g := modCores g fun c => { c with standing := c.standing.map fun t => if t.serial = claim then { t with accepted := true } else t }
      endClaims g fun c => c.cause == 2 && c.id == claim
    else g)

/-! ### At the end of a barrier's cycle -/

/-- The first staged XFAR of a primary whose port has not yet been asked. -/
def farToAsk (g : Gang) : Option (Nat × Standing) :=
  (g.cores.zipIdx.filter fun p => !isSecondary g p.2).findSome? fun p =>
    (p.1.standing.find? fun t => !t.released && !t.accepted && !waiting g 2 t.serial).map fun t => (p.2, t)
/-- Ask a port to accept a release: at once, or after a claim of cause 2; a port that is down holds it until it returns. -/
def askFar (s : State) (gang i : Nat) (t : Standing) : State :=
  let (d, s) := draw Config.farTime s
  let accept (s : State) : State := modGang s gang fun g =>
    modCores g fun c => { c with standing := c.standing.map fun q => if q.serial = t.serial then { q with accepted := true } else q }
  let claim (s : State) : State := modGang s gang fun g => startClaim s g 2 (memberOf g i) false t.serial
  if !farUp s t then claim s
  else if d = 0 then accept s
  else post (claim s) d (.farPortAccept gang t.serial)

/-! ## Safe points (R147, R226, R254, R270, R305, R337, R338) -/

/-- What the deadline waits for: an open window, a running XFAR, released effects, accesses of a committed phase. -/
def unsettled (g : Gang) : Bool :=
  g.cores.any (fun c => !c.armed.isEmpty || c.standing.any (·.released) || !c.outstanding.isEmpty || c.accesses.any (·.committed))
    || g.home.any fun w => !w.armed.isEmpty
/-- What keeps a boundary or a SAFE from being a safe point: an open window or a running XFAR. Released effects and accesses of
a committed phase the save itself waits for. -/
def notNow (g : Gang) : Bool :=
  g.cores.any (fun c => !c.armed.isEmpty || c.standing.any (·.released)) || g.home.any fun w => !w.armed.isEmpty
/-- A commit boundary at which the pending request takes effect; in a gang of several chips one whose votes have told them all of it, so
that all save there (R329). -/
def safeCommit (g : Gang) : Bool := g.preempt.any (fun p => p.agreed || g.desc.chips.isEmpty) && !notNow g && !g.barred
/-- A SAFE that is a safe point: in a gang of several chips once a joint barrier has told them all of the request, so that all save at
the same SAFE (R329; log 83, DESIGN CHOICE). -/
def safeSafe (g : Gang) : Bool := g.preempt.any (fun p => p.agreed || g.desc.chips.isEmpty) && !notNow g && !g.fabricPhase && !g.dropPhase

end Sys2Proof.Machine
end

