-- ==== Sys2Proof/Machine/Service.lean ====
section
/-! DEFINITION. The harbourmaster's service of gangs (19, 20): placement, ends, kills, traps and rechecks, suspension, and the
scheduler (R152, R153, R318, R326 to R338, R346, R357, R360, R361, R365, R375, R376). -/

namespace Sys2Proof.Machine

/-! ## Places (R16, R18, R330, R334) -/

/-- The rectangle of a partition: column, row, width and height in cores. -/
def partRect (count part : Nat) : Nat × Nat × Nat × Nat :=
  if count = 1 then (0, 0, 32, 32)
  else if count = 2 then (0, 16 * part, 32, 16)
  else (16 * (part % 2), 16 * (part / 2), 16, 16)
/-- The origins at which a shape lies inside its partition, in the order in which they are tried. -/
def originsOf (count part w h : Nat) : List (Nat × Nat) :=
  let (px, py, pw, ph) := partRect count part
  if pw < 2 * w || ph < 2 * h then []
  else (List.range ((ph - 2 * h) / 2 + 1)).flatMap fun j => (List.range ((pw - 2 * w) / 2 + 1)).map fun i => (px + 2 * i, py + 2 * j)
/-- The cores of a shape at an origin, in member order. -/
def shapeCores (x0 y0 w h : Nat) : List (Nat × Nat) :=
  (List.range (2 * h)).flatMap fun j => (List.range (2 * w)).map fun i => (x0 + i, y0 + j)
def shapeQuads (cores : List (Nat × Nat)) : List Nat :=
  (List.range 16).filter fun q => cores.any fun p => quadOf p.1 p.2 == q
def inShapeOf (x0 y0 w h : Nat) (c : Core) : Bool := x0 ≤ c.x && c.x < x0 + 2 * w && y0 ≤ c.y && c.y < y0 + 2 * h
def shapesMeet (a b : Nat × Nat) (wa ha wb hb : Nat) : Bool :=
  a.1 < b.1 + 2 * wb && b.1 < a.1 + 2 * wa && a.2 < b.2 + 2 * hb && b.2 < a.2 + 2 * ha
/-- The gang of core (x, y), if it holds one. -/
def coreBusy (s : State) (x y : Nat) : Bool := s.gangs.any fun g => g.cores.any fun c => c.x == x && c.y == y
def usedBanks (s : State) (q : Nat) : List Nat :=
  s.gangs.flatMap fun g => (g.quays ++ g.quays2).flatMap fun e => if e.1 = q then e.2 else []

/-! ### Images (R233, R278, R347, R366) -/

def getImage (p : Partition) (h : Word) : Option Image := p.images.find? fun i => i.handle == h
def partOf (s : State) (part : Nat) : Partition := (s.parts[part]?).getD Partition.fresh
/-- The entries of a manifest image that are not all zero, with their index. -/
def manifestOf (bytes : Cells) : Manifest :=
  let ids := (bytes.map fun e => e.1 / 16).eraseReps
  ids.map fun i => (i, ⟨BitVec.ofNat 64 (cle bytes (16 * i) 8), BitVec.ofNat 64 (cle bytes (16 * i + 8) 8)⟩)
def putEntry (bytes : Cells) (i : Nat) (e : MEntry) : Cells := cputLe (cputLe bytes (16 * i) 8 e.dw0.toNat) (16 * i + 8) 8 e.dw1.toNat
/-- The 256 entries of a capability image. -/
def capEntries (bytes : Cells) : List CapEntry :=
  let d (o : Nat) : Dword := BitVec.ofNat 64 (cle bytes o 8)
  (List.range 256).map fun i => (⟨d (32 * i), d (32 * i + 8), d (32 * i + 16), d (32 * i + 24)⟩ : CapEntry)
/-- A capability image's entries up to the last that is declared (R114, R233). -/
def capsOf (bytes : Cells) : List CapEntry := ((capEntries bytes).reverse.dropWhile fun e => !capValid e).reverse
def imageManifest (s : State) (part : Nat) (h : Word) : Manifest :=
  match getImage (partOf s part) h with
  | some i => manifestOf i.bytes
  | none => []
/-- Quay banks that a manifest's quay runs need in gang quadrant `q` (R230, R330). -/
def bankNeed (m : Manifest) (q : Nat) : Nat :=
  m.foldl (fun a p =>
    if meValid p.2 && meLevel p.2 == 2 && meSlot p.2 / 2 ^ 13 % 16 == q then
      max a ((meSlot p.2 % 2 ^ 13 + meCount p.2 + 127) / 128)
    else a) 0
def quaysNamed (m : Manifest) : Nat :=
  m.foldl (fun a p => if meValid p.2 && meLevel p.2 == 2 then max a (meSlot p.2 / 2 ^ 13 % 16 + 1) else a) 0
/-- The banks that a placement takes in each quadrant it touches, or none. -/
def takeBanks (s : State) (m : Manifest) (quads : List Nat) : Option (List (Nat × List Nat)) :=
  if quads.length < quaysNamed m then none
  else quads.zipIdx.mapM fun (p : Nat × Nat) =>
    let free := (List.range 64).filter fun b => !(usedBanks s p.1).contains b
    let n := bankNeed m p.2
    if free.length < n then none else some (p.1, free.take n)
/-- Every pair of the shape's quadrants whose long link is dead has its mask bit set (R292). -/
def routesFit (s : State) (d : Desc) (quads : List Nat) : Bool :=
  quads.zipIdx.all fun p => quads.zipIdx.all fun q =>
    p.2 ≥ q.2 || !s.routes.getLsbD (pairIndex p.1 q.1) || d.route.getLsbD (pairIndex p.2 q.2)
/-- Whether a shape may stand at an origin: free cores, quadrants in service, routes, no other entry's reservation; and the
banks it takes. -/
def fitAt (s : State) (g : Gang) (m : Manifest) (o : Nat × Nat) (avoid : Option (Nat × Nat × Nat × Nat × Nat)) :
    Option (List (Nat × List Nat)) :=
  let cores := shapeCores o.1 o.2 g.desc.w g.desc.h
  let quads := shapeQuads cores
  let blocked := match avoid with
    | some (id, x, y, w, h) => id != g.id && shapesMeet o (x, y) g.desc.w g.desc.h w h
    | none => false
  if blocked || cores.any (fun p => coreBusy s p.1 p.2) || quads.any (fun q => ((s.quads[q]?).map fun q => q.withdrawn || q.pending.isSome).getD false)
      || !routesFit s g.desc quads then none
  else takeBanks s m quads
/-- The first place for a gang, in paired mode the first two that share no quadrant (R332). -/
def placeFor (s : State) (g : Gang) (avoid : Option (Nat × Nat × Nat × Nat × Nat)) :
    Option ((Nat × Nat) × List (Nat × List Nat) × Option ((Nat × Nat) × List (Nat × List Nat))) :=
  let m := imageManifest s g.part g.desc.manifest
  let fits := (originsOf s.partCount g.part g.desc.w g.desc.h).filterMap fun o => (fitAt s g m o avoid).map fun b => (o, b)
  if !g.desc.pair then (fits.head?).map fun f => (f.1, f.2, none)
  else
    let quads (o : Nat × Nat) : List Nat := shapeQuads (shapeCores o.1 o.2 g.desc.w g.desc.h)
    fits.findSome? fun a => (fits.find? fun b => (quads a.1).all fun q => !(quads b.1).contains q).map fun b => (a.1, a.2, some b)

/-! ## Placement (R53, R331) -/

/-- Void `n` consecutive slots from storage number `lo` (R274). -/
def voidRange (s : State) (lo n : Nat) : State := { s with mem := csplice s.mem (blockStride * lo) (blockStride * n) [] }
def voidCore (s : State) (n : Nat) : State := voidRange (voidRange s (slotNumber (.tile n 0)) 64) (slotNumber (.berth n 0)) 512
def voidBanks (s : State) (l : List (Nat × List Nat)) : State :=
  l.foldl (fun s e => e.2.foldl (fun s b => voidRange s (slotNumber (.quay e.1 (128 * b))) 128) s) s
def voidGang (s : State) (g : Gang) : State :=
  voidBanks (g.cores.foldl (fun s c => voidCore s c.num) s) (g.quays ++ g.quays2)

/-- The queue at the image's entry point. -/
def startQueue (lines : List (BitVec 512)) (entry : Dword) : Vector QEntry 3 :=
  let q1 := nextAddr lines entry
  #v[{ addr := entry }, q1, nextAddr lines q1.addr]
def gangidOf (launch : Word) (member : Nat) : Dword := BitVec.ofNat 64 (launch.toNat * 2 ^ 16 + member)
def corelocOf (x y : Nat) : Dword := BitVec.ofNat 64 (quadOf x y * 1024 + y * 32 + x)
def ensignOf (owner : BitVec 12) (gen : Byte) : Dword := BitVec.ofNat 64 (owner.toNat * 256 + gen.toNat)
/-- A core as the launch sequencer sets it. -/
def freshCore (g : Gang) (gen : Byte) (member : Nat) (named place : Nat × Nat) : Core :=
  let q := startQueue g.lines g.entries[0]
  let ctl : Ctl := { gangid := gangidOf g.desc.launch member, coreloc := corelocOf named.1 named.2
                     ensign := ensignOf g.desc.owner gen, capb := BitVec.ofNat 64 g.caps.length }
  let regs : Regs := { ctl := ctl, q := q, points := #v[{ addr := g.entries[1] }, { addr := g.entries[2] }, { addr := g.entries[3] }] }
  { x := place.1, y := place.2, regs := regs, qStart := q, checkpoint := regs }
/-- What a gang loads from its images at placement and at restoration: code, live maps, windows, manifest and capabilities. A saved
gang's working copy is the one that its commits and the commands have left, which it loads again (R347, R355; log 82, DEDUCED). -/
def loadImages (s : State) (g : Gang) : Gang :=
  let p := partOf s g.part
  let code := (getImage p g.desc.code).bind (·.code)
  let v := (code.bind fun c => c.variants[g.desc.variant]?)
  { g with
    lines := (v.map (·.lines)).getD []
    entries := match v with
      | some v => #v[v.entries.1, v.entries.2.1, v.entries.2.2.1, v.entries.2.2.2]
      | none => Vector.replicate 4 0
    livemaps := (code.map (·.livemaps)).getD []
    windows := (code.map (·.windows)).getD []
    manifest := if g.status = .queued then imageManifest s g.part g.desc.manifest else g.manifest
    caps := match getImage p g.desc.cap with | some i => capsOf i.bytes | none => [] }
/-- PLACEMENT of a gang at an origin, or at two: its cores and banks are its own from here, its slots void, every bank awake. -/
def placeGang (s : State) (gang : Nat) (a : (Nat × Nat) × List (Nat × List Nat)) (b : Option ((Nat × Nat) × List (Nat × List Nat))) :
    State :=
  match getGang s gang with
  | none => s
  | some g =>
    let g := loadImages s g
    let gen := ownerGen s g.desc.owner
    let first := shapeCores a.1.1 a.1.2 g.desc.w g.desc.h
    let second := match b with | some p => shapeCores p.1.1 p.1.2 g.desc.w g.desc.h | none => []
    let one (p : (Nat × Nat) × Nat) : Core := freshCore g gen p.2 p.1 p.1
    let two (p : (Nat × Nat) × Nat) : Core := freshCore g gen p.2 ((first[p.2]?).getD p.1) p.1
    let g := { g with
      status := .placed, x0 := a.1.1, y0 := a.1.2, x1 := (b.map (·.1.1)).getD 0, y1 := (b.map (·.1.2)).getD 0
      cores := first.zipIdx.map one ++ second.zipIdx.map two
      quays := a.2, quays2 := (b.map (·.2)).getD []
      drowsy := [], waking := [], dozing := [], started := false, stage := .port, turn := 0 }
    voidGang (modGang s gang fun _ => g) g

/-! ## Ends (R327, R328) -/

def modPart (s : State) (part : Nat) (f : Partition → Partition) : State := { s with parts := vmod s.parts part f }
def recordEnd (s : State) (part : Nat) (launch : Word) (normal : Bool) : State :=
  modPart s part fun p =>
    let ends := p.ends ++ [⟨launch, normal⟩]
    { p with ends := ends.drop (ends.length - 4096), endCount := p.endCount + 1 }
def removeGang (s : State) (gang : Nat) : State := { s with gangs := s.gangs.filter fun g => g.id != gang }
def byAge (l : List Gang) : List Gang :=
  l.foldl (fun a g => ins g a) []
where
  ins (g : Gang) : List Gang → List Gang
    | [] => [g]
    | h :: t => if g.entered < h.entered || g.entered == h.entered && g.id < h.id then g :: h :: t else h :: ins g t
/-- A launch has ended: its queued dependents become ready for it, or are cancelled in age order, and theirs after them. -/
def tellDependents (fuel : Nat) (s : State) (part : Nat) (launch : Word) (normal : Bool) : State :=
  match fuel with
  | 0 => s
  | n + 1 =>
    let deps := byAge (s.gangs.filter fun g => g.part == part && g.status == .queued && g.desc.deps.contains launch
      && !g.ended.contains launch)
    if normal then deps.foldl (fun s g => modGang s g.id fun g => { g with ended := g.ended ++ [launch] }) s
    else deps.foldl (fun s g =>
      match getGang s g.id with
      | none => s
      | some g =>
        let s := sendEvent (removeGang s g.id) 0x05 0 g.desc.launch 0 0 0 none (partField part)
        tellDependents n (recordEnd s part g.desc.launch false) part g.desc.launch false) s
def askScheduler (s : State) (part : Nat) : State := post s 0 (.scheduleDecision part)
def endLaunch (s : State) (part : Nat) (launch : Word) (normal : Bool) : State :=
  let s := recordEnd s part launch normal
  askScheduler (tellDependents (s.gangs.length + 1) s part launch normal) part

/-! ## Acknowledgements and the end of a partition's reset (R354, R362, R368) -/

def opOf (r : CmdRec) : Nat := (r.dw0.extractLsb' 56 8).toNat
def recOwner (r : CmdRec) : BitVec 12 := r.dw0.extractLsb' 28 12
def recLaunch (r : CmdRec) : Word := r.dw2.extractLsb' 32 32
/-- The status word of a command. -/
def statusWord (code affected : Nat) : Dword := BitVec.ofNat 64 (code + affected * 2 ^ 16)
/-- A ticket is acknowledged: a host's command with an EVENT; and the next command begins. -/
def ackTicket (s : State) (n : Nat) (status : Dword) : State :=
  let host := s.tickets.any fun t => t.num == n && t.host
  let s := { s with tickets := s.tickets.map fun t => if t.num = n then { t with acked := some status } else t }
  pumpQueue (if host then sendEvent s 0x08 0 0 0 0 (Config.ackWord n status) else s)
/-- The commands in progress that meet a condition are acknowledged with what they recorded. -/
def ackWhere (s : State) (p : CmdRec → Bool) : State :=
  (s.tickets.filter fun t => t.acked.isNone && t.applied.isSome && p t.cmd).foldl
    (fun s t => ackTicket s t.num (t.applied.getD 0)) s
/-- The KILL record that the harbourmaster posts for a fatal cause (R376). -/
def killRecord (g : Gang) : CmdRec :=
  { dw0 := BitVec.ofNat 64 (4 * 2 ^ 56 + g.desc.owner.toNat * 2 ^ 28), dw2 := BitVec.ofNat 64 (g.desc.launch.toNat * 2 ^ 32) }

/-- Every on-chip slot of a partition is void. -/
def voidPart (s : State) (part : Nat) : State :=
  let (x, y, w, h) := partRect s.partCount part
  let cores := (List.range h).flatMap fun j => (List.range w).map fun i => (x + i, y + j)
  let s := cores.foldl (fun s p => voidCore s (coreNum p.1 p.2)) s
  (shapeQuads cores).foldl (fun s q => voidRange s (slotNumber (.quay q 0)) 8192) s
/-- A partition drops its images and bindings; an owner keeps its generation (R377). -/
def dropPart (s : State) (part : Nat) : State :=
  let s := { s with owners := s.owners.map fun o => if o.bound = some part then { o with bound := none, key := 0 } else o }
  modPart s part fun p => { p with images := [], sched := schedReset, endCount := 0, reservation := none, resetting := false }
/-- The last steps of a reset, once no gang of the partition is left; a reset of the package then applies its new map (R18). -/
def endReset (s : State) (part : Nat) : State :=
  if !(partOf s part).resetting || s.gangs.any (fun g => g.part == part) then s
  else match s.newCount with
    | none =>
      let s := boxAdd (dropPart (voidPart s part) part) 0x0070 (partByte part) 2 (BitVec.ofNat 64 part) 0
      let s := sendEvent s 0x09 0 0 0 0 0 none (partField part)
      ackWhere s fun r => opOf r == 5 && (r.dw0.extractLsb' 0 2).toNat == part
    | some n =>
      if !s.gangs.isEmpty then s
      else
        let s := (List.range s.partCount).foldl (fun s p =>
          boxAdd (dropPart (voidPart s p) p) 0x0070 (partByte p) 2 (BitVec.ofNat 64 p) 0) s
        let s := sendEvent { s with partCount := n, newCount := none } 0x09 0 0 0 0 0
        ackWhere s fun r => opOf r == 5

/-! ## Kills (R360, R361, R375, R376) -/

def stepOwner (s : State) (o : BitVec 12) : State :=
  { s with owners := s.owners.map fun r => if r.id = o then { r with gen := r.gen + 1 } else r }
/-- Every placed gang of an owner takes its generation into ENSIGN. -/
def takeGen (s : State) (o : BitVec 12) : State :=
  let gen := ownerGen s o
  let put (r : Regs) : Regs := { r with ctl := { r.ctl with ensign := ensignOf o gen } }
  { s with gangs := s.gangs.map fun g =>
      if g.desc.owner = o then modCores g fun c => { c with regs := put c.regs, checkpoint := put c.checkpoint } else g }
/-- A request on its way through this chip under an owner's ensign. -/
def ownerEvent (o : BitVec 12) : Instr → Bool
  | .stagedEffectPerform e => e.owner == o && e.kind != .kick
  | .landingArrival _ _ _ (.request _ _ w _ _ _ _ _) => w == o
  | .windowArmAtHome _ w _ _ _ _ _ _ _ => w == o
  | .windowContributionArrival w _ _ _ _ _ _ _ _ _ => w.owner == o
  | _ => false
/-- Package cycles until the last of those requests has come. -/
def ownerWait (s : State) (o : BitVec 12) : Nat :=
  s.agenda.foldl (fun a e => if ownerEvent o e.2 then max a (e.1 - s.ptide) else a) 0
/-- The chips that an ensign fence asks (R361). -/
def fenceTargets (s : State) (g : Gang) : List (BitVec 22) :=
  let held := s.gangs.filter fun h => h.desc.owner == g.desc.owner && h.status == .placed
  ((g.caps.filter capValid).map capChip ++ g.desc.chips ++ held.flatMap fun h => h.desc.chips).eraseDups.filter
    fun c => c != s.chip && !chipLostTo s g.desc.owner c
/-- A chip answers the fence within 2^27 package cycles, or is passed over (R360). -/
def fenceOne (gang : Nat) (a : Nat × State) (c : BitVec 22) : Nat × State :=
  match getGang a.2 gang with
  | none => a
  | some g =>
    let s := { a.2 with sent := a.2.sent ++ [.fence g.desc.owner c] }
    let (d, s) := draw Config.fabricTime s
    if d ≤ 2 ^ 27 then (max a.1 d, s)
    else (max a.1 (2 ^ 27), post (modGang s gang fun g => { g with fenceChips := g.fenceChips ++ [c] }) (2 ^ 27)
      (.ensignFenceTimeout gang c))
/-- One entry of a core, by its serial number, is performed where its gang stops, unless a primary's stands for it or it is a read that
holds the tide. -/
def performNow (k : CoreId) (s : State) (serial : Nat) : State :=
  match getMember s k with
  | none => s
  | some (g, c) =>
    match c.accesses.find? fun a => a.serial == serial && !isResult a && !(match a.op with | .waitp _ => true | _ => false) with
    | some a => if followsTwin g k.idx a then s else performBoth s g k a
    | none => s
/-- Every entry of the cycles that have run leaves its queue that R298 does not hold: a marker retires, and an entry of core scope is
performed as it leaves (R375). -/
def leaveAll (k : CoreId) (fuel : Nat) (s : State) : State :=
  match fuel with
  | 0 => s
  | n + 1 =>
    match getMember s k with
    | none => s
    | some (g, c) =>
      let waits (a : Access) : Bool := match a.op with | .waitp _ => true | _ => false
      match c.accesses.find? fun a => mayLeave c a && !waits a && (a.issued < g.tide || g.stage == .port) with
      | none => s
      | some a =>
        leaveAll k n (match a.op with
          | .marker => modMember s k fun c => removeAccess c a.serial
          | _ => if coreScope c a then performAccess s g k a
            else modMember s k fun c => modAccess c a.serial fun a => { a with left := some (accScope c.num a) })
/-- At a kill's first step the entries that have left are performed, in order; all others are dropped, and every exchange in flight ends
(R375). A release lets a released XFAR and a returning atomic be performed (R365). -/
def settleBuffers (s : State) (gang : Nat) (release : Bool) : State :=
  match getGang s gang with
  | none => s
  | some g =>
    let s := g.cores.zipIdx.foldl (fun s p => leaveAll ⟨gang, p.2⟩ p.1.accesses.length s) s
    let left (j : Nat) (s : State) : List Nat := match getMember s ⟨gang, j⟩ with
      | some (_, c) => (c.accesses.filter fun a => a.left.isSome).map (·.serial)
      | none => []
    let s := (List.range g.cores.length).foldl (fun s j => (left j s).foldl (performNow ⟨gang, j⟩) s) s
    modGang s gang fun g => modCores g fun c => { c with
      accesses := [], asks := [], exchs := [], cmds := Vector.replicate 3 none, fabs := [], pens := [], links := [], atEnd := []
      raised := []
      standing := if release then c.standing.filter (·.released) else [], fences := [] }
/-- A commit boundary is in progress: every chip has come to the barrier of a COMMIT. -/
def atBoundary (s : State) (g : Gang) : Bool := g.barrier.any (·.commit) && allArrived s g
/-- Step 1 and the start of step 2: issue stops once a commit boundary in progress is complete, the other gangs of the owner hold under
cause 3, the fence goes out, and GANG_KILL ends the kill once every request under the owner's ensign has been performed or dropped. A
release holds no other gang (R365). -/
def beginKill (s : State) (gang : Nat) (fatal : Option Fatal) (byHost : Bool) : State :=
  match getGang s gang with
  | none => s
  | some g =>
    let fatal := fatal.or g.fatal
    if g.status = .killing && g.kill.isSome then s
    else if atBoundary s g then modGang s gang fun g => { g with kill := some byHost, fatal := fatal }
    else
      let release := fatal.isNone && !byHost
      let s := settleBuffers s gang release
      let s := modGang s gang fun g => { g with status := .killing, kill := some byHost, fatal := fatal, preempt := none, barrier := none }
      let s := if (otherChips s g).isEmpty then s else { s with sent := s.sent ++ [.kill g.desc.launch] }
      if release then post s (ownerWait s g.desc.owner) (.gangKill gang .own)
      else
        let hold (h : Gang) : Gang :=
          if h.id != gang && h.desc.owner == g.desc.owner && h.status == .placed then startClaim s h 3 0 false 0 (some gang) else h
        let s := { s with gangs := s.gangs.map hold }
        let s := { s with sent := s.sent ++ (fenceTargets s g).map fun c => .step c (.gangKill gang (.away g.desc.owner false)) }
        let (w, s) := (fenceTargets s g).foldl (fenceOne gang) (ownerWait s g.desc.owner, s)
        post s w (.gangKill gang (.of byHost))
/-- Step 4: what the gang held is void, and the gang is gone. -/
def eraseGang (s : State) (g : Gang) : State := removeGang (voidGang s g) g.id
/-- Steps 4 and 5 of a kill or a release. -/
def finishGang (s : State) (g : Gang) (kind : Nat) (normal : Bool) : State :=
  let f := g.fatal.getD { member := 0, trapc := 0, tval := 0 }
  let s := sendEvent (eraseGang s g) kind f.member g.desc.launch f.trapc f.tval 0 (some g) (partField g.part)
  let s := if normal then s
    else boxAdd s 0x0071 (partByte g.part) 3 (BitVec.ofNat 64 g.part) (g.desc.launch.setWidth 64) g.desc.launch f.member
  let s := ackWhere (endLaunch s g.part g.desc.launch normal) fun r =>
    opOf r == 4 && recLaunch r == g.desc.launch && recOwner r == g.desc.owner
  endReset s g.part
/-- A launch that has standing exchanges or released effects on their way (R226, R365). -/
def stillOut (g : Gang) : Bool := g.cores.any fun c => c.standing.any (·.released) || !c.outstanding.isEmpty
/-- A kill of an owner's gang that another chip runs, which it numbers `gang` (R361): in its step 2 the owner's placed gangs hold here too,
and in its step 3 they take the owner's next generation, with which their holds end. -/
def killAway (s : State) (gang : Nat) (owner : BitVec 12) (ends : Bool) : State :=
  if ends then
    let s := takeGen (stepOwner s owner) owner
    { s with gangs := s.gangs.map fun h => endClaims h fun c => c.cause == 3 && c.fence == some gang && c.by_ == 1 }
  else
    let hold (h : Gang) : Gang := if h.desc.owner == owner && h.status == .placed then startClaim s h 3 0 false 0 (some gang) 1 else h
    { s with gangs := s.gangs.map hold }
/-- GANG_KILL: steps 3 to 5, and what another chip's kill does here. For a gang of several chips that is not being killed here it is the
word of another chip that its kill has begun (R361). -/
def execGangKill (gang : Nat) (by_ : KillBy) (s : State) : Out :=
  let byHost := by_ == .host
  match by_ with
  | .away owner ends => .next (killAway s gang owner ends)
  | _ =>
  match getGang s gang with
  | none => .next s
  | some g =>
    if g.status != .killing || g.kill.isNone then .next (if (otherChips s g).isEmpty then s else beginKill s gang none byHost)
    else if g.fatal.isNone && !byHost then
      if stillOut g then
        let (d, s) := draw Config.serviceTime s
        .next (post s (d + 1) (.gangKill gang .own))
      else .next (finishGang s g 0x0A true)
    else
      let more := (partOf s g.part).resetting && s.gangs.any fun h =>
        h.id != gang && h.desc.owner == g.desc.owner && h.status == .killing
      let s := if more then s else takeGen (stepOwner s g.desc.owner) g.desc.owner
      let s := { s with gangs := s.gangs.map fun h =>
        if h.desc.owner = g.desc.owner then endClaims h fun c => c.cause == 3 && c.fence == some gang && c.by_ == 0 else h }
      let s := if more then s
        else { s with sent := s.sent ++ (fenceTargets s g).map fun c => .step c (.gangKill gang (.away g.desc.owner true)) }
      .next (finishGang s g (if g.fatal.isSome then 0x02 else 0x05) false)
/-- A fatal cause: recorded, the gang stops, and the harbourmaster posts its KILL (R376). -/
def killFatal (s : State) (gang : Nat) (f : Fatal) : State :=
  match getGang s gang with
  | none => s
  | some g =>
    if g.status = .killing then s
    else
      let s := if f.poison then boxAdd s 0x0011 (partByte g.part) 3 f.trapc f.tval g.desc.launch f.member f.slot
        else boxAdd s 0x0010 (partByte g.part) 3 f.trapc f.tval g.desc.launch f.member
      postOwn (modGang s gang fun g => { g with status := .killing, fatal := some f }) (killRecord g)

/-! ## Traps (R75, R76, R152, R153, R256, R269) -/

/-- The gravest cause of a cycle: by class, then by member, then within that member (R269, R376). -/
def gangCause (g : Gang) : Option (Nat × Raised) :=
  g.cores.zipIdx.foldl (fun a p =>
    match gravest p.1.raised with
    | none => a
    | some r =>
      match a with
      | none => some (p.2, r)
      | some (i, q) =>
        if causeClass r.code < causeClass q.code || causeClass r.code == causeClass q.code && memberOf g p.2 < memberOf g i
        then some (p.2, r) else some (i, q)) none
/-- TRAPPC of a cause: TRAPQ0 for every cause of S but CHAIN (R61; log 77, DEDUCED), else the instruction (R74). -/
def trapPc (r : Raised) (q : Vector QEntry 3) : Dword := if r.cl = .s ∧ r.code ≠ cChain then q[0].addr else r.pc
/-- A cause that kills its gang: of the fatal class, of a FENCE (code 0), or a PERMISSION that no recheck can mend. -/
def killsGang (r : Raised) : Bool := r.code == 0 || causeClass r.code == 0 || r.code == cPermission && r.never
/-- A core takes its own trap: held until TRET, its queue as the issues of the cycle have left it; or a fatal one, its queue as the cycle
found it (R376). An error of a register that the trap overwrites unread is gone (R378). -/
def trapCore (s : State) (c : Core) (fatal : Bool) : State × Core :=
  match gravest c.raised with
  | none => (s, c)
  | some r =>
    let q := if fatal then c.qStart else c.regs.q
    if (if fatal then r.code != 0 && killsGang r else 1 ≤ causeClass r.code && causeClass r.code != 2) then
      let (s, c) := overwriteTrap s c
      (s, { takeTrap c (trapcOf r.cl r.code) r.tval (trapPc r q) q with trapped := !fatal, raised := [] })
    else (s, { c with raised := [] })
/-- The cores of a gang take their traps. -/
def trapGang (s : State) (gang : Nat) (fatal : Bool) : State :=
  match getGang s gang with
  | none => s
  | some g => (List.range g.cores.length).foldl (fun s i =>
      match getMember s ⟨gang, i⟩ with
      | none => s
      | some (_, c) =>
        let (s, c) := trapCore s c fatal
        modMember s ⟨gang, i⟩ fun _ => c) s
def trapCode (c : Core) : BitVec 8 := c.regs.ctl.trapc.setWidth 8
/-- The hold of cause 5 begins, and the harbourmaster serves each member that trapped. -/
def holdTrap (s : State) (gang : Nat) : State :=
  match getGang s gang with
  | none => s
  | some g =>
    let all := g.cores.zipIdx.filter fun p => p.1.trapped && !isSecondary g p.2
    let first := ((all.map (·.2)).headD 0)
    let s := modGang s gang fun g => startClaim s g 5 (memberOf g first)
    let s := all.foldl (fun s p =>
      let r := p.1.regs.ctl
      let code := trapCode p.1
      let say (kind : Nat) : State := sendEvent s kind p.2 g.desc.launch r.trapc r.tval 0 none (partField g.part)
      if code = cTrap then say 0x01 else if code = cBreak then say 0x06 else if code = cAbsent then say 0x07 else s) s
    let (d, s) := draw Config.serviceTime s
    let s := if all.any fun p => trapCode p.1 == cPermission then post s d (.permissionRecheck gang) else s
    if all.any fun p => trapCode p.1 == cAbsent then post s d (.absentSuspend gang) else s
/-- THE CAUSES OF A CYCLE TAKE EFFECT: the gang is to be killed once the cycle has ended, with the fatal causes that were raised first
(R375, R376); or it rolls back, or is held in a trap, whose suppressed issues run again on the held cycle. -/
def settle (s : State) (gang : Nat) : State :=
  match getGang s gang with
  | none => s
  | some g =>
    match gangCause g with
    | none => s
    | some (i, r) =>
      let member := memberOf g i
      let trapc := trapcOf r.cl r.code
      let fatal : Fatal := { member := member, trapc := if r.code = 0 then 0 else trapc, tval := r.tval }
      if killsGang r then
        modGang (trapGang s gang true) gang fun g => { g with fatal := g.fatal.or (some fatal) }
      else if causeClass r.code = 2 then
        let a : Abort := { trapc := trapc, tval := r.tval, member := i, pc := r.pc, named := r.code != cSafeDeadline, tell := true }
        modGang s gang fun g => { g with aborted := some a }
      else
        let again := g.cores.any fun c => match gravest c.raised with | some q => causeReissues q.code | none => false
        let s := trapGang s gang false
        if again then holdTrap (modGang s gang fun g => { g with stage := .issue, turn := 0 }) gang else s
/-- TRET to every member that trapped (R256, R365). -/
def resumeGang (s : State) (gang : Nat) : State :=
  match getGang s gang with
  | none => s
  | some g => (List.range g.cores.length).foldl (fun s i => tretMember s ⟨gang, i⟩) s
/-- Held in a trap as R365 means it. -/
def heldInTrap (g : Gang) : Bool :=
  g.status == .placed && g.claims 5 && g.cores.any fun c => c.trapped && (trapCode c == cTrap || trapCode c == cBreak)

/-! ## PERMISSION_RECHECK (R357) -/

/-- The kinds of access that an instruction makes to its page: reading, writing. -/
def accessKinds : Instr → Bool × Bool
  | .ld .. | .lda .. | .waitp .. | .vld .. | .vldg .. | .xtstv .. | .xred .. | .xtri .. => (true, false)
  | .st .. | .stl .. | .vst .. | .vsts .. | .xpen .. | .xdrop .. => (false, true)
  | _ => (true, true)
def trapCluster (c : Core) : Cl :=
  match (c.regs.ctl.trapc.extractLsb' 8 2).toNat with | 0 => .s | 1 => .v | 2 => .m | _ => .x
/-- The authoritative entry of a VBA in a gang's image. -/
def authEntry (s : State) (g : Gang) (w : Nat) : Option MEntry := findEntry (imageManifest s g.part g.desc.manifest) w
def grants (e : MEntry) (k : Bool × Bool) : Bool :=
  mePresent e && (!k.1 || meRead e) && (!k.2 || (meWrite e && !meCow e))
/-- The REFRESH of the page that holds VBA `w`, with the entry's fields. -/
def refreshRecord (g : Gang) (e : MEntry) (w : Nat) : CmdRec :=
  let n := pageBlocks (mePsize e)
  let first := meVba e + (w - meVba e) / n * n
  { dw0 := BitVec.ofNat 64 (3 * 2 ^ 56 + meLevel e * 2 ^ 52 + g.desc.owner.toNat * 2 ^ 28), dw1 := BitVec.ofNat 64 first
    dw2 := BitVec.ofNat 64 (g.desc.launch.toNat * 2 ^ 32 + n)
    dw3 := (if meWrite e then 0x8000000000000000 else 0) ||| (if meRead e then 0x4000000000000000 else 0)
      ||| (if meCow e then 0x2000000000000000 else 0) ||| BitVec.ofNat 64 (meSlot e + (first - meVba e)) }
/-- A member whose recheck fails: the gang is killed. -/
def recheckFails (s : State) (g : Gang) (i : Nat) (c : Core) : State :=
  killFatal s g.id { member := memberOf g i, trapc := c.regs.ctl.trapc, tval := c.regs.ctl.tval }
/-- One member's recheck: its refresh is posted, or waited for; then the fault is absorbed, or fatal. A pair counts as one. -/
def recheckOne (s : State) (gang i : Nat) (c : Core) : State × Bool :=
  match getGang s gang with
  | none => (s, false)
  | some g =>
    let m := memberOf g i
    let ticket := g.rechecks.find? fun p => p.1 == m
    if g.status != .placed then (s, false)
    else match ticket.bind fun p => s.tickets.find? fun t => t.num == p.2 with
      | some t =>
        match t.acked with
        | none => (s, true)
        | some status =>
          if status.extractLsb' 0 8 != 0 then (recheckFails s g i c, false)
          else
            let s := if isSecondary g i then s else modPart s g.part fun p => { p with absorbed := p.absorbed + 1 }
            (tretMember s ⟨gang, i⟩, false)
      | none =>
        let w := (c.regs.ctl.tval.extractLsb' 0 40).toNat
        let kinds := match fetchAt false g.lines (trapCluster c) c.regs.ctl.trappc 0 with
          | .ok i => accessKinds i
          | .error _ => (true, true)
        match authEntry s g w with
        | some e =>
          if !grants e kinds then (recheckFails s g i c, false)
          else if queueFull s then (s, true)
          else
            let (n, s) := postCmd s (refreshRecord g e w) false
            (modGang s gang fun g => { g with rechecks := g.rechecks ++ [(m, n)] }, true)
        | none => (recheckFails s g i c, false)
def execPermissionRecheck (gang : Nat) (s : State) : Out :=
  match getGang s gang with
  | none => .next s
  | some g =>
    let all := g.cores.zipIdx.filter fun p => p.1.trapped && trapCode p.1 == cPermission
    let (s, wait) := all.foldl (fun a p =>
      let r := recheckOne a.1 gang p.2 p.1
      (r.1, a.2 || r.2)) (s, false)
    if wait then
      let (d, s) := draw Config.serviceTime s
      .next (post s (d + 1) (.permissionRecheck gang))
    else .next (modGang s gang fun g => { g with rechecks := [] })

/-! ## Suspension and forced rollback (R318, R337, R346, R356) -/

/-- A rollback forced in package time: `a` is the first gang cycle that has not run. The other chips are told, and save too (R329).
`by_` is the core and the instruction whose cause forces it, if one does. -/
def forceRollback (s : State) (gang : Nat) (trapc tval : Dword) (save : Option Nat) (tell : Bool := true)
    (by_ : Option (Nat × Dword) := none) : State :=
  modGang s gang fun g =>
    let g := modCores g fun c => { c with trapped := false }
    let g := endClaims g fun c => c.cause == 5
    { g with aborted := some { trapc := trapc, tval := tval, forced := true, tell := tell, named := by_.isSome
                               member := (by_.map (·.1)).getD 0, pc := (by_.map (·.2)).getD 0 }
             saveNext := save, preempt := none }
/-- The phase has issued what a suspension may not carry: an open window, a fabric instruction, an XDROP, a staged XFAR. -/
def mustRollBack (g : Gang) : Bool :=
  g.fabricPhase || g.dropPhase || (g.home.any fun w => !w.armed.isEmpty)
    || g.cores.any fun c => !c.armed.isEmpty || c.standing.any fun t => !t.released
/-- The number by which SLOT names a slot at its level (R279), and that level. -/
def slotNum (s : State) (g : Gang) (sl : Slot) : Nat × Nat :=
  match sl with
  | .tile _ i => (0, i)
  | .berth _ i => (1, i)
  | .quay q i =>
    let quays := if g.quays.any fun e => e.1 == q then g.quays else g.quays2
    match quays.findIdx? fun e => e.1 == q with
    | some r => (2, r * 2 ^ 13 + 128 * (((quays[r]?).bind fun e => e.2.findIdx? fun b => b == i / 128).getD 0) + i % 128)
    | none => (2, if quays.isEmpty then q * 2 ^ 13 + i else 2 ^ 17 + i)
  | .hbm k i => (3, (k - partStack0 s.partCount g.part) * 2 ^ 24 + i)
  | .far i => (4, i)
/-- A command's range, and the levels it acts on. -/
def recFirst (r : CmdRec) : Nat := (r.dw1.extractLsb' 0 52).toNat
def recCount (r : CmdRec) : Nat := (r.dw2.extractLsb' 0 32).toNat
def recHint (r : CmdRec) : Nat := (r.dw0.extractLsb' 52 4).toNat
def hintTakes (r : CmdRec) (level : Nat) : Bool := recHint r == 0 || recHint r == level
/-- A slot that the manifest `m` maps a VBA of the command's range to. -/
def inRangeOf (s : State) (g : Gang) (m : Manifest) (r : CmdRec) (sl : Slot) : Bool :=
  let (level, n) := slotNum s g sl
  m.any fun p =>
    let first := if meLevel p.2 = 1 then meSlot p.2 % 512 else meSlot p.2
    meValid p.2 && meLevel p.2 == level && hintTakes r level && first ≤ n && n - first < meCount p.2
      && recFirst r ≤ meVba p.2 + (n - first) && meVba p.2 + (n - first) < recFirst r + recCount r
/-- The slots that a placed or a saved gang still reaches: cards, exchanges, landings and window results, queue and buffer entries (R356). -/
def heldSlots (s : State) (g : Gang) : List Slot :=
  let ofCore (c : Core) : List Slot :=
    (c.cards.filter fun j => j.open_ || g.tide ≤ j.last).flatMap (fun j => (j.reads ++ j.writes).filterMap fun r =>
        match r with | .slot sl => some sl | _ => none)
      ++ c.exchs.flatMap (fun e => e.pairs.flatMap fun p => [p.near, p.far])
      ++ c.standing.flatMap (fun t => t.pennant :: t.pairs.flatMap fun p => [p.1, p.2])
      ++ c.accesses.flatMap (fun a => a.spots.map (·.slot)) ++ c.pens.map (·.slot)
  (g.cores ++ g.kept).flatMap ofCore ++ g.landed.map (·.slot) ++ g.home.flatMap fun w => w.reserved.filterMap fun b =>
    match translate s g 0 (BitVec.ofNat 52 (w.decl.vba + b)) true with | .ok p => some p.slot | .error _ => none
/-- An affected gang holds something that still reaches an invalidated slot, as the manifests stood when it was invalidated (R356). -/
def stillReaches (s : State) (t : Ticket) (g : Gang) : Bool :=
  t.was.any fun p => p.1 == g.id && (heldSlots s g).any fun sl => inRangeOf s g p.2 t.cmd sl
/-- A pending INVALIDATE waits for this gang. -/
def awaitedByInvalidate (s : State) (g : Gang) : Bool :=
  s.tickets.any fun t => t.acked.isNone && t.applied.isSome && stillReaches s t g
def execAbsentSuspend (gang : Nat) (s : State) : Out :=
  match getGang s gang with
  | none => .next s
  | some g =>
    match g.cores.zipIdx.find? fun p => p.1.trapped && trapCode p.1 == cAbsent with
    | none => .next s
    | some (c, i) =>
      let r := c.regs.ctl
      let s := modGang s gang fun g => { g with awaitPage := some r.tval }
      if mustRollBack g || awaitedByInvalidate s g then .next (forceRollback s gang r.trapc r.tval (some 2) true (some (i, r.trappc)))
      else if g.cores.any fun c => c.standing.any (·.released) then
        let (d, s) := draw Config.serviceTime s
        .next (post s (d + 1) (.absentSuspend gang))
      else
        let s := modGang s gang fun g => { g with saveNext := some 3, preempt := none }
        .next (if (otherChips s g).isEmpty then s else { s with sent := s.sent ++ [.save g.desc.launch g.tide 3] })
/-- Another chip suspends its copy of the gang, and so this one is suspended where it stands, between two of its gang cycles; or, where
its own phase may not be suspended, the gang rolls back on every chip (R329, R346; log 83, DESIGN CHOICE). -/
def suspendToo (s : State) (gang : Nat) : State :=
  match getGang s gang with
  | none => s
  | some g =>
    if g.status != .placed || g.saveNext.isSome then s
    else if mustRollBack g || awaitedByInvalidate s g then
      forceRollback s gang (trapcOf .s cAbsent) (BitVec.ofNat 64 g.tide) (some 2)
    else modGang s gang fun g => { g with saveNext := some 3, preempt := none }

/-- A chip is lost to some gangs (R318): each that it holds too rolls back and is saved, in-flight requests toward it fail, and lost
atomics are reported to the next FENCE (R251, R310). -/
def loseChip (s : State) (chip : BitVec 22) (gangs : List Gang) : State :=
  let failOps (s : State) (g : Gang) : State :=
    g.cores.zipIdx.foldl (fun s p =>
      let dead := p.1.fabs.filter fun o => o.chip == chip && o.active && !o.done
      let s := dead.foldl (fun s o => match o.instr with
        | .xred .. | .xtri .. => s
        | _ => completeFab s ⟨g.id, p.2⟩ o.serial (some (checksumFail o.ch))) s
      let gone := p.1.outstanding.filter fun e => e.effect.chip == chip && chip != s.chip && !isSecondary g p.2
      gone.foldl (fun s e => post s 0
        (.atomicReturn ⟨g.id, p.2⟩ e.effect.dest (effectWrites e.effect.kind) .n32 .dead chip e.serial)) s) s
  let s := gangs.foldl failOps s
  let shared := gangs.filter fun g => g.status == .placed && (otherChips s g).contains chip
  shared.foldl (fun s g =>
    let s := forceRollback s g.id (trapcOf .s cSafeDeadline) (BitVec.ofNat 64 g.tide) (some 2) false
    modGang s g.id fun g => { endClaims g (fun c => c.cause == 3 && c.fence.isNone) with kind := 7, barrier := none }) s
/-- CHIP_LOST: no gang reaches the chip any more. -/
def execChipLost (chip : BitVec 22) (s : State) : Out :=
  let s := { s with lostChips := if s.lostChips.contains chip then s.lostChips else s.lostChips ++ [chip] }
  .next (loseChip (boxAdd s 0x0061 0xFF 1 (chip.setWidth 64) 0) chip s.gangs)
/-- ENSIGN_FENCE_TIMEOUT: a chip that does not answer is passed over, and to every gang of the owner it counts as lost until the host
has reset it (R360). -/
def execEnsignFenceTimeout (gang : Nat) (chip : BitVec 22) (s : State) : Out :=
  let s := boxAdd s 0x0061 0xFF 1 (chip.setWidth 64) 0
  match getGang s gang with
  | none => .next s
  | some g =>
    let o := g.desc.owner
    let s := { s with lostTo := if s.lostTo.contains (o, chip) then s.lostTo else s.lostTo ++ [(o, chip)] }
    let s := loseChip s chip (s.gangs.filter fun h => h.desc.owner == o)
    .next (modGang s gang fun g => { g with fenceChips := g.fenceChips.filter fun c => c != chip })

/-! ## The scheduler (R328, R333 to R336) -/

def schedOf (s : State) (part i : Nat) : Nat := (((partOf s part).sched[i]?).getD 0).toNat
def effPrio (s : State) (g : Gang) : Nat :=
  let interval := schedOf s g.part 1
  min 7 (g.desc.prio + if interval = 0 then 0 else (s.ptide - g.age) / interval)
def gangReady (g : Gang) : Bool := (g.status == .queued || g.status == .saved) && g.desc.deps.all fun d => g.ended.contains d
/-- Ready entries in descending effective priority, then ascending age. -/
def readyOrder (s : State) (part : Nat) : List Gang :=
  (s.gangs.filter fun g => g.part == part && gangReady g).foldl (fun a g => ins s g a) []
where
  ins (s : State) (g : Gang) : List Gang → List Gang
    | [] => [g]
    | h :: t =>
      let a := effPrio s g
      let b := effPrio s h
      if b < a || a == b && (g.age < h.age || g.age == h.age && g.id < h.id) then g :: h :: t else h :: ins s g t
/-- The shape could stand at an origin if no gang ran there: its quadrants are in service and its routes fit (R292, R330, R392). -/
def usable (s : State) (g : Gang) (o : Nat × Nat) : Bool :=
  let quads := shapeQuads (shapeCores o.1 o.2 g.desc.w g.desc.h)
  let m := imageManifest s g.part g.desc.manifest
  routesFit s g.desc quads && !(quads.any fun q => ((s.quads[q]?).map fun q => q.withdrawn || q.pending.isSome).getD false)
    && quaysNamed m ≤ quads.length
/-- Of the origins where it could stand, the one whose rectangle overlaps the fewest running member cores, the lowest among equals. -/
def reserveFor (s : State) (g : Gang) : Option (Nat × Nat × Nat) :=
  let all := s.gangs.flatMap (·.cores)
  let cost (o : Nat × Nat) : Nat := (all.filter fun c => inShapeOf o.1 o.2 g.desc.w g.desc.h c).length
  (((originsOf s.partCount g.part g.desc.w g.desc.h).filter (usable s g)).foldl (fun (a : Option (Nat × Nat × Nat)) o =>
    match a with
    | none => some (cost o, o.1, o.2)
    | some b => if cost o < b.1 then some (cost o, o.1, o.2) else some b) none).map fun b => (g.id, b.2.1, b.2.2)
def reservedShape (s : State) (part : Nat) : Option (Nat × Nat × Nat × Nat × Nat) :=
  match (partOf s part).reservation with
  | some (id, x, y) => (getGang s id).map fun g => (id, x, y, g.desc.w, g.desc.h)
  | none => none
/-- A pre-emption request, with its deadline unless two forced rollbacks have just passed (R337). The other chips are told (R329). -/
def requestPreempt (s : State) (gang : Nat) (rotation : Bool) (tell : Bool := true) : State :=
  match getGang s gang with
  | none => s
  | some g =>
    if g.preempt.isSome || g.status != .placed then s
    else
      let deadline := g.forced < 2
      let s := modGang s gang fun g => { g with preempt := some { since := s.ptide, rotation := rotation, deadline := deadline } }
      let s := if tell && !(otherChips s g).isEmpty then { s with sent := s.sent ++ [.save g.desc.launch g.tide 0] } else s
      if deadline then post s (schedOf s g.part 2) (.safeDeadlineExpiry gang) else s
/-- A copy is placed: MULTICHIP_START comes at once to a gang of this chip alone, and to any other from outside, once every listed chip
has placed its copy (R329). -/
def tellPlaced (s : State) (g : Gang) (d : Nat) : State :=
  if (otherChips s g).isEmpty then post s d (.multichipStart g.id) else { s with sent := s.sent ++ [.placed g.desc.launch] }
/-- One entry at a decision: placed where it fits; the first that does not fit takes the reservation. A saved gang is restored
at its place. -/
def decideOne (s : State) (g : Gang) : State :=
  match placeFor s g (reservedShape s g.part) with
  | some (a, banks, b) =>
    let saved := g.status == .saved
    let kept := g.kept
    let s := placeGang s g.id (a, banks) b
    let s := modPart s g.part fun p => { p with reservation := match p.reservation with
      | some r => if r.1 = g.id then none else some r
      | none => none }
    let (d, s) := draw Config.placeTime s
    if saved then post (modGang s g.id fun g => { g with kept := kept }) d (.contextRestore g.id a.1 a.2)
    else tellPlaced s g d
  | none =>
    if (partOf s g.part).reservation.isNone then modPart s g.part fun p => { p with reservation := reserveFor s g } else s
/-- The package tide of an entry's next aging step: its age and the next whole AGEINT after now. -/
def nextAging (s : State) (interval : Nat) (g : Gang) : Nat := g.age + ((s.ptide - g.age) / interval + 1) * interval
/-- AGING_STEP is due at the next aging step of every ready entry. -/
def postAging (s : State) (part : Nat) : State :=
  let interval := schedOf s part 1
  if interval = 0 then s
  else (s.gangs.filter fun g => g.part == part && gangReady g).foldl (fun s g =>
    let t := nextAging s interval g
    if s.agenda.any fun e => e.1 == t && e.2 == .agingStep part then s else post s (t - s.ptide) (.agingStep part)) s
/-- THE DECISIONS of R334, but for rotation. -/
def decide (s : State) (part : Nat) : State :=
  if (partOf s part).resetting then s
  else
    let s := modPart s part fun p => { p with reservation := none }
    let s := postAging ((readyOrder s part).foldl decideOne s) part
    match reservedShape s part with
    | none => s
    | some (id, x, y, w, h) =>
      match getGang s id with
      | none => s
      | some holder =>
        let lower (g : Gang) : Bool := g.part == part && g.status == .placed && g.desc.prio < effPrio s holder
          && g.cores.any fun c => inShapeOf x y w h c
        (s.gangs.filter lower).foldl (fun s g => requestPreempt s g.id false) s
def execScheduleDecision (part : Nat) (s : State) : Out := .next (decide s part)
/-- Rotation at a commit boundary: a gang that has run its quantum yields to a holder of equal priority. -/
def rotates (s : State) (g : Gang) : Bool :=
  match reservedShape s g.part with
  | none => false
  | some (id, x, y, w, h) =>
    match getGang s id with
    | none => false
    | some holder => effPrio s holder == g.desc.prio && !(s.ptide - g.runStart < schedOf s g.part 0)
        && g.cores.any fun c => inShapeOf x y w h c
def rotate (s : State) (gang : Nat) : State :=
  match getGang s gang with
  | none => s
  | some g => if rotates s g then requestPreempt s gang true else s
/-- AGING_STEP: a decision, which makes the next steps due. -/
def execAgingStep (part : Nat) (s : State) : Out := .next (decide s part)
/-! ### Routes between chips (R393) -/

/-- A dead port or a dead long link. -/
def linkDead (s : State) (l : Nat) : Bool :=
  if l < 64 then ((s.ports[l]?).map fun p => p.lanes == 0).getD false else s.routes.getLsbD (l - 64)
def routeDead (s : State) (chip : BitVec 22) (alt : Bool) : Bool :=
  (List.range 184).any fun l => linkDead s l && routeUses s chip alt l
/-- The chips that the gangs of this package send to. -/
def knownChips (s : State) : List (BitVec 22) :=
  (s.gangs.flatMap fun g => g.desc.chips ++ (g.caps.filter capValid).map capChip).eraseDups.filter fun c =>
    c != s.chip && !s.lostChips.contains c
/-- One destination goes over to its alternate route, or with no route left is lost. -/
def switchOne (s : State) (chip : BitVec 22) : State :=
  let alt := s.alternate.contains chip
  if !routeDead s chip alt then s
  else if !alt && !routeDead s chip true then { s with alternate := s.alternate ++ [chip] }
  else post s 0 (.chipLost chip)
def switchRoutes (s : State) : State := (knownChips s).foldl switchOne s
/-- MULTICHIP_START: every listed chip has placed its copy, and the tide reads 0, or its restored value, from here. A chip that is
lost places none until a route reaches it again (R318, R329). -/
def startGang (s : State) (gang : Nat) : State :=
  switchRoutes (modGang s gang fun g => if g.status = .placed then { g with started := true, runStart := s.ptide } else g)
def execMultichipStart (gang : Nat) (s : State) : Out :=
  match getGang s gang with
  | none => .next (startGang s gang)
  | some g =>
    if g.status = .placed && (otherChips s g).any (chipLostTo s g.desc.owner) then
      let (d, s) := draw Config.placeTime s
      .next (post s (d + 1) (.multichipStart gang))
    else .next (startGang s gang)
/-- SAFE_DEADLINE_EXPIRY: the request's deadline has passed, and unless R270 holds the gang back it rolls back and is saved. -/
def execSafeDeadlineExpiry (gang : Nat) (s : State) : Out :=
  match getGang s gang with
  | none => .next s
  | some g =>
    match g.preempt with
    | none => .next s
    | some p =>
      let limit := schedOf s g.part 2
      if !p.deadline || g.status != .placed then .next s
      else if s.ptide < p.since + limit then .next (post s (p.since + limit - s.ptide) (.safeDeadlineExpiry gang))
      else if g.claims 5 || g.claims 6 || unsettled g then .next (post s 1 (.safeDeadlineExpiry gang))
      else
        let rotation := p.rotation
        let s := forceRollback s gang (trapcOf .s cSafeDeadline) (BitVec.ofNat 64 g.tide) (some 2)
        .next (modGang s gang fun g => { g with kind := if rotation then 1 else 0 })

/-- A slot as the gang names it, whatever cores and banks it stands on: the core by its index, a quay slot by gang quadrant and
gang bank. -/
def gangSlot (g : Gang) (sl : Slot) : Slot :=
  let idx (n : Nat) : Nat := (g.cores.findIdx? fun c => c.num == n).getD 0
  match sl with
  | .tile n i => .tile (idx n) i
  | .berth n i => .berth (idx n) i
  | .quay q i =>
    let quays := if g.quays.any fun e => e.1 == q then g.quays else g.quays2
    match quays.findIdx? fun e => e.1 == q with
    | some r => .quay r (128 * (((quays[r]?).bind fun e => e.2.findIdx? fun b => b == i / 128).getD 0) + i % 128)
    | none => .quay 0 i
  | sl => sl
/-- A slot in a log entry: LEVEL, MEMBER and SLOT. -/
def slotWord (s : State) (g : Gang) (sl : Slot) : Dword :=
  let word (level member v : Nat) : Dword := BitVec.ofNat 64 (level * 2 ^ 61 + member % 2 ^ 11 * 2 ^ 50 + v % 2 ^ 32)
  match gangSlot g sl with
  | .tile n i => word 0 (memberOf g n) i
  | .berth n i => word 1 (memberOf g n) i
  | .quay q i => word 2 0 (q * 2 ^ 13 + i)
  | .hbm k i => word 3 0 ((k - partStack0 s.partCount g.part) * 2 ^ 24 + i)
  | .far i => word 4 0 i

/-- POISON_ESCALATION: after the rollback, the gang whose committed input is poisoned is killed (R381). -/
def execPoisonEscalation (gang : Nat) (s : State) : Out :=
  match getGang s gang with
  | none => .next s
  | some g =>
    match g.fatal with
    | none => .next s
    | some f =>
      let slot : Dword :=
        if f.tval.toNat < 64 then slotWord s g (.tile (((g.cores[f.member]?).map Core.num).getD 0) f.tval.toNat)
        else match translate s g f.member (f.tval.setWidth 52) true with
          | .ok p => slotWord s g p.slot
          | .error _ => 0
      .next (killFatal s gang { f with slot := slot })

end Sys2Proof.Machine
end

