-- ==== Sys2Proof/Machine/Context.lean ====
section
/-! DEFINITION. The context frame (19): what a save writes into HBM and a restoration reads back (R338 to R346). -/

namespace Sys2Proof.Machine

/-! ## Slots of a frame and of a log entry (R279, R339, R342) -/

/-- Slot `i` of the frame region of core index `k`: the secondaries' region follows the primaries'. -/
def quayCount (l : List (Nat × List Nat)) : Nat := l.foldl (fun a e => a + 128 * e.2.length) 0
def regionSize (g : Gang) : Nat := 1024 * g.size + quayCount g.quays
def frameSlot (s : State) (g : Gang) (second : Bool) (i : Nat) : Slot :=
  slotOf s g 0 3 0 (g.desc.frame.toNat + (if second then regionSize g else 0) + i)
def memberFrame (s : State) (g : Gang) (k i : Nat) : Slot := frameSlot s g (isSecondary g k) (1024 * memberOf g k + i)

/-- The slot that such a name has for core index `k` of a placed gang. -/
def placedSlot (g : Gang) (k : Nat) (sl : Slot) : Slot :=
  match sl with
  | .tile n i => .tile (((g.cores[n]?).map Core.num).getD 0) i
  | .berth n i => .berth (((g.cores[n]?).map Core.num).getD 0) i
  | .quay q i => quaySlot g k q i
  | sl => sl
/-- The slots of a core's state renamed. -/
def renameCore (f : Slot → Slot) (c : Core) : Core :=
  let region (r : Region) : Region := match r with | .slot sl => .slot (f sl) | r => r
  let landing (l : Landing) : Landing := { l with test := l.test.map f }
  let regs (r : Regs) : Regs := { r with landings := r.landings.map landing }
  let entry (e : LogEntry) : LogEntry := match e with
    | .swap a b => .swap (f a) (f b)
    | .unit a b t q u v => .unit (a.map f) (b.map f) t q u (v.map f)
    | .word sl off w old gen made => .word (f sl) off w old gen made
    | .image sl old d => .image (f sl) old d
    | .mirror sl old => .mirror (f sl) old
    | .staged e w => .staged e w
  let access (a : Access) : Access := { a with spots := a.spots.map fun p => { p with slot := f p.slot } }
  let exch (e : Exch) : Exch :=
    { e with pairs := e.pairs.map (fun p => { p with near := f p.near, far := f p.far }), tables := e.tables.map fun t => (t.1, f t.2.1, t.2.2) }
  let fab (o : FabOp) : FabOp := { o with near := o.near.map fun n => (f n.1, n.2) }
  let far (t : Standing) : Standing := { t with pairs := t.pairs.map (fun p => (f p.1, f p.2)), pennant := f t.pennant }
  { c with
    regs := regs c.regs, checkpoint := regs c.checkpoint
    accesses := c.accesses.map access, exchs := c.exchs.map exch, fabs := c.fabs.map fab, standing := c.standing.map far
    cards := c.cards.map fun j => { j with reads := j.reads.map region, writes := j.writes.map region }
    pens := c.pens.map fun p => { p with slot := f p.slot }
    log := c.log.map fun e => { e with entry := entry e.entry }
    outward := c.outward.map fun o => (f o.1, o.2) }

/-- The slot that such a word names for core index `k` of a placed gang. -/
def slotOfWord (s : State) (g : Gang) (k : Nat) (w : Dword) : Slot :=
  let level := w.toNat / 2 ^ 61
  let member := w.toNat / 2 ^ 50 % 2 ^ 11
  if level = 0 then .tile (coreOfMember g k member) (w.toNat % 64) else slotOf s g k level member (w.toNat % 2 ^ 32)
/-- The port of a slot's level. -/
def portOf : Slot → Nat × Nat
  | .tile c _ => (0, c)
  | .berth c _ => (1, c)
  | .quay q _ => (2, q)
  | .hbm k _ => (3, k)
  | .far _ => (4, 0)
/-- The slot by whose port an entry of the log is numbered. -/
def entrySlot : LogEntry → Slot
  | .swap a _ | .word a .. | .image a .. | .mirror a _ => a
  | .unit a _ _ _ u _ => (a[u]?).getD default
  | .staged .. => .far 0
/-- The arrival number of an entry at its port among the entries of the gang's logs (R342). -/
def arrivalNumber (g : Gang) (e : LogCell) : Nat :=
  (g.cores.map fun c => (c.log.filter fun d => portOf (entrySlot d.entry) == portOf (entrySlot e.entry) && d.order < e.order).length).sum

/-! ## What a save writes (R339 to R343) -/

/-- A written block: valid, untyped, generation 0. -/
def writtenBlock (payload : Cells) : Cells := setFlags (cbelow payload 4096) true false
def q8 (d : Dword) : List Byte := leBytes 8 d.toNat
def n8 (n : Nat) : List Byte := leBytes 8 n
/-- The control registers of the core state record, in its order, by their numbers. -/
def frameCtl : List Nat :=
  [0x001] ++ (List.range 8).map (0x10 + ·) ++ (List.range 4).map (0x20 + ·) ++ (List.range 16).map (0x30 + ·)
    ++ [0x40, 0x41, 0x48, 0x49, 0x58, 0x60] ++ (List.range 8).map (0x68 + ·) ++ [0x70, 0x71, 0x72, 0x80, 0x81, 0x82, 0x83, 0x84, 0x85, 0x86]
    ++ [0xA0, 0xA8, 0xB0]
/-- The live map of a save: every register but at a SAFE. -/
structure Live where
  g : BitVec 64
  p : BitVec 16
  v : BitVec 64
  t : BitVec 8
  a : BitVec 4
  deriving DecidableEq, Repr
def liveAll : Live := ⟨BitVec.allOnes 64, BitVec.allOnes 16, BitVec.allOnes 64, BitVec.allOnes 8, BitVec.allOnes 4⟩
def liveOf (g : Gang) (kind map : Nat) : Live :=
  if kind = 1 then
    let m := (g.livemaps[map]?).getD 0
    ⟨m.extractLsb' 0 64, m.extractLsb' 64 16, m.extractLsb' 80 64, m.extractLsb' 144 8, m.extractLsb' 152 4⟩
  else liveAll
def imagesHeld (c : Core) : List (Slot × Cells) :=
  (c.log.filterMap fun e => match e.entry with | .image sl old _ => some (sl, old) | _ => none).reverse

/-- The core state record. -/
def coreRecord (g : Gang) (k : Nat) (c : Core) (kind map : Nat) : Cells :=
  let r := c.regs
  let live := liveOf g kind map
  let nulls : Dword := queueNull r.q
  let points := r.points.toList.flatMap fun p => q8 p.addr ++ n8 (p.next - g.tide)
  cpack 0 <|
    n8 g.tide ++ leBytes 1 kind ++ leBytes 1 (if kind = 1 then map else 0) ++ leBytes 1 g.aborts ++ leBytes 1 (imagesHeld c).length
    ++ leBytes 1 c.accWritten.toNat ++ leBytes 1 c.exchs.length ++ leBytes 2 c.log.length
    ++ leBytes 4 g.desc.launch.toNat ++ leBytes 2 (memberOf g k) ++ leBytes 2 0 ++ q8 r.ctl.trappc
    ++ n8 (if kind = 1 ∨ kind = 3 then r.sNext - g.tide else 0) ++ List.replicate 24 0
    ++ (List.range 64).flatMap (fun i => q8 (if live.g.getLsbD i then r.rgn i else 0))
    ++ (List.range 16).flatMap (fun i => leBytes 16 (if i = 0 then (BitVec.allOnes 128).toNat
        else if live.p.getLsbD i then ((r.p[i]?).getD 0).toNat else 0))
    ++ frameCtl.flatMap (fun n => q8 ((readCtl c g.tide n).getD 0))
    ++ leBytes 64 r.park.toNat ++ r.q.toList.flatMap (fun e => q8 e.addr) ++ q8 nulls ++ points
    ++ r.tokens.toList.map (BitVec.ofNat 8) ++ r.latch.toList.flatMap q8 ++ r.gpos.toList.flatMap n8

/-- A landing record, and its value. -/
def landingRecord (tide : Nat) (l : Landing) : List Byte × List Byte :=
  let lanes := l.lanes.toList.flatMap fun w => leBytes 4 w.toNat
  let (kind, num, spec, scalar, mask, value) : Nat × Nat × Nat × Dword × Pred × List Byte := match l.dest with
    | .none => (0, 0, 0, 0, 0, [])
    | .g d => (1, d.toNat, 0, l.value, 0, [])
    | .p d => (2, d.toNat, 0, 0, l.mask, leBytes 16 l.pred.toNat)
    | .v d => (3, d.toNat, 0, 0, l.mask, lanes)
    | .tile sp idx _ => (4, 0, sp.toBits.toNat, idx, l.mask, lanes)
  (leBytes 1 kind ++ leBytes 1 num ++ leBytes 2 spec ++ leBytes 1 l.flags.toNat ++ leBytes 1 l.cl.code.toNat
    ++ leBytes 2 (l.due - tide) ++ q8 scalar ++ leBytes 16 mask.toNat, pad value 512)
/-- An M command record. -/
def commandRecord (m : Option MCmd) : List Byte :=
  match m with
  | none => List.replicate 128 0
  | some m =>
    let (a, b) : Dword × Dword := match encode m.instr with
      | some (w, e) => (w.setWidth 64, (e.getD 0).setWidth 64)
      | none => (0, 0)
    pad (q8 a ++ q8 b ++ n8 m.issued ++ leBytes 2 m.step ++ leBytes 1 1 ++ leBytes 5 0 ++ q8 m.g ++ leBytes 1 m.valid
      ++ leBytes 1 m.mode ++ leBytes 6 0 ++ q8 m.bnd ++ q8 m.seed0 ++ q8 m.seed1 ++ q8 m.dropp) 128
/-- The landings that a save records (R62, R63): those on their way, those of loads, which have been performed, and the status words of
fences. -/
def landingsHeld (s : State) (c : Core) : List Landing :=
  (c.regs.landings.filter (·.long)).map (fun l => if l.test.isEmpty then l else { l with value := voidStatus s l.test })
    ++ c.accesses.filterMap (fun a => match a.op with
      | .result l none => if l.long then some { l with due := a.due } else none
      | _ => none)
    ++ (c.fences.filter fun f => f.d != 0).map fun f =>
      { dest := .g f.d, value := c.fenceBits, due := f.due, issued := f.issued, cl := .s, pc := f.pc }
def landingBlock (s : State) (tide : Nat) (c : Core) : Cells :=
  cpack 0 (pad ((landingsHeld s c).flatMap fun l => (landingRecord tide l).1) 512 ++ c.cmds.toList.flatMap commandRecord)
def landingValues (s : State) (tide : Nat) (c : Core) (half : Nat) : Cells :=
  cpack 0 ((((landingsHeld s c).drop (8 * half)).take 8).flatMap fun l => (landingRecord tide l).2)
/-- An exchange record. -/
def exchangeRecordBytes (e : Exch) : List Byte :=
  let a : Dword := match encode e.instr with
    | some (w, _) => w.setWidth 64
    | none => 0
  pad (q8 a ++ n8 e.issued ++ q8 e.near ++ q8 e.far ++ leBytes 2 e.n ++ leBytes 2 e.swapped ++ leBytes 4 0 ++ n8 e.pos0 ++ n8 e.pos1) 64
/-- A log entry of 64 bytes; `image` is the buffer that holds the copy of a before-image. -/
def logRecord (s : State) (g : Gang) (image : Nat) (e : LogCell) : List Byte :=
  let head (kind a b : Nat) : List Byte := leBytes 1 kind ++ leBytes 1 a ++ leBytes 2 b ++ leBytes 4 (arrivalNumber g e)
  let body : List Byte := match e.entry with
    | .swap a b => head 1 0 0 ++ q8 (slotWord s g a) ++ q8 (slotWord s g b)
    | .unit a b _ _ u _ => head 3 a.length u ++ q8 (slotWord s g ((a[u]?).getD default)) ++ q8 (slotWord s g ((b[u]?).getD default))
    | .mirror sl _ => head 1 0 0 ++ q8 (slotWord s g sl)
    | .word sl off w old gen made =>
      head 2 w (if made then 1 else 0) ++ q8 (slotWord s g sl) ++ n8 off ++ n8 old ++ leBytes 2 gen.toNat
    | .staged _ words => head 4 0 0 ++ words.flatMap q8
    | .image sl _ dropped => head (if dropped then 6 else 5) 0 0 ++ q8 (slotWord s g sl) ++ n8 (576 + image)
  pad body 64
def logRecords (s : State) (g : Gang) (c : Core) : List Byte :=
  (c.log.reverse.foldl (fun (a : List Byte × Nat) e =>
    (a.1 ++ logRecord s g a.2 e, match e.entry with | .image .. => a.2 + 1 | _ => a.2)) ([], 0)).1
/-- Rows 8b to 8b + 7 of an accumulator. -/
def accBlock (a : Acc) (b : Nat) : Cells :=
  cpack 0 ((List.range 8).flatMap fun i => ((a[8 * b + i]?).getD (Vector.replicate 128 0)).toList.flatMap fun w => leBytes 4 w.toNat)
def lanesBytes (v : Lanes) : List Byte := v.toList.flatMap fun w => leBytes 4 w.toNat
/-- The operand snapshots of the commands in progress: their block numbers and payloads. -/
def snapshots (c : Core) : List (Nat × Cells) :=
  let tiles (at_ : Nat) (l : List Cells) : List (Nat × Cells) := l.zipIdx.map fun p => (at_ + p.2, p.1)
  let accs (at_ : Nat) (a : Acc) : List (Nat × Cells) := (List.range 16).map fun b => (at_ + b, accBlock a b)
  (match c.cmds[0] with | some m => tiles 796 m.tileA ++ tiles 804 m.tileB | none => [])
    ++ (match c.cmds[1] with | some m => accs 812 m.accA | none => [])
    ++ (match c.cmds[2] with | some m => accs 828 m.accA ++ tiles 844 m.tileB | none => [])
    ++ (if c.cmds[1].isSome || c.cmds[2].isSome then
          [(852, cpack 0 ((match c.cmds[1] with | some m => lanesBytes m.vecA | none => List.replicate 512 0)
            ++ match c.cmds[2] with | some m => lanesBytes m.vecA ++ lanesBytes m.vecB | none => []))] else [])
/-- The hold record of block 855. -/
def holdBlock (h : Hold) : Cells :=
  cpack 0 (holdCounters h ++ List.replicate 16 0 ++ holdRing h ++ n8 h.ring.length)

/-- The blocks that a save writes for core index `k`. -/
def stateBlocks (s : State) (g : Gang) (k : Nat) (c : Core) (kind map : Nat) : List (Nat × Cells) :=
  let live := liveOf g kind map
  let log := logRecords s g c
  let exch := c.exchs.flatMap exchangeRecordBytes
  ((List.range 4).filter fun n => live.a.getLsbD n).flatMap (fun n =>
      (List.range 16).map fun b => (640 + 16 * n + b, accBlock ((c.acc[n]?).getD (Vector.replicate 128 (Vector.replicate 128 0))) b))
    ++ (List.range 4).flatMap (fun n =>
      (List.range 16).map fun b => (704 + 16 * n + b, accBlock ((c.shadow[n]?).getD (Vector.replicate 128 (Vector.replicate 128 0))) b))
    ++ (List.range 8).filterMap (fun b =>
      if (List.range 8).any fun i => live.v.getLsbD (8 * b + i) then
        some (768 + b, cpack 0 ((List.range 8).flatMap fun i =>
          if live.v.getLsbD (8 * b + i) then lanesBytes ((c.regs.v[8 * b + i]?).getD (Vector.replicate 128 0)) else List.replicate 512 0))
      else none)
    ++ [(776, coreRecord g k c kind map), (777, landingBlock s g.tide c), (778, landingValues s g.tide c 0), (779, landingValues s g.tide c 1)]
    ++ (List.range 16).map (fun b => (780 + b, cpack 0 ((log.drop (4096 * b)).take 4096)))
    ++ snapshots c
    ++ [(853, cpack 0 (exch.take 4096)), (854, cpack 0 ((exch.drop 4096).take 4096))]
    ++ (if k = 0 then [(855, holdBlock g.hold)] else [])

/-! ## CONTEXT_SAVE (R337, R338, R346) -/

/-- The slots of core index `k` that are exchanged with its frame: the frame block and the slot. -/
def exchangedSlots (g : Gang) (c : Core) (kind map : Nat) : List (Nat × Slot) :=
  (List.range 512).map (fun i => (i, .berth c.num i))
    ++ ((List.range 64).filter fun i => (liveOf g kind map).t.getLsbD (i / 8)).map fun i => (512 + i, .tile c.num i)
/-- A gang's quay slots in gang quadrant order. -/
def quaySlots (l : List (Nat × List Nat)) : List Slot :=
  l.flatMap fun e => e.2.flatMap fun b => (List.range 128).map fun i => .quay e.1 (128 * b + i)
def quayMoves (s : State) (g : Gang) : List (Slot × Slot) :=
  (quaySlots g.quays).zipIdx.map (fun p => (frameSlot s g false (1024 * g.size + p.2), p.1))
    ++ (quaySlots g.quays2).zipIdx.map fun p => (frameSlot s g true (1024 * g.size + p.2), p.1)
/-- A block goes to a frame slot under the owner's keys. -/
def saveTo (owner : BitVec 12) (s : State) (p : Slot × Cells) : State := putBlock s owner p.1 p.2
/-- A slot's block is read for its exchange with a frame slot (R275, R383). The block that comes back to the slot is not kept: it is void
before any gang can read it (R338), and it leaves HBM without a check. -/
def saveSlot (owner : BitVec 12) (s : State) (frame sl : Slot) : State :=
  let s := readSlot s sl
  saveTo owner s (frame, rawBlock s.mem sl)
def saveMember (s : State) (g : Gang) (k : Nat) (c : Core) (kind map : Nat) : State :=
  let s := (exchangedSlots g c kind map).foldl (fun s p => saveSlot g.desc.owner s (memberFrame s g k p.1) p.2) s
  let s := (imagesHeld c).zipIdx.foldl (fun s p => saveTo g.desc.owner s (memberFrame s g k (576 + p.2), p.1.2)) s
  (stateBlocks s g k c kind map).foldl (fun s p => saveTo g.desc.owner s (memberFrame s g k p.1, writtenBlock p.2)) s
/-- Every entry still in a queue or a buffer is performed, in order, before the context is saved: those of a committed phase (R305), and
those of a phase at its safe point, whose landings become records (R63). A read that holds the tide stays. -/
def performAll (s : State) (gang : Nat) : State :=
  match getGang s gang with
  | none => s
  | some g =>
    g.cores.zipIdx.foldl (fun s p => (p.1.accesses.map (·.serial)).foldl (performNow ⟨gang, p.2⟩) s) s
/-- What is due on cycle TIDE has been written by the end of the cycle before (R125): the landings of core `k`, and their flags, join its
registers before they are saved. -/
def landDue (k : CoreId) (fuel : Nat) (s : State) : State :=
  match fuel with
  | 0 => s
  | n + 1 =>
    match getMember s k with
    | none => s
    | some (g, c) =>
      if (landingReady c g.tide).isSome then
        let joined (c : Core) : Core := c.atEnd.foldl (fun c e => match e with
          | .flags f h => orBndlog (orFpcsr c f) h
          | e => { c with atEnd := c.atEnd ++ [e] }) { c with atEnd := [] }
        landDue k n (match execPendingLanding k s with
          | .next s => modMember s k joined
          | _ => s)
      else match c.fences.find? fun f => f.due ≤ g.tide && !fenceWaits c g.tide f true && !fenceEffects c f with
        | some f => landDue k n (modMember s k fun c => landFence g c f)
        | none => s
def landAllDue (s : State) (gang : Nat) : State :=
  match getGang s gang with
  | none => s
  | some g => g.cores.zipIdx.foldl (fun s p => landDue ⟨gang, p.2⟩ (2 * p.1.fences.length + p.1.regs.landings.length) s) s
/-- A save can run: nothing of the last committed phase is out (R338). -/
def saveReady (g : Gang) : Bool :=
  g.saveNext.isSome && g.aborted.isNone && g.fatal.isNone && !g.claims 6 && g.status == .placed
    && g.cores.all fun c => c.outstanding.isEmpty && !(c.standing.any (·.released))
/-- What remains of a saved gang: a descriptor in the queue, its hold record, and what its frame does not give back. -/
def savedGang (s : State) (g : Gang) (kind : Nat) : Gang :=
  let absent := g.awaitPage.isSome
  { g with
    status := if absent then .absent else if g.kind = 7 then .lost else .saved
    age := if g.kind = 1 then s.ptide else g.age
    kept := g.cores.map (renameCore (gangSlot g)), cores := [], quays := [], quays2 := [], drowsy := [], waking := [], dozing := []
    hold := { g.hold with active := g.hold.active.filter fun c => kind = 3 && c.cause == 5 }
    preempt := none, saveNext := none, barrier := none, started := false, stage := .port, turn := 0
    resumeAt := if kind = 3 then some (g.stage, g.turn) else none }
/-- Nowhere in its partition can the gang stand, its routes being dead or its quadrants withdrawn (R292, R392). -/
def nowhereFits (s : State) (g : Gang) : Bool :=
  (originsOf s.partCount g.part g.desc.w g.desc.h).all fun o =>
    let quads := shapeQuads (shapeCores o.1 o.2 g.desc.w g.desc.h)
    !routesFit s g.desc quads || quads.any fun q => ((s.quads[q]?).map (·.withdrawn)).getD false
/-- CONTEXT_SAVE: the frame is written, and the cores and banks are free. A gang that an INVALIDATE waits for rolls back first (R356), and
a cause that the last performances meet takes effect first. For a gang of several chips that is not about to be saved here it is the word
of another chip: that its copy is suspended, with KIND 3, or is to be saved, and so a request to this one (R329, R346). -/
def execContextSave (w : SaveWord) (s : State) : Out :=
  let gang := w.gang
  match getGang s gang with
  | none => .next s
  | some g =>
    match g.saveNext with
    | none => .next (if (otherChips s g).isEmpty then s else if w.other = some 3 then suspendToo s gang else requestPreempt s gang false false)
    | some kind =>
      if !saveReady g then .next s
      else if kind != 2 && awaitedByInvalidate s g then
        let r := ((g.cores.find? fun c => kind == 3 && c.trapped && trapCode c == cAbsent).map fun c => (c.regs.ctl.trapc, c.regs.ctl.tval)).getD
          (trapcOf .s cSafeDeadline, BitVec.ofNat 64 g.tide)
        .next (forceRollback s gang r.1 r.2 (some 2))
      else match rollbackFault g none with
      | some (i, c, unit, entry) => .next (rollbackFatal s gang i c unit entry)
      | none =>
        let s := landAllDue (performAll s gang) gang
        match getGang s gang with
        | none => .next s
        | some g =>
          if g.cores.any fun c => !c.raised.isEmpty then .next (settle s gang) else
          let s := g.cores.zipIdx.foldl (fun s p => saveMember s g p.2 p.1 kind ((g.safeNow[p.2]?).getD 0)) s
          let s := (quayMoves s g).foldl (fun s p => saveSlot g.desc.owner s p.1 p.2) s
          let s := voidGang s g
          let h := savedGang s g kind
          let s := modGang s gang fun _ => h
          let s := if h.status = .saved && !nowhereFits s g then s else sendEvent s 0x04 0 g.desc.launch
            (((g.cores[0]?).map fun c => c.regs.ctl.trapc).getD 0) ((h.awaitPage).getD 0) 0 (some g) (partField g.part)
          let s := if (otherChips s g).isEmpty then s else { s with sent := s.sent ++ [.save g.desc.launch g.tide kind] }
          .next (askScheduler s g.part)

/-! ## CONTEXT_RESTORE (R345) -/

/-- The doubleword at byte `o` of a block. -/
def dwAt (b : Cells) (o : Nat) : Dword := BitVec.ofNat 64 (cle b o 8)
/-- Registers as the core state record and the vector blocks give them; the rest stays as `r` has it. -/
def readRecord (g : Gang) (b : Cells) (vec : Nat → Cells) (r : Regs) : Regs :=
  let tide := cle b 0 8
  let kind := cle b 8 1
  let live := liveOf g kind (cle b 9 1)
  let ctl := frameCtl.zipIdx.foldl (fun k p => setCtl k p.1 (dwAt b (832 + 8 * p.2))) r.ctl
  let nulls := cle b 1368 8
  { r with
    g := Vector.ofFn fun i => if i.val = 0 then 0 else dwAt b (64 + 8 * i.val)
    p := Vector.ofFn fun i => if i.val = 0 then BitVec.allOnes 128 else BitVec.ofNat 128 (cle b (576 + 16 * i.val) 16)
    v := Vector.ofFn fun i =>
      if live.v.getLsbD i.val then
        Vector.ofFn fun k => BitVec.ofNat 32 (cle (vec (i.val / 8)) (512 * (i.val % 8) + 4 * k.val) 4)
      else Vector.replicate 128 0
    ctl := { ctl with trappc := dwAt b 24 }
    park := BitVec.ofNat 512 (cle b 1280 64)
    q := Vector.ofFn fun i =>
      let a := dwAt b (1344 + 8 * i.val)
      { addr := a, line := if r.q[i].addr = a then r.q[i].line else markAddr, null := nulls.testBit i.val }
    points := Vector.ofFn fun i => { r.points[i] with
      addr := dwAt b (1376 + 16 * i.val), next := tide + cle b (1384 + 16 * i.val) 8
      line := if r.points[i].addr = dwAt b (1376 + 16 * i.val) then r.points[i].line else markAddr }
    sNext := if kind = 1 ∨ kind = 3 then tide + cle b 32 8 else r.sNext
    tokens := Vector.ofFn fun i => cle b (1424 + i.val) 1
    latch := Vector.ofFn fun i => dwAt b (1432 + 8 * i.val)
    gpos := Vector.ofFn fun i => cle b (1496 + 8 * i.val) 8 }
def readAcc (blocks : Nat → Cells) : Acc :=
  Vector.ofFn fun i => Vector.ofFn fun j => BitVec.ofNat 32 (cle (blocks (i.val / 8)) (512 * (i.val % 8) + 4 * j.val) 4)
/-- The hold counters and the claim ring of block 855. -/
def readHold (b : Cells) (active : List Claim) : Hold :=
  let claim (i : Nat) : Claim :=
    let w := cle b (136 + 16 * i) 8
    { cause := w / 2 ^ 29 % 8, start := cle b (128 + 16 * i) 8, began := 0, length := w / 2 ^ 32, member := w / 2 ^ 19 % 2 ^ 10
      barrier := w.testBit 18 }
  { holds := Vector.ofFn fun k => dwAt b (8 * k.val), cycles := Vector.ofFn fun k => dwAt b (56 + 8 * k.val)
    ring := (List.range (min 64 (cle b 1152 8))).map claim, active := active }
/-- Landing record `i` over the landing that was kept for it, which holds its BNDLOG bits, its instruction and its shape: none when the
record is empty. -/
def readLanding (tide : Nat) (b : Cells) (values : Nat → Cells) (i : Nat) (old : Landing) : Option Landing :=
  let o := 32 * i
  let num := cget b (o + 1)
  let v := values (i / 8)
  let at_ := 512 * (i % 8)
  let lanes : Lanes := Vector.ofFn fun k => BitVec.ofNat 32 (cle v (at_ + 4 * k.val) 4)
  let l := { old with
    flags := (cget b (o + 4)).setWidth 5, cl := Cl.ofCode ((cget b (o + 5)).setWidth 2), due := tide + cle b (o + 6) 2, test := []
    mask := BitVec.ofNat 128 (cle b (o + 16) 16), value := dwAt b (o + 8) }
  match (cget b o).toNat with
  | 1 => some { l with dest := .g (num.setWidth 6) }
  | 2 => some { l with dest := .p (num.setWidth 4), pred := BitVec.ofNat 128 (cle v at_ 16) }
  | 3 => some { l with dest := .v (num.setWidth 6), lanes := lanes }
  | 4 =>
    let shape := match old.dest with | .tile _ _ sh => sh | _ => 0
    some { l with dest := .tile (Spec.ofBits (BitVec.ofNat 10 (cle b (o + 2) 2))) (dwAt b (o + 8)) shape, lanes := lanes }
  | _ => none
/-- The instruction of a saved syllable and its extension. -/
def readSyllable (cl : Cl) (w e : Dword) : Option Instr :=
  match decodeAt false cl (lineOf cl (w.setWidth 60) (if cl = .m then some (e.setWidth 60) else none)) 0 with
  | .ok i => some i
  | .error _ => none
/-- M command record `u` over the command that was kept, which holds its shapes, the side records of its tiles, and its flags: none when
its unit is not busy. -/
def readCommand (b : Cells) (block : Nat → Cells) (u : Nat) (old : Option MCmd) : Option MCmd :=
  let o := 512 + 128 * u
  match (if cget b (o + 26) = 1 then readSyllable .m (dwAt b o) (dwAt b (o + 8)) else none), old with
  | some i, some m =>
    let tiles (at_ : Nat) (l : List Cells) : List Cells := l.zipIdx.map fun p => csplice p.1 0 4096 (cbelow (block (at_ + p.2)) 4096)
    let lanes (at_ : Nat) : Lanes := Vector.ofFn fun k => BitVec.ofNat 32 (cle (block 852) (at_ + 4 * k.val) 4)
    let m := { m with
      instr := i, issued := cle b (o + 16) 8, step := cle b (o + 24) 2, g := dwAt b (o + 32), valid := cle b (o + 40) 1
      mode := cle b (o + 41) 1, bnd := dwAt b (o + 48), seed0 := dwAt b (o + 56), seed1 := dwAt b (o + 64), dropp := dwAt b (o + 72) }
    some (if u = 0 then { m with tileA := tiles 796 m.tileA, tileB := tiles 804 m.tileB }
      else if u = 1 then { m with accA := readAcc fun i => block (812 + i), vecA := lanes 0 }
      else { m with accA := readAcc (fun i => block (828 + i)), tileB := tiles 844 m.tileB, vecA := lanes 512, vecB := lanes 1024 })
  | _, _ => none
/-- Exchange record `i` over the exchange that was kept, which holds its latches, its base and its pairs. -/
def readExchange (block : Nat → Cells) (i : Nat) (e : Exch) : Exch :=
  let b := block (853 + i / 64)
  let o := 64 * (i % 64)
  { e with
    instr := (readSyllable .x (dwAt b o) 0).getD e.instr, issued := cle b (o + 8) 8, near := dwAt b (o + 16), far := dwAt b (o + 24)
    n := cle b (o + 32) 2, swapped := cle b (o + 34) 2, pos0 := cle b (o + 40) 8, pos1 := cle b (o + 48) 8 }
/-- A staged effect with the registers of its record. -/
def readStaged (e : Staged) (old new : List Dword) : Staged :=
  let at_ (l : List Dword) (i : Nat) : Dword := (l[i]?).getD 0
  match e with
  | .kick _ c => .kick (at_ new 1) c
  | .far n => .far n
  | .atom f ch =>
    .atom { f with operand := at_ new 1, swap := if new.length = 4 then at_ new 3 else f.swap, off := (at_ new 2).extractLsb' 0 12
                   vba := f.vba - (at_ old 2).extractLsb' 12 52 + (at_ new 2).extractLsb' 12 52 } ch
/-- Log record `i`, oldest first, over the entry that was kept: its slots, those of the whole unit of a pair of one, its undo word where
8 bytes hold it, its registers, and its before-image. -/
def readLogCell (s : State) (g : Gang) (k : Nat) (block : Nat → Cells) (i : Nat) (e : LogCell) : LogCell :=
  let b := block (780 + i / 64)
  let o := 64 * (i % 64)
  let sl := slotOfWord s g k (dwAt b (o + 8))
  let entry : LogEntry := match (cget b o).toNat, e.entry with
    | 1, .swap _ _ => .swap sl (slotOfWord s g k (dwAt b (o + 16)))
    | 2, .word _ _ w old _ _ =>
      let w' := (cget b (o + 1)).toNat
      let small := w ≤ 8 ∧ w' ≤ 8
      .word sl (cle b (o + 16) 8) (if small then w' else w) (if small then cle b (o + 24) 8 else old) (BitVec.ofNat 16 (cle b (o + 32) 2))
        (cget b (o + 2) == 1)
    | 3, .unit _ _ t f u voids =>
      let n := (cget b (o + 1)).toNat
      let slot (at_ j : Nat) : Slot := slotOfWord s g k (dwAt (block (780 + (i - u + j) / 64)) (64 * ((i - u + j) % 64) + at_))
      .unit ((List.range n).map (slot 8)) ((List.range n).map (slot 16)) t f (cle b (o + 2) 2) voids
    | 4, .staged e words =>
      let new := (List.range words.length).map fun j => dwAt b (o + 8 + 8 * j)
      .staged (readStaged e words new) new
    | 5, .image .. => .image sl (block (cle b (o + 16) 8)) false
    | 6, .image .. => .image sl (block (cle b (o + 16) 8)) true
    | _, x => x
  { e with entry := entry }
/-- An exchange goes on from the first pair that has not swapped. One whose pairs were translated at issue keeps them (R210, R372); of
one that translates pair by pair, those from that pair on are translated again (R214). The entry read for the next pair stays read, so
that it is translated on its planned cycle. -/
def resumeExchange (x : Ctx) (e : Exch) : Exch :=
  if !e.active || !e.indirect then e
  else
    let e := { e with tables := (findTables x e.latch (genOf e.instr)).1 }
    let again := (List.range (e.judged - e.swapped)).foldl (fun (a : List Pair × Bool) d =>
      let k := e.swapped + d
      let v := pairVbas e k (entriesAt x.s e k)
      let info := pairInfo x v.1 v.2 (isUnit e.instr)
      match info.causes.isEmpty && a.2, info.pair with
      | true, some p => (a.1 ++ [{ p with skip := ((e.pairs[k]?).map (·.skip)).getD false }], true)
      | _, _ => (a.1, false)) ([], true)
    let done := e.pairs.take e.swapped ++ again.1
    if done.length = e.judged then { e with pairs := done }
    else { e with pairs := done, judged := done.length, read := done.length, gotten := [] }
/-- One core of a restored gang: its exchanged blocks back, its registers from the frame, the rest from what was kept. An error of a
register that is written unread is counted as corrected (R378). -/
def restoreCore (s : State) (g : Gang) (k : Nat) : State :=
  match g.cores[k]?, g.kept[k]? with
  | some c, some old =>
    let owner := g.desc.owner
    let block (i : Nat) : Cells := getBlock s owner (memberFrame s g k i)
    let b := block 776
    let kind := cle b 8 1
    let map := cle b 9 1
    let live := liveOf g kind map
    let kept := renameCore (placedSlot g k) old
    let regs := readRecord g b (fun i => block (768 + i)) kept.regs
    let hold (r : Ctl) : Ctl := { r with gangid := c.regs.ctl.gangid, coreloc := c.regs.ctl.coreloc, ensign := c.regs.ctl.ensign, capb := c.regs.ctl.capb }
    let marks := block 777
    let read (i : Nat) (l : Landing) : Option Landing := readLanding (cle b 0 8) marks (fun h => block (778 + h)) i l
    let long := kept.regs.landings.filter (·.long)
    let landings := long.zipIdx.filterMap (fun p => read p.2 p.1) ++ kept.regs.landings.filter fun l => !l.long
    let lands (a : Access) : Bool := match a.op with | .result l none => l.long | _ => false
    let results := (kept.accesses.filter lands).zipIdx.filterMap fun p => match p.1.op with
      | .result l bad => (read (long.length + p.2) l).map fun l => { p.1 with op := .result l bad, due := l.due }
      | _ => none
    let accesses := kept.accesses.filter (fun a => !lands a) ++ results
    let waiting := kept.fences.filter fun f => f.d != 0
    let fences := waiting.zipIdx.filterMap (fun p =>
      (read (long.length + (kept.accesses.filter lands).length + p.2) { dest := .none, due := 0, issued := 0, cl := .s }).map fun l =>
        { p.1 with d := (match l.dest with | .g d => d | _ => p.1.d), due := l.due, }) ++ kept.fences.filter fun f => f.d == 0
    let struck (f : Nat × Nat × Nat) : Bool := f.1 < 4 || f.1 == 6
    let s := countError s (8 * old.quad) (kept.faults.filter struck).length
    let regs := { regs with ctl := hold regs.ctl, landings := landings }
    let zero : Acc := Vector.replicate 128 (Vector.replicate 128 0)
    let core := { kept with
      x := c.x, y := c.y, regs := regs
      checkpoint := if kind = 0 ∨ kind = 2 then regs else { kept.checkpoint with ctl := hold kept.checkpoint.ctl }
      accesses := accesses, fences := fences, accWritten := BitVec.ofNat 4 (cle b 12 1), faults := kept.faults.filter fun f => !struck f
      cmds := Vector.ofFn fun u => readCommand marks block u.val kept.cmds[u]
      exchs := kept.exchs.zipIdx.map fun p => readExchange block p.2 p.1
      log := (kept.log.reverse.zipIdx.map fun p => readLogCell s g k block p.2 p.1).reverse
      acc := Vector.ofFn fun n => if live.a.getLsbD n.val then readAcc fun i => block (640 + 16 * n.val + i) else zero
      shadow := Vector.ofFn fun n => readAcc fun i => block (704 + 16 * n.val + i) }
    let s := (exchangedSlots g c kind map).foldl (fun s p => swapSlots s owner (memberFrame s g k p.1) p.2) s
    modMember s ⟨g.id, k⟩ fun _ => core
  | _, _ => s
/-- CONTEXT_RESTORE at the place that the scheduler has given the gang. -/
def execContextRestore (gang x0 y0 : Nat) (s : State) : Out :=
  match getGang s gang with
  | none => .next s
  | some g =>
    if g.status != .placed || g.started || g.kept.isEmpty || g.x0 != x0 || g.y0 != y0 then .next s
    else
      let record := getBlock s g.desc.owner (memberFrame s g 0 776)
      let kind := cle record 8 1
      let hold := readHold (getBlock s g.desc.owner (memberFrame s g 0 855)) g.hold.active
      let s := (List.range g.cores.length).foldl (fun s k => restoreCore s g k) s
      let s := (quayMoves s g).foldl (fun s p => swapSlots s g.desc.owner p.1 p.2) s
      let s := modGang s gang fun g => { g with
        kept := [], tide := cle record 0 8, aborts := cle record 10 1, hold := hold, awaitPage := none, safeNow := [], kind := 0
        stage := ((g.resumeAt).map (·.1)).getD .port, turn := ((g.resumeAt).map (·.2)).getD 0, resumeAt := none }
      let s := (List.range g.cores.length).foldl (fun s k =>
        match stepCtx s ⟨gang, k⟩ .x with
        | some x => modMember s ⟨gang, k⟩ fun c => { c with exchs := c.exchs.map (resumeExchange x) }
        | none => s) s
      let s := if kind = 3 then resumeGang s gang else s
      .next (tellPlaced s g 0)

end Sys2Proof.Machine
end

