-- ==== Sys2Proof/Machine/Translation.lean ====
section
/-! DEFINITION. The translation commands (20): INVALIDATE, POPULATE, REFRESH, KILL and RESET as their turn comes in the queue (R354
to R356, R361, R362, R389). -/

namespace Sys2Proof.Machine

/-! ## The record (R354) -/

def recSlot (r : CmdRec) : Nat := (r.dw3.extractLsb' 0 32).toNat
def recPart (r : CmdRec) : Nat := (r.dw0.extractLsb' 0 2).toNat
def recRights (r : CmdRec) : Dword := r.dw3 &&& 0xE000000000000000
/-- The bits that every command keeps zero. -/
def recZero (r : CmdRec) : Bool :=
  r.dw0 &&& 0x000FFF000FFFFFFC == 0 && r.dw1.extractLsb' 52 12 == 0 && r.dw3.extractLsb' 32 29 == 0
    && r.dw4 == 0 && r.dw5 == 0 && r.dw6 == 0 && r.dw7 == 0
def rangeOk (r : CmdRec) : Bool := 1 ≤ recCount r && recCount r < 2 ^ 24 && recHint r ≤ 4
/-- A well-formed record: the bits of every command, and the fields that its OP does not use. -/
def recOk (r : CmdRec) : Bool :=
  recZero r && match opOf r with
    | 1 => rangeOk r && recPart r == 0 && recLaunch r == 0 && r.dw3 == 0
    | 2 => rangeOk r && recPart r == 0 && recLaunch r == 0
    | 3 => rangeOk r && recPart r == 0
    | 4 => recHint r == 0 && recPart r == 0 && r.dw1 == 0 && recCount r == 0 && r.dw3 == 0
    | 5 => recHint r == 0 && recOwner r == 0 && r.dw1 == 0 && r.dw2 == 0 && r.dw3 == 0
    | _ => false
/-- An owner with a bound key. -/
def ownerBound (s : State) (o : BitVec 12) : Option Nat := (s.owners.find? fun r => r.id == o).bind (·.bound)

/-! ## A change of a manifest (R281, R355) -/

/-- A part of an entry: `n` blocks from VBA `w`. -/
def subEntry (e : MEntry) (w n : Nat) : MEntry :=
  { dw0 := e.dw0 &&& 0xFFE0000000000000 ||| BitVec.ofNat 64 w
    dw1 := e.dw1 &&& 0xFF00000000000000 ||| BitVec.ofNat 64 (n * 2 ^ 32 + (meSlot e + (w - meVba e)) % 2 ^ 32) }
/-- What a command does to an entry that lies in its range. -/
def alterEntry (r : CmdRec) (e : MEntry) : MEntry :=
  if opOf r = 1 then { e with dw0 := e.dw0 &&& ~~~0x4000000000000000 }
  else
    let rights : Dword := (if r.dw3.getLsbD 63 then 1 <<< 61 else 0) ||| (if r.dw3.getLsbD 62 then 1 <<< 60 else 0)
      ||| (if r.dw3.getLsbD 61 then 1 <<< 59 else 0)
    withSlot { e with dw0 := e.dw0 &&& ~~~0x7800000000000000 ||| 0x4000000000000000 ||| rights }
      (BitVec.ofNat 64 ((recSlot r + (meVba e - recFirst r)) % 2 ^ 32))
def freeFrom (m : Manifest) (i fuel : Nat) : Option Nat :=
  match fuel with
  | 0 => none
  | n + 1 => if m.any fun p => p.1 == i && meValid p.2 then freeFrom m (i + 1) n else some i
def setEntry (m : Manifest) (i : Nat) (e : MEntry) : Manifest := m.filter (fun p => p.1 != i) ++ [(i, e)]
/-- An entry in a free place of its kind, or 0x02. -/
def addEntry (m : Manifest) (block : Bool) (e : MEntry) : Except Nat Manifest :=
  match (if block then freeFrom m 4096 65536 else freeFrom m 0 4096) with
  | some i => .ok (setEntry m i e)
  | none => .error 2
/-- Block entries of their own for `n` pages of a run from `w`, where none stands yet. -/
def splitBlocks (r : CmdRec) (e : MEntry) (w n : Nat) (m : Manifest) : Except Nat Manifest :=
  match n with
  | 0 => .ok m
  | k + 1 =>
    if m.any fun p => 4096 ≤ p.1 && meCovers p.2 w then splitBlocks r e (w + 1) k m
    else do
      let one := subEntry e w 1
      let one := { one with dw0 := one.dw0 &&& ~~~0x0010000000000000 }
      let m ← addEntry m true (alterEntry r one)
      splitBlocks r e (w + 1) k m
/-- One entry under a command. -/
def changeEntry (r : CmdRec) (p : Nat × MEntry) (m : Manifest) : Except Nat Manifest :=
  let (i, e) := p
  let a := meVba e
  let z := meVba e + meCount e
  let lo := max a (recFirst r)
  let hi := min z (recFirst r + recCount r)
  let n := pageBlocks (mePsize e)
  if !meValid e || hi ≤ lo || !hintTakes r (meLevel e) then .ok m
  else if (lo - a) % n ≠ 0 ∨ (hi - a) % n ≠ 0 then .error 1
  else if opOf r = 1 ∧ mePresent e = false then .ok m
  else if lo = a ∧ hi = z then .ok (setEntry m i (alterEntry r e))
  else if mePsize e = 0 then splitBlocks r e lo (hi - lo) m
  else do
    let m := setEntry m i (alterEntry r (subEntry e lo (hi - lo)))
    let m ← if a < lo then addEntry m false (subEntry e a (lo - a)) else .ok m
    if hi < z then addEntry m false (subEntry e hi (z - hi)) else .ok m
/-- A whole manifest under a command; entries in their order. -/
def changeManifest (r : CmdRec) (m : Manifest) : Except Nat Manifest :=
  m.foldl (fun a p => match a with
    | .ok q => changeEntry r p q
    | .error e => .error e) (.ok m)
/-- The end of the stretch that the entry of VBA `w` covers: a block, or a run up to the next block entry. -/
def stretchEnd (m : Manifest) (w : Nat) : Nat :=
  match m.find? fun p => 4096 ≤ p.1 && meCovers p.2 w with
  | some _ => w + 1
  | none =>
    match m.find? fun p => p.1 < 4096 && meCovers p.2 w with
    | some p => m.foldl (fun a q => if 4096 ≤ q.1 ∧ meValid q.2 ∧ w < meVba q.2 then min a (meVba q.2) else a) (meVba p.2 + meCount p.2)
    | none => w + 1
/-- Every VBA from `w` to `z` has an entry of the command's level that is present, or absent, as `present` says. -/
def allAre (r : CmdRec) (m : Manifest) (present : Bool) (w z fuel : Nat) : Bool :=
  if z ≤ w then true
  else match fuel with
    | 0 => false
    | n + 1 =>
      match findEntry m w with
      | some e => hintTakes r (meLevel e) && mePresent e == present && allAre r m present (stretchEnd m w) z n
      | none => false
def touches (r : CmdRec) (m : Manifest) : Bool :=
  m.any fun p => meValid p.2 && hintTakes r (meLevel p.2) && meVba p.2 < recFirst r + recCount r && recFirst r < meVba p.2 + meCount p.2
/-- A present entry that covers part of `count` VBAs from `first` maps one of them onto a retired slot (R389); a block entry overrides
its run for its one VBA (R280). -/
def mapsRetired (s : State) (part : Nat) (m : Manifest) (first : Nat := 0) (count : Nat := 2 ^ 40) : Bool :=
  m.any fun p => meValid p.2 && mePresent p.2 && meLevel p.2 == 3 && s.retiredSlots.any fun q =>
    let n := (q.1 - partStack0 s.partCount part) * 2 ^ 24 + q.2
    let w := meVba p.2 + (n - meSlot p.2)
    partStack0 s.partCount part ≤ q.1 && meSlot p.2 ≤ n && n < meSlot p.2 + meCount p.2 && first ≤ w && w < first + count
      && (4096 ≤ p.1 || !(m.any fun b => 4096 ≤ b.1 && meCovers b.2 w))
/-- A command on one manifest: the changed one, or its status code. -/
def commandOn (s : State) (part : Nat) (r : CmdRec) (m : Manifest) : Except Nat Manifest :=
  if opOf r != 1 && !allAre r m (opOf r == 3) (recFirst r) (recFirst r + recCount r) (2 * m.length + 2) then .error 3
  else do
    let n ← changeManifest r m
    if opOf r != 1 && mapsRetired s part n (recFirst r) (recCount r) then .error 1 else .ok n

/-! ## The commands -/

/-- The gangs whose manifests a command changes. -/
def targetGangs (s : State) (r : CmdRec) : List Gang :=
  s.gangs.filter fun g => g.desc.owner == recOwner r && (opOf r != 3 || g.desc.launch == recLaunch r)
    && (touches r (imageManifest s g.part g.desc.manifest) || touches r g.manifest)
/-- A command leaves a manifest other than it was. -/
def alters (s : State) (part : Nat) (r : CmdRec) (m : Manifest) : Bool :=
  touches r m && match commandOn s part r m with
    | .ok n => n != m
    | .error _ => false
/-- AFFECTED (R354): the gangs whose image or working copy the command changes. -/
def affected (s : State) (r : CmdRec) : Nat :=
  ((targetGangs s r).filter fun g => alters s g.part r (imageManifest s g.part g.desc.manifest)
    || (g.status != .queued && alters s g.part r g.manifest)).length
/-- A command on every image and every working copy of its gangs, or its code: the copies of placed and of saved gangs, since a queued
one loads its own at placement (R347, R355). -/
def applyCommand (s : State) (r : CmdRec) : Except Nat (State × Nat) := do
  let gangs := targetGangs s r
  let count := affected s r
  if gangs.isEmpty && opOf r != 1 then throw 3
  let handles := (gangs.map fun g => (g.part, g.desc.manifest)).eraseDups
  let s ← handles.foldlM (fun s h => do
    let m := imageManifest s h.1 h.2
    let n ← if touches r m then commandOn s h.1 r m else .ok m
    let write (i : Image) : Image :=
      if i.handle = h.2 then { i with bytes := n.foldl (fun b p => putEntry b p.1 p.2) i.bytes } else i
    return modPart s h.1 fun p => { p with images := p.images.map write }) s
  let s ← (gangs.filter fun g => g.status != .queued && touches r g.manifest).foldlM (fun s g => do
    let n ← commandOn s g.part r g.manifest
    return modGang s g.id fun g => { g with manifest := n }) s
  return (s, count)
/-- The code that a record itself earns, before its gangs are looked at. -/
def recordCode (s : State) (r : CmdRec) : Option Nat :=
  if !recOk r then some 1
  else if opOf r != 5 && (ownerBound s (recOwner r)).isNone then some 4
  else if (opOf r == 3 || opOf r == 4) && !(s.gangs.any fun g => g.desc.owner == recOwner r && g.desc.launch == recLaunch r) then some 5
  else if opOf r == 5 && s.partCount ≤ recPart r then some 5
  else none
def setApplied (s : State) (n : Nat) (status : Dword) : State :=
  { s with tickets := s.tickets.map fun t => if t.num = n then { t with applied := some status } else t }
/-- A command runs: refused with its code, or changed and then `after`. -/
def runCommand (s : State) (n : Nat) (r : CmdRec) (after : State → Nat → State) : Out :=
  match recordCode s r with
  | some c => .next (ackTicket s n (statusWord c 0))
  | none =>
    match applyCommand s r with
    | .error c => .next (ackTicket s n (statusWord c 0))
    | .ok (s, k) => .next (after (setApplied s n (statusWord 0 k)) k)
/-- INVALIDATE: applied now, so that the next command of the queue begins (R354); acknowledged when nothing reaches its slots any more. -/
def execInvalidate (ticket : Nat) (r : CmdRec) (s : State) : Out :=
  runCommand s ticket r fun s _ =>
    let was := (s.gangs.filter fun g => g.desc.owner == recOwner r).map fun g => (g.id, g.manifest)
    let s := { s with tickets := s.tickets.map fun t => if t.num = ticket then { t with was := was } else t }
    let (d, s) := draw Config.serviceTime s
    pumpQueue (post s d (.invalidateAck ticket))
/-- INVALIDATE_ACK. -/
def execInvalidateAck (ticket : Nat) (s : State) : Out :=
  match s.tickets.find? fun t => t.num == ticket && t.acked.isNone with
  | none => .next s
  | some t =>
    if s.gangs.any (stillReaches s t) then
      let (d, s) := draw Config.serviceTime s
      .next (post s (d + 1) (.invalidateAck ticket))
    else .next (ackTicket s ticket (t.applied.getD 0))
/-- A gang that waits for a page of the range is ready (R346). -/
def wakeSuspended (s : State) (r : CmdRec) : State :=
  let hit (g : Gang) : Bool := g.desc.owner == recOwner r && match g.awaitPage with
    | some v => recFirst r ≤ (v.extractLsb' 0 40).toNat && (v.extractLsb' 0 40).toNat < recFirst r + recCount r
    | none => false
  let parts := ((s.gangs.filter hit).map (·.part)).eraseDups
  let wake (g : Gang) : Gang :=
    if hit g then { g with awaitPage := none, status := if g.status = .absent then .saved else g.status } else g
  let s := { s with gangs := s.gangs.map wake }
  parts.foldl askScheduler s
def execPopulate (ticket : Nat) (r : CmdRec) (s : State) : Out :=
  runCommand s ticket r fun s k => ackTicket (wakeSuspended s r) ticket (statusWord 0 k)
def execRefresh (ticket : Nat) (r : CmdRec) (s : State) : Out :=
  runCommand s ticket r fun s k => ackTicket s ticket (statusWord 0 k)
/-- A launch is killed by the host: a queued one is cancelled, any other runs R361. -/
def killByHost (s : State) (g : Gang) : State :=
  if g.status = .queued then
    let s := sendEvent (removeGang s g.id) 0x05 0 g.desc.launch 0 0 0 none (partField g.part)
    endReset (endLaunch s g.part g.desc.launch false) g.part
  else beginKill s g.id none true
def execKill (ticket : Nat) (r : CmdRec) (s : State) : Out :=
  match recordCode s r with
  | some c => .next (ackTicket s ticket (statusWord c 0))
  | none =>
    match s.gangs.find? fun g => g.desc.owner == recOwner r && g.desc.launch == recLaunch r with
    | none => .next (ackTicket s ticket (statusWord 5 0))
    | some g =>
      let s := setApplied s ticket (statusWord 0 1)
      .next (if g.status = .queued then ackTicket (killByHost s g) ticket (statusWord 0 1) else killByHost s g)
/-- A partition takes no LAUNCH, its queued descriptors are cancelled, and every other gang is killed. -/
def clearPart (s : State) (part : Nat) : State :=
  let mine := byAge (s.gangs.filter fun g => g.part == part)
  let s := (mine.filter fun g => g.status == .queued).foldl (fun s g =>
    recordEnd (sendEvent (removeGang s g.id) 0x05 0 g.desc.launch 0 0 0 none (partField part)) part g.desc.launch false) s
  (mine.filter fun g => g.status != .queued).foldl (fun s g => beginKill s g.id none true) s
def markReset (s : State) (part : Nat) : State := modPart s part fun p => { p with resetting := true }
/-- The reset of one partition begins. -/
def beginReset (s : State) (part : Nat) : State := endReset (clearPart (markReset s part) part) part
/-- The reset of every partition begins, with a new count. -/
def beginResetAll (s : State) (count : Nat) : State :=
  let parts := List.range s.partCount
  let s := parts.foldl markReset { s with newCount := some count }
  endReset (parts.foldl clearPart s) 0
/-- RESET, and a command whose OP is none of the five. -/
def execReset (ticket : Nat) (r : CmdRec) (s : State) : Out :=
  match recordCode s r with
  | some c => .next (ackTicket s ticket (statusWord c 0))
  | none =>
    let n := (s.gangs.filter fun g => g.part == recPart r).length
    .next (beginReset (setApplied s ticket (statusWord 0 n)) (recPart r))

end Sys2Proof.Machine
end

