-- ==== Sys2Proof/Machine/Pilot.lean ====
section
/-! DEFINITION. Pilot messages (19, 20, 23 to 25): what a host may ask over a session, and the replies (R326, R327, R348, R363 to
R368, R384, R387, R398, R399, R405). -/

namespace Sys2Proof.Machine

/-! ## Headers and replies (R363, R364) -/

/-- The header of a request keeps R363. -/
def hdrForm (h : Hdr) : Bool :=
  h.version == 1 && h.flags == 0 && h.len.toNat ≤ 2 ^ 24 && (h.part.toNat < 4 || h.part == 0xFFFF) && h.zero == 0
/-- It does, and it is a request of TYPE `type` with a body of `len` bytes. -/
def hdrOk (h : Hdr) (type : Nat) (len : Nat) : Bool := hdrForm h && h.type.toNat == type && h.len.toNat == len
def inSession (s : State) (h : Hdr) : Bool := s.sessions.contains h.session
def sendMsg (s : State) (m : HostMsg) : State := { s with outbox := s.outbox ++ [m] }
def replyTo (h : Hdr) (body : List Byte) (s : State) : State := sendMsg s (hostMsg h.type 1 h.seq h.part body)
def refuseTo (h : Hdr) (reason : Nat) (s : State) : State :=
  sendMsg s (hostMsg h.type 3 h.seq h.part (leBytes 4 reason))
/-- A request in its session: dropped, or answered by its body or its reason. One of no listed TYPE, or whose LENGTH is not its own, is
malformed. -/
def request (h : Hdr) (type len : Nat) (s : State) (act : State → Except Nat (State × List Byte)) : Out :=
  if !hdrForm h || !inSession s h then .next s
  else if !hdrOk h type len then .next (refuseTo h 1 s)
  else match act s with
    | .ok (t, body) => .next (replyTo h body t)
    | .error reason => .next (refuseTo h reason s)
/-- A condition of a request, or its reason. -/
def need (ok : Bool) (reason : Nat) : Except Nat Unit := if ok then .ok () else .error reason
/-- The partition that a header names. -/
def partNamed (s : State) (h : Hdr) : Except Nat Nat := if h.part.toNat < s.partCount then .ok h.part.toNat else .error 5

/-! ## HELLO, ATTEST and KEY (R358, R364, R398, R399) -/

def leavesLeft (s : State) : Bool := s.leaf < 2 ^ 20
def takeLeaf (s : State) : State := { s with leaf := s.leaf + 1 }
/-- HELLO needs no session, and may open one. An answer that is signed takes a leaf. -/
def execHello (h : Hdr) (msg : List Byte) (s : State) : Out :=
  if !hdrOk h 1 msg.length then .next s
  else if Config.spdmSigns msg && !leavesLeft s then .next (refuseTo h 4 s)
  else
    let leaf := s.leaf
    let s := if Config.spdmSigns msg then takeLeaf s else s
    let s := match Config.spdmOpens msg with
      | some n => if s.sessions.contains n then s else { s with sessions := s.sessions ++ [n] }
      | none => s
    .next (replyTo h (Config.spdmReply s.keys.identity s.keys.session leaf msg) s)
/-- Retired column of a quadrant as the error record and the report give it. -/
def retiredByte (q : Quad) : Byte :=
  if q.withdrawn then 0xFE else match q.retired with | some c => BitVec.ofNat 8 c | none => 0xFF
def retiredBytes (s : State) : List Byte := s.quads.toList.map retiredByte
/-- The measurement report. -/
def attestReport (s : State) (nonce : BitVec 256) : List Byte :=
  pad (leBytes 32 nonce.toNat ++ leBytes 64 (shake (((s.fwCopies[s.fwCopy]?).map (·.bytes)).getD [])).toNat
    ++ leBytes 2 s.fwVersion.toNat ++ leBytes 2 s.fwMinimum.toNat ++ leBytes 4 s.leaf
    ++ [if s.warm then 1 else 0, BitVec.ofNat 8 s.fwCopy] ++ retiredBytes s ++ List.replicate 6 0
    ++ leBytes 64 (shake (Config.mapBytes (retiredBytes s) s.retiredSlots)).toNat ++ leBytes 8 s.boxSeq.toNat) 256
def execAttest (h : Hdr) (nonce : BitVec 256) (s : State) : Out :=
  request h 2 32 s fun s => do
    need (leavesLeft s) 4
    let r := attestReport s nonce
    return (takeLeaf s, r ++ Config.sign s.keys.identity s.leaf r)
/-- KEY binds an owner to the header's partition (R358); a former owner keeps its generation (R377). -/
def bindKey (s : State) (o : BitVec 12) (part : Nat) (key : BitVec 512) : State :=
  if s.owners.any fun r => r.id == o then
    { s with owners := s.owners.map fun r => if r.id = o then { r with bound := some part, key := key } else r }
  else { s with owners := s.owners ++ [{ id := o, bound := some part, key := key, gen := 0 }] }
def execKey (h : Hdr) (owner : BitVec 16) (resv : Nat) (wrapped : BitVec 576) (s : State) : Out :=
  request h 3 76 s fun s => do
    need (resv == 0 && owner != 0 && owner.toNat < 4096) 1
    let part ← partNamed s h
    let o : BitVec 12 := owner.setWidth 12
    need (match ownerBound s o with | some p => p == part | none => true) 0x19
    match Config.unwrap s.keys.session h.session wrapped with
    | some key => return (bindKey s o part key, [])
    | none => throw 1

/-! ## IMAGE (R366) -/

def pieceLen : Piece → Nat
  | .bytes n _ => n
  | .code n _ => n
  | .firmware n _ => n
/-- A piece joins an image. -/
def addPiece (i : Image) (off : Nat) (last : Bool) (p : Piece) : Image :=
  let i := { i with sealed := last }
  match p with
  | .bytes n c => { i with bytes := csplice i.bytes off n (cbelow c n) }
  | .code _ set => { i with code := some set }
  | .firmware .. => i
def pieceFits (kind : Nat) : Piece → Bool
  | .bytes .. => true
  | .code .. => kind == 0
  | .firmware .. => false
/-- A firmware update writes the copy that does not run, raises the fused minimum when the host asks for it, and then takes a warm start
(R395; log 51, DEDUCED). -/
def updateFirmware (s : State) (f : Firmware) : State :=
  post { s with fwCopies := vmod s.fwCopies (1 - s.fwCopy) fun _ => { f with raise := false }
                fwMinimum := if f.raise && s.fwMinimum.toNat < f.version.toNat then f.version else s.fwMinimum } 0 .warmStart
def execImage (h : Hdr) (kind : Byte) (handle : Word) (off total : Dword) (last : Byte) (resv : Nat) (p : Piece) (s : State) :
    Out :=
  request h 4 (32 + pieceLen p) s fun s => do
    match p with
    | .firmware _ f => return (updateFirmware s f, leBytes 4 0)
    | _ =>
    need (resv == 0 && kind.toNat < 3 && last.toNat < 2 && pieceFits kind.toNat p) 1
    let part ← partNamed s h
    let q := partOf s part
    if handle = 0 then
      need (kind != 1 || total == 1114112) 1
      need (kind != 2 || total == 8192) 1
      need (q.images.length < 1024 && off.toNat + pieceLen p ≤ total.toNat) 1
      let i : Image := { handle := BitVec.ofNat 32 q.nextHandle, kind := kind.toNat, total := total.toNat }
      let i := addPiece i off.toNat (last == 1) p
      return (modPart s part fun q => { q with images := q.images ++ [i], nextHandle := q.nextHandle + 1 },
        leBytes 4 i.handle.toNat)
    else
      match getImage q handle with
      | none => throw 1
      | some i =>
        need (i.kind == kind.toNat && !i.sealed && total == 0 && off.toNat + pieceLen p ≤ i.total) 1
        let j := addPiece i off.toNat (last == 1) p
        return (modPart s part fun q => { q with images := q.images.map fun k => if k.handle = handle then j else k },
          leBytes 4 handle.toNat)

/-! ## LAUNCH (R280, R281, R326, R327, R348) -/

/-- The slot number within SLOT at a level, its limit, and the bits that R279 keeps zero. -/
def slotWithin (level v : Nat) : Nat :=
  match level with | 1 => v % 2 ^ 9 | 2 => v % 2 ^ 13 | 3 => v % 2 ^ 24 | _ => v
def slotLimit (level : Nat) : Nat := match level with | 1 => 512 | 2 => 8192 | 3 => 15728640 | _ => 2 ^ 31
def slotZero (level v : Nat) : Bool := match level with | 1 => v < 2 ^ 20 | 2 => v < 2 ^ 17 | 3 => v < 2 ^ 28 | _ => true
def unfilled (e : MEntry) : Bool := (meLevel e == 3 || meLevel e == 4) && meSlot e == 0xFFFFFFFF
/-- One valid entry that R280 and R281 allow, whatever the others are. -/
def entryOk (members : Nat) (i : Nat) (e : MEntry) : Bool :=
  let level := meLevel e
  let m := meSlot e / 2 ^ 9 % 2 ^ 11
  let n := pageBlocks (mePsize e)
  1 ≤ level && level ≤ 4 && meVba e < 2 ^ 40 && (unfilled e || slotZero level (meSlot e))
    && (level != 1 || m == 0x7FF || m < members)
    && 0x40 ≤ meVba e && meVba e + meCount e ≤ 2 ^ 40 && 1 ≤ meCount e
    && (unfilled e || slotWithin level (meSlot e) + meCount e ≤ slotLimit level)
    && (if i < 4096 then meVba e % n == 0 && meCount e % n == 0 && (unfilled e || slotWithin level (meSlot e) % n == 0)
        else mePsize e == 0 && meCount e == 1)
/-- Two entries of one kind that share a VBA, or a block entry inside a run of large pages. -/
def entriesClash (p q : Nat × MEntry) : Bool :=
  p.1 < q.1 && meVba p.2 < meVba q.2 + meCount q.2 && meVba q.2 < meVba p.2 + meCount p.2
    && ((p.1 < 4096) == (q.1 < 4096) || p.1 < 4096 && mePsize p.2 != 0)
def manifestBad (members : Nat) (m : Manifest) : Bool :=
  let l := m.filter fun p => meValid p.2
  l.any fun p => !entryOk members p.1 p.2 || l.any (entriesClash p)
    || meDouble p.2 && !(l.any fun q => q.1 < 4096 && meLevel q.2 == 1 && meVba q.2 == meVba p.2 + meCount p.2 && meCount q.2 == meCount p.2)
def capsBad (bytes : Cells) : Bool :=
  (capEntries bytes).any fun e => !capReservedOk e || 6 ≤ capKind e
/-- Every far slot of a stretch is one that a port gives. -/
def farStretch (s : State) (a z fuel : Nat) : Bool :=
  if z ≤ a then true
  else match fuel with
    | 0 => false
    | n + 1 => match s.farPorts.toList.find? fun p => p.first ≤ a && a < p.first + p.count with
      | some p => farStretch s (p.first + p.count) z n
      | none => false
/-- A present HBM or far entry without slots of its own (R348). -/
def slotsBad (s : State) (part : Nat) (m : Manifest) : Bool :=
  m.any fun p =>
    let e := p.2
    let stack := meSlot e / 2 ^ 24 % 16
    let gone := match s.hbmStacks[partStack0 s.partCount part + stack]? with | some k => k.unused | none => true
    meValid e && mePresent e && (unfilled e
      || meLevel e == 3 && (partStacks s.partCount ≤ stack || gone)
      || meLevel e == 4 && !farStretch s (meSlot e) (meSlot e + meCount e) 9)
/-- Origins where the shape and its quay banks fit an empty partition (R18, R330). -/
def shapeFits (s : State) (part : Nat) (d : Desc) (m : Manifest) : List (Nat × Nat) :=
  (originsOf s.partCount part d.w d.h).filter fun o =>
    let quads := shapeQuads (shapeCores o.1 o.2 d.w d.h)
    quaysNamed m ≤ quads.length && (List.range quads.length).all fun q => bankNeed m q ≤ 64
def twoFit (d : Desc) (l : List (Nat × Nat)) : Bool :=
  let quads (o : Nat × Nat) : List Nat := shapeQuads (shapeCores o.1 o.2 d.w d.h)
  l.any fun a => l.any fun b => (quads a).all fun q => !(quads b).contains q
/-- The frame region leaves the partition's HBM, or meets a slot of the manifest (R339). -/
def frameBad (s : State) (d : Desc) (m : Manifest) : Bool :=
  let q := (List.range 16).foldl (fun a r => a + 128 * bankNeed m r) 0
  let n := (1024 * (4 * d.w * d.h) + q) * (if d.pair then 2 else 1)
  let f := d.frame.toNat
  2 ^ 28 ≤ f || partStacks s.partCount ≤ f / 2 ^ 24 || 15728640 < f % 2 ^ 24 + n
    || m.any fun p => meValid p.2 && meLevel p.2 == 3 && !unfilled p.2 && meSlot p.2 < f + n && f < meSlot p.2 + meCount p.2
/-- The descriptor of a LAUNCH body, and whether its fields and its lists keep R326. -/
def descOf (s : State) (l : List Dword) : Desc × Bool :=
  let w (i : Nat) : Dword := (l[i]?).getD 0
  let ndep := ((w 0).extractLsb' 4 4).toNat
  let nchip := ((w 1).extractLsb' 0 22).toNat
  let deps := ((l.drop 16).take ndep).map fun d => d.setWidth 32
  let ids := ((l.drop (16 + ndep)).flatMap fun d => [d.extractLsb' 0 32, d.extractLsb' 32 32])
  let chips : List (BitVec 22) := if 2 ≤ nchip then (ids.take nchip).map fun c => c.setWidth 22 else []
  let lists := l.length == 16 + ndep + (if 2 ≤ nchip then (nchip + 1) / 2 else 0)
    && ((l.drop 16).take ndep).all (fun d => d.extractLsb' 32 32 == 0)
    && (ids.take nchip).all (fun c => c.extractLsb' 22 10 == 0) && (ids.drop nchip).all (· == 0)
    && (chips.isEmpty || chips.contains s.chip) && 1 ≤ nchip
  let zeros := (w 0) &&& 0x00000000FF18000E == 0 && (w 1) &&& 0x000FFFFFFFC00000 == 0 && (w 3).extractLsb' 0 32 == 0
    && (w 4).extractLsb' 32 32 == 0 && (w 6).extractLsb' 56 8 == 0 && ((l.drop 7).take 9).all (· == 0)
  ({ launch := (w 0).extractLsb' 32 32, variant := ((w 0).extractLsb' 21 3).toNat, prio := ((w 0).extractLsb' 16 3).toNat
     w := ((w 0).extractLsb' 12 4).toNat + 1, h := ((w 0).extractLsb' 8 4).toNat + 1, deps := deps, pair := (w 0).getLsbD 0
     owner := (w 1).extractLsb' 52 12, chips := chips, code := (w 2).extractLsb' 32 32, manifest := (w 2).extractLsb' 0 32
     cap := (w 3).extractLsb' 32 32, frame := (w 4).extractLsb' 0 32, route := (w 6).extractLsb' 0 56 ++ w 5 },
   lists && zeros && ndep ≤ 8)
/-- A launch that a dependence may name, and one that stands in its way as a duplicate. -/
def launchKnown (s : State) (part : Nat) (n : Word) : Bool :=
  (s.gangs.any fun g => g.part == part && g.desc.launch == n) || (partOf s part).ends.any fun e => e.launch == n
def sealedImage (p : Partition) (h : Word) (kind : Nat) : Option Image :=
  (getImage p h).bind fun i => if i.kind = kind ∧ i.sealed then some i else none
/-- Every reason for which a LAUNCH is refused. -/
def launchReasons (s : State) (h : Hdr) (l : List Dword) : List Nat :=
  let (d, ok) := descOf s l
  let part := h.part.toNat
  let p := partOf s part
  let code := (sealedImage p d.code 0).bind (·.code)
  let man := (sealedImage p d.manifest 1).map fun i => manifestOf i.bytes
  let cap := sealedImage p d.cap 2
  let m := man.getD []
  let fits := shapeFits s part d m
  let bound := ownerBound s d.owner
  let if_ (c : Bool) (n : Nat) : List Nat := if c then [n] else []
  if_ (!ok) 0x01 ++ if_ (d.owner == 0 || bound.isNone) 0x04
    ++ if s.partCount ≤ part then [0x05]
      else
        if_ (d.deps.any fun n => !launchKnown s part n) 0x05
        ++ if_ (match code with | some c => c.variants.length ≤ d.variant | none => false) 0x10
        ++ if_ fits.isEmpty 0x11 ++ if_ (launchKnown s part d.launch) 0x12
        ++ if_ (d.pair && !twoFit d fits) 0x13
        ++ if_ (256 ≤ (s.gangs.filter fun g => g.part == part && (g.status == .queued || g.status == .saved)).length) 0x14
        ++ if_ (code.isNone || man.isNone || cap.isNone || manifestBad (4 * d.w * d.h) m
            || (match cap with | some i => capsBad i.bytes | none => false)) 0x15
        ++ if_ (frameBad s d m) 0x16 ++ if_ (mapsRetired s part m) 0x17 ++ if_ (slotsBad s part m) 0x18
        ++ if_ (match bound with | some b => b != part | none => false) 0x19
        ++ if_ p.resetting 0x1A
def least (l : List Nat) : Option Nat :=
  l.foldl (fun a n => match a with | none => some n | some b => some (min b n)) none
/-- A descriptor enters the queue. With a dependence that has ended abnormally it is cancelled at once (R328). -/
def enqueueLaunch (s : State) (part : Nat) (d : Desc) : State :=
  let id := s.nextGang
  let ends := (partOf s part).ends
  let done := d.deps.filter fun n => ends.any fun e => e.launch == n && e.normal
  let bad := d.deps.any fun n => ends.any fun e => e.launch == n && !e.normal
  let g : Gang := { id := id, part := part, desc := d, age := s.ptide, entered := s.ptide, ended := done }
  let s := { s with gangs := s.gangs ++ [g], nextGang := id + 1 }
  if bad then endLaunch (sendEvent (removeGang s id) 0x05 0 d.launch 0 0 0 none (partField part)) part d.launch false
  else askScheduler s part
def execLaunch (h : Hdr) (desc : List Dword) (s : State) : Out :=
  request h 5 (8 * desc.length) s fun s =>
    match least (launchReasons s h desc) with
    | some n => .error n
    | none => .ok (enqueueLaunch s h.part.toNat (descOf s desc).1, [])

/-! ## QUERY and CANCEL (R365, R366) -/

def findLaunch (s : State) (part : Nat) (n : Word) : Option Gang :=
  s.gangs.find? fun g => g.part == part && g.desc.launch == n
def stateCode (g : Gang) : Nat :=
  match g.status with
  | .queued => 0
  | .placed => if heldInTrap g then 2 else 1
  | .killing => 1
  | .saved => 3
  | .absent => 4
  | .lost => 7
def phaseOf (g : Gang) : Dword := ((((g.cores ++ g.kept)[0]?).map fun c => c.regs.ctl.phase)).getD 0
def launchReply (s : State) (part : Nat) (n : Word) (code : Nat) (phase : Dword) (h : Hold) : List Byte :=
  leBytes 1 code ++ leBytes 1 part ++ leBytes 2 0 ++ leBytes 4 n.toNat ++ leBytes 8 phase.toNat ++ holdCounters h ++ holdRing h
    ++ leBytes 8 (partOf s part).absorbed.toNat
def freeCores (s : State) (part : Nat) : Nat :=
  let (x, y, w, hh) := partRect s.partCount part
  ((List.range hh).flatMap fun j => (List.range w).map fun i => (x + i, y + j)).filter (fun p =>
    !coreBusy s p.1 p.2 && !(((s.quads[quadOf p.1 p.2]?).map (·.withdrawn)).getD false)) |>.length
def partReply (s : State) (part : Nat) : List Byte :=
  let p := partOf s part
  let queued := (s.gangs.filter fun g => g.part == part && (g.status == .queued || g.status == .saved)).length
  pad ([0xFF, partByte part] ++ leBytes 2 queued ++ leBytes 4 (freeCores s part) ++ leBytes 8 p.absorbed.toNat
    ++ leBytes 8 p.endCount.toNat) 1160
def execQuery (h : Hdr) (launch : Word) (resv : Nat) (s : State) : Out :=
  request h 6 8 s fun s => do
    need (resv == 0) 1
    let part ← partNamed s h
    if launch = 0 then return (s, partReply s part)
    else match findLaunch s part launch with
      | some g => return (s, launchReply s part launch (stateCode g) (phaseOf g) g.hold)
      | none =>
        match (partOf s part).ends.reverse.find? fun e => e.launch == launch with
        | some e => return (s, launchReply s part launch (if e.normal then 5 else 6) 0 {})
        | none => throw 5
/-- A CANCEL of a launch that must exist. -/
def cancel (h : Hdr) (launch : Word) (resv : Nat) (s : State) (act : State → Gang → Except Nat State) : Out :=
  request h 7 8 s fun s => do
    need (resv == 0) 1
    let part ← partNamed s h
    match findLaunch s part launch with
    | none => throw 5
    | some g => return (← act s g, [])
/-- CANCEL mode 0, and the modes that R365 does not give. -/
def execCancelKill (h : Hdr) (launch : Word) (mode : Byte) (resv : Nat) (s : State) : Out :=
  cancel h launch resv s fun s g => if mode = 0 then .ok (killByHost s g) else .error 1
def execCancelRelease (h : Hdr) (launch : Word) (resv : Nat) (s : State) : Out :=
  cancel h launch resv s fun s g => if heldInTrap g then .ok (beginKill s g.id none false) else .error 1
def execCancelResume (h : Hdr) (launch : Word) (resv : Nat) (s : State) : Out :=
  cancel h launch resv s fun s g => if heldInTrap g then .ok (resumeGang s g.id) else .error 1
/-- CANCEL mode 3 puts a copy saved after a lost chip back into the queue with its age. -/
def execCancelRestore (h : Hdr) (launch : Word) (resv : Nat) (s : State) : Out :=
  cancel h launch resv s fun s g =>
    if g.status = .lost then .ok (askScheduler (modGang s g.id fun g => { g with status := .saved, kind := 0 }) g.part) else .error 5
def execPilotReset (h : Hdr) (count : Word) (s : State) : Out :=
  request h 8 4 s fun s =>
    if h.part = 0xFFFF then
      if count = 1 ∨ count = 2 ∨ count = 4 then .ok (beginResetAll s count.toNat, []) else .error 1
    else (partNamed s h).map fun p => (beginReset s p, [])

/-! ## READ and WRITE (R366, R367) -/

/-- A READ or a WRITE of `len` data bytes in whole units. -/
def readReq (h : Hdr) (len : Word) (resv unit : Nat) (s : State) (act : State → Nat → Except Nat (State × List Byte)) : Out :=
  request h 9 32 s fun s => do
    need (resv == 0 && len.toNat % unit == 0 && len.toNat ≤ 2 ^ 24) 1
    act s (len.toNat / unit)
def writeReq (h : Hdr) (len : Word) (resv unit : Nat) (s : State) (act : State → Nat → Except Nat State) : Out :=
  request h 10 (32 + len.toNat) s fun s => do
    need (resv == 0 && len.toNat % unit == 0) 1
    return (← act s (len.toNat / unit), [])
def packageOnly (h : Hdr) : Except Nat Unit := need (h.part == 0xFFFF) 1
def onePart (s : State) (h : Hdr) : Except Nat Nat := if h.part = 0xFFFF then .error 1 else partNamed s h

/-! ### Kind 0: blocks -/

/-- The slot of block `i` of a kind 0 target. -/
def targetSlot (s : State) (part : Nat) (t : BlockTarget) (i : Nat) : Except Nat Slot := do
  let n := t.first.toNat + i
  let level := t.level.toNat
  if level = 3 then
    need (t.stack.toNat < partStacks s.partCount && n < 15728640 && t.launch == 0 && t.member == 0) 1
    return .hbm (partStack0 s.partCount part + t.stack.toNat) n
  else if level = 4 then
    need (t.stack == 0 && t.launch == 0 && t.member == 0 && farStretch s n (n + 1) 9) 1
    return .far n
  else if level = 1 ∨ level = 2 then
    need (t.stack == 0) 1
    match findLaunch s part t.launch with
    | none => throw 3
    | some g =>
      need (g.desc.owner == t.owner.setWidth 12 && heldInTrap g) 3
      if level = 1 then
        need (t.member.toNat < g.size && n < 512) 3
        return .berth (coreOfMember g 0 t.member.toNat) n
      else
        match g.quays[t.member.toNat]? with
        | none => throw 3
        | some e =>
          need (n < 128 * e.2.length) 3
          return quaySlot g 0 t.member.toNat n
  else throw (if level = 0 then 3 else 1)
def targetSlots (s : State) (h : Hdr) (t : BlockTarget) (n : Nat) : Except Nat (List Slot) := do
  need (t.owner != 0 && t.owner.toNat < 4096) 1
  let part ← onePart s h
  need (ownerBound s (t.owner.setWidth 12)).isSome 4
  (List.range n).mapM (targetSlot s part t)
def execReadBlocks (h : Hdr) (len : Word) (t : BlockTarget) (resv : Nat) (s : State) : Out :=
  readReq h len resv 4352 s fun s n => do
    let slots ← targetSlots s h t n
    let o : BitVec 12 := t.owner.setWidth 12
    return slots.foldl (fun (a : State × List Byte) sl =>
      let s := readBlock a.1 o sl
      (s, a.2 ++ cbytes (getBlock s o sl) 0 4352)) (s, [])
/-- The block that a host's WRITE stores: its reserved bits and its POISON zero, and no marks. -/
def hostBlock (c : Cells) : Cells :=
  let b := cbelow c 4344
  cput b (sideAt + 240) (cget b (sideAt + 240) &&& 1)
def execWriteBlocks (h : Hdr) (len : Word) (t : BlockTarget) (resv : Nat) (blocks : List Cells) (s : State) : Out :=
  writeReq h len resv 4352 s fun s n => do
    need (blocks.length == n) 1
    let slots ← targetSlots s h t n
    return (slots.zip blocks).foldl (fun s p => putBlock s (t.owner.setWidth 12) p.1 (hostBlock p.2)) s

/-! ### Kinds 1 to 4 -/

def manifestImage (s : State) (h : Hdr) (handle entry : Word) (n : Nat) : Except Nat (Nat × Image) := do
  let part ← onePart s h
  match getImage (partOf s part) handle with
  | none => throw 1
  | some i =>
    need (i.kind == 1 && entry.toNat + n ≤ 69632) 1
    return (part, i)
def execReadManifest (h : Hdr) (len handle entry : Word) (resv : Nat) (s : State) : Out :=
  readReq h len resv 16 s fun s n => do
    let (_, i) ← manifestImage s h handle entry n
    return (s, cbytes i.bytes (16 * entry.toNat) (16 * n))
/-- A WRITE of entries changes the authoritative copy alone (R347). -/
def execWriteManifest (h : Hdr) (len handle entry : Word) (resv : Nat) (entries : List (Dword × Dword)) (s : State) : Out :=
  writeReq h len resv 16 s fun s n => do
    need (entries.length == n) 1
    let (part, i) ← manifestImage s h handle entry n
    let bytes := entries.zipIdx.foldl (fun b p => putEntry b (entry.toNat + p.2) ⟨p.1.1, p.1.2⟩) i.bytes
    return modPart s part fun q => { q with images := q.images.map fun k => if k.handle = handle then { k with bytes := bytes } else k }
/-- SCHED0 to SCHED2 of the header's partition, or SCHED3 with PART 0xFFFF. -/
def schedTarget (s : State) (h : Hdr) (reg : Byte) (n : Nat) : Except Nat (Option Nat) := do
  if reg = 3 then
    packageOnly h
    need (n ≤ 1) 1
    return none
  else
    let part ← onePart s h
    need (reg.toNat + n ≤ 3) 1
    return some part
def execReadSched (h : Hdr) (len : Word) (reg : Byte) (resv : Nat) (s : State) : Out :=
  readReq h len resv 8 s fun s n => do
    match ← schedTarget s h reg n with
    | none => return (s, (List.replicate n s.sched3).flatMap fun d => leBytes 8 d.toNat)
    | some part => return (s, (List.range n).flatMap fun i => leBytes 8 (schedOf s part (reg.toNat + i)))
/-- MINLEVEL, of which 5 to 7 act as 4 (R400). -/
def minLevel (s : State) : Nat := min 4 (s.sched3.extractLsb' 0 3).toNat
def execWriteSched (h : Hdr) (len : Word) (reg : Byte) (resv : Nat) (vals : List Dword) (s : State) : Out :=
  writeReq h len resv 8 s fun s n => do
    need (vals.length == n) 1
    match ← schedTarget s h reg n with
    | none =>
      let s := { s with sched3 := ((vals[0]?).getD s.sched3) &&& 7 }
      return { s with level := max s.level (minLevel s) }
    | some part =>
      return modPart s part fun p => { p with
        sched := vals.zipIdx.foldl (fun v q => vmod v (reg.toNat + q.2) fun _ => q.1) p.sched }
/-- The member of a kind 3 target while its launch is placed; none reads zero and takes no write (R351). -/
def ctlTarget (s : State) (h : Hdr) (launch : Word) (member : BitVec 16) : Except Nat (Option (Gang × Nat)) := do
  let part ← onePart s h
  match findLaunch s part launch with
  | none => return none
  | some g =>
    need (member.toNat < g.size) 1
    return if g.cores.isEmpty then none else some (g, member.toNat)
def execReadCoreRegister (h : Hdr) (len launch : Word) (member num : BitVec 16) (resv : Nat) (s : State) : Out :=
  readReq h len resv 8 s fun s n => do
    let target ← ctlTarget s h launch member
    let core : Core := {}
    let vals ← (List.range n).mapM fun i => do
      need (readCtl core 0 (num.toNat + i)).isSome 1
      return match target with
        | some (g, m) => ((g.cores[m]?).bind fun c => readCtl c g.tide (num.toNat + i)).getD 0
        | none => 0
    return (s, vals.flatMap fun d => leBytes 8 d.toNat)
def execWriteCoreRegister (h : Hdr) (len launch : Word) (member num : BitVec 16) (resv : Nat) (vals : List Dword) (s : State) : Out :=
  writeReq h len resv 8 s fun s n => do
    need (vals.length == n) 1
    let target ← ctlTarget s h launch member
    let core : Core := {}
    vals.zipIdx.foldlM (fun s p => do
      let r := num.toNat + p.2
      need ((readCtl core 0 r).isSome && 5 ≤ r && !(0x10 ≤ r && r < 0x18 && !tshpOk p.1)) 1
      return match target with
        | some (g, m) =>
          let s := hwrMember s ⟨g.id, m⟩ r p.1
          if g.desc.pair then hwrMember s ⟨g.id, m + g.size⟩ r p.1 else s
        | none => s) s
/-- WRITE kind 4 posts a command record; while the queue is full the message waits. -/
def execWriteCommand (h : Hdr) (len : Word) (resv : Nat) (r : CmdRec) (s : State) : Out :=
  if queueFull s && hdrOk h 10 (32 + len.toNat) && inSession s h then .next (post s 1 (.writeCommand h len resv r))
  else
    request h 10 (32 + len.toNat) s fun s => do
      need (resv == 0 && len == 64) 1
      let (n, s) := postCmd s r true
      return (s, leBytes 8 n)

/-! ### Kinds 5 to 7 (R384, R385, R387, R405) -/

def errorRecord (s : State) : List Byte :=
  let lanes (p : Port) : Byte := BitVec.ofNat 8 (p.lanes + if p.spare then 128 else 0)
  pad ((List.range 184).flatMap (fun i => leBytes 8 (counterAt s (8 * i)).toNat) ++ s.ports.toList.map lanes ++ retiredBytes s
    ++ leBytes 8 s.boxSeq.toNat) 4096
def execReadErrorRecord (h : Hdr) (len : Word) (resv : Nat) (s : State) : Out :=
  readReq h len resv 4096 s fun s n => do
    packageOnly h
    return (s, (List.replicate n (errorRecord s)).flatten)
def boxBytes (r : BoxRec) : List Byte :=
  pad (leBytes 8 r.tide ++ leBytes 4 r.seq.toNat ++ leBytes 2 r.code.toNat ++ [r.part, r.severity] ++ leBytes 4 r.launch.toNat
    ++ leBytes 2 r.member.toNat ++ leBytes 2 0 ++ leBytes 8 r.a.toNat ++ leBytes 8 r.b.toNat ++ leBytes 8 r.c.toNat) 64
/-- The flushed 4 KiB, then the mirrored ring if it survived. -/
def boxData (s : State) : List Byte :=
  pad (s.flushed.flatMap boxBytes) 4096 ++ match s.mirror with | some l => l.flatMap boxBytes | none => []
def execReadBlackBox (h : Hdr) (len : Word) (resv : Nat) (s : State) : Out :=
  readReq h len resv 64 s fun s n => do
    packageOnly h
    return (s, (pad (boxData s) (64 * n)).take (64 * n))
def execReadInjection (h : Hdr) (len : Word) (resv : Nat) (s : State) : Out :=
  readReq h len resv 8 s fun s n => do
    packageOnly h
    return (s, (List.replicate n s.inject).flatMap fun d => leBytes 8 d.toNat)
def execWriteInjection (h : Hdr) (len : Word) (resv : Nat) (val : Dword) (s : State) : Out :=
  writeReq h len resv 8 s fun s n => do
    need (n == 1 && val &&& 0x7FFFFFC000008000 == 0) 1
    packageOnly h
    return { s with inject := val }

end Sys2Proof.Machine
end

