-- ==== Sys2Proof/Machine/Repair.lean ====
section
/-! DEFINITION. Storage errors as they strike, and the repair of rows, lanes, columns, links and ports (23, 25): R226, R263, R275,
R292, R318, R369, R378 to R384, R387 to R393. -/

namespace Sys2Proof.Machine

/-! ## Where an error strikes (R275, R378 to R380) -/

/-- One bit of the latent or the correctable errors that a slot holds. -/
def strikeWord (s : State) (sl : Slot) (word : Nat) (unc : Bool) : State :=
  modBlock s sl fun b => cputBit b (8 * (if unc then latentAt else softAt) + word % 1024) true
/-- What an error in a queue entry or a landing record belongs to: the serial number of the access, or the cycle of the landing's
issue and its cluster. -/
def faultIn (c : Core) (unit entry : Nat) : Nat :=
  if unit = 4 then ((c.accesses[entry]?).map (·.serial)).getD 0
  else if unit = 5 then (((c.regs.landings.filter (·.long))[entry]?).map fun l => 4 * l.issued + l.cl.code.toNat).getD 0
  else 0
/-- The record of a package-fatal event, flushed. -/
def packageFatal (s : State) : State :=
  boxAdd s 0x00F0 0xFF 3 s.harbour.core.regs.ctl.trapc s.harbour.core.regs.ctl.tval
/-- STORAGE_ERROR: an error strikes, to be found by the read that meets it; a correctable one in a register is counted at once. One in the harbourmaster's
own state is package-fatal (R378). -/
def execStorageError (e : ErrSite) (s : State) : Out :=
  match e with
  | .payload sl word unc => .next (strikeWord s sl word unc)
  | .register k unit entry unc =>
    match getMember s k with
    | none => .next s
    | some (_, c) =>
      if unc then .next (modMember s k fun c => { c with faults := c.faults ++ [(unit, entry, faultIn c unit entry)] })
      else .next (countError s (8 * c.quad) 1)
  | .rollback k unit entry => .next (modMember s k fun c => { c with faults := c.faults ++ [(8 + unit, entry, 0)] })
  | .harbour => .next (post (packageFatal s) 0 .warmStart)

/-! ## HBM rows (R388) -/

def rowCount (s : State) (stack row : Nat) : Nat := ((s.rowErrors.find? fun r => r.1 == stack && r.2.1 == row).map (·.2.2)).getD 0
def dropRow (s : State) (stack row : Nat) : State := { s with rowErrors := s.rowErrors.filter fun r => !(r.1 == stack && r.2.1 == row) }
/-- HBM_ROW_SPARE: a row records an error. Its fourth corrected sector or an uncorrectable word spares it, and the copy reads its slots;
or it retires them when its bank has no spare row left. -/
def execHbmRowSpare (stack row : Nat) (uncorrectable spareLeft : Bool) (slots : List Nat) (s : State) : Out :=
  let n := rowCount s stack row + 1
  let s := dropRow s stack row
  if !uncorrectable && n < 4 then .next { s with rowErrors := s.rowErrors ++ [(stack, row, n)] }
  else
    let code : BitVec 16 := if spareLeft then 0x0030 else 0x0031
    let s := boxAdd s code 0xFF 1 (BitVec.ofNat 64 stack) (BitVec.ofNat 64 row)
    if spareLeft then
      let s := { s with sparedRows := s.sparedRows ++ [(stack, row)] }
      .next (slots.foldl (fun s i => (scrub s (.hbm stack i) 0 4096).1) (countError s (768 + 8 * (stack % 16)) 1))
    else .next { s with retiredSlots := (s.retiredSlots ++ slots.map fun i => (stack, i)).eraseDups }

/-! ## Routes and lanes (R390, R393) -/

/-- Both ends of a port retrain. -/
def pausePort (s : State) (port : Nat) : State :=
  let (d, s) := draw Config.retrainTime s
  let d := min d (2 ^ 20)
  post { s with ports := vmod s.ports port fun p => { p with paused := s.ptide + d } } d (.laneRetrainDone port)
/-- LANE_FAIL: the spare lane takes over; a second failure halves the port, a third kills it. The retries of the failed lane are done with. -/
def execLaneFail (port lane : Nat) (s : State) : Out :=
  match s.ports[port]? with
  | none => .next s
  | some p =>
    let note (code : BitVec 16) (q : Port) : State :=
      boxAdd { s with ports := vmod s.ports port fun _ => q } code 0xFF 1 (BitVec.ofNat 64 port) (BitVec.ofNat 64 lane)
    let q : Port := { p with times := p.times.filter fun t => t.1 != lane }
    if p.lanes = 0 then .next s
    else if !p.spare then .next (pausePort (note 0x0040 { q with spare := true }) port)
    else if p.lanes = 4 then .next (pausePort (note 0x0041 { q with lanes := 2 }) port)
    else .next (switchRoutes (note 0x0042 { q with lanes := 0 }))
def execLaneRetrainDone (port : Nat) (s : State) : Out :=
  .next { s with ports := vmod s.ports port fun p => { p with paused := 0 } }
/-- FLIT_RETRY of a lane: counted for its port; past 1,024 of one lane within 2^30 package cycles that lane fails, once. -/
def execFlitRetry (at_ : PortLane) (s : State) : Out :=
  let port := at_.port
  let lane := at_.lane
  match s.ports[port]? with
  | none => .next s
  | some p =>
    let s := countError s (960 + 8 * port) 1
    let times := (p.times.filter fun t => s.ptide < t.2 + 2 ^ 30) ++ [(lane, s.ptide)]
    let fails := 1024 < (times.filter fun t => t.1 == lane).length
    let times := if fails then times.filter fun t => t.1 != lane else times
    let s := { s with ports := vmod s.ports port fun p => { p with times := times } }
    .next (if fails then post s 0 (.laneFail port lane) else s)
/-- CHIP_ROUTE_RESTORED: a route to the chip that its identifier names, the lost one or a spare, which goes round every link that is dead
now (R393). Only a reset of the chip by the host ends its loss to the gangs of one owner (R360). -/
def execChipRouteRestored (back : RouteBack) (s : State) : Out := .next { s with
  alternate := s.alternate.filter fun c => c != back.chip
  around := s.around.filter (fun p => p.1 != back.chip) ++ ((List.range 184).filter (linkDead s)).map fun l => (back.chip, l)
  lostChips := s.lostChips.filter fun c => c != back.chip
  lostTo := if back.reset then s.lostTo.filter fun e => e.2 != back.chip else s.lostTo }

/-! ## Columns and quadrants (R391, R392) -/

def holdsQuad (g : Gang) (q : Nat) : Bool := g.cores.any fun c => c.quad == q
def askAll (s : State) : State := (List.range s.partCount).foldl askScheduler s
/-- A pre-emption request to every gang that holds a core of a quadrant. -/
def clearQuad (s : State) (q : Nat) : State :=
  (s.gangs.filter fun g => holdsQuad g q).foldl (fun s g => requestPreempt s g.id false) s
/-- CORE_RETIRE: once no gang holds the quadrant, its cores move off the column. With the spare column in use the quadrant is
withdrawn. -/
def execCoreRetire (quad column : Nat) (s : State) : Out :=
  match s.quads[quad]? with
  | none => .next s
  | some q =>
    if q.withdrawn then .next s
    else if q.retired.isSome then .next (post s 0 (.quadrantWithdraw quad column))
    else if s.gangs.any fun g => holdsQuad g quad then
      let s := clearQuad (modQuad s quad fun q => { q with pending := some column }) quad
      let (d, s) := draw Config.serviceTime s
      .next (post s (d + 1) (.coreRetire quad column))
    else
      let s := modQuad s quad fun q => { q with retired := some column, pending := none, charges := [] }
      .next (askAll (boxAdd s 0x0050 0xFF 1 (BitVec.ofNat 64 quad) (BitVec.ofNat 64 column)))
/-- QUADRANT_WITHDRAW: nothing is placed in the quadrant any more, and its gangs are saved. -/
def execQuadrantWithdraw (quad column : Nat) (s : State) : Out :=
  match s.quads[quad]? with
  | none => .next s
  | some q =>
    if q.withdrawn then .next s
    else
      let s := modQuad s quad fun q => { q with withdrawn := true, pending := none, charges := [] }
      .next (clearQuad (boxAdd s 0x0051 0xFF 1 (BitVec.ofNat 64 quad) (BitVec.ofNat 64 column)) quad)
/-! ## Long links (R292, R393) -/

/-- LONG_LINK_DEATH between quadrants `a` and `b`: a gang's transfers across the link are cut off from its next end of a cycle on. -/
def execLongLinkDeath (a b : Nat) (s : State) : Out :=
  if a = b ∨ 16 ≤ a ∨ 16 ≤ b ∨ s.routes.getLsbD (pairIndex a b) then .next s
  else
    let s := { s with routes := s.routes ||| ((1 : BitVec 120) <<< pairIndex a b) }
    .next (switchRoutes (boxAdd s 0x0060 0xFF 1 (BitVec.ofNat 64 (pairIndex a b)) 0))

/-! ## Far-tier ports (R263, R369) -/

/-- The standing exchanges of a gang on a port, with their core index. -/
def farOn (s : State) (g : Gang) (port : Nat) : List (Nat × Standing) :=
  g.cores.zipIdx.flatMap fun p => (p.1.standing.filter fun t => t.pairs.any fun q => match q.2 with
    | .far i => farPortOf s i == some port
    | _ => false).map fun t => (p.2, t)
/-- FAR_PORT_DOWN: each XFAR on the port is held under cause 2. -/
def execFarPortDown (port : Nat) (s : State) : Out :=
  let s := { s with farPorts := vmod s.farPorts port fun p => { p with up := false } }
  .next { s with gangs := s.gangs.map fun g =>
    (farOn s g port).foldl (fun g p =>
      if isSecondary g p.1 || waiting g 2 p.2.serial then g else startClaim s g 2 (memberOf g p.1) false p.2.serial) g }
/-- FAR_PORT_RETURN: the holds end, and what was released goes on. -/
def execFarPortReturn (port : Nat) (s : State) : Out :=
  let s := { s with farPorts := vmod s.farPorts port fun p => { p with up := p.count != 0 } }
  .next (s.gangs.foldl (fun s g =>
    (farOn s g port).foldl (fun s p =>
      let s := modGang s g.id fun g => endClaims g fun c => c.cause == 2 && c.id == p.2.serial
      let swap : Instr := .xfarPairSwap ⟨g.id, p.1⟩ p.2.serial
      if p.2.released && !(s.agenda.any fun e => e.2 == swap) then post s 0 swap else s) s) s)

/-! ## The black box (R387) -/

/-- BLACKBOX_MIRROR: the ring is copied to the HBM reserve. -/
def execBlackboxMirror (s : State) : Out := .next (post { s with mirror := some s.box } 700000 .blackboxMirror)

end Sys2Proof.Machine
end

