-- ==== Sys2Proof/Machine/Power.lean ====
section
/-! DEFINITION. Starts, the watchdog, the tide clock's level and the power-off (24): R353, R369, R387, R391, R392, R394 to R397,
R400, R401, R403, R405. -/

namespace Sys2Proof.Machine

/-! ## The firmware (R395) -/

/-- The boot ROM takes copy 0 if it can, else copy 1. -/
def firmwareCopy (s : State) : Option Nat :=
  (List.range 2).find? fun c => match s.fwCopies[c]? with
    | some f => Config.firmwareOk f.bytes && s.fwMinimum.toNat ≤ f.version.toNat
    | none => false
def copyVersion (s : State) (c : Nat) : BitVec 16 := ((s.fwCopies[c]?).map (·.version)).getD 0
/-- The copy with which a start goes on; none when a step of it that halts the package fails (R394, steps 1, 2 and 7). -/
def startCopy (s : State) : Option Nat × State :=
  let (fails, s) := draw Config.startFails s
  (if fails then none else firmwareCopy s, s)
/-- What the outside does to the package: its hosts, its power and its surroundings, and what strikes it. A start leaves these events in
the calendar. -/
def outside : Instr → Bool
  | .hello .. | .attest .. | .key .. | .image .. | .launch .. | .query .. | .cancelKill .. | .cancelRelease .. | .cancelResume ..
  | .cancelRestore .. | .pilotReset .. | .readBlocks .. | .writeBlocks .. | .readManifest .. | .writeManifest .. | .readSched ..
  | .writeSched .. | .readCoreRegister .. | .writeCoreRegister .. | .writeCommand .. | .readErrorRecord .. | .readBlackBox ..
  | .readInjection .. | .writeInjection .. => true
  | .coldStart .. | .warmStart | .throttleRaise | .throttleLower | .emergencyPowerOff | .storageError _ | .flitRetry _ | .laneFail ..
  | .longLinkDeath .. | .farPortDown _ | .farPortReturn _ | .chipRouteRestored .. | .otherAgentPerform .. => true
  | _ => false
/-- A package whose start failed halts. -/
def haltPackage (s : State) : State :=
  { s with power := .halted, gangs := [], agenda := s.agenda.filter fun e => outside e.2, sessions := [], cur := .device, turn := 0 }
/-- The record of a start. -/
def startRecord (s : State) (warm : Bool) : State :=
  boxAdd s 0x0001 0xFF 0 (if warm then 1 else 0) (s.fwVersion.setWidth 64)

/-! ## COLD_START (R391, R392, R394, R369) -/

/-- A core that failed BIST: its column is retired, or its quadrant withdrawn. -/
def retireAtStart (s : State) (p : Nat × Nat) : State :=
  match s.quads[p.1]? with
  | none => s
  | some q =>
    let note (code : BitVec 16) (q : Quad) : State :=
      boxAdd (modQuad s p.1 fun _ => q) code 0xFF 1 (BitVec.ofNat 64 p.1) (BitVec.ofNat 64 p.2)
    if q.withdrawn || q.retired == some p.2 then s
    else if q.retired.isNone then note 0x0050 { q with retired := some p.2 }
    else note 0x0051 { q with withdrawn := true }
/-- A stack whose training or whose repair of a row fails is unused, with a record for each such row, all its spared rows when the stack
did not train; and a quadrant whose SRAM rows cannot be repaired is withdrawn (R392, R394). -/
def stackAtStart (s : State) (k : Nat) (rows : List (Nat × Nat)) : State :=
  (rows.filter fun p => p.1 == k).foldl (fun s p => boxAdd s 0x0031 0xFF 1 (BitVec.ofNat 64 k) (BitVec.ofNat 64 p.2))
    { s with hbmStacks := vmod s.hbmStacks k fun k => { k with unused := true } }
def withdrawAtStart (s : State) (p : Nat × Nat) : State :=
  if ((s.quads[p.1]?).map (·.withdrawn)).getD true then s
  else boxAdd (modQuad s p.1 fun q => { q with withdrawn := true }) 0x0051 0xFF 1 (BitVec.ofNat 64 p.1) (BitVec.ofNat 64 p.2)
/-- Steps 4 and 5 of a start (R394): the rows spared since the last start are repaired for good; a warm start trains no stack. -/
def repairAtStart (s : State) (warm : Bool) : State :=
  let (lost, s) := draw Config.untrained s
  let lost := if warm then [] else lost
  let (use, s) := draw id s
  let bad := s.sparedRows.filter fun p => lost.contains p.1 || Config.unmended use p.1 p.2
  let s := ((lost ++ bad.map (·.1)).eraseDups).foldl (fun s k => stackAtStart s k bad) s
  let s := { s with mendedRows := s.mendedRows ++ s.sparedRows.filter (fun p => !bad.contains p), sparedRows := [] }
  let (quads, s) := draw Config.unrepaired s
  quads.foldl withdrawAtStart s
/-- A CXL port without a device of its kind is reported: as a dead port, numbered on from the 64 Ryide ports (R369, R386; log 84,
DESIGN CHOICE). -/
def farAtStart (slots : List Nat) (s : State) : State :=
  (List.range 8).foldl (fun s p =>
    if (slots[p]?).getD 0 = 0 then boxAdd s 0x0042 0xFF 1 (BitVec.ofNat 64 (64 + p)) 0 else s) s
/-- Far slots are numbered in ascending port order; a port with none stays unused. -/
def enumerateFar (slots : List Nat) : Vector FarPort 8 :=
  Vector.ofFn fun p =>
    let n := (slots[p.val]?).getD 0
    { up := n != 0, first := ((slots.take p.val).foldl (· + ·) 0), count := n }
/-- COLD START at power-on: what boot flash and the fuses hold, and a fresh package around it, to which the host assigns its identifier
(R309; log 85, DESIGN CHOICE). -/
def coldPackage (s : State) (failing : List (Nat × Nat)) (farSlots : List Nat) (copy : Nat) : State :=
  let (chip, s) := draw Config.assignedChip s
  let t : State := { State.reset with
    chip := chip, retiredSlots := (Config.retiredBase ++ s.retiredSlots).eraseDups, flushed := s.flushed, leaf := s.leaf
    sparedRows := s.sparedRows, mendedRows := s.mendedRows
    box := [], boxSeq := s.boxSeq, fwCopies := s.fwCopies, fwCopy := copy, fwVersion := copyVersion s copy, fwMinimum := s.fwMinimum
    outbox := s.outbox, sent := s.sent, serial := s.serial, free := s.free, nextGang := s.nextGang }
  let t := startRecord (repairAtStart (failing.foldl retireAtStart t) false) false
  let t := (s.agenda.filter fun e => outside e.2).foldl (fun t e => post t (e.1 - s.ptide) e.2) t
  farAtStart farSlots { t with farPorts := enumerateFar farSlots }
def execColdStart (failing : List (Nat × Nat)) (farSlots : List Nat) (s : State) : Out :=
  match startCopy s with
  | (none, s) => .next (haltPackage s)
  | (some c, s) => .next (coldPackage s failing farSlots c)

/-! ## WARM_START (R387, R394, R396, R405) -/

/-- The last 64 records go to boot flash. -/
def flushBox (s : State) : State := { s with flushed := s.box.drop (s.box.length - 64) }
/-- Every on-die slot is void: all that lie below the HBM slots. -/
def voidDie (s : State) : State := { s with mem := cfrom s.mem (blockStride * slotNumber (.hbm 0 0)) }
/-- What a warm start leaves in the calendar: the outside, and the clocks of the package. -/
def keepEvent : Instr → Bool
  | .blackboxMirror | .watchdogExpiry | .laneRetrainDone _ => true
  | i => outside i
/-- WARM START: boot flash keeps the counters, the maps, the generations and the black box; HBM and the far tier stay in place, and the
tide clock keeps its level (log 7, DESIGN CHOICE). -/
def warmPackage (s : State) (copy : Nat) : State :=
  let s := voidDie s
  let parts : Vector Partition 4 := Vector.replicate 4 Partition.fresh
  let unbound (o : Owner) : Owner := { id := o.id, bound := none, key := 0, gen := o.gen }
  let s := { s with
    power := .running, warm := true, gangs := [], parts := parts, newCount := none, owners := s.owners.map unbound
    harbour := { firmware := s.harbour.firmware, tide := s.harbour.tide, lastIssue := s.ptide }
    tickets := [], nextTicket := 1, backlog := [], rowErrors := [], inject := s.inject &&& 0x7FFFFFFFFFFFFFFF, sched3 := 0, sessions := []
    quads := s.quads.map fun q => { q with charges := [], pending := none }
    keys := deriveKeys, fwCopy := copy, fwVersion := copyVersion s copy
    retiredSlots := (Config.retiredBase ++ s.retiredSlots).eraseDups
    agenda := s.agenda.filter fun e => keepEvent e.2, cur := .device, turn := 0 }
  startRecord (repairAtStart s true) true
def warmStart (s : State) : State :=
  match startCopy (flushBox s) with
  | (none, s) => haltPackage s
  | (some c, s) => warmPackage s c
def execWarmStart (s : State) : Out := .next (warmStart s)
/-- WATCHDOG_EXPIRY: with no issue of the firmware for 2^30 package cycles a warm start begins. A package that holds no firmware
lines has none to watch (log 5, DESIGN CHOICE). -/
def execWatchdogExpiry (s : State) : Out :=
  let h := s.harbour
  if !h.firmware.isEmpty && h.lastIssue + 2 ^ 30 ≤ s.ptide then .next (post (warmStart s) (2 ^ 30) .watchdogExpiry)
  else
    let wait := if h.firmware.isEmpty then 2 ^ 30 else h.lastIssue + 2 ^ 30 - s.ptide
    .next (post s wait .watchdogExpiry)

/-! ## The tide clock's level (R400, R401) -/

/-- A reading passes a limit: 7,125 A, 4,200 W, 100 degrees. -/
def overLimit (r : Config.Readings) : Bool := 7125 < r.amps || 4200 < r.watts || 100 < r.heat
/-- Every reading is under 90 % of its limit, and every die below 90 degrees. -/
def wellUnder (r : Config.Readings) : Bool := 10 * r.amps < 9 * 7125 && 10 * r.watts < 9 * 4200 && r.heat < 90
/-- What the sensors read over 1 us: past a limit, one level slower, at most 4; no count in cycles changes. -/
def execThrottleRaise (s : State) : Out :=
  let (now, s) := draw Config.readings s
  .next (if overLimit now then { s with level := min 4 (s.level + 1) } else s)
/-- What they read over 100 us: well under every limit, one level faster, never below MINLEVEL. -/
def execThrottleLower (s : State) : Out :=
  let (now, s) := draw Config.readings s
  .next (if wellUnder now then { s with level := max (minLevel s) (s.level - 1) } else s)

/-! ## The emergency power-off (R403) -/

/-- EMERGENCY_POWER_OFF: every gang tide stops. -/
def execEmergencyPowerOff (s : State) : Out := .next { packageFatal s with power := .off }

end Sys2Proof.Machine
end

