-- ==== Sys2Proof/Machine/Dispatch.lean ====
section
/-! DEFINITION. One arm for each instruction: the one call of its meaning. -/

namespace Sys2Proof.Machine
open Sys2Proof

def exec (i : Instr) (s : State) : Host.Outcome State Fault Refusal :=
  match i with
  | .nop c => Sys2Proof.Machine.execNop c s
  | .idle c n => Sys2Proof.Machine.execIdle c n s
  | .rdv c => Sys2Proof.Machine.execRdv c s
  | .add c d a rb => Sys2Proof.Machine.execAdd c d a rb s
  | .sub c d a rb => Sys2Proof.Machine.execSub c d a rb s
  | .mul c d a rb => Sys2Proof.Machine.execMul c d a rb s
  | .mulh c d a rb => Sys2Proof.Machine.execMulh c d a rb s
  | .mulhn c d a rb => Sys2Proof.Machine.execMulhn c d a rb s
  | .div c d a rb => Sys2Proof.Machine.execDiv c d a rb s
  | .divn c d a rb => Sys2Proof.Machine.execDivn c d a rb s
  | .rem c d a rb => Sys2Proof.Machine.execRem c d a rb s
  | .remn c d a rb => Sys2Proof.Machine.execRemn c d a rb s
  | .min c d a rb => Sys2Proof.Machine.execMin c d a rb s
  | .max c d a rb => Sys2Proof.Machine.execMax c d a rb s
  | .minn c d a rb => Sys2Proof.Machine.execMinn c d a rb s
  | .maxn c d a rb => Sys2Proof.Machine.execMaxn c d a rb s
  | .and c d a rb => Sys2Proof.Machine.execAnd c d a rb s
  | .or c d a rb => Sys2Proof.Machine.execOr c d a rb s
  | .xor c d a rb => Sys2Proof.Machine.execXor c d a rb s
  | .shl c d a rb => Sys2Proof.Machine.execShl c d a rb s
  | .shr c d a rb => Sys2Proof.Machine.execShr c d a rb s
  | .sar c d a rb => Sys2Proof.Machine.execSar c d a rb s
  | .clz c d a => Sys2Proof.Machine.execClz c d a s
  | .popc c d a => Sys2Proof.Machine.execPopc c d a s
  | .sel c d a rb e => Sys2Proof.Machine.execSel c d a rb e s
  | .cmp c d a rb rel => Sys2Proof.Machine.execCmp c d a rb rel s
  | .addi c d a imm => Sys2Proof.Machine.execAddi c d a imm s
  | .andi c d a imm => Sys2Proof.Machine.execAndi c d a imm s
  | .ori c d a imm => Sys2Proof.Machine.execOri c d a imm s
  | .xori c d a imm => Sys2Proof.Machine.execXori c d a imm s
  | .shli c d a n => Sys2Proof.Machine.execShli c d a n s
  | .shri c d a n => Sys2Proof.Machine.execShri c d a n s
  | .sari c d a n => Sys2Proof.Machine.execSari c d a n s
  | .cmpi c d a rel imm => Sys2Proof.Machine.execCmpi c d a rel imm s
  | .liOne c d imm => Sys2Proof.Machine.execLiOne c d imm s
  | .liTwo c d imm => Sys2Proof.Machine.execLiTwo c d imm s
  | .ld c d base ty off => Sys2Proof.Machine.execLd c d base ty off s
  | .st c d base ty off => Sys2Proof.Machine.execSt c d base ty off s
  | .lda c d base sc ty off => Sys2Proof.Machine.execLda c d base sc ty off s
  | .stl c d base sc ty off => Sys2Proof.Machine.execStl c d base sc ty off s
  | .amo c d a rb op ty => Sys2Proof.Machine.execAmo c d a rb op ty s
  | .cas c d a rb e ty => Sys2Proof.Machine.execCas c d a rb e ty s
  | .b c nul off => Sys2Proof.Machine.execB c nul off s
  | .bc c nul cond a off => Sys2Proof.Machine.execBc c nul cond a off s
  | .br c nul a => Sys2Proof.Machine.execBr c nul a s
  | .call c nul a off => Sys2Proof.Machine.execCall c nul a off s
  | .loop c nul a off => Sys2Proof.Machine.execLoop c nul a off s
  | .fork c n => Sys2Proof.Machine.execFork c n s
  | .slack c => Sys2Proof.Machine.execSlack c s
  | .commit c => Sys2Proof.Machine.execCommit c s
  | .safe c map => Sys2Proof.Machine.execSafe c map s
  | .waitp c a rb => Sys2Proof.Machine.execWaitp c a rb s
  | .qmark c => Sys2Proof.Machine.execQmark c s
  | .fence c d sc => Sys2Proof.Machine.execFence c d sc s
  | .trap c imm => Sys2Proof.Machine.execTrap c imm s
  | .tret c => Sys2Proof.Machine.execTret c s
  | .mfc c d num => Sys2Proof.Machine.execMfc c d num s
  | .mtc c d num => Sys2Proof.Machine.execMtc c d num s
  | .hsel c a => Sys2Proof.Machine.execHsel c a s
  | .hrd c d rb => Sys2Proof.Machine.execHrd c d rb s
  | .hwr c rb e => Sys2Proof.Machine.execHwr c rb e s
  | .hcmd c d a => Sys2Proof.Machine.execHcmd c d a s
  | .hwait c d a => Sys2Proof.Machine.execHwait c d a s
  | .vadd c d a rb rnd sat => Sys2Proof.Machine.execVadd c d a rb rnd sat s
  | .vsub c d a rb rnd sat => Sys2Proof.Machine.execVsub c d a rb rnd sat s
  | .vmul c d a rb rnd sat => Sys2Proof.Machine.execVmul c d a rb rnd sat s
  | .vdiv c d a rb => Sys2Proof.Machine.execVdiv c d a rb s
  | .vmin c d a rb => Sys2Proof.Machine.execVmin c d a rb s
  | .vmax c d a rb => Sys2Proof.Machine.execVmax c d a rb s
  | .vcps c d a rb => Sys2Proof.Machine.execVcps c d a rb s
  | .vsqrt c d a => Sys2Proof.Machine.execVsqrt c d a s
  | .vrcp c d a => Sys2Proof.Machine.execVrcp c d a s
  | .vrsq c d a => Sys2Proof.Machine.execVrsq c d a s
  | .vexp2 c d a => Sys2Proof.Machine.execVexp2 c d a s
  | .vlog2 c d a => Sys2Proof.Machine.execVlog2 c d a s
  | .vabs c d a => Sys2Proof.Machine.execVabs c d a s
  | .vneg c d a => Sys2Proof.Machine.execVneg c d a s
  | .vfma c d a rb e rnd sat => Sys2Proof.Machine.execVfma c d a rb e rnd sat s
  | .vfms c d a rb e rnd sat => Sys2Proof.Machine.execVfms c d a rb e rnd sat s
  | .vfnma c d a rb e rnd sat => Sys2Proof.Machine.execVfnma c d a rb e rnd sat s
  | .viadd c d a rb n sat => Sys2Proof.Machine.execViadd c d a rb n sat s
  | .visub c d a rb n sat => Sys2Proof.Machine.execVisub c d a rb n sat s
  | .vimul c d a rb n sat => Sys2Proof.Machine.execVimul c d a rb n sat s
  | .vimulh c d a rb n => Sys2Proof.Machine.execVimulh c d a rb n s
  | .vimin c d a rb n => Sys2Proof.Machine.execVimin c d a rb n s
  | .vimax c d a rb n => Sys2Proof.Machine.execVimax c d a rb n s
  | .vand c d a rb n => Sys2Proof.Machine.execVand c d a rb n s
  | .vor c d a rb n => Sys2Proof.Machine.execVor c d a rb n s
  | .vxor c d a rb n => Sys2Proof.Machine.execVxor c d a rb n s
  | .vshl c d a rb n => Sys2Proof.Machine.execVshl c d a rb n s
  | .vshr c d a rb n => Sys2Proof.Machine.execVshr c d a rb n s
  | .vsar c d a rb n => Sys2Proof.Machine.execVsar c d a rb n s
  | .vpopc c d a => Sys2Proof.Machine.execVpopc c d a s
  | .vcmp c d a rb rel => Sys2Proof.Machine.execVcmp c d a rb rel s
  | .vicmp c d a rb rel => Sys2Proof.Machine.execVicmp c d a rb rel s
  | .vclass c d a mask => Sys2Proof.Machine.execVclass c d a mask s
  | .pand c d a rb => Sys2Proof.Machine.execPand c d a rb s
  | .por c d a rb => Sys2Proof.Machine.execPor c d a rb s
  | .pxor c d a rb => Sys2Proof.Machine.execPxor c d a rb s
  | .pnot c d a => Sys2Proof.Machine.execPnot c d a s
  | .pcnt c d a => Sys2Proof.Machine.execPcnt c d a s
  | .pfirst c d a => Sys2Proof.Machine.execPfirst c d a s
  | .vsel c d a rb e => Sys2Proof.Machine.execVsel c d a rb e s
  | .vmov c d a => Sys2Proof.Machine.execVmov c d a s
  | .vbcst c d a ty => Sys2Proof.Machine.execVbcst c d a ty s
  | .vextr c d a rb => Sys2Proof.Machine.execVextr c d a rb s
  | .vins c d a rb => Sys2Proof.Machine.execVins c d a rb s
  | .vperm c d a rb => Sys2Proof.Machine.execVperm c d a rb s
  | .vrot c d a rb => Sys2Proof.Machine.execVrot c d a rb s
  | .vmovDirRead c v sp ty => Sys2Proof.Machine.execVmovDirRead c v sp ty s
  | .vmovDirWrite c v sp rnd sat ty bound => Sys2Proof.Machine.execVmovDirWrite c v sp rnd sat ty bound s
  | .vrsum c d a ty => Sys2Proof.Machine.execVrsum c d a ty s
  | .vrmax c d a ty => Sys2Proof.Machine.execVrmax c d a ty s
  | .vrmin c d a ty => Sys2Proof.Machine.execVrmin c d a ty s
  | .vramax c d a => Sys2Proof.Machine.execVramax c d a s
  | .vcvt c d a src rnd sat ty => Sys2Proof.Machine.execVcvt c d a src rnd sat ty s
  | .vcvtMxImport c d a src col => Sys2Proof.Machine.execVcvtMxImport c d a src col s
  | .vld c d base ty off => Sys2Proof.Machine.execVld c d base ty off s
  | .vst c d base ty off => Sys2Proof.Machine.execVst c d base ty off s
  | .vldg c d a rb ty => Sys2Proof.Machine.execVldg c d a rb ty s
  | .vsts c d a rb ty => Sys2Proof.Machine.execVsts c d a rb ty s
  | .vpark c v => Sys2Proof.Machine.execVpark c v s
  | .vunpark c v sp => Sys2Proof.Machine.execVunpark c v sp s
  | .vtri c d a rb => Sys2Proof.Machine.execVtri c d a rb s
  | .vtrin c d a rb => Sys2Proof.Machine.execVtrin c d a rb s
  | .vbnd c v bound => Sys2Proof.Machine.execVbnd c v bound s
  | .mma c stamp d a rb vc => Sys2Proof.Machine.execMma c stamp d a rb vc s
  | .mmat c stamp d a rb vc => Sys2Proof.Machine.execMmat c stamp d a rb vc s
  | .mzero c stamp d => Sys2Proof.Machine.execMzero c stamp d s
  | .macc c stamp d a => Sys2Proof.Machine.execMacc c stamp d a s
  | .mscl c stamp d v col => Sys2Proof.Machine.execMscl c stamp d v col s
  | .mmsk c stamp d g => Sys2Proof.Machine.execMmsk c stamp d g s
  | .mred c stamp v a max => Sys2Proof.Machine.execMred c stamp v a max s
  | .mdrn c stamp dr => Sys2Proof.Machine.execMdrn c stamp dr s
  | .mdrnq c stamp dr => Sys2Proof.Machine.execMdrnq c stamp dr s
  | .mtrn c stamp d a => Sys2Proof.Machine.execMtrn c stamp d a s
  | .mCommandStep k unit => Sys2Proof.Machine.execMCommandStep k unit s
  | .xch c near far cnt gen => Sys2Proof.Machine.execXch c near far cnt gen s
  | .xchs c near far cnt gen => Sys2Proof.Machine.execXchs c near far cnt gen s
  | .xchg c near far cnt gen => Sys2Proof.Machine.execXchg c near far cnt gen s
  | .xchp c near far cnt gen => Sys2Proof.Machine.execXchp c near far cnt gen s
  | .xcht c near far cnt gen => Sys2Proof.Machine.execXcht c near far cnt gen s
  | .xtil c near far cnt gen => Sys2Proof.Machine.execXtil c near far cnt gen s
  | .xtilt c near far cnt gen => Sys2Proof.Machine.execXtilt c near far cnt gen s
  | .xfar c near far cnt => Sys2Proof.Machine.execXfar c near far cnt s
  | .xdrop c near => Sys2Proof.Machine.execXdrop c near s
  | .xtstv c near d => Sys2Proof.Machine.execXtstv c near d s
  | .xpen c near far => Sys2Proof.Machine.execXpen c near far s
  | .xwake c far => Sys2Proof.Machine.execXwake c far s
  | .xdoze c far => Sys2Proof.Machine.execXdoze c far s
  | .xnsend c sp dir => Sys2Proof.Machine.execXnsend c sp dir s
  | .xnrecv c sp dir => Sys2Proof.Machine.execXnrecv c sp dir s
  | .xagu c gen => Sys2Proof.Machine.execXagu c gen s
  | .xrch c near far cnt ch => Sys2Proof.Machine.execXrch c near far cnt ch s
  | .xrchc c near far cnt ch => Sys2Proof.Machine.execXrchc c near far cnt ch s
  | .xcrck c far ch => Sys2Proof.Machine.execXcrck c far ch s
  | .xwin c far ch => Sys2Proof.Machine.execXwin c far ch s
  | .xred c near far cnt ch op => Sys2Proof.Machine.execXred c near far cnt ch op s
  | .xtri c near far cnt ch => Sys2Proof.Machine.execXtri c near far cnt ch s
  | .xamo c near far ch op => Sys2Proof.Machine.execXamo c near far ch op s
  | .xamor c near far ch op => Sys2Proof.Machine.execXamor c near far ch op s
  | .xcas c near far cnt ch => Sys2Proof.Machine.execXcas c near far cnt ch s
  | .xkick c far ch => Sys2Proof.Machine.execXkick c far ch s
  | .xabort c ch => Sys2Proof.Machine.execXabort c ch s
  | .pendingLanding k => Sys2Proof.Machine.execPendingLanding k s
  | .exchangePairSwap k serial => Sys2Proof.Machine.execExchangePairSwap k serial s
  | .exchangePairTranslate k serial => Sys2Proof.Machine.execExchangePairTranslate k serial s
  | .unitSwap k serial => Sys2Proof.Machine.execUnitSwap k serial s
  | .hbmPairArrival gang claim => Sys2Proof.Machine.execHbmPairArrival gang claim s
  | .queueLeave k store => Sys2Proof.Machine.execQueueLeave k store s
  | .bufferPerform k sc => Sys2Proof.Machine.execBufferPerform k sc s
  | .otherAgentPerform slot act => Sys2Proof.Machine.execOtherAgentPerform slot act s
  | .waitpReread k => Sys2Proof.Machine.execWaitpReread k s
  | .fenceStatusLand k => Sys2Proof.Machine.execFenceStatusLand k s
  | .elementPortServe k => Sys2Proof.Machine.execElementPortServe k s
  | .bankWakeDone gang quad bank => Sys2Proof.Machine.execBankWakeDone gang quad bank s
  | .bankDoze gang quad bank => Sys2Proof.Machine.execBankDoze gang quad bank s
  | .neighbourArrival k => Sys2Proof.Machine.execNeighbourArrival k s
  | .phaseRollback gang => Sys2Proof.Machine.execPhaseRollback gang s
  | .rollbackEnd gang => Sys2Proof.Machine.execRollbackEnd gang s
  | .nearBlockSnapshot k serial => Sys2Proof.Machine.execNearBlockSnapshot k serial s
  | .landingArrival k serial pair l => Sys2Proof.Machine.execLandingArrival k serial pair l s
  | .crcCompare k => Sys2Proof.Machine.execCrcCompare k s
  | .fabricCompletion k serial => Sys2Proof.Machine.execFabricCompletion k serial s
  | .windowArmAtHome launch owner gen window index source k ch serial => Sys2Proof.Machine.execWindowArmAtHome launch owner gen window index source k ch serial s
  | .windowGenerationReturn k ch serial r => Sys2Proof.Machine.execWindowGenerationReturn k ch serial r s
  | .windowContributionArrival launch window gen index blockNo op rb source k serial => Sys2Proof.Machine.execWindowContributionArrival launch window gen index blockNo op rb source k serial s
  | .windowDeadline gang window gen => Sys2Proof.Machine.execWindowDeadline gang window gen s
  | .abortNotice gang trapc tval => Sys2Proof.Machine.execAbortNotice gang trapc tval s
  | .jointCommit gang => Sys2Proof.Machine.execJointCommit gang s
  | .jointBarrierArrival gang chip vote => Sys2Proof.Machine.execJointBarrierArrival gang chip vote s
  | .stagedEffectPerform e => Sys2Proof.Machine.execStagedEffectPerform e s
  | .atomicReturn k dest writes ty r chip serial => Sys2Proof.Machine.execAtomicReturn k dest writes ty r chip serial s
  | .xfarPairSwap k serial => Sys2Proof.Machine.execXfarPairSwap k serial s
  | .farPortAccept gang claim => Sys2Proof.Machine.execFarPortAccept gang claim s
  | .permissionRecheck gang => Sys2Proof.Machine.execPermissionRecheck gang s
  | .absentSuspend gang => Sys2Proof.Machine.execAbsentSuspend gang s
  | .gangKill gang byHost => Sys2Proof.Machine.execGangKill gang byHost s
  | .ensignFenceTimeout gang chip => Sys2Proof.Machine.execEnsignFenceTimeout gang chip s
  | .scheduleDecision part => Sys2Proof.Machine.execScheduleDecision part s
  | .agingStep part => Sys2Proof.Machine.execAgingStep part s
  | .multichipStart gang => Sys2Proof.Machine.execMultichipStart gang s
  | .safeDeadlineExpiry gang => Sys2Proof.Machine.execSafeDeadlineExpiry gang s
  | .contextSave gang => Sys2Proof.Machine.execContextSave gang s
  | .contextRestore gang x0 y0 => Sys2Proof.Machine.execContextRestore gang x0 y0 s
  | .chipLost chip => Sys2Proof.Machine.execChipLost chip s
  | .invalidate ticket r => Sys2Proof.Machine.execInvalidate ticket r s
  | .invalidateAck ticket => Sys2Proof.Machine.execInvalidateAck ticket s
  | .populate ticket r => Sys2Proof.Machine.execPopulate ticket r s
  | .refresh ticket r => Sys2Proof.Machine.execRefresh ticket r s
  | .kill ticket r => Sys2Proof.Machine.execKill ticket r s
  | .reset ticket r => Sys2Proof.Machine.execReset ticket r s
  | .hello h msg => Sys2Proof.Machine.execHello h msg s
  | .attest h nonce => Sys2Proof.Machine.execAttest h nonce s
  | .key h owner resv wrapped => Sys2Proof.Machine.execKey h owner resv wrapped s
  | .image h kind handle off total last resv p => Sys2Proof.Machine.execImage h kind handle off total last resv p s
  | .launch h desc => Sys2Proof.Machine.execLaunch h desc s
  | .query h launch resv => Sys2Proof.Machine.execQuery h launch resv s
  | .cancelKill h launch mode resv => Sys2Proof.Machine.execCancelKill h launch mode resv s
  | .cancelRelease h launch resv => Sys2Proof.Machine.execCancelRelease h launch resv s
  | .cancelResume h launch resv => Sys2Proof.Machine.execCancelResume h launch resv s
  | .cancelRestore h launch resv => Sys2Proof.Machine.execCancelRestore h launch resv s
  | .pilotReset h count => Sys2Proof.Machine.execPilotReset h count s
  | .readBlocks h len t resv => Sys2Proof.Machine.execReadBlocks h len t resv s
  | .writeBlocks h len t resv blocks => Sys2Proof.Machine.execWriteBlocks h len t resv blocks s
  | .readManifest h len handle entry resv => Sys2Proof.Machine.execReadManifest h len handle entry resv s
  | .writeManifest h len handle entry resv entries => Sys2Proof.Machine.execWriteManifest h len handle entry resv entries s
  | .readSched h len reg resv => Sys2Proof.Machine.execReadSched h len reg resv s
  | .writeSched h len reg resv vals => Sys2Proof.Machine.execWriteSched h len reg resv vals s
  | .readCoreRegister h len launch member num resv => Sys2Proof.Machine.execReadCoreRegister h len launch member num resv s
  | .writeCoreRegister h len launch member num resv vals => Sys2Proof.Machine.execWriteCoreRegister h len launch member num resv vals s
  | .writeCommand h len resv r => Sys2Proof.Machine.execWriteCommand h len resv r s
  | .readErrorRecord h len resv => Sys2Proof.Machine.execReadErrorRecord h len resv s
  | .readBlackBox h len resv => Sys2Proof.Machine.execReadBlackBox h len resv s
  | .readInjection h len resv => Sys2Proof.Machine.execReadInjection h len resv s
  | .writeInjection h len resv val => Sys2Proof.Machine.execWriteInjection h len resv val s
  | .poisonEscalation gang => Sys2Proof.Machine.execPoisonEscalation gang s
  | .hbmRowSpare stack row uncorrectable spareLeft slots => Sys2Proof.Machine.execHbmRowSpare stack row uncorrectable spareLeft slots s
  | .laneFail port lane => Sys2Proof.Machine.execLaneFail port lane s
  | .laneRetrainDone port => Sys2Proof.Machine.execLaneRetrainDone port s
  | .coreRetire quad column => Sys2Proof.Machine.execCoreRetire quad column s
  | .quadrantWithdraw quad column => Sys2Proof.Machine.execQuadrantWithdraw quad column s
  | .longLinkDeath a rb => Sys2Proof.Machine.execLongLinkDeath a rb s
  | .farPortDown port => Sys2Proof.Machine.execFarPortDown port s
  | .blackboxMirror => Sys2Proof.Machine.execBlackboxMirror s
  | .coldStart failing farSlots => Sys2Proof.Machine.execColdStart failing farSlots s
  | .warmStart => Sys2Proof.Machine.execWarmStart s
  | .watchdogExpiry => Sys2Proof.Machine.execWatchdogExpiry s
  | .throttleRaise => Sys2Proof.Machine.execThrottleRaise s
  | .throttleLower => Sys2Proof.Machine.execThrottleLower s
  | .emergencyPowerOff => Sys2Proof.Machine.execEmergencyPowerOff s
  | .storageError e => Sys2Proof.Machine.execStorageError e s
  | .flitRetry port => Sys2Proof.Machine.execFlitRetry port s
  | .farPortReturn port => Sys2Proof.Machine.execFarPortReturn port s
  | .chipRouteRestored chip => Sys2Proof.Machine.execChipRouteRestored chip s

end Sys2Proof.Machine
end

