-- ==== Sys2Proof/Machine/Issue.lean ====
section
/-! DEFINITION. Which step comes next (13 to 16, 24): the calendar of outside events, the harbourmaster's core, and for each gang
the stages of one gang cycle (R21, R52, R59 to R61, R71, R76, R86, R125, R136, R146, R152, R209 to R214, R237, R257 to R265, R285 to
R303, R353; logs 2 and 5, DESIGN CHOICE; log 3, DEDUCED). -/

namespace Sys2Proof.Machine

/-- The next step: an instruction or an event with the state it acts on, or a move of the machine's own clockwork. -/
inductive Plan where
  | run (i : Instr) (s : State)
  | move (s : State)

/-! ## Issue of one cluster (R59 to R61, R71, R76, R95) -/

/-- BREAK: the watched cluster is about to issue at ADDR, and not in the issue that a break took the place of (R71). -/
def breaks (c : Core) (cl : Cl) (a : Dword) : Bool :=
  let r := c.regs.ctl.bpaddr
  r.getLsbD 63 && r.extractLsb' 40 2 == cl.code && a == (r.extractLsb' 0 40).setWidth 64 && c.resumeBreak != some (cl, a)
/-- The stamp of an M command (R88). -/
def stampOf : Instr → Option (BitVec 36)
  | .mma _ t .. | .mmat _ t .. | .mzero _ t _ | .macc _ t .. | .mscl _ t .. | .mmsk _ t .. | .mred _ t .. | .mdrn _ t _ | .mdrnq _ t _
  | .mtrn _ t .. => some t
  | _ => none
/-- The command waits for its stamp. -/
def stampWaits (g : Gang) (i : Instr) : Bool :=
  match stampOf i with
  | some t => g.tide < g.phaseStart + t.toNat
  | none => false
/-- The cycle on which a stamped command issues whose encoding raises a cause (R88, R96, R188): the stamp of its extension. -/
def faultCycle (g : Gang) (cl : Cl) (a : Dword) : Nat :=
  match lineAt g.lines a with
  | some l =>
    let k := addrSyl a
    if cl == .m && l.cluster == .m && k < l.occ && !l.isExt k && twoSyl .m (l.syl k).op then
      g.phaseStart + (MxExt.ofBits (l.syl (k + 1))).stamp.toNat
    else 0
  | none => 0
/-- How an instruction counts for joins and barriers (R105, R145 to R147). -/
def barrierKind : Instr → Nat
  | .slack _ => 1
  | .commit _ => 2
  | .safe _ m => 3 + m.toNat
  | _ => 0
/-- What a cluster finds at its issue point: a nullified entry, a cause in place of an instruction, with how that instruction and the rest of its group count
for bundles, joins and barriers, a command that waits for a cycle to raise its cause, or an instruction. -/
inductive Found where
  | null
  | cause (r : Raised) (n : List Issued)
  | wait (cycle : Nat)
  | instr (i : Instr)
  deriving DecidableEq, Repr
/-- The instruction that cluster `cl` of a core is about to issue. CHAIN comes before BREAK, and BREAK before every other cause (R76,
R96). An instruction that a break suppresses still counts as its cluster's issue of the cycle, on which it will issue (R152, R153;
log 76, DEDUCED). -/
def findIssue (hb : Bool) (g : Gang) (c : Core) (cl : Cl) : Found :=
  let a := issueAddr c cl
  let stop : Raised := { code := cBreak, cl := cl, tval := c.regs.ctl.bpaddr, pc := a }
  let counts (rdv : Bool) (kind : Nat) : List Issued :=
    { cl := cl, sync := (sylAt g.lines a).common.sync, rdv := rdv, kind := kind, pc := a } :: heldGroup g.lines cl a
  if cl == .s && c.regs.q[0].null then .null
  else match fetchAt hb g.lines cl a (issueLine c cl) with
    | .error r =>
      if r.code != cChain && g.tide < faultCycle g cl a then .wait (faultCycle g cl a)
      else .cause (if r.code != cChain && breaks c cl a then stop else r) (counts false 0)
    | .ok i =>
      if breaks c cl a && !stampWaits g i then .cause stop (counts (isRdv i) (barrierKind i)) else .instr i
/-- A nullified entry issues with no effect, and spends the idle count of its syllable (R60). -/
def nullIssue (lines : List (BitVec 512)) (tide : Nat) (c : Core) : Core :=
  let a := c.regs.q[0].addr
  let idle := match fetchAt true lines .s a 0 with
    | .error r => if r.code = cChain then 0 else (sylAt lines a).common.idle.toNat
    | .ok _ => (sylAt lines a).common.idle.toNat
  { c with resumeBreak := c.resumeBreak.filter (·.1 != .s)
           regs := { c.regs with q := advanceQueue lines c.regs.q {}, sNext := tide + idle + 1 } }
/-- The port time of the access that a nullified entry holds (R258; log 93, DEDUCED). -/
def nullTime (x : Ctx) (core : Core) : Core × State :=
  match fetchAt false x.g.lines .s x.pc 0 with
  | .ok i => (match accessOf x i with
    | some (ea, n, wr) => portTime x ea n wr core
    | none => (core, x.s))
  | .error _ => (core, x.s)
def addRaised (c : Core) (r : Raised) (n : List Issued) : Core :=
  { c with raised := c.raised ++ [r], issuedNow := c.issuedNow ++ n }
/-- Cluster `cl` issues next on a later cycle. -/
def waitUntil (c : Core) (cl : Cl) (cycle : Nat) : Core := c.modPoint cl fun p => { p with next := cycle }

/-! ## The harbourmaster's core (R350 to R353, log 5, DESIGN CHOICE) -/

/-- An entry of its queues at its own memory. -/
def harbourAccess (m : Cells) (a : Access) : Cells × Option (Reg × Dword) × BitVec 5 :=
  match a.spots with
  | [] => (m, none, 0)
  | p :: _ =>
    let at_ := 4096 * p.vba.toNat + p.bit / 8
    let get (ty : Fmt) : Nat := cle m at_ (typeBytes ty)
    let put (ty : Fmt) (v : Nat) : Cells := cputLe m at_ (typeBytes ty) v
    match a.op with
    | .load d ty => (m, some (d, extendElem ty (get ty)), 0)
    | .store ty v => (put ty (v.toNat % 2 ^ fmtWidth ty), none, 0)
    | .amo d op ty operand =>
      let r := atomCombine op ty (get ty) (operand.toNat % 2 ^ fmtWidth ty)
      (put ty r.1, some (d, extendElem ty (get ty)), r.2)
    | .cas d ty cmp swap =>
      (if get ty = cmp.toNat % 2 ^ fmtWidth ty then put ty (swap.toNat % 2 ^ fmtWidth ty) else m, some (d, extendElem ty (get ty)), 0)
    | _ => (m, none, 0)
/-- A WAITP of the harbourmaster whose word reads unequal stops its issue. -/
def harbourWaits (h : Harbour) : Bool :=
  h.core.accesses.any fun a => match a.op, a.spots with
    | .waitp v, p :: _ => cle h.mem (4096 * p.vba.toNat + p.bit / 8) 4 != v.toNat
    | _, _ => false
/-- The accesses of the harbourmaster whose cycle has come, in order: what they read joins the landings. -/
def harbourMemory (h : Harbour) : Harbour :=
  let waits := harbourWaits h
  let due (a : Access) : Bool := a.due ≤ h.tide && !(waits && match a.op with | .waitp _ => true | _ => false)
  (h.core.accesses.filter due).foldl (fun h a =>
    let (m, r, f) := harbourAccess h.mem a
    let core := removeAccess h.core a.serial
    let core := match r with
      | some (d, v) => { core with regs := { core.regs with landings := core.regs.landings ++
          [{ dest := gDest d, value := v, due := h.tide, issued := a.issued, cl := .s, flags := f, pc := a.pc }] } }
      | none => core
    { h with mem := m, core := core }) h
/-- The end of its cycle: its writes to control registers, then flags and status (R50, R72). -/
def harbourEnd (c : Core) : Core :=
  let one (c : Core) (e : AtEnd) : Core := match e with
    | .ctl n v => setCtlReg c n.toNat v
    | .flags f h => orBndlog (orFpcsr c f) h
    | .fstat w => c.mapCtl fun r => { r with fstat := orFstat r.fstat w }
    | _ => c
  let mtc (e : AtEnd) : Bool := match e with | .ctl .. => true | _ => false
  { (c.atEnd.filter mtc ++ c.atEnd.filter fun e => !mtc e).foldl one c with atEnd := [], issuedNow := [] }
/-- Its landings and fences whose cycle has come, in the order of R126, with their flags (R50, R139). -/
def harbourLand (tide : Nat) (c : Core) : Core :=
  let c := (c.fences.filter fun f => f.due ≤ tide).foldl (fun c f =>
    { c with regs := { c.regs with landings := c.regs.landings ++
               [{ dest := gDest f.d, value := c.fenceBits, due := tide, issued := f.issued, cl := .s, pc := f.pc }] }
             fences := c.fences.filter fun q => q.serial != f.serial
             fenceBits := 0, atEnd := c.atEnd ++ [.fstat c.fenceBits] }) c
  (List.range c.regs.landings.length).foldl (fun c _ =>
    match landingReady c tide with
    | some l =>
      { c with regs := landRegs { c.regs with landings := c.regs.landings.erase l } l l.value
               atEnd := if l.flags = 0 then c.atEnd else c.atEnd ++ [.flags l.flags 0] }
    | none => c) c
/-- A cause enters the handler at syllable 0 of line 1; a second one before its TRET is package-fatal (R353). -/
def harbourTrap (s : State) (r : Raised) : State :=
  let (s, core) := overwriteTrap s s.harbour.core
  let h := { s.harbour with core := core }
  let core := { takeTrap { h.core with raised := [] } (trapcOf r.cl r.code) r.tval r.pc h.core.regs.q with trapped := true }
  if h.handler then post (packageFatal { s with harbour := { h with core := core } }) 0 .warmStart
  else
    let core := { core with regs := { core.regs with q := startQueue h.firmware 8, sNext := h.tide + 1 } }
    { s with harbour := { h with core := core, handler := true } }
/-- One package cycle of the harbourmaster's core up to its next issue. -/
def harbourCycle (s : State) : State :=
  let s := { s with harbour := { s.harbour with core := harbourEnd s.harbour.core } }
  let s := match gravest s.harbour.core.raised with
    | some r => harbourTrap s r
    | none => s
  let h := { s.harbour with tide := s.harbour.tide + 1 }
  let h := harbourMemory h
  { s with harbour := { h with core := harbourLand h.tide h.core } }
/-- The harbourmaster's next step. -/
def planHarbour (s : State) : Plan :=
  let h := s.harbour
  let s' := { s with turn := 3, cur := .harbour }
  let g := { noGang with tide := h.tide, lines := h.firmware }
  if h.tide < h.core.regs.sNext || harbourWaits h then .move s'
  else match findIssue true g h.core .s with
    | .null => .move { s' with harbour := { h with core := nullIssue h.firmware h.tide h.core } }
    | .cause r n => .move { s' with harbour := { h with core := addRaised h.core r n } }
    | .wait _ => .move s'
    | .instr i => .run i { s' with harbour := { h with lastIssue := s.ptide } }

/-! ## A gang between its steps -/

def setStage (s : State) (gang : Nat) (st : Stage) : State := modGang s gang fun g => { g with stage := st, turn := 0 }
def setTurn (s : State) (gang n : Nat) : State := modGang s gang fun g => { g with turn := n }
/-- The gang has nothing more to do on this package cycle; a held one counts it (R263). In a trap the deadline of a request
stands still (R337). -/
def passGang (s : State) (gang : Nat) : State :=
  let tick (g : Gang) : Gang :=
    if g.held && g.status == .placed && g.started then
      let g := tickHold g
      if g.claims 5 then { g with preempt := g.preempt.map fun p => { p with since := p.since + 1 } } else g
    else g
  { modGang s gang tick with turn := s.turn + 1 }
/-- The least of some candidates by their keys. -/
def leastBy (l : List (List Nat × Instr)) : Option Instr :=
  (l.foldl (fun (a : Option (List Nat × Instr)) e =>
    match a with
    | none => some e
    | some b => if keyLt e.1 b.1 then some e else some b) none).map (·.2)

/-! ## Stage port: what is due at the ports -/

/-- The next port step of core `j`, with the serial number that orders the cores' steps; a secondary's comes before its
primary's (R332). -/
def portSteps (g : Gang) (j : Nat) (c : Core) : List (List Nat × Instr) :=
  let k : CoreId := ⟨g.id, j⟩
  let sec := if isSecondary g j then 0 else 1
  let perform (sc : Scope) : List (List Nat × Instr) :=
    ((bufferReady g j c sc).map fun a => ([sec, a.serial], Instr.bufferPerform k sc)).toList
  let leave (store : Bool) : List (List Nat × Instr) := ((leaveReady g c store).map fun a => ([sec, a.serial], Instr.queueLeave k store)).toList
  let fence : List (List Nat × Instr) := match fenceReady g c with
    | some (_, .move) => [([0, 0], Instr.fenceStatusLand k)]
    | some (f, .hold) | some (f, .release) => [([sec, f.serial], Instr.fenceStatusLand k)]
    | _ => []
  if c.accesses.isEmpty && c.fences.isEmpty then []
  else perform .core ++ perform .quad ++ perform .pkg ++ perform .sys ++ leave false ++ leave true ++ fence
/-- A WAITP that holds the tide and whose read, after the step that has just acted at its port, would count or raise a cause (R301). -/
def rereadOf (s : State) (g : Gang) : Option Instr :=
  if !(g.status == .placed && g.claims 4) then none
  else g.cores.zipIdx.findSome? fun (p : Core × Nat) =>
    (waitingRead g p.1).bind fun a => match a.op with
      | .waitp v =>
        let bad := a.spots.any fun q => (readCause true q (detectAll (getBlock s g.desc.owner q.slot)) (q.bit / 8) 4).isSome
        if waitpEqual s g a v || bad then some (.waitpReread ⟨g.id, p.2⟩) else none
      | _ => none
/-- A fabric instruction has reached its planned completion without its event (R238). -/
def lateFab (g : Gang) : Option (Nat × FabOp) :=
  g.cores.zipIdx.findSome? fun (p : Core × Nat) =>
    if isSecondary g p.2 then none
    else (p.1.fabs.find? fun o => o.active && !o.done && o.planned ≤ g.tide && !waiting g 3 o.serial).map fun o => (p.2, o)
def planPort (s : State) (g : Gang) : Plan :=
  match g.waking.find? fun w => w.2.2 ≤ g.tide with
  | some w => .run (.bankWakeDone g.id w.1 w.2.1) s
  | none =>
  match leastBy (g.cores.zipIdx.flatMap fun p => portSteps g p.2 p.1) with
  | some i => .run i s
  | none =>
    match lateFab g with
    | some (j, o) => .move (modGang s g.id fun g => startClaim s g 3 (memberOf g j) false o.serial)
    | none =>
      match g.home.find? (lateWindow s g) with
      | some w => .run (.windowDeadline g.id w.num w.gen) s
      | none =>
        if g.cores.any (·.trapped) && !g.claims 5 then .move (holdTrap s g.id)
        else if g.held then .move (passGang s g.id)
        else .move (setStage (modGang s g.id fun g =>
          modCores g fun c => { c with qStart := c.regs.q, issuedNow := [] }) g.id .land)

/-! ## Stage land (R62, R125, R302): a FENCE whose cycle has come joins the landings, which land in the order of R126 -/

def planLand (s : State) (g : Gang) : Plan :=
  match g.cores.zipIdx.findSome? fun (p : Core × Nat) =>
    if (fenceReady g p.1).isSome then some (Instr.fenceStatusLand ⟨g.id, p.2⟩)
    else if (landingReady p.1 g.tide).isSome then some (Instr.pendingLanding ⟨g.id, p.2⟩) else none with
  | some i => .run i s
  | none => .move (setStage s g.id .issue)

/-! ## Stage issue (R84, R86, R257) -/

def clOf (n : Nat) : Cl := if n % 4 = 0 then .s else if n % 4 = 1 then .v else if n % 4 = 2 then .m else .x
/-- Cluster `cl` of a core issues on this cycle. -/
def issueDue (g : Gang) (c : Core) (cl : Cl) : Bool :=
  (match cl with
    | .s => c.regs.sNext ≤ g.tide
    | cl => !(c.regs.points[pointIndex cl]).parked && (c.regs.points[pointIndex cl]).next ≤ g.tide)
    && !(c.raised.any fun r => r.cl == cl && causeReissues r.code && !r.never)
def turnDue (g : Gang) (t : Nat) : Bool :=
  match g.cores[t / 4]? with
  | some c => issueDue g c (clOf t)
  | none => false
/-- Turn `t` of a gang's issue: its core, its cluster, and what it finds. The turn passes on, but to the next member of a V group. -/
def planIssue (s : State) (g : Gang) (t : Nat) (c : Core) : Plan :=
  let cl := clOf t
  let k : CoreId := ⟨g.id, t / 4⟩
  let s' := { setTurn s g.id (t + 1) with cur := .core k cl }
  match findIssue false g c cl with
  | .null =>
    let (c, s') := nullTime ⟨k, false, cl, g, c, s'⟩ (nullIssue g.lines g.tide c)
    .move (modMember s' k fun _ => c)
  | .cause r n => .move (modMember s' k fun c => addRaised c r n)
  | .wait t => .move (modMember s' k fun c => waitUntil c cl t)
  | .instr i =>
    if cl == .v && (sylAt g.lines (issueAddr c cl)).common.group then .run i { s with cur := .core k cl } else .run i s'
def planIssues (s : State) (g : Gang) : Plan :=
  if g.held then .move (passGang s g.id)
  else match (List.range (4 * g.cores.length)).find? fun t => g.turn ≤ t && turnDue g t with
    | some t =>
      match g.cores[t / 4]? with
      | some c => planIssue (setTurn s g.id t) g t c
      | none => .move (setStage s g.id .resolve)
    | none => .move (setStage s g.id .resolve)

/-! ## Stage resolve: checks and causes -/

/-- An exchange with a pair on its first channel cycle. -/
def translateReady (g : Gang) (e : Exch) : Bool :=
  e.judged < e.n && e.issued + e.delay + 8 * e.judged ≤ g.tide && !e.stopped && (!e.indirect || !e.active || e.judged < e.read)
def isCheck (i : Instr) : Bool := match i with | .xcrck .. => true | _ => false
/-- What the end of the cycle finds wrong in an exchange of units. -/
def endCauses (s : State) (g : Gang) (c : Core) : List Raised :=
  let unit (e : Exch) : Option Raised :=
    if e.active && isUnit e.instr && nextSwap e < e.pairs.length && swapCycle e (nextSwap e) ≤ g.tide then
      (unitCause s g e).map fun q => { code := q.code, cl := .x, tval := q.tval, pc := e.pc }
    else none
  c.exchs.filterMap unit
def resolveGang (s : State) (gang : Nat) : State :=
  match getGang s gang with
  | none => s
  | some g =>
    let core (c : Core) : Core :=
      let c := finishFabs { c with exchs := c.exchs.map fun e => { e with stopped := false } } g.tide
      { c with raised := c.raised ++ endCauses s g c }
    let s := settle (modGang s gang fun g => checkGang (modCores g core)) gang
    match getGang s gang with
    | none => s
    | some g => if g.status = .placed && g.aborted.isNone && g.stage = .resolve then setStage s gang .gate else s
def planResolve (s : State) (g : Gang) : Plan :=
  match g.cores.zipIdx.findSome? fun (p : Core × Nat) =>
    match p.1.exchs.find? (translateReady g) with
    | some e => some (Instr.exchangePairTranslate ⟨g.id, p.2⟩ e.serial)
    | none =>
      if p.1.fabs.any fun o => isCheck o.instr && o.planned ≤ g.tide then some (Instr.crcCompare ⟨g.id, p.2⟩)
      else if p.1.links.any fun l => l.due ≤ g.tide then some (Instr.neighbourArrival ⟨g.id, p.2⟩) else none with
  | some i => .run i s
  | none => .move (resolveGang s g.id)

/-! ## Stage gate: what the end of the cycle waits for (R214, R230, R290, R294) -/

/-- The pair of an exchange whose swap cycle is this one. A guarded-off exchange and a pruned pair take their place at the banks like any
other, so that neither changes a cycle (R215, R220, R258). -/
def duePair (g : Gang) (e : Exch) : Option (Nat × Pair) :=
  let first := e.issued + e.delay + e.base + 8
  if first ≤ g.tide && (g.tide - first) % 8 = 0 then
    let k := (g.tide - first) / 8
    if k < e.judged && e.swapped ≤ k then (e.pairs[k]?).map fun p => (k, p) else none
  else none
def duePairs (g : Gang) : List (Nat × Exch × Pair) :=
  g.cores.zipIdx.flatMap fun p => p.1.exchs.filterMap fun e => (duePair g e).map fun q => (p.2, e, q.2)
def banksOfPair (p : Pair) : List (Nat × Nat) := ((quayBank p.near).toList ++ (quayBank p.far).toList).eraseDups
/-- The first pair that finds its quay bank taken by an earlier one of the cycle, in ascending member index. -/
def crowded (l : List (Nat × Exch × Pair)) (taken : List (Nat × Nat)) : Option (Nat × Exch) :=
  match l with
  | [] => none
  | (j, e, p) :: t =>
    let b := banksOfPair p
    if b.any taken.contains then some (j, e) else crowded t (taken ++ b)
/-- A pair or a pennant of the cycle that reaches a drowsy bank, each with a claim of its own (R230, R290). -/
def sleepy (g : Gang) (l : List (Nat × Exch × Pair)) : Option (Nat × Nat × Nat × Nat) :=
  let pairs := l.flatMap fun q => if q.2.1.active && !q.2.2.skip then (banksOfPair q.2.2).map fun b => (q.1, q.2.1.serial, b) else []
  let pens := g.cores.zipIdx.flatMap fun (p : Core × Nat) =>
    (p.1.pens.filter fun q => q.active && penSoon p.1 g.tide q).filterMap fun q => (quayBank q.slot).map fun b => (p.2, q.serial, b)
  (pairs ++ pens).findSome? fun (j, n, q, b) =>
    if asleep g q b && !(g.hold.active.any fun c => c.cause == 1 && c.id == 64 * q + b && c.by_ == n) then some (j, n, q, b) else none
/-- The next pair whose far block is to arrive, whether HBM may keep it, and the cycles by which the reach that it was translated to
passes the exchange's β (R407). -/
def toArrive (g : Gang) : Option (Nat × Exch × Bool × Nat) :=
  g.cores.zipIdx.findSome? fun (p : Core × Nat) => p.1.exchs.findSome? fun e =>
    if e.met < e.judged && e.met < e.pairs.length && swapCycle e e.met ≤ g.tide then
      (e.pairs[e.met]?).map fun q =>
        let moves := e.active && !q.skip
        (p.2, e, moves && (isHbm q.near || isHbm q.far), if moves then q.reach - e.base else 0)
    else none
def penToArrive (g : Gang) : Option (Nat × Pen) :=
  g.cores.zipIdx.findSome? fun (p : Core × Nat) =>
    (p.1.pens.find? fun q => isHbm q.slot && !q.served && q.due ≤ g.tide).map fun q => (p.2, q)
def planGate (s : State) (g : Gang) : Plan :=
  match crowded (duePairs g) [] with
  | some (j, e) => .move (modMember s ⟨g.id, j⟩ fun c => penalise c e.serial)
  | none =>
    match toArrive g with
    | some (j, e, hbm, late) =>
      let k : CoreId := ⟨g.id, j⟩
      let s := modMember s k fun c => modExch c e.serial fun e => { e with met := e.met + 1 }
      let (d, s) := if hbm then draw Config.hbmLate s else (0, s)
      .move (lateBy s g k e.serial (late + d)).2
    | none =>
      match penToArrive g with
      | some (j, q) =>
        let k : CoreId := ⟨g.id, j⟩
        let s := modMember s k fun c => { c with pens := c.pens.map fun r => if r.serial = q.serial then { r with served := true } else r }
        .move (if q.active then (lateHbm s g k q.serial).2 else s)
      | none =>
        match sleepy g (duePairs g) with
        | some (j, n, q, b) => .move (wakeFor s g ⟨g.id, j⟩ q b n)
        | none => if g.held then .move (passGang s g.id) else .move (setStage s g.id .finish)

/-! ## Stage finish: the end of the cycle -/

/-- A parked register, a freed pair, a program's write, the hardware's flags, a push, and an XDROP whose cycle has come. -/
def parkRows (s : State) (c : Core) (t n : Nat) (v : Lanes) (mask : Pred) : State × Core :=
  let sq := ((tshpFmt ((c.regs.ctl.tshp[t]?).getD 0)).map Fmt.isSq).getD false
  let lanes := activeLanes mask
  let blocks := (List.range 8).filter fun b => lanes.any fun k => (parkedLoc sq n k.val).1 == b
  let (s, c) := blocks.foldl (fun (a : State × Core) b =>
    let sl : Slot := .tile a.2.num (8 * t + b)
    let (s, c) := keepImage a.1 a.2 sl
    (modBlock s sl fun d => (lanes.filter fun k => (parkedLoc sq n k.val).1 == b).foldl (fun d k =>
      cputLe (rewriteWord d ((parkedLoc sq n k.val).2 / 4)) (parkedLoc sq n k.val).2 4 v[k].toNat) d, c)) (s, c)
  (s, { c with regs := { c.regs with park := c.regs.park ||| BitVec.ofNat 512 (2 ^ (64 * t + n / 2)) } })
def endRank : AtEnd → Nat
  | .park .. | .unpark _ => 0
  | .ctl .. => 1
  | .bank .. => 1
  | .flags .. | .fstat _ | .aflags _ | .fold _ => 2
  | .push _ => 3
  | .drop .. => 4
def endOne (gang tide : Nat) (a : State × Core) (e : AtEnd) : State × Core :=
  let (s, c) := a
  match e with
  | .park t n v mask => parkRows s c t n v mask
  | .unpark p => (s, { c with regs := { c.regs with park := c.regs.park &&& ~~~(BitVec.ofNat 512 (2 ^ p)) } })
  | .ctl n v =>
    let (s, c) := overwriteFault s c 6 n.toNat
    (s, setCtlReg c n.toNat v)
  | .bank wake q b => (modGang s gang fun g => if wake then wakeBank g q b tide else dozeBank g q b, c)
  | .flags f h => (s, orBndlog (orFpcsr c f) h)
  | .fstat w => (s, c.mapCtl fun r => { r with fstat := orFstat r.fstat w })
  | .aflags f => (s, orAflags c f)
  | .fold b => (s, foldBlock c b)
  | .push f => (s, { c with regs := { c.regs with tokens := vmod c.regs.tokens f (· + 1) } })
  | .drop l due => if due ≤ tide then dropSlots s c l else (s, { c with atEnd := c.atEnd ++ [e] })
/-- The end of a core's cycle. The payloads that came on it are in CRCX already; an MTC of the cycle is applied first, and they fold
into what it wrote (R242). -/
def endCore (s : State) (gang j : Nat) : State :=
  match getMember s ⟨gang, j⟩ with
  | none => s
  | some (g, c) =>
    if c.atEnd.isEmpty then s
    else
      let mtc := c.atEnd.any fun e => match e with | .ctl n _ => n == 0x60 | _ => false
      let all := c.atEnd.filter fun e => match e with | .fold _ => mtc | _ => true
      let (s, c) := ((List.range 5).flatMap fun r => all.filter fun e => endRank e == r).foldl (endOne gang g.tide) (s, { c with atEnd := [] })
      modMember s ⟨gang, j⟩ fun _ => c
/-- The steps of M commands, the swaps, the departures and the snapshots of this cycle, by rank. The pennants come before the
departures, an entry of core scope whose cycle has come is performed as it leaves, and a snapshot is after every performance of its
cycle (R237). -/
def finishSteps (g : Gang) (j : Nat) (c : Core) : List (List Nat × Instr) :=
  let k : CoreId := ⟨g.id, j⟩
  let m : List (List Nat × Instr) := (List.range 3).filterMap fun u =>
    match (c.cmds[u]?).getD none with
    | some m => if m.issued + m.step ≤ g.tide then some ([0, j, u], Instr.mCommandStep k u) else none
    | none => none
  let swap (e : Exch) : Option (List Nat × Instr) :=
    if e.swapped < e.n && nextSwap e < e.judged && swapCycle e (nextSwap e) ≤ g.tide then
      some ([1, e.issued, j, e.serial], if isUnit e.instr then Instr.unitSwap k e.serial else Instr.exchangePairSwap k e.serial)
    else none
  let snap (o : FabOp) : Option (List Nat × Instr) :=
    if o.sent < o.n && o.issued + 8 * o.sent ≤ g.tide && o.sent < o.near.length then
      some ([3, j, o.serial], Instr.nearBlockSnapshot k o.serial) else none
  let leave (store : Bool) : List (List Nat × Instr) :=
    ((leaveReady g c store).map fun a => ([2, 1, a.serial], Instr.queueLeave k store)).toList
  let perform : List (List Nat × Instr) :=
    ((bufferReady g j c .core).map fun a => ([2, 0, a.serial], Instr.bufferPerform k .core)).toList
  m ++ c.exchs.filterMap swap ++ c.fabs.filterMap snap ++ if c.accesses.isEmpty then [] else perform ++ leave false ++ leave true
def penNow (g : Gang) : Option (Nat × Core × Pen) :=
  g.cores.zipIdx.findSome? fun (p : Core × Nat) => (p.1.pens.find? (penReady p.1 g.tide)).map fun q => (p.2, p.1, q)
/-- The banks that the pairs still to be translated will reach, by their tables as they stand. -/
def laterBanks (s : State) (g : Gang) (j : Nat) (e : Exch) : List (Nat × Nat) :=
  match (if e.indirect then stepCtx s ⟨g.id, j⟩ .x else none) with
  | none => []
  | some x => (List.range (e.n - e.judged)).flatMap fun t =>
    let v := pairVbas e (e.judged + t) (entriesAt s e (e.judged + t))
    match (pairInfo x v.1 v.2 (isUnit e.instr)).slots with
    | some (a, b) => (quayBank a).toList ++ (quayBank b).toList
    | none => []
/-- A bank that is to doze, awake, and that no access in flight reaches any more. -/
def dozeNow (s : State) (g : Gang) : Option (Nat × Nat) :=
  g.dozing.find? fun b => !asleep g b.1 b.2 && !(g.cores.zipIdx.any fun (c, j) =>
    (c.accesses.any fun a => a.spots.any fun p => quayBank p.slot == some b) || (c.pens.any fun p => quayBank p.slot == some b)
      || c.exchs.any fun e => e.active && ((e.pairs.drop e.swapped).any (fun p => !p.skip && (banksOfPair p).contains b)
        || (laterBanks s g j e).contains b))
def planFinishSteps (s : State) (g : Gang) : Plan :=
  let all := g.cores.zipIdx.flatMap fun p => finishSteps g p.2 p.1
  match leastBy (all.filter fun e => e.1.headD 0 < 2) with
  | some i => .run i s
  | none =>
    match penNow g with
    | some (j, c, q) =>
      let (s, c) := writePen s g j c q
      .move (modMember s ⟨g.id, j⟩ fun _ => c)
    | none =>
      match leastBy all with
      | some i => .run i s
      | none =>
        match dozeNow s g with
        | some b => .run (.bankDoze g.id b.1 b.2) s
        | none => .move (setTurn (if g.cores.any fun c => !c.raised.isEmpty then settle s g.id else s) g.id 2)
/-- A slot lies across a dead long link that the gang's schedule was not compiled to go round (R292). -/
def cutOff (s : State) (g : Gang) (c : Core) (sl : Slot) : Bool :=
  let q := match sl with
    | .berth n _ => quadOf (n % 32) (n / 32)
    | .quay q _ => q
    | _ => c.quad
  q != c.quad && s.routes.getLsbD (pairIndex c.quad q) && !g.desc.route.getLsbD (pairIndex (quadRank g c.quad) (quadRank g q))
/-- Transfers across such a link do not arrive, and the core's next COMMIT fails. -/
def cutCore (s : State) (g : Gang) (c : Core) : Core :=
  let access (a : Access) : Bool := !a.committed && a.arrived && a.spots.any fun p => cutOff s g c p.slot
  let exch (e : Exch) : Bool := e.active && e.base < 2 ^ 40
    && (e.pairs.drop e.swapped).any fun p => !p.skip && (cutOff s g c p.near || cutOff s g c p.far)
  let pen (p : Pen) : Bool := p.active && p.due < g.tide + 2 ^ 39 && cutOff s g c p.slot
  if c.accesses.any access || c.exchs.any exch || c.pens.any pen then
    { c with
      lostLink := true
      accesses := c.accesses.map fun a => if access a then { a with arrived := false } else a
      exchs := c.exchs.map fun e => if exch e then { e with base := e.base + 2 ^ 40 } else e
      pens := c.pens.map fun p => if pen p then { p with due := p.due + 2 ^ 40 } else p }
  else c
def cutGang (s : State) (gang : Nat) : State :=
  if s.routes = 0 then s else modGang s gang fun g => modCores g (cutCore s g)
/-- The gang's cycle is over, and with it the gang's turn. -/
def endCycle (s : State) (gang : Nat) : State :=
  { modGang s gang fun g => { modCores g noteHeld with tide := g.tide + 1, stage := .port, turn := 0 } with turn := s.turn + 1 }
/-- The barrier of the cycle, 0 for none. -/
def gangBarrier (g : Gang) : Nat := match g.cores[0]? with | some c => barrierOf c | none => 0
/-- A safe point: the context is saved as soon as it can be, at a SAFE under the map that each core's own SAFE names (R147). A gang that an INVALIDATE waits for rolls back first (R356). -/
def takeSafePoint (s : State) (g : Gang) (kind : Nat) : State :=
  if awaitedByInvalidate s g then forceRollback s g.id (trapcOf .s cSafeDeadline) (BitVec.ofNat 64 (g.tide + 1)) (some 2)
  else modGang s g.id fun g => { g with saveNext := some kind, safeNow := if kind = 1 then g.cores.map fun c => barrierOf c - 3 else [], kind := if (g.preempt.map (·.rotation)).getD false then 1 else 0 }
/-- This chip's copy is to be saved at the commit boundary: a request is pending, or the scheduler makes one there (R334, R337). -/
def wantsSave (s : State) (g : Gang) : Bool :=
  !(otherChips s g).isEmpty && (g.preempt.isSome || rotates (decide s g.part) g)
/-- The end of a cycle that held a barrier: JOINT_COMMIT once every chip has come. -/
def planBarrier (s : State) (g : Gang) : Plan :=
  let kind := gangBarrier g
  let after := g.cores.length + 3
  if g.fatal.isSome then .move (endCycle s g.id)
  else match (if kind = 2 then commitFault g else none) with
  | some (i, c, n) => .move (rollbackFatal s g.id i c 4 n)
  | none =>
  match g.barrier with
  | some b =>
    if b.own.pending && allArrived s g then .move (castVote s g.id (wantsSave s g))
    else if g.held || !barrierDone s g then .move (passGang s g.id) else .run (.jointCommit g.id) (setTurn s g.id after)
  | none =>
    if kind = 0 then .move (endCycle s g.id)
    else if kind = 1 then
      .move (if (otherChips s g).isEmpty then endCycle s g.id else enterBarrier s g.id false (wantsSave s g))
    else if kind = 2 then
      match farToAsk g with
      | some (j, t) => .move (askFar s g.id j t)
      | none => if g.held then .move (passGang s g.id) else .move (enterBarrier s g.id true (wantsSave s g))
    else
      let s' := endCycle s g.id
      .move (if safeSafe g then takeSafePoint s' g 1 else s')
/-- The decisions of a commit boundary, and the pre-emption that takes effect there. -/
def afterCommit (s : State) (g : Gang) : State :=
  let s := endCycle s g.id
  if gangBarrier g = 2 then
    let s := rotate (decide s g.part) g.id
    match getGang s g.id with
    | some g => if safeCommit g then takeSafePoint s { g with tide := g.tide - 1 } 0 else s
    | none => s
  else s
def planFinish (s : State) (g : Gang) : Plan :=
  let n := g.cores.length
  if g.turn = 0 then .move (setTurn (cutGang ((List.range n).foldl (fun s j => endCore s g.id j) s) g.id) g.id 1)
  else if g.turn = 1 then planFinishSteps s g
  else if g.turn < n + 2 then
    let j := g.turn - 2
    let next := setTurn s g.id (g.turn + 1)
    match g.cores[j]? with
    | some c => if (portReqs g j c).isEmpty then .move next else .run (.elementPortServe ⟨g.id, j⟩) next
    | none => .move next
  else if g.turn = n + 2 then planBarrier s g
  else .move (afterCommit s g)

/-! ## A gang's next step -/

/-- The barrier at which this chip stands has waited 2^27 package cycles for a chip: it is lost (R318). -/
def chipOverdue (s : State) (g : Gang) : Option (BitVec 22) :=
  match g.cameSince with
  | some t => if g.barrier.isSome && !(s.ptide < t + 2 ^ 27) then (otherChips s g).find? fun c => !(g.came.any fun p => p.1 == c) else none
  | none => none
def planGang (s : State) (g : Gang) : Plan :=
  if g.status != .placed || !g.started then .move (passGang s g.id)
  else if g.kill.isSome && !atBoundary s g then .move (beginKill s g.id none (g.kill.getD true))
  else match g.home.find? fun w => w.outside g && lateWindow s g w with
  | some w => .run (.windowDeadline g.id w.num w.gen) s
  | none =>
  if g.claims 6 then .move (passGang s g.id)
  else if g.aborted.isSome then .run (.phaseRollback g.id) s
  else match (if g.stage = .port then g.fatal else none) with
    | some f => if f.poison then .run (.poisonEscalation g.id) s else .move (killFatal s g.id f)
    | none =>
      if saveReady g then .run (.contextSave ⟨g.id, none⟩) s
      else if g.saveNext.isSome then .move (passGang s g.id)
      else match chipOverdue s g with
        | some c => .run (.chipLost c) s
        | none =>
          match g.stage with
          | .port => planPort s g
          | .land => planLand s g
          | .issue => planIssues s g
          | .resolve => planResolve s g
          | .gate => planGate s g
          | .finish => planFinish s g

/-! ## The machine's next step -/

/-- A package cycle: the events of the outside that are due, then the harbourmaster's core, then each gang. A WAITP that holds a tide
is read again after each step (R301). -/
def plan (s : State) : Plan :=
  match s.gangs.findSome? (rereadOf s) with
  | some i => .run i s
  | none =>
  if s.turn = 0 then
    match s.agenda with
    | (t, i) :: r => if t ≤ s.ptide then .run i { s with agenda := r, cur := .device } else .move { s with turn := 1 }
    | [] => .move { s with turn := 1 }
  else if s.turn = 1 then
    if s.harbour.firmware.isEmpty then .move { s with turn := 3 } else .move { harbourCycle s with turn := 2 }
  else if s.turn = 2 then planHarbour s
  else match s.gangs[s.turn - 3]? with
    | some g => planGang s g
    | none => .move { s with turn := 0, ptide := s.ptide + 1 }
/-- A package that does not run answers to a cold start alone. -/
def isColdStart : Instr → Bool
  | .coldStart .. => true
  | _ => false
def planStopped (s : State) : Option Plan :=
  match s.agenda.find? fun e => isColdStart e.2 with
  | some e => some (.run e.2 { s with agenda := s.agenda.erase e })
  | none => none

end Sys2Proof.Machine
end

