-- ==== Sys2Proof/Machine/Step.lean ====
section
/-! DEFINITION. One step of the machine, and a machine about to fetch one given instruction. -/

namespace Sys2Proof.Machine

/-- A plan carried out. -/
def runPlan : Plan → Host.Outcome State Fault Refusal
  | .run i s => exec i s
  | .move s => .next s
/-- ONE STEP: the next instruction, event or move of the clockwork. A package that does not run answers to a cold start alone. -/
def step (s : State) : Host.Outcome State Fault Refusal :=
  match s.power with
  | .running => runPlan (plan s)
  | .halted => match planStopped s with
    | some p => runPlan p
    | none => .fault .halted
  | .off => match planStopped s with
    | some p => runPlan p
    | none => .fault .poweredOff
  | .unstarted => match planStopped s with
    | some p => runPlan p
    | none => .fault .poweredOff

/-- A gang of one router group whose image is one line, with cluster `cl` of member 0 about to issue it at tide `tide` (log 1, DESIGN CHOICE). -/
def probeGang (s : State) (l : Line) (cl : Cl) (tide : Nat) : Gang :=
  let g : Gang := { id := s.nextGang, part := 0, desc := { launch := 1, owner := 1 }, status := .placed, lines := [l], started := true,
                    stage := .issue, turn := clIndex cl, tide := tide }
  let core (p : (Nat × Nat) × Nat) : Core := freshCore g 0 p.2 p.1 p.1
  let ready (c : Core) : Core := if cl == .s then c else c.modPoint cl fun p => { p with parked := false, joined := false }
  { g with cores := (shapeCores 0 0 1 1).zipIdx.map fun p => ready (core p) }
/-- The forms that the harbourmaster alone issues. -/
def isPrivileged : Instr → Bool
  | .tret _ | .hsel .. | .hrd .. | .hwr .. | .hcmd .. | .hwait .. => true
  | _ => false
/-- `s` with the code line `w` where the machine fetches next: the line of a running gang, or of the harbourmaster's firmware. -/
def State.withFetchWord (s : State) (nbits w : Nat) : State :=
  let l : Line := BitVec.ofNat 512 w
  let cl := l.cluster
  match decodeTableWord nbits w with
  | none => { s with agenda := [], gangs := [probeGang s l cl 0], nextGang := s.nextGang + 1, turn := 3 }
  | some i =>
    if isPrivileged i then
      let regs : Regs := { q := startQueue [l] 0 }
      { s with agenda := [], turn := 2
               harbour := { s.harbour with firmware := [l], tide := 0, core := { regs := regs, qStart := regs.q } } }
    else
      let g := probeGang s l cl (((stampOf i).map (·.toNat)).getD 0)
      { s with agenda := [], gangs := [g], nextGang := s.nextGang + 1, turn := 3 }

end Sys2Proof.Machine
end

