-- ==== Sys2Proof/Safety.lean ====
section
/-! DEFINITION. What counts as a safe run, and the terms in which claims speak of one issue: what stands in its way, and the
core and the machine that it leaves. -/

namespace Sys2Proof.Safety

open Sys2Proof.Machine

/-- The state after `n` steps, if none of them stops. -/
def after (n : Nat) (s : State) : Option State :=
  match n with
  | 0 => some s
  | k + 1 =>
    match step s with
    | .next t => after k t
    | _ => none
/-- A run is safe when each of its steps answers a next state. -/
def SafeRun (s : State) : Prop := ∀ n, (after n s).isSome = true

/-! ## One issue -/

/-- The cluster and the common fields of an instruction that one cluster has. -/
def commonOf : Instr → Option (Cl × Common)
  | .add c .. | .sub c .. | .mul c .. | .mulh c .. | .mulhn c .. | .div c .. | .divn c .. | .rem c .. | .remn c ..
  | .min c .. | .max c .. | .minn c .. | .maxn c .. | .and c .. | .or c .. | .xor c .. | .shl c .. | .shr c ..
  | .sar c .. | .clz c .. | .popc c .. | .sel c .. | .cmp c .. | .addi c .. | .andi c .. | .ori c .. | .xori c ..
  | .shli c .. | .shri c .. | .sari c .. | .cmpi c .. | .liOne c .. | .liTwo c .. | .ld c .. | .st c .. | .lda c ..
  | .stl c .. | .amo c .. | .cas c .. | .b c .. | .bc c .. | .br c .. | .call c .. | .loop c .. | .fork c ..
  | .slack c | .commit c | .safe c .. | .waitp c .. | .qmark c | .fence c .. | .trap c .. | .tret c | .mfc c ..
  | .mtc c .. | .hsel c .. | .hrd c .. | .hwr c .. | .hcmd c .. | .hwait c .. => some (.s, c)
  | .vadd c .. | .vsub c .. | .vmul c .. | .vdiv c .. | .vmin c .. | .vmax c .. | .vcps c .. | .vsqrt c ..
  | .vrcp c .. | .vrsq c .. | .vexp2 c .. | .vlog2 c .. | .vabs c .. | .vneg c .. | .vfma c .. | .vfms c ..
  | .vfnma c .. | .viadd c .. | .visub c .. | .vimul c .. | .vimulh c .. | .vimin c .. | .vimax c .. | .vand c ..
  | .vor c .. | .vxor c .. | .vshl c .. | .vshr c .. | .vsar c .. | .vpopc c .. | .vcmp c .. | .vicmp c ..
  | .vclass c .. | .pand c .. | .por c .. | .pxor c .. | .pnot c .. | .pcnt c .. | .pfirst c .. | .vsel c ..
  | .vmov c .. | .vbcst c .. | .vextr c .. | .vins c .. | .vperm c .. | .vrot c .. | .vmovDirRead c ..
  | .vmovDirWrite c .. | .vrsum c .. | .vrmax c .. | .vrmin c .. | .vramax c .. | .vcvt c .. | .vcvtMxImport c ..
  | .vld c .. | .vst c .. | .vldg c .. | .vsts c .. | .vpark c .. | .vunpark c .. | .vtri c .. | .vtrin c ..
  | .vbnd c .. => some (.v, c)
  | .mma c .. | .mmat c .. | .mzero c .. | .macc c .. | .mscl c .. | .mmsk c .. | .mred c .. | .mdrn c ..
  | .mdrnq c .. | .mtrn c .. => some (.m, c)
  | .xch c .. | .xchs c .. | .xchg c .. | .xchp c .. | .xcht c .. | .xtil c .. | .xtilt c .. | .xfar c ..
  | .xdrop c .. | .xtstv c .. | .xpen c .. | .xwake c .. | .xdoze c .. | .xnsend c .. | .xnrecv c .. | .xagu c ..
  | .xrch c .. | .xrchc c .. | .xcrck c .. | .xwin c .. | .xred c .. | .xtri c .. | .xamo c .. | .xamor c ..
  | .xcas c .. | .xkick c .. | .xabort c .. => some (.x, c)
  | _ => none

/-- Nothing but the instruction's own operation stands in its way: it pops no empty FIFO (R259), and no register of its core
holds an undetected error (R378). -/
def Clear (x : Ctx) (c : Common) : Prop := popMiss x c = none ∧ x.core.faults = []
/-- The machine after an instruction has issued whose own effect left `core` and `s`: the issue point has moved on, and nothing
else beside that effect. -/
def issued (x : Ctx) (c : Common) (core : Core) (s : State) (how : How := {}) : State := putCore x s (retire x c how core)
/-- The machine after an instruction has met a cause at issue. -/
def caused (x : Ctx) (c : Common) (e : Cause) (how : How := {}) : State := putCore x (poisonFound x e) (raise x c how e)

/-- One landing more (R62). -/
def withLanding (core : Core) (l : Landing) : Core := { core with regs := { core.regs with landings := core.regs.landings ++ [l] } }
/-- `v` on its way to g[d] with latency `lat` (R125); a write to g0 creates no landing. -/
def landingG (x : Ctx) (d : Reg) (v : Dword) (lat : Nat) : Core :=
  if d = 0 then x.core
  else withLanding x.core { dest := .g d, value := v, due := x.tide + lat, issued := x.tide, cl := x.cl, long := 1 < lat,
                            pc := x.pc }
/-- Lanes on their way to v[d] under a mask, with the flags they raise as they land. -/
def landingV (x : Ctx) (d : Reg) (lanes : Lanes) (mask : Pred) (lat : Nat) (flags : BitVec 5) : Core :=
  withLanding x.core { dest := .v d, lanes := lanes, mask := mask, due := x.tide + lat, issued := x.tide, cl := .v,
                       flags := flags, long := 1 < lat, pc := x.pc }
/-- A predicate on its way to p[d] under a mask with L = 1; a write to p0 is discarded. -/
def landingP (x : Ctx) (d : PReg) (v mask : Pred) (flags : BitVec 5) : Core :=
  withLanding x.core { dest := if d = 0 then .none else .p d, pred := v, mask := mask, due := x.tide + 1, issued := x.tide,
                       cl := .v, flags := flags, long := false, pc := x.pc }
/-- The log has room for `n` entries more, those that writes on their way will take counted (R137, R266). -/
def LogRoom (x : Ctx) (n : Nat) : Prop :=
  x.core.log.length + x.core.reserved + (pendingSlots x.core).eraseDups.length + n ≤ 1024
/-- There is room for a pending landing (R62). -/
def Room (x : Ctx) : Prop := x.core.pending < 16

/-! ## Accesses -/

/-- An S access of `n` bytes to `ea` meets no cause of R133 and R134: its page, and the latency of its reach. The harbourmaster's
own memory takes every aligned access (R352, log 5, DESIGN CHOICE). -/
def Reached (x : Ctx) (ea : Dword) (n : Nat) (rd wr : Bool) (p : Page) (lat : Nat) : Prop :=
  ea.toNat % n = 0
    ∧ if x.hb then p = { (default : Page) with read := true, write := true } ∧ lat = 6
      else translate x.s x.g x.k.idx (ea.extractLsb' 12 52) = .ok p ∧ reachLat x.s x.g x.core.num 6 p.slot = some lat
        ∧ (x.slack = true ∨ ownBerth x.core.num p.slot = true) ∧ (rd = true → p.read = true)
        ∧ (wr = true → p.write = true ∧ p.cow = false ∧ p.window = false) ∧ ∃ f, fmtOfByte p.code = some f ∧ f.isSq = false
/-- The core after an S access has joined its queues; a plain store of a gang's core keeps room in the swap log (R137). -/
def joins (x : Ctx) (a : Access) : Core :=
  { x.core with accesses := x.core.accesses ++ [a], reserved := x.core.reserved + if a.inStore && !a.inLoad && !x.hb then 1 else 0 }
/-- An entry leaves its queue or its buffer. -/
def taken (core : Core) (a : Access) : Core := { core with accesses := core.accesses.filter fun e => e.serial != a.serial }
/-- A result joins the landings of its core; that of a committed phase those of the checkpoint too (R305). -/
def landed (core : Core) (a : Access) (l : Landing) : Core :=
  let core := withLanding core l
  if a.committed then { core with checkpoint := { core.checkpoint with landings := core.checkpoint.landings ++ [l] } } else core

/-! ## What a write leaves in a block (R40, R41, R135, R173, R201) -/

/-- `b'` is `b` opened by a write of format code `code`: a valid block has its generation raised, a void one has become valid. -/
def Opened (b b' : Cells) (code : Byte) : Prop :=
  blkValid b' = true ∧ blkPoison b' = blkPoison b ∧ blkGen b' = (if blkValid b then blkGen b + 1 else 1)
    ∧ blkFormat b' = if blkValid b then blkFormat b else code

/-- The four words of a tile summary of the values `ys`: the greatest magnitude, the least and the greatest value, and the bound on the
exponent; all of them NaN when one value is. -/
def Summary (ys : List Machine.Num) (l : List Word) : Prop :=
  if ys.any (·.isNan) then l = List.replicate 4 0x7FC00000
  else ∃ top ∈ ys, ∃ low ∈ ys, ∃ high ∈ ys, ∃ e : Machine.Num,
    (∀ y ∈ ys, numLt top.abs y.abs = false ∧ numLt y low = false ∧ numLt high y = false)
      ∧ l = [(rne32 top.abs).1, (rne32 low).1, (rne32 high).1, (rne32 e).1]
      ∧ e = match top with
        | .fin _ m k => intNum (k + Nat.log2 m + 1)
        | .inf _ => .inf false
        | _ => .inf true
/-- A scale block of `b` that the fit of the 32 × 32 values `y` into format `f` has left: its record at byte `o`, the payload of element
(i, j) at bit `at_ i j`, and the flags that the fit raised. -/
def Fitted (f : Fmt) (y : Nat → Nat → Word) (b : Cells) (o : Nat) (at_ : Nat → Nat → Nat) (flags : BitVec 5) : Prop :=
  let v (i j : Nat) : Machine.Num := num32 (y i j)
  let codes (g : Nat → Nat → Nat × BitVec 5) : Prop := ∀ i j, i < 32 → j < 32 → cbits b (at_ i j) (fmtWidth f) = (g i j).1 % 2 ^ fmtWidth f
  let record (e : Nat) (r c : Nat → Nat) : Prop :=
    sqE b o = e ∧ (∀ i, i < 32 → sqR b o i = r i ∧ sqC b o i = c i) ∧ ∀ k, 25 ≤ k → k < 28 → cget b (o + k) = 0
  let all (p : Machine.Num → Bool) : Bool := (List.range 32).all fun i => (List.range 32).all fun j => p (v i j)
  if all (·.isFinite) = false then
    record 255 (fun _ => 0) (fun _ => 0) ∧ codes (fun _ _ => (0, 0)) ∧ flags = 1
  else if all (fun x => logOf x == none) then
    record 0 (fun _ => 0) (fun _ => 0) ∧ codes (fun i j => fitOne f (v i j) 0) ∧ flags = 0
  else ∃ (top : Int) (row col : Nat → Option Int),
    let greatest (l : Nat → Option Int) (m : Option Int) : Prop := match m with
      | none => ∀ j, j < 32 → l j = none
      | some m => (∃ j, j < 32 ∧ l j = some m) ∧ ∀ j x, j < 32 → l j = some x → x ≤ m
    let micro (m : Option Int) : Nat := match m with
      | none => 0
      | some m => (max 0 ((m - top + 15) / 2)).toNat
    let e : Int := min 254 (max 0 (top - 14 - emaxOf f + 127))
    let fit (i j : Nat) : Nat × BitVec 5 := fitOne f (v i j) (e - 127 + micro (row i) + micro (col j))
    (∀ i, i < 32 → greatest (fun j => logOf (v i j)) (row i) ∧ greatest (fun j => logOf (v j i)) (col i))
      ∧ greatest row (some top) ∧ record e.toNat (fun i => micro (row i)) (fun i => micro (col i)) ∧ codes fit
      ∧ flags = (List.range 32).foldl (fun a i => (List.range 32).foldl (fun a j => a ||| (fit i j).2) a) 0

/-! ## Invariants of the machine -/

/-- Every gang has a number of its own, below the next one. -/
def GangIds (s : State) : Prop := (s.gangs.map (·.id)).Nodup ∧ ∀ g ∈ s.gangs, g.id < s.nextGang

end Sys2Proof.Safety
end

