-- ==== Sys2Proof/Certificates/Slice0/Obligations.lean ====
section
/-! DEFINITION. The statements for the provers. Where a statement says what an issue leaves, `issued x c core t how` is the machine
in which the issuing core stands as `core`, everything else as in `t`, and the issue point has moved on. What that moves
is stated by QueueAndIssuePointsAdvance, and what it leaves by IssueLeavesTheRest, so that an equation with `issued` carries its own
frame. -/

section

open Sys2Proof Sys2Proof.Machine Sys2Proof.Safety

/-! ## The S cluster -/

/-- R127, R29, R125: the register forms, their results and their latencies; and their words, in which every other field is zero. -/
def Obligations.ScalarRegisterForms : Prop :=
  ∀ (s : State) (x : Ctx) (c : Common) (d a b : Reg), ctxOf s .s = some x → Clear x c → guardOn x c = true →
    let u := x.rg a
    let w := x.rg b
    let gives (i : Instr) (v : Dword) (lat : Nat) : Prop :=
      (d = 0 ∨ lat = 1 ∨ Room x) → exec i s = .next (issued x c (landingG x d v lat) s)
    gives (.add c d a b) (u + w) 1 ∧ gives (.sub c d a b) (u - w) 1
      ∧ gives (.mul c d a b) (u * w) 3
      ∧ gives (.mulh c d a b) ((u.signExtend 128 * w.signExtend 128).extractLsb' 64 64) 3
      ∧ gives (.mulhn c d a b) ((u.setWidth 128 * w.setWidth 128).extractLsb' 64 64) 3
      ∧ gives (.div c d a b) (if w = 0 then BitVec.allOnes 64 else u.sdiv w) 12
      ∧ gives (.divn c d a b) (if w = 0 then BitVec.allOnes 64 else u / w) 12
      ∧ gives (.rem c d a b) (if w = 0 then u else u.srem w) 12
      ∧ gives (.remn c d a b) (if w = 0 then u else u % w) 12
      ∧ gives (.min c d a b) (if u.slt w then u else w) 1 ∧ gives (.max c d a b) (if u.slt w then w else u) 1
      ∧ gives (.minn c d a b) (if u < w then u else w) 1 ∧ gives (.maxn c d a b) (if u < w then w else u) 1
      ∧ gives (.and c d a b) (u &&& w) 1 ∧ gives (.or c d a b) (u ||| w) 1 ∧ gives (.xor c d a b) (u ^^^ w) 1
      ∧ gives (.shl c d a b) (u <<< (w % 64).toNat) 1 ∧ gives (.shr c d a b) (u >>> (w % 64).toNat) 1
      ∧ gives (.sar c d a b) (u.sshiftRight (w % 64).toNat) 1
      ∧ gives (.clz c d a) u.clz 1 ∧ gives (.popc c d a) u.cpop 1
      ∧ (c.wf .s true = true → ∀ (op : BitVec 9) (i : Instr) (rest : BitVec 17),
        (op, i) ∈ [(0x010#9, Instr.add c d a b), (0x011, .sub c d a b), (0x012, .mul c d a b), (0x013, .mulh c d a b), (0x014, .mulhn c d a b),
          (0x015, .div c d a b), (0x016, .divn c d a b), (0x017, .rem c d a b), (0x018, .remn c d a b), (0x019, .min c d a b),
          (0x01A, .max c d a b), (0x01B, .minn c d a b), (0x01C, .maxn c d a b), (0x01D, .and c d a b), (0x01E, .or c d a b),
          (0x01F, .xor c d a b), (0x020, .shl c d a b), (0x021, .shr c d a b), (0x022, .sar c d a b)] →
        decodeSyl true .s (op ++ c.toBits ++ (d ++ a ++ b ++ rest)) none = if rest = 0 then .ok i else .error .reserved)
      ∧ (c.wf .s true = true → ∀ rest : BitVec 23,
        decodeSyl true .s (0x023#9 ++ c.toBits ++ (d ++ a ++ rest)) none = (if rest = 0 then .ok (.clz c d a) else .error .reserved)
        ∧ decodeSyl true .s (0x024#9 ++ c.toBits ++ (d ++ a ++ rest)) none = (if rest = 0 then .ok (.popc c d a) else .error .reserved))

/-- R128, R130, R131: SEL, the compares, the immediate forms and both forms of LI, all with L = 1, and their words. -/
def Obligations.ScalarSelectAndImmediateForms : Prop :=
  ∀ (s : State) (x : Ctx) (c : Common) (d a b e : Reg) (rel : Rel) (imm : BitVec 23) (n : BitVec 6) (i20 : BitVec 20)
    (i29 : BitVec 29) (i64 : Dword), ctxOf s .s = some x → Clear x c → guardOn x c = true →
    let u := x.rg a
    let w := x.rg b
    let holds (p q : Dword) : Bool := match rel with
      | .eq => p == q
      | .ne => p != q
      | .lt => p.slt q
      | .le => p.sle q
      | .ltn => p.ult q
      | .len => p.ule q
    let gives (i : Instr) (v : Dword) : Prop := exec i s = .next (issued x c (landingG x d v 1) s)
    gives (.sel c d a b e) (if x.rg e = 0 then w else u)
      ∧ gives (.cmp c d a b rel) (if holds u w then 1 else 0)
      ∧ gives (.addi c d a imm) (u + imm.signExtend 64) ∧ gives (.andi c d a imm) (u &&& imm.setWidth 64)
      ∧ gives (.ori c d a imm) (u ||| imm.setWidth 64) ∧ gives (.xori c d a imm) (u ^^^ imm.setWidth 64)
      ∧ gives (.shli c d a n) (u <<< n.toNat) ∧ gives (.shri c d a n) (u >>> n.toNat)
      ∧ gives (.sari c d a n) (u.sshiftRight n.toNat)
      ∧ gives (.cmpi c d a rel i20) (if holds u (i20.signExtend 64) then 1 else 0)
      ∧ gives (.liOne c d i29) (i29.signExtend 64) ∧ gives (.liTwo c d i64) i64
      ∧ (c.wf .s true = true →
        let reads (op : BitVec 9) (o : BitVec 35) (r : Option Instr) : Prop :=
          decodeSyl true .s (op ++ c.toBits ++ o) none = match r with | some i => .ok i | none => .error .reserved
        let relation (f : BitVec 3) : Option Rel :=
          if f = 0 then some .eq else if f = 1 then some .ne else if f = 2 then some .lt else if f = 3 then some .le
          else if f = 4 then some .ltn else if f = 5 then some .len else none
        reads 0x025 (d ++ a ++ b ++ e ++ 0#11) (some (.sel c d a b e))
          ∧ (∀ f : BitVec 3, reads 0x026 (d ++ a ++ b ++ 0#6 ++ f ++ 0#8) ((relation f).map fun r => .cmp c d a b r)
            ∧ reads 0x037 (d ++ a ++ (f ++ i20)) ((relation f).map fun r => .cmpi c d a r i20))
          ∧ reads 0x030 (d ++ a ++ imm) (some (.addi c d a imm)) ∧ reads 0x031 (d ++ a ++ imm) (some (.andi c d a imm))
          ∧ reads 0x032 (d ++ a ++ imm) (some (.ori c d a imm)) ∧ reads 0x033 (d ++ a ++ imm) (some (.xori c d a imm))
          ∧ (∀ z : BitVec 17, reads 0x034 (d ++ a ++ (z ++ n)) (if z = 0 then some (.shli c d a n) else none)
            ∧ reads 0x035 (d ++ a ++ (z ++ n)) (if z = 0 then some (.shri c d a n) else none)
            ∧ reads 0x036 (d ++ a ++ (z ++ n)) (if z = 0 then some (.sari c d a n) else none))
          ∧ reads 0x038 (d ++ i29) (some (.liOne c d i29))
          ∧ ∀ (z : BitVec 25) (hi : BitVec 4) (x : Syl), decodeSyl true .s (0x039#9 ++ c.toBits ++ (d ++ (z ++ hi))) (some x)
              = if z = 0 then .ok (.liTwo c d (hi ++ x)) else .error .reserved)

/-- R141, R93: what each branch does to the queue, and what CALL and LOOP write. -/
def Obligations.BranchesSteerTheQueue : Prop :=
  ∀ (s : State) (x : Ctx) (c : Common) (nul : Nul) (cond : Cond) (a : Reg) (off : BitVec 24), ctxOf s .s = some x → Clear x c →
    guardOn x c = true →
    let u := x.rg a
    let near := x.pc + off.signExtend 64
    let fate (taken : Bool) (t : Dword) : How :=
      { target := if taken then some t else none, nullSlots := nul == .nt && !taken || nul == .nk && taken }
    let met : Bool := match cond with
      | .z => u == 0
      | .nz => u != 0
      | .neg => u.slt 0
      | .nneg => !u.slt 0
      | .pos => (0 : Dword).slt u
      | .npos => !(0 : Dword).slt u
    exec (.b c nul off) s = .next (issued x c x.core s (fate true near))
      ∧ exec (.bc c nul cond a off) s = .next (issued x c x.core s (fate met near))
      ∧ exec (.br c nul a) s = .next (issued x c x.core s (fate true u))
      ∧ exec (.call c nul a off) s
          = .next (issued x c (landingG x a (nextAddr x.g.lines x.core.regs.q[2].addr).addr 1) s (fate true near))
      ∧ exec (.loop c nul a off) s = .next (issued x c (landingG x a (u - 1) 1) s (fate (u - 1 != 0) near))

/-- R59: the queue's advance. The target, or next(q2), joins it; nullify bits go with their entries, the target's is clear. R83,
R94, R104, R105, R257: the issue point of V, M and X after an issue. The next member of a V group issues on the same cycle; the
group's own idle count is its first member's (R86). What IDLE's own count and RDV do in a member that is not the group's last is the
model's choice (logs 101 and 102, DESIGN CHOICE). -/
def Obligations.QueueAndIssuePointsAdvance : Prop :=
  (∀ (x : Ctx) (c : Common) (how : How) (core : Core), x.cl = .s →
    let q := core.regs.q
    let q' := (retire x c how core).regs.q
    q'[0].addr = q[1].addr ∧ q'[1].addr = q[2].addr
      ∧ q'[2].addr = (match how.target with | some t => t | none => (nextAddr x.g.lines q[2].addr).addr)
      ∧ q'[0].null = (q[1].null || how.nullSlots) ∧ q'[1].null = (q[2].null || how.nullSlots) ∧ q'[2].null = false
      ∧ (retire x c how core).regs.sNext = x.tide + how.idle + c.idle.toNat + 1)
  ∧ (∀ (x : Ctx) (c : Common) (how : How) (core : Core), x.cl ≠ .s →
    let p := core.regs.points[pointIndex x.cl]
    let p' := (retire x c how core).regs.points[pointIndex x.cl]
    p'.addr = (nextAddr x.g.lines (issueAddr x.core x.cl)).addr
      ∧ p'.next = (if c.group then p.next
          else x.tide + how.idle + (if x.cl = .v then groupIdle x.g.lines (issueAddr x.core x.cl) else c.idle.toNat) + 1)
      ∧ p'.parked = how.rdv ∧ p'.joined = (p.joined || how.rdv)
      ∧ ∀ cl', cl' ≠ .s → pointIndex cl' ≠ pointIndex x.cl →
          (retire x c how core).regs.points[pointIndex cl'] = core.regs.points[pointIndex cl'])

/-- What an issue leaves: no register, flag, control register, accumulator, log, queue of accesses or landing of the core changes but by
the instruction's own effect, nor any byte of memory, any other core or any other part of the machine. R83, R84: tokens are popped,
and pushes and the record of the issue are added. -/
def Obligations.IssueLeavesTheRest : Prop :=
  ∀ (x : Ctx) (c : Common) (how : How) (core : Core) (t : State),
    let core' := retire x c how core
    core'.regs.g = core.regs.g ∧ core'.regs.p = core.regs.p ∧ core'.regs.v = core.regs.v ∧ core'.regs.ctl = core.regs.ctl
      ∧ core'.regs.park = core.regs.park ∧ core'.regs.latch = core.regs.latch ∧ core'.regs.gpos = core.regs.gpos
      ∧ core'.regs.landings = core.regs.landings ∧ core'.regs.tokens = popTokens c x.cl core.regs.tokens
      ∧ core'.acc = core.acc ∧ core'.shadow = core.shadow ∧ core'.accesses = core.accesses ∧ core'.asks = core.asks ∧ core'.exchs = core.exchs
      ∧ core'.cmds = core.cmds ∧ core'.cards = core.cards ∧ core'.log = core.log ∧ core'.reserved = core.reserved
      ∧ core'.fabs = core.fabs ∧ core'.fences = core.fences ∧ core'.pens = core.pens ∧ core'.raised = core.raised
      ∧ core'.checkpoint = core.checkpoint ∧ core'.trapped = core.trapped
      ∧ core'.atEnd = core.atEnd ++ pushes c x.cl
      ∧ core'.issuedNow = core.issuedNow ++ [{ cl := x.cl, sync := c.sync, rdv := how.rdv, kind := how.kind, pc := x.pc }]
      ∧ (issued x c core t how).mem = t.mem ∧ (∀ i, cget (issued x c core t how).mem i = cget t.mem i)
      ∧ (issued x c core t how).agenda = t.agenda ∧ (issued x c core t how).sent = t.sent
      ∧ (issued x c core t how).outbox = t.outbox ∧ (issued x c core t how).power = t.power
      ∧ (x.hb = false → (getMember t x.k).isSome →
          (getMember (issued x c core t how) x.k).map (·.2) = some core' ∧ (issued x c core t how).harbour = t.harbour)
      ∧ (x.hb = false → ∀ k, k ≠ x.k → (getMember (issued x c core t how) k).map (·.2) = (getMember t k).map (·.2))
      ∧ (x.hb = true → (issued x c core t how).harbour.core = core' ∧ (issued x c core t how).gangs = t.gangs)

/-- R94, R105: NOP, IDLE and RDV of every cluster. R54, R82: an S instruction that its guard switches off has no effect; its issue,
its idle count and its tokens are spent. An access so switched off that leads to a berth leaves there the request that takes its time at
the element port (R258; log 93, DEDUCED, the model's choice). The MFC and MTC that decode refuses are those of ControlRegisterMoves. -/
def Obligations.EmptyIssues : Prop :=
  (∀ (s : State) (x : Ctx) (c : Common) (n : BitVec 35), ctxAny s = some x → Clear x c →
    exec (.nop c) s = .next (issued x c x.core s) ∧ exec (.idle c n) s = .next (issued x c x.core s { idle := n.toNat })
      ∧ exec (.rdv c) s = .next (issued x c x.core s { rdv := true }))
  ∧ (∀ (s : State) (x : Ctx) (c : Common) (i : Instr), commonOf i = some (.s, c) → i.wf .s = true → ctxOf s .s = some x → Clear x c →
    c.en = true → (x.rp c.guard).getLsbD 0 = c.sense →
    (∀ (d : Reg) (n : BitVec 12), i = .mfc c d n ∨ i = .mtc c d n →
      (readCtl x.core x.tide n.toNat).isSome = true ∧ (i = .mtc c d n → ctlReadOnly n.toNat = false)) →
    exec i s = .next (match accessOf x i with
      | some (ea, n, wr) => issued x c (portTime x ea n wr x.core).1 (portTime x ea n wr x.core).2
      | none => issued x c x.core s))
  ∧ (∀ (x : Ctx) (ea : Dword) (n : Nat) (wr : Bool) (core : Core),
    let p := translate x.s x.g x.k.idx (ea.extractLsb' 12 52)
    let off := ea.toNat % 4096
    (∀ q b j, p = .ok q → q.slot = .berth b j → x.hb = false → off + n ≤ 4096 →
        portTime x ea n wr core = ({ core with asks := core.asks ++ [⟨x.s.serial, .berth b j, off, n, wr, x.cl, x.tide⟩] },
          { x.s with serial := x.s.serial + 1 }))
      ∧ ((∀ q b j, p = .ok q → q.slot ≠ .berth b j) → portTime x ea n wr core = (core, x.s)))

/-- R54: g0 reads zero and p0 128 ones, whatever was written to them; every other register reads what was last written. -/
def Obligations.HardwiredRegisters : Prop :=
  ∀ (r : Regs) (i j : Reg) (v : Dword) (p q : PReg) (w m : Pred),
    r.rg 0 = 0 ∧ r.rp 0 = BitVec.allOnes 128 ∧ r.setG 0 v = r ∧ r.setP 0 w m = r
      ∧ (i ≠ 0 → (r.setG i v).rg i = v) ∧ (j ≠ i → (r.setG i v).rg j = r.rg j)
      ∧ (p ≠ 0 → (r.setP p w m).rp p = (w &&& m) ||| (r.rp p &&& ~~~m)) ∧ (q ≠ p → (r.setP p w m).rp q = r.rp q)
      ∧ ∀ x : Ctx, x.core.regs = r → laneMask x { guard := 0, sense := true, en := true } = 0
          ∧ guardOn x { guard := 0, sense := true, en := true } = false

/-- R104, R143: FORK starts V, M and X, or raises SCHED_MISS while one has not joined. R143: the six forms that take no guard. R145, R147: SLACK and COMMIT set PHASE.SPAN
at the end of their cycle and stand as barriers 1 and 2; SAFE stands as barrier 3 + map; a SLACK in the slack span and a SAFE of no
map raise their causes. -/
def Obligations.ForksAndPhaseMarks : Prop :=
  (∀ (s : State) (x : Ctx) (c : Common) (n : BitVec 35), ctxOf s .s = some x → Clear x c → c.en = false →
    let start (p : Point) : Point := { p with next := x.tide + n.toNat, parked := false, joined := false }
    ((∀ i : Fin 3, x.core.regs.points[i].joined = true) →
      exec (.fork c n) s
        = .next (issued x c { x.core with regs := { x.core.regs with points := x.core.regs.points.map start } } s))
    ∧ ((∃ i : Fin 3, x.core.regs.points[i].joined = false) →
      exec (.fork c n) s = .next (caused x c { code := 0x04, tval := BitVec.ofNat 64 x.g.tide })))
  ∧ (∀ (c : Common) (o : BitVec 35), ∀ op ∈ [0x058#9, 0x059, 0x05A, 0x05B, 0x05D, 0x060],
    c.en = true ∨ c.guard ≠ 0 ∨ c.sense = true → decodeSyl false .s (op ++ c.toBits ++ o) none = .error .reserved)
  ∧ (∀ (s : State) (x : Ctx) (c : Common) (map : BitVec 8), ctxOf s .s = some x → Clear x c → c.en = false →
    let ends (span : Dword) : Core := { x.core with atEnd := x.core.atEnd ++ [.ctl 0x001 (x.core.regs.ctl.phase &&& ~~~3 ||| span)] }
    (x.slack = false → exec (.slack c) s = .next (issued x c (ends 1) s { kind := 1 }))
      ∧ (x.slack = true → exec (.slack c) s = .next (caused x c { code := 0x04, tval := BitVec.ofNat 64 x.g.tide } { kind := 1 }))
      ∧ exec (.commit c) s = .next (issued x c (ends 2) s { kind := 2 })
      ∧ (map.toNat < x.g.livemaps.length → exec (.safe c map) s = .next (issued x c x.core s { kind := 3 + map.toNat }))
      ∧ (x.g.livemaps.length ≤ map.toNat →
          exec (.safe c map) s = .next (caused x c { code := 0x02, tval := x.syl } { kind := 3 + map.toNat })))

/-- R151: TRAP has issued when its cause is raised, so that the queue names its successor; a guarded-off one raises nothing. R74, R76, R95: a cause other than TRAP
joins the causes of the cycle with its instruction's own address; the instruction has no effect on a register, a flag of FPCSR, a
landing or the issue point of the queue. R62: a seventeenth pending landing, for each form of latency 2 or more that writes a
register other than g0. -/
def Obligations.CausesAreRaised : Prop :=
  (∀ (s : State) (x : Ctx) (c : Common) (imm : BitVec 35), ctxOf s .s = some x → Clear x c → guardOn x c = true →
    let core := retire x c {} x.core
    exec (.trap c imm) s = .next (putCore x s { core with
      raised := core.raised ++ [{ code := 0x14, cl := .s, tval := imm.setWidth 64, pc := core.regs.q[0].addr }] })
    ∧ core.regs.q[0].addr = x.core.regs.q[1].addr)
  ∧ (∀ (s : State) (x : Ctx) (c : Common) (imm : BitVec 35), ctxOf s .s = some x → Clear x c → guardOn x c = false →
    exec (.trap c imm) s = .next (issued x c x.core s))
  ∧ (∀ (x : Ctx) (c : Common) (e : Cause) (how : How), e.code ≠ 0x14 → c.group = false →
    let core := raise x c how e
    core.raised = x.core.raised ++ [{ code := e.code, cl := x.cl, tval := e.tval, pc := x.pc, never := e.never, pushes := pushedBy c x.cl }]
      ∧ core.issuedNow = x.core.issuedNow ++ [{ cl := x.cl, sync := c.sync, rdv := how.rdv, kind := how.kind, pc := x.pc }]
          ++ heldGroup x.g.lines x.cl x.pc
      ∧ core.regs.g = x.core.regs.g ∧ core.regs.p = x.core.regs.p ∧ core.regs.v = x.core.regs.v ∧ core.regs.q = x.core.regs.q
      ∧ core.regs.points = x.core.regs.points ∧ core.regs.tokens = x.core.regs.tokens
      ∧ core.regs.landings = x.core.regs.landings ∧ core.acc = x.core.acc ∧ core.accesses = x.core.accesses ∧ core.log = x.core.log
      ∧ core.regs.ctl = { x.core.regs.ctl with bndlog := x.core.regs.ctl.bndlog ||| e.hits.setWidth 64 })
  ∧ (∀ (s : State) (x : Ctx) (c : Common) (d a b : Reg) (sc : Scope), ctxOf s .s = some x → Clear x c → guardOn x c = true → d ≠ 0 →
    x.core.pending = 16 →
    ∀ i ∈ [Instr.mul c d a b, .mulh c d a b, .mulhn c d a b, .div c d a b, .divn c d a b, .rem c d a b, .remn c d a b, .fence c d sc],
      exec i s = .next (caused x c { code := 0x04, tval := BitVec.ofNat 64 x.g.tide }))

/-- R61, R71, R74: what a trap saves. -/
def Obligations.TrapSavesTheIssueState : Prop :=
  ∀ (c : Core) (cl : Cl) (code : BitVec 8) (tval pc : Dword) (q : Vector QEntry 3),
    let c' := takeTrap c (trapcOf cl code) tval pc q
    (∀ tide, readCtl c' tide 0x080 = some (BitVec.ofNat 64 (256 * cl.code.toNat + code.toNat)) ∧ readCtl c' tide 0x081 = some tval
        ∧ readCtl c' tide 0x087 = some pc ∧ readCtl c' tide 0x082 = some q[0].addr ∧ readCtl c' tide 0x083 = some q[1].addr
        ∧ readCtl c' tide 0x084 = some q[2].addr
        ∧ readCtl c' tide 0x085 = some (BitVec.ofNat 64
            ((if q[0].null then 1 else 0) + (if q[1].null then 2 else 0) + (if q[2].null then 4 else 0))))
      ∧ c'.regs.g = c.regs.g ∧ c'.regs.v = c.regs.v ∧ c'.regs.p = c.regs.p ∧ c'.regs.q = c.regs.q ∧ c'.regs.points = c.regs.points
      ∧ c'.acc = c.acc ∧ c'.regs.landings = c.regs.landings ∧ c'.regs.ctl.fpcsr = c.regs.ctl.fpcsr
      ∧ c'.regs.ctl.phase = c.regs.ctl.phase

/-- R61, R153: after a trap that saved the core's own queue, TRET leaves the queue and the nullify bits as they were. R71: a BREAK notes
the issue that it took the place of. -/
def Obligations.ReturnUndoesTheTrap : Prop :=
  ∀ (c : Core) (trapc tval pc : Dword),
    let c' := returnFromTrap { takeTrap c trapc tval pc c.regs.q with trapped := true }
    c'.regs.q = c.regs.q ∧ c'.regs.points = c.regs.points ∧ c'.trapped = false ∧ c'.regs.g = c.regs.g ∧ c'.regs.v = c.regs.v
      ∧ c'.regs.p = c.regs.p ∧ c'.regs.landings = c.regs.landings
      ∧ c'.resumeBreak = if trapc.extractLsb' 0 8 = 0x15 then some (Cl.ofCode (trapc.extractLsb' 8 2), pc) else c.resumeBreak

/-- R65, R154: MFC and MTC, and the causes of a number absent from the map, of a read-only register and of a refused TSHP; the first two
are decode's, which no guard turns off (R96, R115). -/
def Obligations.ControlRegisterMoves : Prop :=
  (∀ (s : State) (x : Ctx) (c : Common) (d : Reg) (num : BitVec 12), ctxOf s .s = some x → Clear x c → guardOn x c = true →
    let shape : Bool := 0x10 ≤ num.toNat && num.toNat < 0x18
    (∀ v, readCtl x.core x.tide num.toNat = some v →
        exec (.mfc c d num) s = .next (issued x c (landingG x d v 1) s)
        ∧ (ctlReadOnly num.toNat = false → (shape = false ∨ tshpOk (x.rg d) = true) →
            exec (.mtc c d num) s = .next (issued x c { x.core with atEnd := x.core.atEnd ++ [.ctl num (x.rg d)] } s))
        ∧ (ctlReadOnly num.toNat = true → exec (.mtc c d num) s = .next (caused x c { code := 0x16, tval := x.syl }))
        ∧ (shape = true → tshpOk (x.rg d) = false → exec (.mtc c d num) s = .next (caused x c { code := 0x08, tval := x.rg d })))
      ∧ (readCtl x.core x.tide num.toNat = none →
          exec (.mfc c d num) s = .next (caused x c { code := 0x01, tval := x.syl })
          ∧ exec (.mtc c d num) s = .next (caused x c { code := 0x01, tval := x.syl })))
  ∧ (∀ (s : State) (x : Ctx) (c : Common) (d : Reg) (num : BitVec 12), ctxOf s .s = some x → Clear x c → guardOn x c = false →
    let there := (readCtl x.core x.tide num.toNat).isSome
    (there = true → exec (.mfc c d num) s = .next (issued x c x.core s)
        ∧ exec (.mtc c d num) s
          = .next (if ctlReadOnly num.toNat then caused x c { code := 0x16, tval := x.syl } else issued x c x.core s))
      ∧ (there = false → ∀ i ∈ [Instr.mfc c d num, .mtc c d num], exec i s = .next (caused x c { code := 0x01, tval := x.syl })))

/-- R7, R64, R66: the map of control registers. A write to a register of the map that keeps a value of its own reads back without its
reserved bits and leaves every other register but PARKFREE; BND0 reads zero. -/
def Obligations.ControlRegisterMap : Prop :=
  ∀ (c : Core) (tide n m : Nat) (v : Dword),
    let ro : List Nat := [0x000, 0x001, 0x002, 0x003, 0x004, 0x050, 0x080, 0x081, 0x082, 0x083, 0x084, 0x085, 0x087, 0x090, 0x0C0]
    let rw : List Nat := (List.range 8).map (0x010 + ·) ++ (List.range 4).map (0x020 + ·) ++ (List.range 16).map (0x030 + ·)
      ++ [0x040, 0x041, 0x048, 0x049, 0x058, 0x060] ++ (List.range 8).map (0x068 + ·) ++ [0x070, 0x071, 0x072, 0x086, 0x0A0, 0x0A8, 0x0B0]
    let keeps (ns : List Nat) (mask : Dword) : Prop := ∀ r ∈ ns, readCtl (setCtlReg c r v) tide r = some (v &&& mask)
    ((readCtl c tide n).isSome ↔ n ∈ ro ++ rw) ∧ (n ∈ ro → ctlReadOnly n = true) ∧ (n ∈ rw → ctlReadOnly n = false)
      ∧ keeps ((List.range 8).map (0x010 + ·)) 0xFFFF03FF ∧ keeps ((List.range 4).map (0x020 + ·)) 0xFF
      ∧ keeps ((List.range 15).map (0x031 + ·) ++ [0x070, 0x071]) (BitVec.allOnes 64)
      ∧ keeps [0x040, 0x041, 0x048, 0x049, 0x060, 0x072] 0xFFFFFFFF ∧ keeps [0x058] 3
      ∧ keeps ((List.range 8).map (0x068 + ·)) 0xFFFFFFFF8000FFFF ∧ keeps [0x086] 0x800003FFFFFFFFFF
      ∧ keeps [0x0A0] 0x3FFFFFFF1F ∧ keeps [0x0A8, 0x0B0] 0x1F
      ∧ (n ∈ rw → m ≠ n → m ≠ 0x050 → readCtl (setCtlReg c n v) tide m = readCtl c tide m)
      ∧ readCtl (setCtlReg c 0x030 v) tide 0x030 = some 0 ∧ readCtl c tide 0x000 = some (BitVec.ofNat 64 tide)

/-! ## The privileged forms -/

/-- R350, R351, R352, R353, R153: on the harbourmaster. HRD and HWR act on the core that HSEL selected, HCMD posts a record of the
harbourmaster's memory or waits while the queue is full, HWAIT waits for a ticket, and TRET returns from a trap. That an HWR raises FORMAT
for a TSHP value that R56 refuses, and waits for the end of the cycle of a gang that is not held, is the model's choice (log 15, DEDUCED);
its queue and its memory are logs 5 and 16. -/
def Obligations.PrivilegedFormsOnTheHarbourmaster : Prop :=
  ∀ (s : State) (x : Ctx) (c : Common) (d a b : Reg), ctxOf s .s = some x → Clear x c → guardOn x c = true → x.hb = true →
    let n := ((x.rg b).extractLsb' 0 12).toNat
    let sel := s.gangs.findSome? fun g => (g.cores.findIdx? fun q => q.num == s.harbour.selected).map fun i => (⟨g.id, i⟩ : CoreId)
    let read : Dword := match sel.bind (getMember s) with
      | some (g, core) => (readCtl core g.tide n).getD 0
      | none => 0
    let waits : State := putCore x s { x.core with regs := { x.core.regs with sNext := x.tide + 1 } }
    exec (.hsel c a) s = .next (issued x c x.core { s with harbour := { s.harbour with selected := (x.rg a).toNat % 1024 } })
      ∧ ((readCtl x.core x.tide n).isSome → (d = 0 ∨ Room x) → exec (.hrd c d b) s = .next (issued x c (landingG x d read 4) s))
      ∧ (readCtl x.core x.tide n = none → exec (.hrd c d b) s = .next (caused x c { code := 0x01, tval := x.syl })
          ∧ exec (.hwr c b a) s = .next (caused x c { code := 0x01, tval := x.syl }))
      ∧ ((readCtl x.core x.tide n).isSome → n < 5 → exec (.hwr c b a) s = .next (caused x c { code := 0x16, tval := x.syl }))
      ∧ (0x10 ≤ n → n < 0x18 → tshpOk (x.rg a) = false → exec (.hwr c b a) s = .next (caused x c { code := 0x08, tval := x.rg a }))
      ∧ ((readCtl x.core x.tide n).isSome → 5 ≤ n → (0x10 ≤ n → n < 0x18 → tshpOk (x.rg a) = true) →
          exec (.hwr c b a) s = .next (issued x c x.core (match sel with
            | some k => modGang s k.gang fun g => modCore g k.idx fun core =>
                if g.hold.active = [] then { core with atEnd := core.atEnd ++ [.ctl (BitVec.ofNat 12 n) (x.rg a)] }
                else setCtlReg core n (x.rg a)
            | none => s)))
      ∧ ((x.rg a).toNat % 64 ≠ 0 → exec (.hcmd c d a) s = .next (caused x c { code := 0x0B, tval := x.rg a }))
      ∧ ((x.rg a).toNat % 64 = 0 → 64 ≤ (s.tickets.filter fun t => t.acked.isNone).length → exec (.hcmd c d a) s = .next waits)
      ∧ ((x.rg a).toNat % 64 = 0 → (s.tickets.filter fun t => t.acked.isNone).length < 64 →
          let dw (i : Nat) : Dword := BitVec.ofNat 64 (cle s.harbour.mem ((x.rg a).toNat + 8 * i) 8)
          exec (.hcmd c d a) s = .next (issued x c (landingG x d (BitVec.ofNat 64 s.nextTicket) 1)
            (postCmd s ⟨dw 0, dw 1, dw 2, dw 3, dw 4, dw 5, dw 6, dw 7⟩ false).2))
      ∧ (∀ t, s.tickets.find? (fun t => t.num == (x.rg a).toNat) = some t → s.nextTicket ≤ (x.rg a).toNat + 256 →
          (∀ v, t.acked = some v → exec (.hwait c d a) s = .next (issued x c (landingG x d v 1) s))
          ∧ (t.acked = none → exec (.hwait c d a) s = .next waits))
      ∧ (s.tickets.find? (fun t => t.num == (x.rg a).toNat) = none ∨ (x.rg a).toNat + 256 < s.nextTicket →
          exec (.hwait c d a) s = .next (issued x c (landingG x d 0xFF 1) s))
      ∧ (s.harbour.handler = true →
          exec (.tret c) s = .next (issued x c (returnFromTrap x.core) { s with harbour := { s.harbour with handler := false } }))
      ∧ (s.harbour.handler = false → exec (.tret c) s = .next (issued x c x.core (match sel with
            | some k => modGang s k.gang fun g =>
                let g := modCore g k.idx fun core => if core.trapped then returnFromTrap core else core
                if g.cores.any (·.trapped) then g
                else { g with hold := { g.hold with active := g.hold.active.filter fun q => q.cause != 5 } }
            | none => s)))

/-- R95, R119, R153: a core of a gang refuses each of them; the opcodes 0x1F0 to 0x1FF already at decode, whatever their other fields. -/
def Obligations.PrivilegedFormsOnACore : Prop :=
  ∀ (s : State) (x : Ctx) (c : Common) (d a b : Reg), ctxOf s .s = some x → Clear x c → guardOn x c = true → x.hb = false →
    (∀ i ∈ [Instr.hsel c a, .hrd c d b, .hwr c b a, .hcmd c d a, .hwait c d a, .tret c],
      exec i s = .next (caused x c { code := 0x16, tval := x.syl }))
      ∧ ∀ w : Syl, 0x1F0 ≤ w.op.toNat → decodeSyl false .s w none = .error .illegalPriv

/-! ## Accesses of the S cluster -/

/-- R132, R133, R136, R137, R139, R140, R144, R148, R149: the access joins its queues with the slot found on its issue cycle, to be
performed L cycles on; it changes no byte of memory itself. An STL's scope is no lower than its slot's. -/
def Obligations.ScalarAccessesJoinTheQueues : Prop :=
  ∀ (s : State) (x : Ctx) (c : Common) (d a b e : Reg) (sc : Scope) (ty : Fmt) (off : BitVec 16) (op : AtomOp),
    ctxOf s .s = some x → Clear x c → guardOn x c = true →
    let n := fmtWidth ty / 8
    let ea := x.rg a + off.signExtend 64 * BitVec.ofNat 64 n
    let entry (p : Page) (ea : Dword) (what : AccOp) (rd wr : Bool) (lat : Nat) : Access :=
      { serial := s.serial, op := what, cl := .s, pc := x.pc, issued := x.tide, due := x.tide + lat, inLoad := rd, inStore := wr
        spots := [{ slot := p.slot, bit := 8 * (ea.toNat % 4096), code := p.code, vba := (ea >>> 12) }]
        voidMode := x.ctl.voidmode.getLsbD 0 }
    let next (core : Core) : Host.Outcome State Fault Refusal := .next (issued x c core { s with serial := s.serial + 1 })
    let fits (wr : Bool) : Prop := wr = true → x.hb = false → LogRoom x 1
    (∀ p lat, Reached x ea n true false p lat → (d = 0 ∨ Room x) →
        exec (.ld c d a ty off) s = next (joins x (entry p ea (.load d ty) true false lat))
        ∧ exec (.lda c d a sc ty off) s = next (joins x { entry p ea (.load d ty) true false lat with acquire := true }))
      ∧ (∀ p lat, Reached x ea n false true p lat → fits true →
          exec (.st c d a ty off) s = next (joins x (entry p ea (.store ty (x.rg d)) false true lat))
          ∧ exec (.stl c d a sc ty off) s = next (joins x { entry p ea (.store ty (x.rg d)) false true lat with
              release := some (scopeMax sc (slotScope x.core.num p.slot)) }))
      ∧ (∀ p lat, Reached x (x.rg a) n true true p lat → (d = 0 ∨ Room x) →
          exec (.amo c d a b op ty) s = next (joins x (entry p (x.rg a) (.amo d op ty (x.rg b)) true true lat))
          ∧ exec (.cas c d a b e ty) s = next (joins x (entry p (x.rg a) (.cas d ty (x.rg b) (x.rg e)) true true lat)))
      ∧ (∀ p lat, Reached x (x.rg a) 4 true false p lat →
          exec (.waitp c a b) s
            = next (joins x { entry p (x.rg a) (.waitp ((x.rg b).setWidth 32)) true false 1 with acquire := true }))
      ∧ exec (.qmark c) s = next { x.core with accesses := x.core.accesses ++
          [{ serial := s.serial, op := .marker, cl := .s, spots := [], pc := x.pc, issued := x.tide, due := x.tide
             inLoad := true, inStore := true, voidMode := x.ctl.voidmode.getLsbD 0 }] }
      ∧ ((d = 0 ∨ Room x) → exec (.fence c d sc) s = next { x.core with fences := x.core.fences ++
          [{ serial := s.serial, d := d, scope := sc, issued := x.tide, pc := x.pc
             due := x.tide + (match sc with | .core => 2 | .quad => 24 | .pkg => 96 | .sys => 96) }] })

/-- R133: the reach of an S access by its slot and the route, and what is never reached. R133, R134, R137: the first cause that
stands in an S access's way, in R76's order, which begins with a load's seventeenth landing (R62), and the access that the log has no
room for. A store stands for the writes and a load for the reads. -/
def Obligations.ScalarTargets : Prop :=
  (∀ (s : State) (g : Gang) (own core i q k : Nat),
    let mine := quadOf (own % 32) (own / 32)
    let route (a b : Nat) : Nat :=
      if a = b then 0
      else if s.routes.getLsbD (pairIndex a b) || g.desc.route.getLsbD (pairIndex (quadRank g a) (quadRank g b)) then 36 else 18
    reachLat s g own 6 (.berth own i) = some 6
      ∧ (core ≠ own → reachLat s g own 6 (.berth core i) = some (40 + route mine (quadOf (core % 32) (core / 32))))
      ∧ reachLat s g own 6 (.quay q i) = some (30 + route mine q) ∧ reachLat s g own 6 (.hbm k i) = some 600
      ∧ reachLat s g own 6 (.tile core i) = none ∧ reachLat s g own 6 (.far i) = none
      ∧ (∀ a b, a < 16 → b < 16 → pairIndex a b = pairIndex b a)
      ∧ ∀ a b a' b', a < b → b < 16 → a' < b' → b' < 16 → pairIndex a b < 120 ∧ (pairIndex a b = pairIndex a' b' → a = a' ∧ b = b'))
  ∧ (∀ (s : State) (x : Ctx) (c : Common) (d a : Reg) (ty : Fmt) (off : BitVec 16),
    ctxOf s .s = some x → Clear x c → guardOn x c = true → x.hb = false →
    let n := fmtWidth ty / 8
    let ea := x.rg a + off.signExtend 64 * BitVec.ofNat 64 n
    let vba : Dword := ea >>> 12
    let load (q : Cause) : Prop := (d = 0 ∨ Room x) → exec (.ld c d a ty off) s = .next (caused x c q)
    let both (q : Cause) : Prop := load q ∧ exec (.st c d a ty off) s = .next (caused x c q)
    let miss : Cause := { code := 0x04, tval := BitVec.ofNat 64 x.g.tide }
    (d ≠ 0 → 16 ≤ x.core.pending → exec (.ld c d a ty off) s = .next (caused x c miss))
      ∧ (∀ q, translate s x.g x.k.idx (ea.extractLsb' 12 52) = .error q → both q)
      ∧ ∀ p, translate s x.g x.k.idx (ea.extractLsb' 12 52) = .ok p →
        let mine := ownBerth x.core.num p.slot
        let sq := match fmtOfByte p.code with | some f => f.isSq | none => true
        (x.slack = false → mine = false → both miss)
          ∧ (x.slack = true → reachLat s x.g x.core.num 6 p.slot = none →
              load { code := 0x07, tval := vba, never := true }
              ∧ exec (.st c d a ty off) s = .next (caused x c { code := 0x07, tval := vba, never := true }))
          ∧ ((x.slack = true ∨ mine = true) → (reachLat s x.g x.core.num 6 p.slot).isSome →
              (p.read = false → load { code := 0x07, tval := vba })
              ∧ (p.window = true → exec (.st c d a ty off) s = .next (caused x c { code := 0x07, tval := vba, never := true }))
              ∧ (p.window = false → (p.write = false ∨ p.cow = true) →
                  exec (.st c d a ty off) s = .next (caused x c { code := 0x07, tval := vba }))
              ∧ (p.read = true → p.write = true → p.cow = false → p.window = false →
                  (ea.toNat % n ≠ 0 → both { code := 0x0B, tval := ea })
                  ∧ (ea.toNat % n = 0 → sq = true → both { code := 0x08, tval := vba })
                  ∧ (ea.toNat % n = 0 → sq = false → ¬ LogRoom x 1 →
                      exec (.st c d a ty off) s = .next (caused x c { code := 0x11, tval := 1024 })))))

/-! ## Accesses performed at their ports -/

/-- R62, R135, R136: a load is performed in one step: it takes the element and lands it, extended by its type; a void block reads as zero in warn mode and raises VOID_READ otherwise; a damaged word raises POISON, a disagreeing format FORMAT. A load
performed before its cycle, for a later one of its buffer, keeps what it brings until then (log 81, DEDUCED). -/
def Obligations.ScalarReadsArePerformed : Prop :=
  ∀ (s : State) (k : CoreId) (g : Gang) (core : Core) (a : Access) (p : Spot) (rest : List Spot) (d : Reg) (ty : Fmt),
    getMember s k = some (g, core) → core.faults = [] → a.op = .load d ty → a.spots = p :: rest →
    hasLatent (rawBlock s.mem p.slot) = false →
    let n := fmtWidth ty / 8
    let b := getBlock s g.desc.owner p.slot
    let old := cle b (p.bit / 8) n
    let got (v : Nat) : Dword := match ty with
      | .i8 => (BitVec.ofNat 8 v).signExtend 64
      | .i32 => (BitVec.ofNat 32 v).signExtend 64
      | _ => BitVec.ofNat 64 v
    let lands (v : Nat) : Landing :=
      { dest := if d = 0 then .none else .g d, value := got v, due := g.tide, issued := a.issued, cl := a.cl, long := decide (d ≠ 0)
        pc := a.pc }
    let raises (code : BitVec 8) : State :=
      modMember s k fun core => { taken core a with raised := core.raised ++ [{ code := code, cl := a.cl, tval := p.vba, pc := a.pc }] }
    (g.tide < a.due → blkValid b = true → blockDisagrees p.code b = false → markedIn b (p.bit / 8) n = false →
        performAccess s g k a = modMember s k fun core => { taken core a with accesses := (taken core a).accesses ++
          [{ a with op := .result (lands old) none, left := some (accScope core.num a), inLoad := false, inStore := false
                    acquire := false, release := none }] })
      ∧ (a.due ≤ g.tide →
      (blkValid b = true → blockDisagrees p.code b = false → markedIn b (p.bit / 8) n = false →
        performAccess s g k a = modMember s k fun core => landed (taken core a) a (lands old))
      ∧ (blkValid b = true → blockDisagrees p.code b = true → performAccess s g k a = raises 0x08)
      ∧ (blkValid b = true → blockDisagrees p.code b = false → markedIn b (p.bit / 8) n = true → performAccess s g k a = raises 0x10)
      ∧ (blkValid b = false → a.voidMode = false → performAccess s g k a = raises 0x09)
      ∧ (blkValid b = false → a.voidMode = true →
          performAccess s g k a = modMember s k fun core => landed (setSeen (taken core a)) a (lands 0)))

/-- R137, R139, R140: a write of the core's own levels, by a store, an AMO or a CAS that finds its word equal. The word's old value,
the old generation and a void made valid are entered in the log. A read-modify-write that would take the 1,025th entry raises
UNDO_OVERFLOW and writes nothing; a CAS that finds its word unequal takes none. The landing of an AMO or a CAS is as a load's. That a
plain store's entry is kept free from its issue on is the model's choice (log 96, DESIGN CHOICE). -/
def Obligations.ScalarWritesArePerformed : Prop :=
  ∀ (s : State) (k : CoreId) (g : Gang) (core : Core) (a : Access) (p : Spot) (rest : List Spot) (d : Reg) (ty : Fmt) (v w : Dword)
      (op : AtomOp),
    getMember s k = some (g, core) → core.faults = [] → a.spots = p :: rest → slotPorted p.slot = false → a.committed = false →
    hasLatent (rawBlock s.mem p.slot) = false → a.due ≤ g.tide →
    let n := fmtWidth ty / 8
    let b := rawBlock s.mem p.slot
    let off := p.bit / 8
    let low (v : Dword) : Nat := v.toNat % 2 ^ fmtWidth ty
    let entry : LogCell :=
      { order := s.serial, entry := .word p.slot off n (cle b off n) (blkGen b) (!blkValid b) }
    let writes (new : Nat) (after : Core → Core) : State :=
      modMember { s with serial := s.serial + 1, mem := setRawBlock s.mem p.slot (cbelow (cputLe (openBlock b p.code) off n new) tagAt) } k
        fun core => after { taken core a with log := entry :: core.log, reserved := core.reserved - if a.inLoad then 0 else 1 }
    let room : Prop := core.log.length + core.reserved + (pendingSlots core).eraseDups.length + 1 ≤ 1024
    let full : State := modMember s k fun core =>
      { taken core a with raised := core.raised ++ [{ code := 0x11, cl := a.cl, tval := 1024, pc := a.pc }] }
    let lands (f : BitVec 5) : Landing :=
      { dest := if d = 0 then .none else .g d, value := extendElem ty (cle b off n), due := g.tide, issued := a.issued, cl := a.cl,
        flags := f, long := decide (d ≠ 0), pc := a.pc }
    let readable : Prop := blkValid b = true ∧ blockDisagrees p.code b = false ∧ markedIn b off n = false
    (a.op = .store ty v → performAccess s g k a = writes (low v) id)
      ∧ (a.op = .amo d op ty v → readable → a.inLoad = true →
          (room → performAccess s g k a = writes (atomCombine op ty (cle b off n) (low v)).1 fun core =>
            landed core a (lands (atomCombine op ty (cle b off n) (low v)).2))
          ∧ (¬ room → performAccess s g k a = full))
      ∧ (a.op = .cas d ty v w → readable → a.inLoad = true → cle b off n = low v →
          (room → performAccess s g k a = writes (low w) fun core => landed core a (lands 0))
          ∧ (¬ room → performAccess s g k a = full))
      ∧ (a.op = .cas d ty v w → readable → cle b off n ≠ low v →
          performAccess s g k a = modMember s k fun core => landed (taken core a) a (lands 0))

/-- R135, R275: a write to a block opens it: a void block becomes valid, of the page's format and generation 1, zero but for the
element; a valid block raises its generation. No other byte of the payload, no byte of the side record but the generation's two, and
no mark changes in a valid block. POISON stays. R139: op(old, operand) for the integer types and .swap, and .f32's minimum and maximum of R47 and
sum of IEEE 754. -/
def Obligations.WordsChangeInStorage : Prop :=
  (∀ (m : Cells) (sl : Slot) (code : Byte) (off n v o : Nat), off + n ≤ 4096 → o < 8192 → hasLatent (rawBlock m sl) = false →
    Memory.wf m = true →
    let b := rawBlock m sl
    let m' := setRawBlock m sl (writeElem b code off n v)
    let b' := rawBlock m' sl
    cle b' off n = v % 256 ^ n
      ∧ (blkValid b = true → (o < off ∨ off + n ≤ o) → (o < 4338 ∨ 4340 ≤ o) → cget b' o = cget b o)
      ∧ (blkValid b = true → blkGen b' = blkGen b + 1 ∧ blkValid b' = true ∧ blkFormat b' = blkFormat b)
      ∧ (blkValid b = false → blkGen b' = 1 ∧ blkValid b' = true ∧ blkFormat b' = code)
      ∧ blkPoison b' = blkPoison b
      ∧ (blkValid b = false → o < 4352 → (o < off ∨ off + n ≤ o) → (o < 4336 ∨ 4340 ≤ o) → cget b' o = 0)
      ∧ (∀ q, slotNumber q ≠ slotNumber sl → rawBlock m' q = rawBlock m q) ∧ Memory.wf m' = true)
  ∧ (∀ (old v : Nat), old < 2 ^ 32 → v < 2 ^ 32 →
    let a : Word := BitVec.ofNat 32 old
    let b : Word := BitVec.ofNat 32 v
    let gives (op : AtomOp) (ty : Fmt) (r : Word) : Prop := atomCombine op ty old v = (r.toNat, 0)
    (∀ ty ∈ [Fmt.i32, Fmt.n32],
        gives .add ty (a + b) ∧ gives .and ty (a &&& b) ∧ gives .or ty (a ||| b) ∧ gives .xor ty (a ^^^ b) ∧ gives .swap ty b)
      ∧ gives .min .i32 (if b.slt a then b else a) ∧ gives .max .i32 (if a.slt b then b else a)
      ∧ gives .min .n32 (if b < a then b else a) ∧ gives .max .n32 (if a < b then b else a) ∧ gives .swap .f32 b
      ∧ atomCombine .add .f32 old v = ((add32 .rne false a b).1.toNat, (add32 .rne false a b).2)
      ∧ (∀ c d : Dword, atomCombine .add .n64 c.toNat d.toNat = ((c + d).toNat, 0)
          ∧ atomCombine .min .i64 c.toNat d.toNat = ((if d.slt c then d else c).toNat, 0)
          ∧ atomCombine .max .n64 c.toNat d.toNat = ((if c < d then d else c).toNat, 0)))

/-- R148, R301: a WAITP whose word reads equal is done, and a hold of cause 4 on it ends; one that reads unequal, or a void block,
holds the gang's tide. R295, R298, R302, R375: an entry leaves its queue when no earlier one of that queue stands in it, no acquire
and no marker before it is there still and, for a release, no earlier load, no earlier write of its scope and, at system scope, no effect
released before it. A marker ends there, and an entry for a slot beyond core scope stands in the buffer of its scope, the last of it,
whence it is performed; one of core scope is performed as it leaves. On which cycle an entry leaves is the model's choice (log 81,
DEDUCED). R148, R301: a WAITP that holds the tide reads again. -/
def Obligations.EntriesAndHolds : Prop :=
  (∀ (s : State) (k : CoreId) (g : Gang) (core : Core) (a : Access) (p : Spot) (v : Word), getMember s k = some (g, core) →
    core.faults = [] → a.op = .waitp v → a.spots = [p] → hasLatent (rawBlock s.mem p.slot) = false → g.id = k.gang →
    let b := getBlock s g.desc.owner p.slot
    (blkValid b = true → blockDisagrees p.code b = false ∧ markedIn b (p.bit / 8) 4 = false) →
    let equal := blkValid b && cle b (p.bit / 8) 4 == v.toNat
    (equal = true → performAccess s g k a = modGang s g.id fun g =>
        { modCore g k.idx (fun c => taken c a) with
          hold := { g.hold with active := g.hold.active.filter fun c => !(c.cause == 4 && c.id == a.serial) } })
      ∧ (equal = false → (g.hold.active.any fun c => c.cause == 4 && c.id == a.serial) = true → performAccess s g k a = s)
      ∧ (equal = false → (g.hold.active.any fun c => c.cause == 4 && c.id == a.serial) = false →
          (performAccess s g k a).mem = s.mem
            ∧ ∀ g', getGang (performAccess s g k a) g.id = some g' → g'.claims 4 = true ∧ g'.cores = g.cores))
  ∧ (∀ (s : State) (k : CoreId) (g : Gang) (core : Core) (a : Access) (store : Bool) (sc : Scope), getMember s k = some (g, core) →
    let scope (c : Core) : Scope := a.spots.foldl (fun q p => scopeMax q (slotScope c.num p.slot)) .core
    let change (f : Access → Access) : State :=
      modMember s k fun c => { c with accesses := c.accesses.map fun e => if e.serial = a.serial then f e else e }
    let free (a : Access) : Prop :=
      a ∈ core.accesses ∧ a.left = none ∧ (∀ p ∈ core.outstanding, a.release = some .sys → a.issued < p.tide)
        ∧ ∀ e ∈ core.accesses, e.serial < a.serial → (∀ l q, e.op ≠ .result l q) → e.op ≠ .marker ∧ e.acquire = false
          ∧ (e.left = none → ¬(a.inLoad = true ∧ e.inLoad = true) ∧ ¬(a.inStore = true ∧ e.inStore = true))
          ∧ ∀ sc, a.release = some sc → e.inLoad = false
            ∧ (e.inStore = true → sc.code.toNat < (e.spots.foldl (fun q p => scopeMax q (slotScope core.num p.slot)) .core).code.toNat)
    (leaveReady g core store = some a →
        (free a ∧ (if store then a.inStore = true ∧ a.inLoad = false else a.inLoad = true) ∧ (a.spots = [] ∨ scope core ≠ .core))
        ∧ (a.op = .marker → exec (.queueLeave k store) s = .next (modMember s k fun c => taken c a))
        ∧ (a.op ≠ .marker → exec (.queueLeave k store) s = .next (modMember s k fun c =>
            { taken c a with accesses := (taken c a).accesses ++ [{ a with left := some (scope c) }] })))
      ∧ (bufferReady g k.idx core sc = some a → ∀ p rest, a.spots = p :: rest →
          let late := Config.hbmLate s.free
          a ∈ core.accesses ∧ a.arrived = true ∧ (a.left = some sc ∨ sc = .core ∧ free a ∧ scope core = .core)
          ∧ (∀ st i, p.slot = .hbm st i → a.served = false → a.due ≤ g.tide →
              (late = 0 → exec (.bufferPerform k sc) s
                = .next { change fun e => { e with served := true, arrived := true } with free := s.free + 1 })
              ∧ (late ≠ 0 → ∃ t, exec (.bufferPerform k sc) s = .next t ∧ t.mem = s.mem
                  ∧ (s.ptide + late, Instr.hbmPairArrival g.id a.serial) ∈ t.agenda
                  ∧ ∀ g', getGang t g.id = some g' → g'.claims 0 = true))
          ∧ ((∀ st i, p.slot = .hbm st i → a.served = true ∨ g.tide < a.due)
              → (∀ q b, quayBank p.slot = some (q, b) → asleep g q b = true → a.served = true)
              → (g.desc.pair = false ∨ slotPorted p.slot = false ∧ rest = [])
              → exec (.bufferPerform k sc) s = .next (performAccess s g k a))
          ∧ (∀ q b l bad, quayBank p.slot = some (q, b) → asleep g q b = true → a.served = false → a.op ≠ .result l bad →
              ∃ t, exec (.bufferPerform k sc) s = .next t ∧ t.mem = s.mem
                ∧ (∃ u, (u, Instr.bankWakeDone g.id q b) ∈ t.agenda ∧ s.ptide ≤ u ∧ (waking g q b = false → u = s.ptide + 24))
                ∧ ∀ g', getGang t g.id = some g' → g'.claims 1 = true))
      ∧ (waitingRead g core = some a → exec (.waitpReread k) s = .next (performAccess s g k a)))

/-! ## The V cluster -/

/-- R155, R158, R159: the FP32 forms, lane by lane under the guard, with the flags of the active lanes. That a form with no active lane
leaves a landing too is the model's choice (log 100, DESIGN CHOICE). -/
def Obligations.VectorFloatForms : Prop :=
  ∀ (s : State) (x : Ctx) (c : Common) (d a b e : Reg) (rnd : Rnd) (sat : Bool), ctxOf s .v = some x → Clear x c →
    let m := laneMask x c
    let abs (u : Word) : Word := u &&& 0x7FFFFFFF
    let keep (u r : Word) : Word × BitVec 5 := (if isNan32 u then 0x7FC00000 else r, 0)
    let gives (i : Instr) (lat : Nat) (f : Fin 128 → Word × BitVec 5) : Prop :=
      (lat = 1 ∨ Room x) → exec i s = .next (issued x c (landingV x d (lanesOf f) m lat (laneFlags f m)) s)
    let u (k : Fin 128) : Word := (x.rv a)[k]
    let v (k : Fin 128) : Word := (x.rv b)[k]
    let w (k : Fin 128) : Word := (x.rv e)[k]
    gives (.vadd c d a b rnd sat) 4 (fun k => add32 rnd sat (u k) (v k))
      ∧ gives (.vsub c d a b rnd sat) 4 (fun k => sub32 rnd sat (u k) (v k))
      ∧ gives (.vmul c d a b rnd sat) 4 (fun k => mul32 rnd sat (u k) (v k))
      ∧ gives (.vdiv c d a b) 12 (fun k => div32 (u k) (v k))
      ∧ gives (.vmin c d a b) 1 (fun k => min32 (u k) (v k)) ∧ gives (.vmax c d a b) 1 (fun k => max32 (u k) (v k))
      ∧ gives (.vcps c d a b) 1 (fun k => keep (u k) (abs (u k) ||| (v k &&& 0x80000000)))
      ∧ gives (.vsqrt c d a) 12 (fun k => sqrt32 (u k)) ∧ gives (.vrcp c d a) 8 (fun k => div32 0x3F800000 (u k))
      ∧ gives (.vrsq c d a) 8 (fun k => rsqrt32 (u k)) ∧ gives (.vexp2 c d a) 8 (fun k => exp232 (u k))
      ∧ gives (.vlog2 c d a) 8 (fun k => log232 (u k)) ∧ gives (.vabs c d a) 1 (fun k => keep (u k) (abs (u k)))
      ∧ gives (.vneg c d a) 1 (fun k => keep (u k) (u k ^^^ 0x80000000))
      ∧ gives (.vfma c d a b e rnd sat) 4 (fun k => fma32 rnd sat (u k) (v k) (w k))
      ∧ gives (.vfms c d a b e rnd sat) 4 (fun k => fma32 rnd sat (u k) (v k) (w k ^^^ 0x80000000))
      ∧ gives (.vfnma c d a b e rnd sat) 4 (fun k => fma32 rnd sat (u k ^^^ 0x80000000) (v k) (w k))

/-- R29, R160: the integer forms; R162 and R165 of the moves that go through v[d], R167's lane form, and R168. That a form with no active
lane leaves a landing too is the model's choice (log 100, DESIGN CHOICE). -/
def Obligations.VectorIntegerForms : Prop :=
  ∀ (s : State) (x : Ctx) (c : Common) (d a b : Reg) (n sat : Bool) (p : PReg) (ty src : Fmt) (rnd : Rnd), ctxOf s .v = some x →
    Clear x c →
    let m := laneMask x c
    let gives (i : Instr) (lat : Nat) (f : Fin 128 → Word × BitVec 5) : Prop :=
      (lat = 1 ∨ Room x) → exec i s = .next (issued x c (landingV x d (lanesOf f) m lat (laneFlags f m)) s)
    let u (k : Fin 128) : Word := (x.rv a)[k]
    let v (k : Fin 128) : Word := (x.rv b)[k]
    let int (w : Word) : Int := if n then (w.toNat : Int) else w.toInt
    let low : Int := if n then 0 else -(2 ^ 31)
    let high : Int := if n then 2 ^ 32 - 1 else 2 ^ 31 - 1
    let fit (i : Int) : Word × BitVec 5 :=
      if sat && decide (i < low) then (BitVec.ofInt 32 low, 4)
      else if sat && decide (high < i) then (BitVec.ofInt 32 high, 4) else (BitVec.ofInt 32 i, 0)
    gives (.viadd c d a b n sat) 1 (fun k => fit (int (u k) + int (v k)))
      ∧ gives (.visub c d a b n sat) 1 (fun k => fit (int (u k) - int (v k)))
      ∧ gives (.vimul c d a b n sat) 3 (fun k => fit (int (u k) * int (v k)))
      ∧ gives (.vimulh c d a b n) 3 (fun k => (if n
          then ((u k).setWidth 64 * (v k).setWidth 64).extractLsb' 32 32
          else ((u k).signExtend 64 * (v k).signExtend 64).extractLsb' 32 32, 0))
      ∧ gives (.vimin c d a b n) 1 (fun k => (if int (v k) < int (u k) then v k else u k, 0))
      ∧ gives (.vimax c d a b n) 1 (fun k => (if int (u k) < int (v k) then v k else u k, 0))
      ∧ gives (.vand c d a b n) 1 (fun k => (u k &&& v k, 0)) ∧ gives (.vor c d a b n) 1 (fun k => (u k ||| v k, 0))
      ∧ gives (.vxor c d a b n) 1 (fun k => (u k ^^^ v k, 0))
      ∧ gives (.vshl c d a b n) 1 (fun k => (u k <<< ((v k).toNat % 32), 0))
      ∧ gives (.vshr c d a b n) 1 (fun k => (u k >>> ((v k).toNat % 32), 0))
      ∧ gives (.vsar c d a b n) 1 (fun k => ((u k).sshiftRight ((v k).toNat % 32), 0))
      ∧ gives (.vpopc c d a) 1 (fun k => ((u k).cpop, 0))
      ∧ gives (.vsel c d a b p) 1 (fun k => (if (x.rp p).getLsbD k.val then u k else v k, 0))
      ∧ gives (.vmov c d a) 1 (fun k => (u k, 0))
      ∧ gives (.vbcst c d a ty) 1 (fun _ => (widen ty (x.rg a).toNat, 0))
      ∧ gives (.vperm c d a b) 2 (fun k => ((x.rv a)[(v k).toNat % 128]'(Nat.mod_lt _ (by decide)), 0))
      ∧ gives (.vrot c d a b) 2 (fun k => ((x.rv a)[(k.val + (x.rg b).toNat) % 128]'(Nat.mod_lt _ (by decide)), 0))
      ∧ gives (.vcvt c d a src rnd sat ty) 2 (fun k =>
          (laneForm ty (convert src ty rnd sat (u k).toNat).1, (convert src ty rnd sat (u k).toNat).2))

/-- R161 to R164: the forms that write a predicate, lane by lane under the guard. -/
def Obligations.PredicateForms : Prop :=
  ∀ (s : State) (x : Ctx) (c : Common) (d p q : PReg) (a b : Reg) (frel : FRel) (rel : Rel) (classes : BitVec 10),
    ctxOf s .v = some x → Clear x c →
    let m := laneMask x c
    let u (k : Fin 128) : Word := (x.rv a)[k]
    let v (k : Fin 128) : Word := (x.rv b)[k]
    let nan (k : Fin 128) : Bool := isNan32 (u k) || isNan32 (v k)
    let less (y z : Word) : Bool := numLt (num32 y) (num32 z)
    let equal (k : Fin 128) : Bool := !nan k && !less (u k) (v k) && !less (v k) (u k)
    let holds (k : Fin 128) : Bool := match frel with
      | .eq => equal k
      | .ne => !equal k
      | .lt => less (u k) (v k)
      | .le => less (u k) (v k) || equal k
      | .gt => less (v k) (u k)
      | .ge => less (v k) (u k) || equal k
      | .un => nan k
    let ordered : Bool := match frel with
      | .eq | .ne | .un => false
      | _ => true
    let intHolds (k : Fin 128) : Bool := match rel with
      | .eq => u k == v k
      | .ne => u k != v k
      | .lt => (u k).slt (v k)
      | .le => (u k).sle (v k)
      | .ltn => (u k).ult (v k)
      | .len => (u k).ule (v k)
    let ex (k : Fin 128) : Nat := (u k).toNat / 2 ^ 23 % 256
    let man (k : Fin 128) : Nat := (u k).toNat % 2 ^ 23
    let ispos (k : Fin 128) : Bool := (u k).toNat < 2 ^ 31
    let member (k : Fin 128) : Nat :=
      if ex k = 255 then (if man k = 0 then (if ispos k then 7 else 0) else if ispos k then 8 else 9)
      else if ex k = 0 then (if man k = 0 then (if ispos k then 4 else 3) else if ispos k then 5 else 2)
      else if ispos k then 6 else 1
    let gives (i : Instr) (r : Fin 128 → Bool) (flags : BitVec 5) : Prop :=
      ∃ z : Pred, (∀ k : Fin 128, z.getLsbD k.val = r k) ∧ exec i s = .next (issued x c (landingP x d z m flags) s)
    gives (.vcmp c d a b frel) holds (if ordered && (List.finRange 128).any fun k => m.getLsbD k.val && nan k then 1 else 0)
      ∧ gives (.vicmp c d a b rel) intHolds 0 ∧ gives (.vclass c d a classes) (fun k => classes.getLsbD (member k)) 0
      ∧ gives (.pand c d p q) (fun k => (x.rp p).getLsbD k.val && (x.rp q).getLsbD k.val) 0
      ∧ gives (.por c d p q) (fun k => (x.rp p).getLsbD k.val || (x.rp q).getLsbD k.val) 0
      ∧ gives (.pxor c d p q) (fun k => (x.rp p).getLsbD k.val != (x.rp q).getLsbD k.val) 0
      ∧ gives (.pnot c d p) (fun k => !(x.rp p).getLsbD k.val) 0

/-- R164, R165, R166, R46, R47: the forms that land a scalar: counts, one lane, and the reductions, an inactive lane giving the
identity; VINS writes one lane. -/
def Obligations.LaneToScalarForms : Prop :=
  ∀ (s : State) (x : Ctx) (c : Common) (d a b : Reg) (p : PReg), ctxOf s .v = some x → Clear x c →
    let m := laneMask x c
    let lane (n : Nat) (h : n < 128) : Word := (x.rv a)[n]
    let n := (x.rg b).toNat % 128
    let on (k : Nat) : Bool := (x.rp p).getLsbD k && m.getLsbD k
    let words (idn : Word) : List Word := (List.finRange 128).map fun k => if m.getLsbD k.val then (x.rv a)[k] else idn
    let lands (v : Dword) (f : BitVec 5) (lat : Nat) : Core :=
      if d = 0 then withLanding x.core { dest := .none, due := x.tide + lat, issued := x.tide, cl := .v, flags := f, long := false, pc := x.pc }
      else withLanding x.core { dest := .g d, value := v, due := x.tide + lat, issued := x.tide, cl := .v, flags := f, pc := x.pc }
    let gives (i : Instr) (v : Dword) (lat : Nat) : Prop :=
      (d = 0 ∨ Room x) → exec i s = .next (issued x c (landingG x d v lat) s)
    let reduces (i : Instr) (r : Word × BitVec 5) (lat : Nat) : Prop :=
      (d = 0 ∨ Room x) → exec i s = .next (issued x c (lands (r.1.setWidth 64) r.2 lat) s)
    let reducesInt (i : Instr) (v : Dword) (lat : Nat) : Prop := (d = 0 ∨ Room x) → exec i s = .next (issued x c (lands v 0 lat) s)
    gives (.pcnt c d p) (BitVec.ofNat 64 ((List.range 128).filter on).length) 2
      ∧ gives (.pfirst c d p) (BitVec.ofNat 64 (((List.range 128).filter on).headD 128)) 2
      ∧ (m.getLsbD n = true → gives (.vextr c d a b) ((lane n (Nat.mod_lt _ (by decide))).setWidth 64) 2)
      ∧ (m.getLsbD n = false → exec (.vextr c d a b) s = .next (issued x c x.core s))
      ∧ exec (.vins c d a b) s = .next (issued x c
          (landingV x d (Vector.replicate 128 ((x.rg a).setWidth 32)) (m &&& BitVec.ofNat 128 (2 ^ n)) 1 0) s)
      ∧ reduces (.vrsum c d a .f32) (tree128 (add32 .rne false) (words 0x80000000)) 10
      ∧ reducesInt (.vrsum c d a .i32) (((words 0).foldl (· + ·) 0).signExtend 64) 10
      ∧ reduces (.vrmax c d a .f32) (tree128 max32 (words 0xFF800000)) 6
      ∧ reduces (.vrmin c d a .f32) (tree128 min32 (words 0x7F800000)) 6
      ∧ reducesInt (.vrmax c d a .i32) (((words (BitVec.intMin 32)).foldl (fun y z => if y.slt z then z else y) (BitVec.intMin 32)).signExtend 64) 6
      ∧ reducesInt (.vrmin c d a .i32) (((words (BitVec.intMax 32)).foldl (fun y z => if z.slt y then z else y) (BitVec.intMax 32)).signExtend 64) 6
      ∧ reducesInt (.vrmax c d a .n32) (((words 0).foldl (fun y z => if y < z then z else y) 0).setWidth 64) 6
      ∧ reducesInt (.vrmin c d a .n32) (((words (BitVec.allOnes 32)).foldl (fun y z => if z < y then z else y) (BitVec.allOnes 32)).setWidth 64) 6
      ∧ reduces (.vramax c d a) (tree128 max32 ((words 0).map fun w => if isNan32 w then 0x7FC00000 else w &&& 0x7FFFFFFF)) 6

/-- R177: where a vector access may go, and its causes in R76's order; the page's format is untyped, T, or the .n8, .n16 or .n32 of T's
width. R176 to R178: VLD, VST, VLDG and VSTS join the queues, to be performed on the core's own berth; one of no active lane has no
effect, but that a VLD or a VST leaves the request that takes its time at the element port (log 93, DEDUCED, the model's choice). R62, R76:
a seventeenth pending landing stands before the causes of the target. R135, R137, R176 to R178: a vector load performed lands its lanes,
or raises the cause of its lowest faulting lane; a store takes one undo entry for each of its spots, writes the active lanes' elements,
the highest lane last, raises each block's generation once or opens it, and changes no other bit of a payload and no other slot. An
access performed before its cycle keeps what it brings until then (log 81, DEDUCED). -/
def Obligations.VectorAccesses : Prop :=
  (∀ (x : Ctx) (ty : Fmt) (bit count : Nat) (wr : Bool) (p : Page), bit < 2 ^ 67 →
    let ea : Dword := BitVec.ofNat 64 (bit / 8)
    let vba : Dword := ea >>> 12
    let w := fmtWidth ty
    let own := ownBerth x.core.num p.slot
    let rights := if wr then p.write && !p.cow && !p.window else p.read
    let aligned := (if w = 4 then bit % 8 = 0 else bit % w = 0) ∧ bit % 32768 + count * w ≤ 32768
    let takes := match fmtOfByte p.code with
      | some f => f = .untyped ∨ f = ty ∨ fmtWidth f = w ∧ f ∈ [Fmt.n8, .n16, .n32]
      | none => False
    ty.isSq = false →
    (∀ q, translate x.s x.g x.k.idx (ea.extractLsb' 12 52) = .error q → vTarget x ty bit count wr = .error q)
      ∧ (translate x.s x.g x.k.idx (ea.extractLsb' 12 52) = .ok p →
        (own = false → vTarget x ty bit count wr = .error { code := 0x07, tval := vba, never := true })
        ∧ (own = true → rights = false → ∃ never, vTarget x ty bit count wr = .error { code := 0x07, tval := vba, never := never })
        ∧ (own = true → rights = true → ¬aligned → vTarget x ty bit count wr = .error { code := 0x0B, tval := ea })
        ∧ (own = true → rights = true → aligned → ¬takes → vTarget x ty bit count wr = .error { code := 0x08, tval := vba })
        ∧ (own = true → rights = true → aligned → takes → vTarget x ty bit count wr = .ok ⟨p.slot, bit % 32768, p.code, vba⟩)))
  ∧ (∀ (s : State) (x : Ctx) (c : Common) (d a b : Reg) (ty : Fmt) (off : BitVec 16), ctxOf s .v = some x → Clear x c →
    let m := laneMask x c
    let w := fmtWidth ty
    let bit := ((8 * (x.rg a).toNat + off.toInt * w) % 2 ^ 67).toNat
    let laneBit (k : Fin 128) : Nat := (8 * (x.rg a).toNat + (x.rv b)[k].toNat * w) % 2 ^ 67
    let lanes := (List.finRange 128).filter fun k => m.getLsbD k.val
    let codes : Lanes := Vector.ofFn fun k => BitVec.ofNat 32 (storeCode ty (x.rv d)[k]).1
    let flags := laneFlags (fun k => (0, (storeCode ty (x.rv d)[k]).2)) m
    let entry (op : AccOp) (spots : List Spot) (wr : Bool) (lat : Nat) : Access :=
      { serial := s.serial, op := op, cl := .v, spots := spots, pc := x.pc, issued := x.tide, due := x.tide + lat, inLoad := !wr, inStore := wr
        voidMode := x.ctl.voidmode.getLsbD 0 }
    let next (core : Core) : Host.Outcome State Fault Refusal := .next (issued x c core { s with serial := s.serial + 1 })
    let holding (n : Nat) (a : Access) : Core := { x.core with accesses := x.core.accesses ++ [a], reserved := x.core.reserved + n }
    let masked (i : Instr) (wr : Bool) : Prop :=
      let p := portTime x (BitVec.ofNat 64 (bit / 8)) (16 * w) wr x.core
      exec i s = .next (issued x c p.1 p.2)
    (m = 0 → masked (.vld c d a ty off) false ∧ masked (.vst c d a ty off) true
        ∧ ∀ i ∈ [Instr.vldg c d a b ty, .vsts c d a b ty], exec i s = .next (issued x c x.core s))
      ∧ (m ≠ 0 → ¬Room x → ∀ i ∈ [Instr.vld c d a ty off, .vldg c d a b ty],
          exec i s = .next (caused x c { code := 0x04, tval := BitVec.ofNat 64 x.g.tide }))
      ∧ (m ≠ 0 → ∀ p, vTarget x ty bit 128 false = .ok p → Room x →
          exec (.vld c d a ty off) s = next (holding 0 (entry (.vload d ty m) [p] false 6)))
      ∧ (m ≠ 0 → ∀ p, vTarget x ty bit 128 true = .ok p → LogRoom x 1 →
          exec (.vst c d a ty off) s = next (holding 1 (entry (.vstore ty m codes flags) [p] true 6)))
      ∧ (m ≠ 0 → ∀ spots : List Spot, spots.map Except.ok = lanes.map (fun k => vTarget x ty (laneBit k) 1 false) → Room x →
          exec (.vldg c d a b ty) s = next (holding 0
            { entry (.vload d ty m) spots false (14 + gatherPenalty x ((List.finRange 128).map laneBit)) with served := true, gather := true }))
      ∧ (m ≠ 0 → ∀ spots : List Spot, spots.map Except.ok = lanes.map (fun k => vTarget x ty (laneBit k) 1 true) →
          LogRoom x lanes.length →
          exec (.vsts c d a b ty) s = next (holding lanes.length
            { entry (.vstore ty m codes flags) spots true (6 + gatherPenalty x ((List.finRange 128).map laneBit)) with served := true, gather := true })))
  ∧ (∀ (s : State) (k : CoreId) (g : Gang) (core : Core) (a : Access) (d : Reg) (ty : Fmt) (m : Pred) (codes : Lanes) (flags : BitVec 5),
    getMember s k = some (g, core) → core.faults = [] → (∀ p ∈ a.spots, slotPorted p.slot = false ∧ hasLatent (rawBlock s.mem p.slot) = false) →
    let w := fmtWidth ty
    let block (p : Spot) : Cells := rawBlock s.mem p.slot
    let lanes := (List.finRange 128).filter fun k => m.getLsbD k.val
    let placed : List (Fin 128 × Spot × Nat) :=
      if a.gather then (lanes.zip a.spots).map fun e => (e.1, e.2, e.2.bit)
      else match a.spots with | p :: _ => lanes.map fun k => (k, p, p.bit + w * k.val) | [] => []
    let bad (e : Fin 128 × Spot × Nat) : Option (BitVec 8 × Dword) :=
      let b := block e.2.1
      if blkValid b = false then (if a.voidMode then none else some (0x09, e.2.1.vba))
      else if blockDisagrees e.2.1.code b then some (0x08, e.2.1.vba)
      else if markedIn b (e.2.2 / 8) (if w < 8 then 1 else w / 8) then some (0x10, e.2.1.vba) else none
    let element (j : Fin 128) : Word := match placed.find? fun e => e.1 == j with
      | some e => widen ty (if blkValid (block e.2.1) then cbits (block e.2.1) e.2.2 w else 0)
      | none => 0
    let brings (l : Landing) (q : Option (BitVec 8 × Dword)) (c : Core) : Core :=
      if g.tide < a.due then { c with accesses := c.accesses ++
        [{ a with op := .result l q, left := some (accScope c.num a), inLoad := false, inStore := false, acquire := false, release := none }] }
      else match q with
        | some q => { c with raised := c.raised ++ [{ code := q.1, cl := a.cl, tval := q.2, pc := a.pc }] }
        | none => landed c a { l with due := g.tide }
    let empty : Landing := { dest := .none, due := g.tide, issued := a.issued, cl := a.cl, long := false, pc := a.pc }
    let size := if a.gather then (if w < 8 then 1 else w / 8) else 16 * w
    let entries : List LogCell := if a.committed then [] else a.spots.zipIdx.map fun p =>
      { order := s.serial + p.2
        entry := .word p.1.slot (p.1.bit / 8) size (cle (block p.1) (p.1.bit / 8) size) (blkGen (block p.1)) (!blkValid (block p.1)) }
    (a.op = .vload d ty m →
        (∀ q, placed.findSome? bad = some q →
          performAccess s g k a = modMember s k fun c => brings empty (some q) (taken c a))
        ∧ (placed.findSome? bad = none → performAccess s g k a = modMember s k fun c =>
            brings { empty with dest := .v d, lanes := Vector.ofFn element, mask := m, long := true } none
              (if a.spots.all fun p => blkValid (block p) then taken c a else setSeen (taken c a))))
      ∧ (a.op = .vstore ty m codes flags → Memory.wf s.mem = true →
          (∀ e ∈ placed, e.2.2 % w = 0 ∧ e.2.2 + w ≤ 32768) →
          (∀ p ∈ a.spots, ∀ q ∈ a.spots, slotNumber p.slot = slotNumber q.slot → p.slot = q.slot ∧ p.code = q.code) →
          ∃ mem : Cells,
            performAccess s g k a = modMember { s with serial := s.serial + entries.length, mem := mem } k (fun c =>
              let c := { taken c a with log := entries.reverse ++ c.log, reserved := c.reserved - entries.length }
              if g.tide < a.due then brings { empty with flags := flags } none c else { c with atEnd := c.atEnd ++ [.flags flags 0] })
            ∧ Memory.wf mem = true
            ∧ (∀ q, (∀ p ∈ a.spots, slotNumber q ≠ slotNumber p.slot) → rawBlock mem q = rawBlock s.mem q)
            ∧ ∀ p ∈ a.spots, let b := rawBlock mem p.slot
              Opened (block p) b p.code
              ∧ (∀ (i : Nat) e, placed[i]? = some e → e.2.1.slot = p.slot →
                  (∀ (j : Nat) f, i < j → placed[j]? = some f → f.2.1.slot = p.slot → f.2.2 ≠ e.2.2) →
                  cbits b e.2.2 w = codes[e.1].toNat % 2 ^ w)
              ∧ ∀ o, o < 32768 → (∀ e ∈ placed, e.2.1.slot = p.slot → o < e.2.2 ∨ e.2.2 + w ≤ o) →
                  cbit b o = (blkValid (block p) && cbit (block p) o)))

/-- R25, R27, R32, R33, R49: one rounding. Cutting m·2^e to a multiple of 2^q gives the nearest multiple, ties to even, or the one toward
or away from zero; a value that a format holds comes back unchanged with no flag; FP to integer rounds, then saturates. -/
def Obligations.RoundingIsExact : Prop :=
  (∀ (m : Nat) (e q : Int) (neg : Bool), e < q →
      let d := 2 ^ (q - e).toNat
      let near := roundAt .rne neg m e false q
      let down := roundAt .rz neg m e false q
      (2 * (near.1 * d) ≤ 2 * m + d ∧ 2 * m ≤ 2 * (near.1 * d) + d)
        ∧ ((2 * (near.1 * d) = 2 * m + d ∨ 2 * m = 2 * (near.1 * d) + d) → near.1 % 2 = 0)
        ∧ (near.2 = true ↔ m % d ≠ 0) ∧ down.1 = m / d
        ∧ (roundAt .rd neg m e false q).1 = (if neg then (m + d - 1) / d else m / d)
        ∧ (roundAt .ru neg m e false q).1 = (if neg then m / d else (m + d - 1) / d))
    ∧ (∀ (f : Fmt) (rnd : Rnd) (sat : Bool) (code : Nat), f ∈ [Fmt.f32, .bf16, .f16, .e4m3, .e5m2, .e2m1] → code < 2 ^ fmtWidth f →
        fpDecode f code ≠ .nan → roundNum f rnd sat (fpDecode f code) = (code, 0))
    ∧ (∀ (rnd : Rnd) (sat : Bool), roundNum .f32 rnd sat .nan = (0x7FC00000, 0) ∧ roundNum .bf16 rnd sat .nan = (0x7FC0, 0)
        ∧ roundNum .f16 rnd sat .nan = (0x7E00, 0) ∧ roundNum .e5m2 rnd sat .nan = (0x7E, 0) ∧ roundNum .e4m3 rnd sat .nan = (0x7F, 1)
        ∧ roundNum .e2m1 rnd sat .nan = (7, 1))
    ∧ (∀ (f : Fmt) (rnd : Rnd) (neg : Bool) (m : Nat) (e : Int), isInt f = true →
        let k := (roundAt rnd neg m e false 0).1
        let i : Int := if neg then -(k : Int) else k
        let r := numToInt f rnd (.fin neg m e)
        (i < intMin f → r = (intMin f, 1)) ∧ (intMax f < i → r = (intMax f, 1))
          ∧ (intMin f ≤ i → i ≤ intMax f → r.1 = i ∧ (r.2 = 0 ∨ r.2 = 16)))

/-- R57, R58, R170: a direction read of an accumulator delivers its raw cells, and one of a tile whose blocks are sound the elements of
its direction, zero beyond the shape, with L = 3. That a read with no active lane leaves a landing too is the model's choice (log 100,
DESIGN CHOICE). -/
def Obligations.DirectionReads : Prop :=
  ∀ (s : State) (x : Ctx) (c : Common) (d : Reg) (sp : Spec) (ty f : Fmt), ctxOf s .v = some x → Clear x c → Room x →
    let m := laneMask x c
    let idx := if sp.idx = 0 then 0 else x.rg (sp.idx.setWidth 6)
    let n := idx.toNat % 128
    let seg := idx.toNat / 128 % 4
    let lands (lanes : Lanes) (f : BitVec 5) : State := issued x c (landingV x d lanes m 3 f) s
    let cell (k : Fin 128) : Word :=
      let a := (x.core.acc[sp.num.toNat]?).getD (Vector.replicate 128 (Vector.replicate 128 0))
      let p : Nat × Nat := match sp.dir with
        | .col => (k.val, n)
        | .diag => (k.val, k.val)
        | _ => (n, k.val)
      (((a[p.1]?).getD (Vector.replicate 128 0))[p.2]?).getD 0
    let place (k : Nat) : Nat × Nat := match sp.dir with
      | .col => (k, n + 128 * seg)
      | .diag => (k, 128 * seg + k)
      | _ => (n, 128 * seg + k)
    let blocks := (List.range 8).map fun b => rawBlock s.mem (.tile x.core.num (8 * sp.num.toNat + b))
    let shape := x.ctl.tshp[sp.num.toNat]'(by have := sp.num.isLt; omega)
    let inside (k : Nat) : Bool := (place k).1 < tshpRows shape && (place k).2 < tshpCols shape f
    let element (k : Fin 128) : Word × BitVec 5 :=
      if m.getLsbD k.val && inside k.val then elemLane blocks f (place k.val).1 (place k.val).2 else (0, 0)
    (sp.acc = true → exec (.vmovDirRead c d sp ty) s = .next (lands (Vector.ofFn cell) 0))
      ∧ (sp.acc = false → tshpFmt shape = some f → f ≠ .i64 → f ≠ .n64 → (ty = .untyped ∨ ty = f) →
          (∀ b ∈ blocks, blkValid b = true ∧ blkFormat b ∈ [0, fmtByte f] ∧ hasLatent b = false ∧ ∀ w, blkMarked b w = false) →
          (∀ e ∈ dirWords x sp m, hasLatent (rawBlock s.mem e.1) = false) →
          ∃ lanes : Lanes, (∀ k : Fin 128, m.getLsbD k.val = true → lanes[k] = (element k).1)
            ∧ exec (.vmovDirRead c d sp ty) s = .next (lands lanes (laneFlags element m)))

/-- R31, R57, R58, R171, R173, R174: a direction write meets FORMAT at the lowest of its blocks whose own code disagrees, or checks, converts and lands the lanes whose element lies within the shape, or
raises BOUND with the first lane that a trapping limit stops. -/
def Obligations.DirectionWrites : Prop :=
  ∀ (s : State) (x : Ctx) (c : Common) (v : Reg) (sp : Spec) (rnd : Rnd) (sat : Bool) (ty f : Fmt) (bound : BitVec 4),
    ctxOf s .v = some x → Clear x c →
    let m := laneMask x c
    let shape := specShape x sp
    let idx := specIdx x sp
    let slots := (blocksIn shape f sp.dir idx m).map fun b => Slot.tile x.core.num (8 * sp.num.toNat + b)
    let w := writtenMask shape f sp.dir idx m
    let q := boundOf x.ctl bound.toNat
    let lane (k : Fin 128) : Word := (x.rv v)[k]
    let out (k : Fin 128) : Word × BitVec 5 × BitVec 32 × Bool := checkedLane q f rnd sat (lane k)
    let on := (List.finRange 128).filter fun k => w.getLsbD k.val
    let hits := on.foldl (fun a k => a ||| (out k).2.2.1) (0 : BitVec 32)
    (∀ k : Fin 128, w.getLsbD k.val = (m.getLsbD k.val && inShape shape f (dirElem false sp.dir idx k.val)))
      ∧ (m = 0 → exec (.vmovDirWrite c v sp rnd sat ty bound) s = .next (issued x c x.core s))
      ∧ (m ≠ 0 → Room x → tshpFmt shape = some f → f ≠ .i64 → f ≠ .n64 → f.isSq = false → (ty = .untyped ∨ ty = f) →
          (bound = 0 ∨ isFp f = true) → ∀ b, (blocksIn shape f sp.dir idx m).find? (fun b =>
            blockDisagrees (fmtByte f) (rawBlock s.mem (.tile x.core.num (8 * sp.num.toNat + b)))) = some b →
          exec (.vmovDirWrite c v sp rnd sat ty bound) s
            = .next (caused x c { code := 0x08, tval := BitVec.ofNat 64 (8 * sp.num.toNat + b) }))
      ∧ (m ≠ 0 → ¬Room x → exec (.vmovDirWrite c v sp rnd sat ty bound) s
          = .next (caused x c { code := 0x04, tval := BitVec.ofNat 64 x.g.tide }))
      ∧ (m ≠ 0 → Room x → tshpFmt shape = some f → dirWriteFormat x sp rnd sat ty bound v m = none →
          ((∀ k ∈ on, (out k).2.2.2 = false) → imageRoom x.core slots = none →
            exec (.vmovDirWrite c v sp rnd sat ty bound) s = .next (issued x c (withLanding x.core
              { dest := .tile sp idx shape, lanes := Vector.ofFn fun k => (out k).1, mask := w, due := x.tide + 3, issued := x.tide
                cl := .v, pc := x.pc, flags := on.foldl (fun a k => a ||| (out k).2.1) 0, hits := hits }) s))
          ∧ ∀ k, on.find? (fun k => (out k).2.2.2) = some k →
              exec (.vmovDirWrite c v sp rnd sat ty bound) s
                = .next (caused x c { code := 0x0A, tval := lane k ++ BitVec.ofNat 32 bound.toNat, hits := hits }))

/-- R174: the four modes of a bound check. R64, R175, R180, R181: VBND checks v[d] in place; VPARK takes the first free pair at the
end of its cycle, or misses; VUNPARK frees an occupied pair and lands its bytes. -/
def Obligations.BoundsAndParking : Prop :=
  (∀ (q : Bound) (w : Word), 0 < q.b → q.b < 16 → q.mode < 4 →
    let v := num32 w
    let low := num32 q.low
    let high := num32 q.high
    let within : Bool := !v.isNan && !low.isNan && !high.isNan && !numLt v low && !numLt high v
    let hit : BitVec 32 := BitVec.ofNat 32 (2 ^ q.b) ||| (if v.isNan then BitVec.ofNat 32 (2 ^ (16 + q.b)) else 0)
    (within = true ∨ q.mode = 0 → checkBound q w = (w, 0, false))
      ∧ (within = false → q.mode = 1 → checkBound q w = (w, hit, false))
      ∧ (within = false → q.mode = 2 → checkBound q w = (if numLt high v then q.high else q.low, hit, false))
      ∧ (within = false → q.mode = 3 → checkBound q w = (w, hit, true))
      ∧ checkBound { q with b := 0 } w = (w, 0, false))
  ∧ (∀ (s : State) (x : Ctx) (c : Common) (v : Reg) (sp : Spec) (bound : BitVec 4), ctxOf s .v = some x → Clear x c →
    let m := laneMask x c
    let q := boundOf x.ctl bound.toNat
    let lane (k : Fin 128) : Word := (x.rv v)[k]
    let on := (List.finRange 128).filter fun k => m.getLsbD k.val
    let hits := on.foldl (fun a k => a ||| (checkBound q (lane k)).2.1) (0 : BitVec 32)
    let shapeOf (t : Nat) : Dword := (x.ctl.tshp[t]?).getD 0
    let free (t m : Nat) : Bool := tshpRows (shapeOf t) ≤ 2 * m && !x.core.regs.park.getLsbD (64 * t + m)
    let pairs := (List.range 8).flatMap fun t => ((List.range 64).filter (free t)).map fun m => (t, m)
    let t := sp.num.toNat
    let n := (specIdx x sp).toNat % 128
    let miss : State := caused x c { code := 0x04, tval := BitVec.ofNat 64 x.g.tide }
    let sq : Bool := match tshpFmt (shapeOf t) with | some f => f.isSq | none => false
    let at_ (k : Nat) : Nat × Nat :=
      let row := n + k / 64
      let byte := 4 * (k % 64)
      if sq then (2 * (row / 32) + byte / 128, 128 * (row % 32) + byte % 128) else (row / 16, 256 * (row % 16) + byte)
    let block (b : Nat) : Cells := rawBlock s.mem (.tile x.core.num (8 * t + b))
    (bound = 0 → exec (.vbnd c v bound) s = .next (issued x c x.core s))
      ∧ (bound ≠ 0 → (∀ k ∈ on, (checkBound q (lane k)).2.2 = false) → exec (.vbnd c v bound) s = .next (issued x c (withLanding x.core
          { dest := .v v, lanes := Vector.ofFn fun k => (checkBound q (lane k)).1, mask := m, due := x.tide + 1, issued := x.tide
            cl := .v, hits := hits, long := false, pc := x.pc }) s))
      ∧ (bound ≠ 0 → ∀ k, on.find? (fun k => (checkBound q (lane k)).2.2) = some k → exec (.vbnd c v bound) s
          = .next (caused x c { code := 0x0A, tval := lane k ++ BitVec.ofNat 32 bound.toNat, hits := hits }))
      ∧ (pairs = [] → exec (.vpark c v) s = .next miss)
      ∧ (∀ t m rest, pairs = (t, m) :: rest → imageRoom x.core (pairSlots x t (2 * m) (laneMask x c)) = none → exec (.vpark c v) s
          = .next (issued x c { x.core with atEnd := x.core.atEnd ++ [.park t (2 * m) (x.rv v) (laneMask x c)] } s))
      ∧ ((n % 2 = 1 ∨ x.core.regs.park.getLsbD (64 * t + n / 2) = false) → exec (.vunpark c v sp) s = .next miss)
      ∧ (n % 2 = 0 → x.core.regs.park.getLsbD (64 * t + n / 2) = true → Room x →
          (∀ b < 8, hasLatent (block b) = false ∧ ∀ w, blkMarked (block b) w = false) →
          exec (.vunpark c v sp) s = .next (issued x c (withLanding { x.core with atEnd := x.core.atEnd ++ [.unpark (64 * t + n / 2)] }
            { dest := .v v, lanes := Vector.ofFn fun k => BitVec.ofNat 32 (cle (block (at_ k.val).1) (at_ k.val).2 4), mask := m
              due := x.tide + 3, issued := x.tide, cl := .v, pc := x.pc }) s)))

/-- R42, R169, R182, R183: the import of four MX squares (a NaN in a rounded row: log 86, DEDUCED), and the combine and the normalisation of attention triples. -/
def Obligations.TripleAndImportForms : Prop :=
  ∀ (s : State) (x : Ctx) (c : Common) (d a b : Reg) (src : Fmt) (col : Bool), ctxOf s .v = some x → Clear x c →
    x.core.pending < 15 →
    let m := laneMask x c
    let triple (a : Reg) : Triple := ⟨(x.rv a).toList, (x.rv (a + 1))[0], (x.rv (a + 1))[1]⟩
    let r := combineTriple (triple a) (triple b)
    let flags : BitVec 5 := (if m ≠ 0 then r.2.1 else 0) ||| (if m.getLsbD 1 then r.2.2.1 else 0)
      ||| (List.range 128).foldl (fun q k => if m.getLsbD k then q ||| (r.2.2.2[k]?).getD 0 else q) 0
    let top : Lanes := Vector.ofFn fun k => if k.val = 0 then r.1.m else if k.val = 1 then r.1.l else (x.rv (a + 1))[k]
    let land (d : Reg) (lanes : Lanes) (m : Pred) (f : BitVec 5) (lat : Nat) : Landing :=
      { dest := .v d, lanes := lanes, mask := m, due := x.tide + lat, issued := x.tide, cl := .v, flags := f, pc := x.pc }
    let l : Word := (x.rv (a + 1))[1]
    let masked : Bool := l == 0 || l == 0x80000000
    let quotient (k : Fin 128) : Word × BitVec 5 := if masked then (0, 0) else div32 (x.rv a)[k] l
    let quarter (q : Nat) := mxImport src col ((List.range 32).map fun i => (((x.rv a)[32 * q + i]?).getD 0, m.getLsbD (32 * q + i)))
    exec (.vtri c d a b) s = .next (issued x c (withLanding
        (withLanding x.core (land d (Vector.ofFn fun k => (r.1.o[k.val]?).getD 0) m flags 12)) (land (d + 1) top m 0 12)) s)
      ∧ exec (.vtrin c d a b) s = .next (issued x c (withLanding
          (withLanding x.core (land d (lanesOf quotient) m (laneFlags quotient m) 12))
          (land b (Vector.replicate 128 (if masked then 1 else 0)) (m &&& 1) 0 12)) s)
      ∧ exec (.vcvtMxImport c d a src col) s = .next (issued x c (withLanding x.core
          (land d (Vector.ofFn fun k => ((quarter (k.val / 32)).1[k.val % 32]?).getD 0) m
            ((quarter 0).2 ||| (quarter 1).2 ||| (quarter 2).2 ||| (quarter 3).2) 2)) s)

/-! ## The M cluster -/

/-- R184 to R188, R189, R192 to R195: a command issues on its stamp's cycle alone, with its unit free and its card's edges met, and
keeps its operands as they stand on that cycle; a guarded-off one takes unit and card and nothing else. That a late command which also
pops an empty FIFO gives its stamp in TVAL is the model's choice (log 103, DESIGN CHOICE). -/
def Obligations.MatrixCommandsIssue : Prop :=
  ∀ (s : State) (x : Ctx) (c : Common) (stamp : BitVec 36) (d a b : Spec) (vc : BitVec 2) (v g : Reg) (col max : Bool) (dr : Drain),
    ctxOf s .m = some x → Clear x c →
    let tile (t : Nat) : List Region := (List.range 8).map fun b => .slot (.tile x.core.num (8 * t + b))
    let n (sp : Spec) : Nat := sp.num.toNat
    let miss : State := caused x c { code := 0x04, tval := stamp.setWidth 64 }
    let commands : List (Instr × Fin 3 × List Region × List Region × Nat) :=
      [(.mma c stamp d a b vc, 0, tile (n a) ++ tile (n b), [.acc (n d)], 127),
       (.mmat c stamp d a b vc, 0, tile (n a) ++ tile (n b), [.acc (n d)], 127), (.mzero c stamp d, 1, [], [.acc (n d)], 15),
       (.macc c stamp d a, 1, [.acc (n a)], [.acc (n d)], 15), (.mscl c stamp d v col, 1, [.v v.toNat], [.acc (n d)], 15),
       (.mmsk c stamp d g, 1, [.g g.toNat], [.acc (n d)], 15), (.mtrn c stamp d a, 1, [.acc (n a)], [.acc (n d)], 15),
       (.mred c stamp v a max, 2, [.acc (n a)], [.v v.toNat], 23)]
        ++ [Instr.mdrn c stamp dr, .mdrnq c stamp dr].map fun i => (i, 2, [.acc (n dr.a)]
            ++ (match dr.res with | some t => tile (n t) | none => [])
            ++ (match dr.scl with | some v => [.v v.toNat, .v (v.toNat + 1)] | none => []), tile (n dr.d), 63)
    ∀ p ∈ commands,
      let cmd : MCmd := { instr := p.1, pc := x.pc, issued := x.tide, active := guardOn x c }
      let after (core : Core) (m : MCmd) : Host.Outcome State Fault Refusal :=
        .next (issued x c { core with
          cmds := core.cmds.set p.2.1 (some m)
          cards := core.cards ++ [{ reads := p.2.2.1, writes := p.2.2.2.1, first := x.tide, readEnd := x.tide, last := x.tide + p.2.2.2.2 }] } s)
      let due := x.g.phaseStart + stamp.toNat
      (x.tide < due → exec p.1 s = .next s) ∧ (due < x.tide → exec p.1 s = .next miss)
        ∧ (x.tide = due → x.core.cmds[p.2.1].isSome ∨ cardsMeet x.core p.2.2.1 p.2.2.2.1 x.tide = false → exec p.1 s = .next miss)
        ∧ (x.tide = due → x.core.cmds[p.2.1] = none → cardsMeet x.core p.2.2.1 p.2.2.2.1 x.tide = true →
          (guardOn x c = false → exec p.1 s = after x.core cmd)
          ∧ (guardOn x c = true → (p.1 = .mzero c stamp d → exec p.1 s = after x.core cmd)
            ∧ (p.1 = .macc c stamp d a ∨ p.1 = .mtrn c stamp d a →
                exec p.1 s = after x.core { cmd with accA := (x.core.acc[n a]?).getD (Vector.replicate 128 (Vector.replicate 128 0)) })
            ∧ (p.1 = .mscl c stamp d v col → exec p.1 s = after x.core { cmd with vecA := x.rv v })
            ∧ (p.1 = .mmsk c stamp d g → exec p.1 s = after x.core { cmd with g := x.rg g })
            ∧ (p.1 = .mred c stamp v a max → Room x →
                let row (k : Fin 128) : Word × BitVec 5 :=
                  tree128 (if max then max32 else add32 .rne false)
                    (((x.core.acc[n a]?).getD (Vector.replicate 128 (Vector.replicate 128 0)))[k]).toList
                exec p.1 s = after (withLanding x.core
                  { dest := .v v, lanes := Vector.ofFn fun k => (row k).1, mask := BitVec.allOnes 128, due := x.tide + 24
                    issued := x.tide, cl := .m, pc := x.pc, flags := (List.finRange 128).foldl (fun f k => f ||| (row k).2) 0 })
                  { cmd with accA := (x.core.acc[n a]?).getD (Vector.replicate 128 (Vector.replicate 128 0)) })))

/-- R189, R190, R195, R198: MMA, MMAT and the drains keep the tiles, shapes, counts, limits and seeds of their issue cycle. R31, R284: a
drain meets FORMAT at the lowest block of td to be written whose own code disagrees; that it does is the model's choice (log 97,
DEDUCED). -/
def Obligations.MatrixOperandsAreKept : Prop :=
  ∀ (s : State) (x : Ctx) (c : Common) (stamp : BitVec 36) (d a b : Spec) (vc : BitVec 2) (t : Bool) (dr : Drain) (quant : Bool),
    ctxOf s .m = some x → Clear x c → guardOn x c = true → x.tide = x.g.phaseStart + stamp.toNat →
    let shape (sp : Spec) : Dword := specShape x sp
    let blocks (sp : Spec) : List Cells := (List.range 8).map fun b => rawBlock s.mem (.tile x.core.num (8 * sp.num.toNat + b))
    let sound (f : Fmt) (l : List Cells) : Prop :=
      ∀ b ∈ l, blkValid b = true ∧ blkFormat b ∈ [0, fmtByte f] ∧ hasLatent b = false ∧ blkPoison b = false
    let count (v : Dword) : Nat := min 128 (v.toNat % 256)
    let wide : List Fmt := [.bf16, .f16]
    let narrow : List Fmt := [.e4m3, .e5m2, .sqe4m3, .sqe5m2, .sqi8]
    let pairs (fa fb : Fmt) : Prop := fa ∈ wide ∧ fb ∈ wide
      ∨ t = false ∧ (fa ∈ narrow ∧ fb ∈ narrow ∨ fa = .i8 ∧ fb = .i8 ∨ fa ∈ [Fmt.e2m1, .sqe2m1] ∧ fb ∈ [Fmt.e2m1, .sqe2m1])
    let i : Instr := if t then .mmat c stamp d a b vc else .mma c stamp d a b vc
    let j : Instr := if quant then .mdrnq c stamp dr else .mdrn c stamp dr
    let after (p : MPlan) (m : MCmd) : Host.Outcome State Fault Refusal :=
      .next (issued x c { x.core with
        cmds := x.core.cmds.set p.unit (some m)
        cards := x.core.cards ++ [{ reads := p.reads, writes := p.writes, first := x.tide, readEnd := x.tide, last := x.tide + p.last }] } s)
    let p := mmaPlan d a b x
    let q := drainPlan dr x
    (∀ fa fb, tshpFmt (shape a) = some fa → tshpFmt (shape b) = some fb →
        x.core.cmds[p.unit] = none → cardsMeet x.core p.reads p.writes x.tide = true →
        (pairs fa fb → sound fa (blocks a) → sound fb (blocks b) → (∀ e ∈ mmaWords i a b vc t x, hasLatent (rawBlock s.mem e.1) = false) →
          exec i s = after p { instr := i, pc := x.pc, issued := x.tide, active := true, shapeA := shape a, shapeB := shape b
                               valid := count (x.ctl.vcnt[vc.toFin]), tileA := blocks a, tileB := blocks b })
        ∧ (¬pairs fa fb → ∃ t ∈ [a.num.toNat, b.num.toNat],
            exec i s = .next (caused x c { code := 0x08, tval := BitVec.ofNat 64 (8 * t) })))
      ∧ (tshpFmt (shape dr.d) ≠ some dr.ty → x.core.cmds[q.unit] = none → cardsMeet x.core q.reads q.writes x.tide = true →
          exec j s = .next (caused x c { code := 0x08, tval := BitVec.ofNat 64 (8 * dr.d.num.toNat) }))
      ∧ (tshpFmt (shape dr.d) = some dr.ty → x.core.cmds[q.unit] = none → cardsMeet x.core q.reads q.writes x.tide = true →
          (∀ r, dr.res = some r → ∃ f, tshpFmt (shape r) = some f ∧ (isFp f = true ∨ f.isSq = true)) →
          let written := drainBlocks x.core.num dr.d.num.toNat (shape dr.d) dr.ty (count (x.ctl.vcnt[dr.vc.toFin]))
          let differs (b : Nat) : Bool :=
            let sl : Slot := .tile x.core.num (8 * dr.d.num.toNat + b)
            written.contains sl && blockDisagrees (fmtByte dr.ty) (rawBlock s.mem sl)
          (∀ b, (List.range 8).find? differs = some b →
            exec j s = .next (caused x c { code := 0x08, tval := BitVec.ofNat 64 (8 * dr.d.num.toNat + b) }))
          ∧ ((∀ b < 8, differs b = false) →
          (∀ r f, dr.res = some r → tshpFmt (shape r) = some f → sound f (blocks r)) →
          (∀ e ∈ drainWords dr x, hasLatent (rawBlock s.mem e.1) = false) →
          let vec (k : Nat) : Lanes := match dr.scl with
            | some v => (x.core.regs.v[v.toNat + k]?).getD (Vector.replicate 128 0)
            | none => Vector.replicate 128 0
          let m : MCmd :=
            { instr := j, pc := x.pc, issued := x.tide, active := true, shapeA := shape dr.d
              shapeB := (match dr.res with | some r => shape r | none => 0), accA := accOf x dr.a.num
              tileB := (match dr.res with | some r => blocks r | none => []), vecA := vec 0, vecB := vec 1
              valid := count (x.ctl.vcnt[dr.vc.toFin]), bnd := (x.ctl.bnd[dr.bound.toNat]?).getD 0
              mode := (boundOf x.ctl dr.bound.toNat).mode, seed0 := x.ctl.seed0, seed1 := x.ctl.seed1, dropp := x.ctl.dropp }
          (isIntDrain dr.ty = true ∨ ∀ i j, i < drainRows m.shapeA m.valid → j < drainCols m.shapeA dr.ty →
              (checkBound (drainBound m dr) (drainY m dr i j).1).2.2 = false) →
          imageRoom x.core written = none →
          exec j s = after q m))

/-- R185, R190, R192, R193, R196, R197, R200, R201, R202, R266: one cycle of a command's timetable. Rows 8t to 8t + 7 of an accumulator
command, k-step t of an MMA, rows 2t and 2t + 1 of an MDRN, strip q of an MDRNQ on cycle 16q + 15, each with the flags of what it
computed; on the last cycle the flags join FPCSR and the unit is free. A drain opens each block once, keeps its before-image, joins the
tile summary of what it writes there, and leaves every other bit of the block and every other slot; without room for the before-image
it raises UNDO_OVERFLOW and writes nothing on that cycle. When an MDRNQ writes the zeros of unused side bytes (log 27, DEDUCED) and how the
summary is joined within the drain (log 28, DEDUCED) are the model's choices. -/
def Obligations.MatrixCommandsStep : Prop :=
  ∀ (s : State) (k : CoreId) (g : Gang) (core : Core) (u : Fin 3) (m : MCmd), getMember s k = some (g, core) → core.cmds[u] = some m →
    core.faults = [] →
    let t := m.step
    let cell (a : Acc) (i j : Nat) : Word := (((a[i]?).getD (Vector.replicate 128 0))[j]?).getD 0
    let old (d : Spec) : Acc := (core.acc[d.num.toNat]?).getD (Vector.replicate 128 (Vector.replicate 128 0))
    let orOf (rows cols : Nat) (f : Nat → Nat → BitVec 5) : BitVec 5 :=
      (List.range rows).foldl (fun a i => (List.range cols).foldl (fun a j => a ||| f i j) a) 0
    let moved (c : Core) (f : BitVec 5) (h : BitVec 32) : Core :=
      if t + 1 < mSteps m.instr then
        { c with cmds := core.cmds.set u (some { m with step := t + 1, flags := m.flags ||| f, hits := m.hits ||| h }) }
      else orBndlog (orFpcsr { c with cmds := core.cmds.set u none } (m.flags ||| f)) (m.hits ||| h)
    let put (d : Spec) (a : Acc) : Core :=
      { core with acc := vmod core.acc d.num.toNat fun _ => a, accWritten := core.accWritten ||| BitVec.ofNat 4 (2 ^ d.num.toNat) }
    let unit (d : Spec) (f : Nat → Nat → Word → Word × BitVec 5) : Prop :=
      ∃ a : Acc, (∀ i j, i < 128 → j < 128 →
            cell a i j = if 8 * t ≤ i ∧ i < 8 * t + 8 then (f i j (cell (old d) i j)).1 else cell (old d) i j)
        ∧ exec (.mCommandStep k u.val) s
          = .next (modMember s k fun _ => moved (put d a) (orOf 8 128 fun i j => (f (8 * t + i) j (cell (old d) (8 * t + i) j)).2) 0)
    let fits : Prop := ∀ sl ∈ stepSlots core m, imagedIn core.log sl = true ∨ images core < 64 ∧ core.log.length + core.reserved < 1024
    let opened (sl : Slot) : Bool := (stepSlots core m).contains sl
    let kept (sl : Slot) : Nat := if opened sl && !imagedIn core.log sl then 1 else 0
    let after (mem : Cells) (sl : Slot) (f : BitVec 5) (h : BitVec 32) : State :=
      modMember { s with serial := s.serial + kept sl, mem := mem } k fun _ => moved { core with
        log := List.replicate (kept sl) { order := s.serial, entry := .image sl (rawBlock s.mem sl) false } ++ core.log } f h
    let frame (mem : Cells) (sl : Slot) (written : Nat → Prop) : Prop :=
      let b := rawBlock s.mem sl
      let b' := rawBlock mem sl
      Memory.wf mem = true ∧ (∀ q, slotNumber q ≠ slotNumber sl → rawBlock mem q = rawBlock s.mem q)
        ∧ (opened sl = true ∨ blkValid b = true → blkValid b' = true) ∧ blkPoison b' = blkPoison b
        ∧ blkGen b' = (if opened sl then if blkValid b then blkGen b + 1 else 1 else blkGen b)
        ∧ ∀ o, o < 8 * 4320 → ¬written o → cbit b' o = (cbit b o && (blkValid b || !opened sl))
    (m.active = false → exec (.mCommandStep k u.val) s = .next (modMember s k fun _ => moved core 0 0))
      ∧ (¬fits → exec (.mCommandStep k u.val) s = .next (modMember s k fun _ =>
          moved { core with raised := core.raised ++ [{ code := 0x11, cl := .m, tval := 1024, pc := m.pc }] } 0 0))
      ∧ (m.active = true →
        (∀ c st d, m.instr = .mzero c st d → unit d fun _ _ _ => (0, 0))
        ∧ (∀ c st d a, m.instr = .macc c st d a → unit d fun i j w => add32 .rne false w (cell m.accA i j))
        ∧ (∀ c st d v col, m.instr = .mscl c st d v col →
            unit d fun i j w => mul32 .rne false w ((m.vecA[if col then j else i]?).getD 0))
        ∧ (∀ c st d r, m.instr = .mmsk c st d r → unit d fun _ j w => (if m.g.toInt ≤ j then 0xFF800000 else w, 0))
        ∧ (∀ c st d a, m.instr = .mtrn c st d a → unit d fun i j _ => (cell m.accA j i, 0))
        ∧ (∀ c st v a mx, m.instr = .mred c st v a mx →
            exec (.mCommandStep k u.val) s = .next (modMember s k fun _ => moved core 0 0))
        ∧ (∀ c st d a b vc (tr : Bool), m.instr = (if tr then .mmat c st d a b vc else .mma c st d a b vc) →
            ∀ fa fb, tshpFmt m.shapeA = some fa → tshpFmt m.shapeB = some fb →
            let n := mmaDims m fa fb tr
            let terms := ((List.range n.g).map (n.g * t + ·)).filter fun q => q < n.k
            let right (q j : Nat) : Nat × Nat := if tr then (q, j) else (j, q)
            let next (i j : Nat) (w : Word) : Word × BitVec 5 :=
              if n.rows ≤ i ∨ n.cols ≤ j then (w, 0)
              else if fa = .i8 then (intCell w (terms.map fun q =>
                (intDecode .i8 (elemCode m.tileA fa i q), intDecode .i8 (elemCode m.tileB fb (right q j).1 (right q j).2))), 0)
              else macCell w (terms.map fun q => (elemNum m.tileA fa i q, elemNum m.tileB fb (right q j).1 (right q j).2))
            ∃ a : Acc, (∀ i j, i < 128 → j < 128 → cell a i j = (next i j (cell (old d) i j)).1)
              ∧ exec (.mCommandStep k u.val) s
                = .next (modMember s k fun _ => moved (put d a) (orOf n.rows 128 fun i j => (next i j (cell (old d) i j)).2) 0))
        ∧ (∀ c st dr, m.instr = .mdrn c st dr → tshpFmt m.shapeA = some dr.ty → tshpOk m.shapeA = true → dr.ty.isSq = false →
            let sl : Slot := .tile core.num (8 * dr.d.num.toNat + t / 8)
            let rows := ((List.range 2).map (2 * t + ·)).filter fun i => i < drainRows m.shapeA m.valid
            let w := fmtWidth dr.ty
            let each := rows.flatMap fun i => (List.range (drainCols m.shapeA dr.ty)).map fun j => (i, j)
            (rows = [] → exec (.mCommandStep k u.val) s = .next (modMember s k fun _ => moved core 0 0))
              ∧ (rows ≠ [] → fits → Memory.wf s.mem = true → ∃ mem : Cells,
                exec (.mCommandStep k u.val) s = .next (after mem sl
                  (each.foldl (fun f e => f ||| (drainElem m dr e.1 e.2).2.2.1) 0) (each.foldl (fun f e => f ||| (drainElem m dr e.1 e.2).2.2.2) 0))
                ∧ frame mem sl (fun o => ∃ e ∈ each, (elemLoc dr.ty e.1 e.2).2 ≤ o ∧ o < (elemLoc dr.ty e.1 e.2).2 + w)
                ∧ (∀ e ∈ each, cbits (rawBlock mem sl) (elemLoc dr.ty e.1 e.2).2 w = (drainElem m dr e.1 e.2).1 % 2 ^ w)
                ∧ ∃ l : List Word, Summary (each.map fun e => (drainElem m dr e.1 e.2).2.1) l
                  ∧ readSummary (rawBlock mem sl) = if t % 8 = 0 then l else joinSummary (readSummary (rawBlock s.mem sl)) l))
        ∧ (∀ c st dr, m.instr = .mdrnq c st dr →
            let n := drainRows m.shapeA m.valid
            let q := t / 16
            (t % 16 ≠ 15 ∨ n ≤ 32 * q → exec (.mCommandStep k u.val) s = .next (modMember s k fun _ => moved core 0 0))
            ∧ (t % 16 = 15 → 32 * q < n → fits → tshpFmt m.shapeA = some dr.ty → tshpOk m.shapeA = true → dr.ty.isSq = true →
                let sl : Slot := .tile core.num (8 * dr.d.num.toNat + 2 * q)
                Memory.wf s.mem = true →
                let cols := drainCols m.shapeA dr.ty
                let y (i j : Nat) : Word := if i < n then (checkBound (drainBound m dr) (drainY m dr i j).1).1 else 0
                ∃ (mem : Cells) (f : BitVec 5),
                  exec (.mCommandStep k u.val) s = .next (after mem sl
                    (f ||| orOf 32 cols fun i j => if 32 * q + i < n then (drainY m dr (32 * q + i) j).2 else 0)
                    ((List.range 32).foldl (fun a i => (List.range cols).foldl (fun a j => a |||
                      if 32 * q + i < n then (checkBound (drainBound m dr) (drainY m dr (32 * q + i) j).1).2.1 else 0) a) 0))
                  ∧ frame mem sl (fun o => (∃ i j, i < 32 ∧ j < cols ∧ (elemLoc dr.ty (32 * q + i) j).2 ≤ o
                        ∧ o < (elemLoc dr.ty (32 * q + i) j).2 + fmtWidth dr.ty)
                      ∨ 8 * 4096 ≤ o ∧ (o < 8 * (4096 + 28 * (cols / 32)) ∨ dr.ty ≠ .sqe2m1 ∧ 8 * (4096 + 112) ≤ o))
                  ∧ (dr.ty ≠ .sqe2m1 → ∀ o, 4096 + 112 ≤ o → o < 4320 → cget (rawBlock mem sl) o = 0)
                  ∧ (∃ fl : Nat → BitVec 5, (∀ b, b < cols / 32 →
                        Fitted dr.ty (fun i j => y (32 * q + i) (32 * b + j)) (rawBlock mem sl) (4096 + 28 * b)
                          (fun i j => (elemLoc dr.ty (32 * q + i) (32 * b + j)).2) (fl b))
                      ∧ f = (List.range (cols / 32)).foldl (fun a b => a ||| fl b) 0)
                  ∧ Summary ((List.range (cols / 32)).flatMap fun b => (List.range 32).flatMap fun i => (List.range 32).map fun j =>
                      num32 (y (32 * q + i) (32 * b + j))) (readSummary (rawBlock mem sl)))))

/-! ## The X cluster inside the package -/

/-- R207, R209, R213, R215, R219 to R223: an exchange issues when its channel is free, its card's edges are met, its span allows its
reach and no pair meets a cause; it then holds its pairs, its card to c + δ + β + 8n and its log entries, and its generators advance. A
guarded-off one takes channel and card, moves nothing and writes nothing (R82, R215); that its generators stay
is the model's choice (log 18, DEDUCED). -/
def Obligations.ExchangesIssue : Prop :=
  ∀ (s : State) (x : Ctx) (c : Common) (near : Near) (a far cnt : Reg) (gen : BitVec 2), ctxOf s .x = some x → Clear x c →
    ∀ p ∈ [(Instr.xch c near far cnt gen, near), (.xchs c near far cnt gen, near), (.xchg c a far cnt gen, .reg a),
           (.xchp c a far cnt gen, .reg a), (.xcht c a far cnt gen, .reg a), (.xtil c a far cnt gen, .reg a),
           (.xtilt c a far cnt gen, .reg a)],
      let on := guardOn x c
      let e := exchangeRecord x p.1 p.2 far cnt on
      let infos := (List.range e.n).map fun k =>
        pairInfo x (pairVbas e k (entriesAt s e k)).1 (pairVbas e k (entriesAt s e k)).2 (isUnit p.1)
      let base := infos.foldl (fun b q => max b q.base) 16
      let slots := infos.flatMap fun q => match q.slots with | some (u, v) => [Region.slot u, .slot v] | none => []
      let first := x.tide + e.delay
      let last := first + base + 8 * e.n
      let tables := findTables x x.core.regs.latch gen
      let gpos : Vector Nat 2 := match p.1 with
        | .xch .. => x.core.regs.gpos
        | _ => Vector.ofFn fun G : Fin 2 =>
            if on && gen.getLsbD G.val then (x.core.regs.gpos[G] + e.n) % genLength x.core.regs.latch G.val else x.core.regs.gpos[G]
      let miss : State := caused x c { code := 0x04, tval := BitVec.ofNat 64 x.g.tide }
      (on = true → exchangeForm x p.1 x.core.regs.latch gen = []) →
      (e.n ≠ 0 → x.core.channelFree ≤ first → (x.slack = true ∨ ∀ q ∈ infos, q.slack = false) →
          cardsMeet x.core slots slots x.tide = true →
          (on = true → (∀ t ∈ e.tables, inLog x.core.log t.2.1 = false) ∧ tables.2 = []
            ∧ (e.indirect = true ∨ (∀ q ∈ infos, q.causes = []) ∧ (isUnit p.1 = true → ∀ k q r, infos[k]? = some q →
                infos[k / e.size * e.size]? = some r → q.code = r.code ∧ unitSize q.code = some e.size))
            ∧ LogRoom x e.n ∧ ((∃ n f q g, p.1 = .xcht c n f q g) → e.n % e.size = 0)) →
          exec p.1 s = .next (issued x c
            { x.core with
              regs := { x.core.regs with gpos := gpos }
              cards := x.core.cards ++ [{ reads := slots, writes := slots, first := x.tide, readEnd := last, last := last, id := s.serial }]
              channelFree := first + 8 * e.n
              reserved := x.core.reserved + if on then e.n else 0
              exchs := x.core.exchs ++ [{ e with
                base := base
                judged := if e.indirect || (isPrune p.1 && on) then 0 else e.n
                pairs := if on then (if e.indirect then [] else infos.filterMap fun q => q.slots.map fun r => ⟨r.1, r.2, false, q.base, q.code⟩)
                  else infos.map (·.timed) }] }
            { s with serial := s.serial + 1 }))
        ∧ (e.n ≠ 0 → first < x.core.channelFree → exec p.1 s = .next miss)
        ∧ (x.slack = false → (∃ q ∈ infos, q.slack = true) → exec p.1 s = .next miss)
        ∧ (cardsMeet x.core slots slots x.tide = false → exec p.1 s = .next miss)
        ∧ (on = true → (∃ t ∈ e.tables, inLog x.core.log t.2.1 = true) → exec p.1 s = .next miss)
        ∧ (e.n = 0 → (on = true → tables.2 = [] ∧ (∀ t ∈ e.tables, inLog x.core.log t.2.1 = false) ∧ LogRoom x 0) →
            cardsMeet x.core [] [] x.tide = true →
            exec p.1 s = .next (issued x c { x.core with regs := { x.core.regs with gpos := gpos } } s))

/-- R207, R208, R209, R217, R223: the block sequence of an exchange, the reach and the base of a pair, and the swap cycles. R210,
R218, R220: pair k of an exchange that names an indirect dimension is translated and checked on its first channel cycle with the
entries that its tables gave; the pairs of a unit agree on one listed format and the exchange's U (R221); XCHP drops the pair whose bound and margin lie below its reference. -/
def Obligations.ExchangePairs : Prop :=
  (∀ (x : Ctx) (e : Exch) (k u v w side : Nat) (near far : Slot) (ent : Dword × Dword),
    let gen := genOf e.instr
    let own := x.core.num
    let offset (G p : Nat) : Int := (genOffset e.latch G p).1
    (genIndirect e.latch 0 = false → e.side = 0 →
        (pairVbas e k ent).2 = (e.far + (if gen.getLsbD 0 then BitVec.ofInt 64 (offset 0 (e.pos0 + k)) else BitVec.ofNat 64 k)).setWidth 52)
      ∧ (genIndirect e.latch 1 = false →
        (pairVbas e k ent).1 = (e.near + (if gen.getLsbD 1 then BitVec.ofInt 64 (offset 1 (e.pos1 + k)) else BitVec.ofNat 64 k)).setWidth 52)
      ∧ (u < side → v < side → w < e.size → partner side e.size ((u * side + v) * e.size + w) = (v * side + u) * e.size + w)
      ∧ (ownTile own near = true → ownBerth own far = true → pairReach x near far = some (16, false))
      ∧ (ownBerth own near = true → ownBerth own far = true → pairReach x near far = some (16, false))
      ∧ (ownBerth own near = true → ownBerth own far = false →
          pairReach x near far = (reachLat x.s x.g own 16 far).map fun l => (l, true))
      ∧ (ownBerth own near = false → ownBerth own far = false → pairReach x near far = none)
      ∧ (ownTile own near = false → ownBerth own near = false → pairReach x near far = none)
      ∧ swapCycle e k = e.issued + e.delay + e.base + 8 * (k + 1)
      ∧ ∀ (l : Vector Dword 8) (G p q : Nat), 0 < genLength l G → genOffset l G (p + genLength l G * q) = genOffset l G p)
  ∧ (∀ (s : State) (k : CoreId) (g : Gang) (core : Core) (e : Exch), getMember s k = some (g, core) →
    core.exchs.find? (fun q => q.serial == e.serial) = some e → e.judged < e.n →
    let x : Ctx := ⟨k, false, .x, g, core, s⟩
    let info := pairInfo x (pairVbas e e.judged e.entry).1 (pairVbas e e.judged e.entry).2 (isUnit e.instr)
    let change (f : Exch → Exch) (h : Core → Core) : State :=
      modMember s k fun c => h { c with exchs := c.exchs.map fun q => if q.serial = e.serial then f q else q }
    let first := ((e.pairs[e.judged / e.size * e.size]?).map (·.code)).getD info.code
    let whole : Prop := isUnit e.instr = true → info.code = first ∧ unitSize info.code = some e.size
    let skips (far : Slot) : Bool := isPrune e.instr && pruned (pruneBound s g e far) e.pmargin e.pruneref
    let drop (far : Slot) (c : Core) : Core := if skips far then { c with reserved := c.reserved - 1 } else c
    let raises (q : Cause) : State :=
      modMember s k fun c => { c with
        raised := c.raised ++ [{ code := q.code, cl := .x, tval := q.tval, pc := e.pc, never := q.never }]
        exchs := c.exchs.map fun r => if r.serial = e.serial then { r with stopped := true } else r }
    (e.active = false → exec (.exchangePairTranslate k e.serial) s = .next (change (fun q => { q with judged := q.judged + 1 }) id))
      ∧ (e.active = true → e.indirect = true → (info.slack = false ∨ x.slack = true) → e.entryBad = none → info.causes = [] →
          whole → ∀ a b, info.slots = some (a, b) → exec (.exchangePairTranslate k e.serial) s
            = .next (change (fun q => { q with pairs := q.pairs ++ [⟨a, b, skips b, info.base, info.code⟩], judged := q.judged + 1 }) (drop b)))
      ∧ (e.active = true → e.indirect = false → ∀ p, e.pairs[e.judged]? = some p → exec (.exchangePairTranslate k e.serial) s
            = .next (change (fun q => { q with pairs := q.pairs.modify e.judged (fun r => { r with skip := skips p.far })
                                               judged := q.judged + 1 }) (drop p.far)))
      ∧ (e.active = true → e.indirect = true → info.slack = true → x.slack = false →
          exec (.exchangePairTranslate k e.serial) s = .next (raises { code := 0x04, tval := BitVec.ofNat 64 g.tide }))
      ∧ (e.active = true → e.indirect = true → (info.slack = false ∨ x.slack = true) → e.entryBad = none →
          (info.slots = none ∨ whole) → ∀ q, firstCause info.causes = some q →
          exec (.exchangePairTranslate k e.serial) s = .next (raises q))
      ∧ (e.active = true → e.indirect = true → (info.slack = false ∨ x.slack = true) → e.entryBad = none → info.causes = [] →
          ¬whole → info.slots.isSome → exec (.exchangePairTranslate k e.serial) s
            = .next (raises { code := 0x08, tval := (pairVbas e e.judged e.entry).2.setWidth 64 }))
      ∧ (∀ b m r : Word, pruned b m r = (!isNan32 b && !isNan32 m && !isNan32 r && !(addNum .rne (num32 b) (num32 m)).1.isNan
          && numLt (addNum .rne (num32 b) (num32 m)).1 (num32 r))))

/-- R205, R211, R212, R213: a pair of a gang's primary core swaps in one step: each slot holds what the other held, payload, side
record and marks; no other slot changes; and the log takes one entry. R220: a pruned pair moves nothing. The exchange leaves after
its last pair. R221, R222, R224: a unit swaps in one step, pair by pair in ascending order, each side then transposed but in XTIL; it
takes an entry for each block.
Element (i, j) of a transposed unit is element (j, i) of the other, and the scale records change places with it, their row and column
micro-exponents exchanged (R37); an all-void side moves as voids. -/
def Obligations.SlotsSwap : Prop :=
  (∀ (s : State) (k : CoreId) (g : Gang) (core : Core) (e : Exch) (p : Pair), getMember s k = some (g, core) →
    core.exchs.find? (fun q => q.serial == e.serial) = some e → e.pairs[e.swapped]? = some p → isSecondary g k.idx = false →
    Memory.wf s.mem = true →
    let leaves (c : Core) : Core := { c with
      exchs := (c.exchs.map fun q => if q.serial = e.serial then { q with swapped := e.swapped + 1 } else q).filter fun q => q.swapped < q.n }
    (e.active = false ∨ p.skip = true → exec (.exchangePairSwap k e.serial) s = .next (modMember s k leaves))
      ∧ (e.active = true → p.skip = false → ∃ t, exec (.exchangePairSwap k e.serial) s = .next t
          ∧ (∀ q, slotNumber q ≠ slotNumber p.near → slotNumber q ≠ slotNumber p.far → rawBlock t.mem q = rawBlock s.mem q)
          ∧ (slotNumber p.near ≠ slotNumber p.far → hasLatent (rawBlock s.mem p.near) = false → hasLatent (rawBlock s.mem p.far) = false →
              (slotPorted p.far = false → slotPorted p.near = false → ∀ o < tagAt,
                cget (rawBlock t.mem p.near) o = cget (rawBlock s.mem p.far) o ∧ cget (rawBlock t.mem p.far) o = cget (rawBlock s.mem p.near) o)
              ∧ (slotPorted p.near = false → slotPorted p.far = true → storedTag (rawBlock s.mem p.far) = some (tagOf s g.desc.owner) →
                  ∀ o < tagAt, cget (rawBlock t.mem p.near) o = cget (rawBlock s.mem p.far) o
                    ∧ (o < 4340 ∨ 4344 ≤ o → cget (rawBlock t.mem p.far) o = cget (rawBlock s.mem p.near) o)))
          ∧ ∀ g' c', getMember t k = some (g', c') → c'.log = { order := s.serial, entry := .swap p.near p.far } :: core.log
              ∧ c'.reserved = core.reserved - 1 ∧ c'.exchs = (leaves core).exchs ∧ c'.regs = core.regs ∧ c'.acc = core.acc))
  ∧ ((∀ (s : State) (k : CoreId) (g : Gang) (core : Core) (e : Exch), getMember s k = some (g, core) →
      core.exchs.find? (fun q => q.serial == e.serial) = some e → isSecondary g k.idx = false →
      let l := (e.pairs.drop e.swapped).take e.size
      let past (c : Core) : Core := { c with
        exchs := (c.exchs.map fun q => if q.serial = e.serial then { q with swapped := e.swapped + e.size } else q).filter
          fun q => q.swapped < q.n }
      (e.active = false ∨ l.length < e.size → exec (.unitSwap k e.serial) s = .next (modMember s k past))
        ∧ (e.active = true → l.length = e.size → ∃ t, exec (.unitSwap k e.serial) s = .next t
            ∧ (Memory.wf s.mem = true → (∀ p ∈ l, hasLatent (rawBlock s.mem p.near) = false ∧ hasLatent (rawBlock s.mem p.far) = false) →
                t.mem = (swapUnits s g.desc.owner (l.map (·.near)) (l.map (·.far)) (unitCode e) (transposes e.instr)).mem)
            ∧ ∀ g' c', getMember t k = some (g', c') → c'.log.length = core.log.length + e.size ∧ c'.exchs = (past core).exchs
                ∧ c'.reserved = core.reserved - e.size))
    ∧ (∀ (s : State) (owner : BitVec 12) (code : Byte) (tr : Bool) (a b : List Slot), swapUnits s owner a b code tr
        = moveSide code tr owner (moveSide code tr owner ((a.zip b).foldl (fun s p => swapSlots s owner p.1 p.2) s) a) b)
    ∧ (∀ (code : Byte) (tr : Bool) (l : List Cells), (∀ b ∈ l, blkValid b = false) → moveUnit code tr l = l)
    ∧ (∀ (code : Byte) (l : List Cells), (∀ b ∈ l, blkValid b = true) → moveUnit code false l = l)
    ∧ (∀ (code : Byte) (l : List Cells) (i j : Nat), unitSize code = some l.length → (∀ b ∈ l, blkValid b = true) →
        let q := unitGeo code
        let edge := q.rows * l.length
        let l' := moveUnit code true l
        i < edge → j < edge →
        cbits (blockAt l' (unitLoc q i j).1) (unitLoc q i j).2 q.width = cbits (blockAt l (unitLoc q j i).1) (unitLoc q j i).2 q.width)
    ∧ (∀ (code : Byte) (l : List Cells) (f : Fmt) (i t k : Nat), unitSize code = some l.length → fmtOfByte code = some f → f.isSq = true →
        (∀ b ∈ l, blkValid b = true ∧ Memory.wf b = true) → i < l.length → t < l.length → k < 32 →
        let b' := blockAt (moveUnit code true l) i
        let b := blockAt l t
        let o := 4096 + 28 * t
        let p := 4096 + 28 * i
        sqE b' o = sqE b p ∧ sqR b' o k = sqC b p k ∧ sqC b' o k = sqR b p k))

/-- R216, R227 to R229, R232: XAGU latches the generators it names; XDROP and XTSTV of blocks of the core's own berth or tile file, by
their cards and latencies; XPEN joins the pennants, with the reach of a store; XWAKE and XDOZE change their bank's standing at the end of their cycle
(BanksAndLinks says how), and no bank where the gang has none. -/
def Obligations.LocalFormsIssue : Prop :=
  ∀ (s : State) (x : Ctx) (c : Common) (gen : BitVec 2) (near : Near) (a far : Reg), ctxOf s .x = some x → Clear x c →
    let on := guardOn x c
    let slots := (nearSlots x near true).1
    let tile := nearTile near
    let regions := slots.map Region.slot
    let lat := if tile then 2 else 6
    let dest := x.core.cards ++ [{ reads := regions, writes := [.g far.toNat], first := x.tide, readEnd := x.tide + lat - 1, last := x.tide + lat - 1 }]
    let drops : Core := { x.core with
      cards := x.core.cards ++ [{ reads := [], writes := regions, first := x.tide, readEnd := x.tide, last := x.tide + lat }]
      atEnd := x.core.atEnd ++ if on then [.drop slots (x.tide + lat)] else []
      reserved := x.core.reserved + if on then slots.length else 0 }
    let bank := gangBank x.g x.k.idx x.core.quad ((x.rg far).toNat % 64)
    (on = true → exec (.xagu c gen) s = .next (issued x c { x.core with regs := { x.core.regs with
          latch := Vector.ofFn fun i : Fin 8 => if gen.getLsbD (i.val / 4) then x.ctl.agud[i] else x.core.regs.latch[i]
          gpos := Vector.ofFn fun G : Fin 2 => if gen.getLsbD G.val then 0 else x.core.regs.gpos[G] } } s))
      ∧ (on = false → ∀ i ∈ [Instr.xagu c gen, .xwake c far, .xdoze c far], exec i s = .next (issued x c x.core s))
      ∧ (cardsMeet x.core [] regions x.tide = true → (on = true → (nearSlots x near true).2 = []
            ∧ LogRoom x slots.length
            ∧ images x.core + (pendingSlots x.core).eraseDups.length + slots.length ≤ 64) →
          exec (.xdrop c near) s = .next (issued x c drops (modGang s x.k.gang fun g => { g with dropPhase := true })))
      ∧ (cardsMeet x.core regions [.g far.toNat] x.tide = true → (on = true → (nearSlots x near false).2 = [] ∧ (far = 0 ∨ Room x)) →
          exec (.xtstv c near far) s = .next (issued x c (if on = true ∧ far ≠ 0
            then withLanding { x.core with cards := dest } { dest := .g far, due := x.tide + lat, issued := x.tide, cl := .x, pc := x.pc, test := slots }
            else { x.core with cards := dest }) s))
      ∧ (∀ p lat, Reached x (x.rg a) 4 false true p lat → x.hb = false → cardsMeet x.core [] [.slot p.slot] x.tide = true →
          (on = true → LogRoom x 1) →
          exec (.xpen c a far) s = .next (issued x c { x.core with
            reserved := x.core.reserved + if on then 1 else 0
            pens := x.core.pens ++ [{
              serial := s.serial, slot := p.slot, off := (x.rg a).toNat % 4096, value := (x.rg far).setWidth 32, code := p.code, pc := x.pc
              issued := x.tide, due := x.tide + lat, active := on
              served := (match p.slot with | .berth .. | .hbm .. => false | _ => true) }] } { s with serial := s.serial + 1 }))
      ∧ (on = true → bank = none → ∀ i ∈ [Instr.xwake c far, .xdoze c far], exec i s = .next (issued x c x.core s))
      ∧ (on = true → ∀ b, bank = some b →
          let ends (wake : Bool) : Core := { x.core with atEnd := x.core.atEnd ++ [.bank wake x.core.quad b] }
          exec (.xwake c far) s = .next (issued x c (ends true) s) ∧ exec (.xdoze c far) s = .next (issued x c (ends false) s))

/-- R230, R231, R232: a bank has woken or dozes; XNSEND's lanes reach the member one step away two cycles on, and XNRECV takes them on
that cycle alone; lanes that no XNRECV took raise SCHED_MISS there. That a wake of an awake bank takes back a doze that waits is the
model's choice (log 31, DEDUCED), and so is the instruction that the SCHED_MISS names (log 94, DEDUCED). -/
def Obligations.BanksAndLinks : Prop :=
  (∀ (s : State) (gang q b : Nat), exec (.bankWakeDone gang q b) s = .next (modGang s gang fun g => { g with
        drowsy := g.drowsy.filter (fun e => e != (q, b)), waking := g.waking.filter fun w => !(w.1 == q && w.2.1 == b)
        hold := { g.hold with active := g.hold.active.filter fun e => !(e.cause == 1 && e.id == 64 * q + b) } })
      ∧ exec (.bankDoze gang q b) s = .next (modGang s gang fun g =>
          if g.dozing.contains (q, b)
          then { g with drowsy := g.drowsy ++ [(q, b)], dozing := g.dozing.filter fun e => e != (q, b) } else g))
    ∧ (∀ (g : Gang) (q b tide : Nat), (wakeBank g q b tide
          = if g.drowsy.contains (q, b) && !(g.waking.any fun w => w.1 == q && w.2.1 == b)
            then { g with waking := g.waking ++ [(q, b, tide + 24)] } else { g with dozing := g.dozing.filter fun e => e != (q, b) })
        ∧ dozeBank g q b = if g.drowsy.contains (q, b) && !(g.waking.any fun w => w.1 == q && w.2.1 == b) || g.dozing.contains (q, b) then g
            else { g with dozing := g.dozing ++ [(q, b)] })
    ∧ (∀ (s : State) (x : Ctx) (c : Common) (sp : Spec) (d : Side), ctxOf s .x = some x → Clear x c →
      let on := guardOn x c
      let slots := (linkBlocks x sp).1
      let shape := specShape x sp
      let cardsOut := x.core.cards ++ [{ reads := slots.map .slot, writes := [], first := x.tide, readEnd := x.tide, last := x.tide }]
      let coreIn : Core := { x.core with
        cards := x.core.cards ++ [{ reads := [], writes := slots.map .slot, first := x.tide, readEnd := x.tide, last := x.tide + 2 }]
        links := x.core.links.filter fun l => !(l.side == d && l.due == x.tide) }
      let here := x.core.links.find? fun l => l.side == d && l.due == x.tide
      (cardsMeet x.core (slots.map .slot) [] x.tide = true →
          (on = false → exec (.xnsend c sp d) s = .next (issued x c { x.core with cards := cardsOut } s))
          ∧ (on = true → (linkBlocks x sp).2 = [] → (∀ e ∈ dirWords x sp (BitVec.allOnes 128), hasLatent (rawBlock s.mem e.1) = false) →
            ∀ lanes f, dirRead x sp (BitVec.allOnes 128) = .ok (lanes, f, false) →
            ∀ j, neighbour x.g x.k.idx x.core d = some j → exec (.xnsend c sp d) s
              = .next (issued x c { x.core with cards := cardsOut } (modMember s ⟨x.k.gang, j⟩ fun o => { o with links := o.links ++
                  [{ side := facing d, lanes := lanes, due := x.tide + 2 }] }))))
        ∧ (cardsMeet x.core [] (slots.map .slot) x.tide = true →
          (on = false → exec (.xnrecv c sp d) s = .next (issued x c coreIn s))
          ∧ (on = true → here = none → exec (.xnrecv c sp d) s = .next (caused x c { code := 0x04, tval := BitVec.ofNat 64 x.g.tide }))
          ∧ (on = true → (linkBlocks x sp).2 = [] → imageRoom x.core slots = none → Room x → ∀ l f, here = some l → tshpFmt shape = some f →
            let odd := (blocksIn shape f sp.dir (specIdx x sp) (BitVec.allOnes 128)).find? fun b =>
              blockDisagrees (fmtByte f) (rawBlock s.mem (.tile x.core.num (8 * sp.num.toNat + b)))
            (∀ b, odd = some b → exec (.xnrecv c sp d) s
              = .next (caused x c { code := 0x08, tval := BitVec.ofNat 64 (8 * sp.num.toNat + b) })) ∧ (odd = none →
            let m := writtenMask shape f sp.dir (specIdx x sp) (BitVec.allOnes 128)
            let one (k : Fin 128) : Nat × BitVec 5 := elemOfLane f .rne false l.lanes[k]
            exec (.xnrecv c sp d) s = .next (issued x c (withLanding coreIn
              { dest := .tile sp (specIdx x sp) shape, lanes := Vector.ofFn fun k => BitVec.ofNat 32 (one k).1, mask := m, due := x.tide + 3
                issued := x.tide, cl := .x, pc := x.pc, flags := laneFlags (fun k => (0, (one k).2)) m }) s)))))
    ∧ (∀ (s : State) (k : CoreId) (g : Gang) (core : Core), getMember s k = some (g, core) →
      let kept (c : Core) : Core := { c with links := c.links.filter fun l => g.tide < l.due }
      ((∀ l ∈ core.links, g.tide < l.due) → exec (.neighbourArrival k) s = .next (modMember s k kept))
        ∧ ((∃ l ∈ core.links, l.due ≤ g.tide) → exec (.neighbourArrival k) s = .next (modMember s k fun c => { kept c with
            raised := c.raised ++ [{ code := 0x04, cl := .x, tval := BitVec.ofNat 64 g.tide
                                     pc := ((c.issuedNow.find? fun i => i.cl == .x).map (·.pc)).getD c.regs.points[2].addr }] })))

/-- R225, R226: XFAR stages its exchange with its pennant; the released one swaps its next pair while its port is up, and the pennant
word is written after the last. -/
def Obligations.FarExchanges : Prop :=
  (∀ (s : State) (x : Ctx) (c : Common) (near far cnt : Reg), ctxOf s .x = some x → Clear x c → x.slack = true →
      let w := x.rg cnt
      let pen := x.core.regs.rgn (cnt.toNat + 1)
      let pairs := (farPairs x (x.rg near) (x.rg far) (w.toNat % 8192)).1
      let reads := pairs.flatMap fun p => [Region.slot p.1, Region.slot p.2]
      let card : Card := { reads := reads, writes := [], first := x.tide, readEnd := x.tide, last := x.tide, open_ := true, id := s.serial }
      cardsMeet x.core reads [] x.tide = true →
      (guardOn x c = false → exec (.xfar c near far cnt) s
          = .next (issued x c { x.core with cards := x.core.cards ++ [card] } { s with serial := s.serial + 1 }))
        ∧ (guardOn x c = true → x.core.standing.length < 4 → LogRoom x 1 →
            (farPairs x (x.rg near) (x.rg far) (w.toNat % 8192)).2 = [] → ∀ p, pennantPage x pen = (some p, []) →
            exec (.xfar c near far cnt) s = .next (issued x c { x.core with
                cards := x.core.cards ++ [card]
                log := { order := s.serial, entry := .staged (.far s.serial) [x.syl, x.rg near, x.rg far, w, pen] } :: x.core.log
                standing := x.core.standing ++ [{
                  serial := s.serial, pairs := pairs, value := w.extractLsb' 32 32, pennant := p.slot, penOff := pen.toNat % 4096
                  penCode := p.code }] } { s with serial := s.serial + 1 })))
    ∧ (∀ (s : State) (k : CoreId) (g : Gang) (core : Core) (t : Standing), getMember s k = some (g, core) →
      core.standing.find? (fun q => q.serial == t.serial) = some t → g.desc.pair = false →
      (farUp s t = false → exec (.xfarPairSwap k t.serial) s = .next s)
        ∧ (farUp s t = true → ∀ a b, t.pairs[t.next]? = some (a, b) → exec (.xfarPairSwap k t.serial) s
            = .next (let r := swapSlots s g.desc.owner a b
                let r := modMember r k fun c => { c with standing := c.standing.map fun q =>
                  if q.serial = t.serial then { q with next := q.next + 1 } else q }
                post { r with free := r.free + 1 } (Config.farTime r.free) (.xfarPairSwap k t.serial)))
        ∧ (farUp s t = true → t.pairs.length ≤ t.next → exec (.xfarPairSwap k t.serial) s
            = .next (modMember (putBlock s g.desc.owner t.pennant (writeElem (rawBlock s.mem t.pennant) t.penCode t.penOff 4 t.value.toNat)) k
                fun c => { c with standing := c.standing.filter fun q => q.serial != t.serial })))

/-! ## The X cluster outside the package -/

/-- R234, R236, R237, R240, R243 to R245, R249, R253: a fabric instruction other than XABORT issues in the slack span alone, with its
channel and its cards free; then its pages' rights, its capability and its allowance are checked in that order (the gang's sums, over the
same copy of a paired gang); it counts its blocks and stands in flight until it completes. The atomics and the kick stage an entry of the
log; XABORT raises WINDOW_ABORT in any span. A guarded-off one sends, stages and counts nothing. That near pages are checked on the issue
cycle is the model's choice (log 24, DEDUCED). -/
def Obligations.FabricFormsIssue : Prop :=
  ∀ (s : State) (x : Ctx) (c : Common) (near far cnt : Reg) (ch : BitVec 8) (rop : RedOp) (aop : AtomOp), ctxOf s .x = some x → Clear x c →
    let on := guardOn x c
    let e := capOf x.g ch.toNat
    let m := ((x.rg cnt).extractLsb' 0 13).toNat
    let core := x.core
    let t : State := modGang { s with serial := s.serial + 1 } x.k.gang fun g => { g with fabricPhase := true }
    let permitted (kinds : List Nat) (write : Bool) (blocks first : Nat) : Prop :=
      ch.toNat < x.ctl.capb.toNat ∧ capValid e = true ∧ capKind e ∈ kinds ∧ (if write then capWrite e else capRead e) = true
        ∧ (blocks = 0 ∨ first + blocks ≤ capCount e)
    let within (take : Nat) : Prop := take = 0 ∨ gangSent x.g (isSecondary x.g x.k.idx) ch.toNat + take ≤ capAllow e
    let allowed (kinds : List Nat) (write : Bool) (blocks first take : Nat) : Prop := permitted kinds write blocks first ∧ within take
    let miss : State := caused x c { code := 0x04, tval := BitVec.ofNat 64 x.g.tide }
    let sends : List Instr := [.xrch c near far cnt ch, .xrchc c near far cnt ch, .xred c near far cnt ch rop, .xtri c near far cnt ch]
    let returning : List Instr := [.xamor c near far ch aop, .xcas c near far cnt ch]
    let block := ((x.rg far).extractLsb' 12 52).toNat
    let op (i : Instr) (planned : Nat) (done : Bool) : FabOp :=
      { serial := s.serial, instr := i, pc := x.pc, issued := x.tide, planned := planned, active := on, ch := ch.toNat, n := 0
        chip := capChip e, base := capBase e, warn := warnMode core, done := done }
    let counted (n : Nat) : Core := if on then
      { core with sentOn := (ch.toNat, sentThrough core ch.toNat + n) :: core.sentOn.filter fun p => p.1 != ch.toNat } else core
    let flies (q : Core) (o : FabOp) : Core := { q with fabs := q.fabs ++ [o] }
    let logs (q : Core) (l : Staged) (regs : List Dword) : Core :=
      { q with log := { order := s.serial, entry := .staged l (x.syl :: regs) } :: q.log }
    let atom (kind : AtomKind) (swap : Dword) (dest : Reg) : Staged := .atom {
      kind := kind, chip := capChip e, source := s.chip, gang := x.k.gang, idx := x.k.idx, launch := x.g.desc.launch
      owner := x.g.desc.owner, gen := x.ctl.ensign.extractLsb' 0 8
      vba := BitVec.ofNat 52 (capBase e) + (x.rg far).extractLsb' 12 52, off := (x.rg far).extractLsb' 0 12
      operand := x.rg near, swap := swap, dest := dest, serial := s.serial } ch.toNat
    let dest : Card :=
      { reads := [], writes := [.g near.toNat], first := x.tide, readEnd := x.tide + 1, last := x.tide + 1, open_ := true, id := s.serial }
    let aborts : Prop := (on = false → exec (.xabort c ch) s = .next (issued x c (flies core (op (.xabort c ch) (x.tide + 1) true)) t))
      ∧ (on = true → allowed [0, 1, 2, 3, 4, 5] false 0 0 0 → exec (.xabort c ch) s = .next (caused x c { code := 0x0F, tval :=
          (ch.setWidth 64 <<< 16) ||| (match armedOn core ch.toNat with | some a => a.gen.setWidth 64 | none => 0) }))
    aborts ∧ (x.slack = false →
        ∀ i ∈ sends ++ returning ++ [Instr.xwin c far ch, .xcrck c far ch, .xamo c near far ch aop, .xkick c far ch], exec i s = .next miss)
    ∧ (x.slack = true → (m ≠ 0 → x.tide < core.channelFree → ∀ i ∈ sends, exec i s = .next miss)
      ∧ (on = true → 4 ≤ core.armed.length → exec (.xwin c far ch) s = .next miss)
      ∧ (on = true →
        (∀ p ∈ sends.zip [([0, 1, 2, 3], true), ([0, 1, 2, 3], true), ([4], false), ([4], false)],
          let slots := (fabNear x (remoteForm near far cnt x)).1.map fun b => Region.slot b.1
          (m = 0 ∨ core.channelFree ≤ x.tide) →
          (∀ k < m, ∃ g, x.page ((x.rg near + BitVec.ofNat 64 k).setWidth 52) = .ok g ∧ ownBerth core.num g.slot = true ∧ g.read = true
            ∧ (p.2.2 = true → g.write = true ∧ g.cow = false ∧ g.window = false)) →
          cardsMeet core slots (if p.2.2 then slots else []) x.tide = true →
          (p.2.2 = false → (armedOn core ch.toNat).isSome = true) →
          (¬permitted p.2.1 true m (x.rg far).toNat → exec p.1 s = .next (caused x c { code := 0x0C, tval := ch.setWidth 64 }))
            ∧ (permitted p.2.1 true m (x.rg far).toNat → ¬within m → exec p.1 s = .next (caused x c { code := 0x0D, tval := ch.setWidth 64 })))
        ∧ (∀ p ∈ returning.map (fun i => (i, [0, 1, 2], 1)) ++ [(Instr.xamo c near far ch aop, [0, 1, 2], 1), (.xkick c far ch, [5], 0)],
          (p.1 ∈ returning → cardsMeet core [] [.g near.toNat] x.tide = true) →
          (¬permitted p.2.1 true p.2.2 block → exec p.1 s = .next (caused x c { code := 0x0C, tval := ch.setWidth 64 }))
            ∧ (permitted p.2.1 true p.2.2 block → ¬within 1 → exec p.1 s = .next (caused x c { code := 0x0D, tval := ch.setWidth 64 })))
        ∧ (¬permitted [0, 1, 2, 3, 4, 5] false 0 0 → ∀ i ∈ [Instr.xcrck c far ch, .xabort c ch],
            exec i s = .next (caused x c { code := 0x0C, tval := ch.setWidth 64 }))
        ∧ (core.armed.length < 4 → ¬(permitted [4] false 0 0 ∧ ∃ d, x.g.windows[((x.rg far).extractLsb' 0 8).toNat]? = some d
              ∧ ((x.rg far).extractLsb' 42 22).toNat < d.contrib) →
            exec (.xwin c far ch) s = .next (caused x c { code := 0x0C, tval := ch.setWidth 64 })))
      ∧ (∀ p ∈ [(Instr.xrch c near far cnt ch, [0, 1, 2, 3], true), (.xrchc c near far cnt ch, [0, 1, 2, 3], true),
            (.xred c near far cnt ch rop, [4], false), (.xtri c near far cnt ch, [4], false)],
        let v (k : Nat) : BitVec 52 := (x.rg near + BitVec.ofNat 64 k).setWidth 52
        let blocks := (List.range m).filterMap fun k => match x.page (v k) with
          | .ok q => if ownBerth core.num q.slot then some (q.slot, q.code, (v k).setWidth 64) else none
          | .error _ => none
        let slots := blocks.map fun b => Region.slot b.1
        let planned := x.tide + 1024 + 8 * m
        let card : Card := { reads := slots, writes := if p.2.2 then slots else [], first := x.tide, readEnd := planned, last := planned
                             open_ := p.2.2 && m != 0, id := s.serial }
        let o : FabOp := { op p.1 planned (!on || m == 0) with n := m, near := blocks, first := (x.rg far).toNat }
        let q : Core := { counted m with
          cards := if blocks = [] then core.cards else core.cards ++ [card]
          channelFree := if m = 0 then core.channelFree else x.tide + 8 * m }
        (m = 0 ∨ core.channelFree ≤ x.tide) → cardsMeet core slots (if p.2.2 then slots else []) x.tide = true →
        (on = false → exec p.1 s = .next (issued x c (flies q o) t))
          ∧ (on = true → allowed p.2.1 true m (x.rg far).toNat m →
              (∀ k < m, ∃ g, x.page (v k) = .ok g ∧ ownBerth core.num g.slot = true ∧ g.read = true
                ∧ (p.2.2 = true → g.write = true ∧ g.cow = false ∧ g.window = false)) →
              (p.2.2 = true → exec p.1 s = .next (issued x c (flies q o) t))
                ∧ (p.2.2 = false → armedOn core ch.toNat = none →
                    exec p.1 s = .next (caused x c { code := 0x04, tval := BitVec.ofNat 64 x.g.tide }))
                ∧ (p.2.2 = false → ∀ a, armedOn core ch.toNat = some a →
                    exec p.1 s = .next (issued x c (flies { q with armed := core.armed.map fun r => if r.serial = a.serial
                        then { r with blocks := r.blocks ++ (List.range m).map ((x.rg far).toNat + ·) } else r }
                      { o with window := a.window, index := a.index, gen := a.gen }) t))))
      ∧ (on = false → ∀ p ∈ [(Instr.xwin c far ch, x.tide + 1024), (.xcrck c far ch, max (x.tide + 2) (lastChecked core)),
            (.xamo c near far ch aop, x.tide + 1), (.xkick c far ch, x.tide + 1)],
          exec p.1 s = .next (issued x c (flies core (op p.1 p.2 true)) t))
      ∧ (on = true → allowed [0, 1, 2, 3, 4, 5] false 0 0 0 →
          exec (.xcrck c far ch) s = .next (issued x c
              (flies (counted 0) { op (.xcrck c far ch) (max (x.tide + 2) (lastChecked core)) true with value := (x.rg far).setWidth 32 }) t))
      ∧ (on = true → allowed [4] false 0 0 0 → core.armed.length < 4 → ∀ d : WinDecl,
          let w := ((x.rg far).extractLsb' 0 8).toNat
          let index := ((x.rg far).extractLsb' 42 22).toNat
          let region : WinDecl := { (d : WinDecl) with vba := capBase e, count := capCount e, num := w }
          let msg := Instr.windowArmAtHome x.g.desc.launch x.g.desc.owner (x.ctl.ensign.extractLsb' 0 8) region index s.chip x.k ch s.serial
          x.g.windows[w]? = some d → index < d.contrib →
          exec (.xwin c far ch) s = .next (issued x c
            (flies { counted 0 with armed := core.armed ++
                [{ ch := ch.toNat, serial := s.serial, window := w, index := index, pc := x.pc }] }
              { op (.xwin c far ch) (x.tide + 1024) false with window := w, index := index })
            (if isSecondary x.g x.k.idx then t
             else if s.lostChips.contains (capChip e) ∨ s.lostTo.contains (x.g.desc.owner, capChip e) then
               post { t with free := t.free + 1 } (Config.fabricTime t.free) (.windowGenerationReturn x.k ch s.serial .refused)
             else if capChip e = s.chip then post { t with free := t.free + 1 } (Config.fabricTime t.free + routePause t s.chip) msg
             else { t with sent := t.sent ++ [.step (capChip e) msg] })))
      ∧ (∀ p ∈ [(Instr.xamor c near far ch aop, AtomKind.amo aop true, (0 : Dword), [x.rg near, x.rg far]),
              (.xcas c near far cnt ch, .cas, x.rg cnt, [x.rg near, x.rg far, x.rg cnt])],
          cardsMeet core [] [.g near.toNat] x.tide = true →
          (on = false → exec p.1 s = .next (issued x c (flies { core with cards := core.cards ++ [dest] } (op p.1 (x.tide + 1) true)) t))
            ∧ (on = true → LogRoom x 1 → allowed [0, 1, 2] true 1 ((x.rg far).extractLsb' 12 52).toNat 1 →
                exec p.1 s = .next (issued x c (flies (logs { counted 1 with cards := core.cards ++ [dest] } (atom p.2.1 p.2.2.1 near) p.2.2.2)
                  (op p.1 (x.tide + 1) true)) t)))
      ∧ (on = true → LogRoom x 1 → allowed [0, 1, 2] true 1 ((x.rg far).extractLsb' 12 52).toNat 1 →
          exec (.xamo c near far ch aop) s = .next (issued x c
            (flies (logs (counted 1) (atom (.amo aop false) 0 0) [x.rg near, x.rg far]) (op (.xamo c near far ch aop) (x.tide + 1) true)) t))
      ∧ (on = true → LogRoom x 1 → allowed [5] true 0 0 1 →
          exec (.xkick c far ch) s = .next (issued x c
            (flies (logs (counted 1) (.kick (x.rg far) (capChip e)) [x.rg far]) (op (.xkick c far ch) (x.tide + 1) true)) t)))

/-- R237, R240 to R243, R310: each near block is read and sent on its channel cycle; at the target the context, the page and the room decide,
and both copies wait in the landing buffers; a refusal fails the instruction with CHECKSUM, a full buffer with LANDING_OVERFLOW; XRCHC folds
the blocks in order, and XCRCK compares. R269: a request sent in a run of the phase that has been aborted is discarded. That the target
translates as member 0 would is the model's choice (log 23, DEDUCED). -/
def Obligations.FabricBlocksTravel : Prop :=
  (∀ (s : State) (k : CoreId) (g : Gang) (core : Core) (serial : Nat) (o : FabOp) (sl : Slot) (code : Byte) (v : Dword),
    getMember s k = some (g, core) → findFab core serial = some o → o.near[o.sent]? = some (sl, code, v) →
    hasLatent (rawBlock s.mem sl) = false → g.desc.pair = false → isSecondary g k.idx = false → s.inject.getLsbD 63 = false →
    let b := cbelow (rawBlock s.mem sl) tagAt
    let past (s : State) : State := modMember s k fun c => modFab c serial fun q => { q with sent := q.sent + 1 }
    let gives (op : Option RedOp) (d : Cells) : State := sendTo s o.chip
      (.windowContributionArrival ⟨g.desc.launch, g.desc.owner, core.regs.ctl.ensign.extractLsb' 0 8⟩ o.window o.gen o.index (o.first + o.sent) op d s.chip k serial)
    let raises (code : BitVec 8) : State :=
      modMember (past s) k fun c => { c with raised := c.raised ++ [{ code := code, cl := .x, tval := v, pc := o.pc }] }
    let contributes (op : Option RedOp) : Prop :=
      (blkValid b = true → markedIn b 0 4096 = false → exec (.nearBlockSnapshot k serial) s = .next (past (gives op b)))
        ∧ (blkValid b = true → markedIn b 0 4096 = true → exec (.nearBlockSnapshot k serial) s = .next (raises 0x10))
        ∧ (blkValid b = false → o.warn = false → exec (.nearBlockSnapshot k serial) s = .next (raises 0x09))
        ∧ (blkValid b = false → o.warn = true →
            exec (.nearBlockSnapshot k serial) s = .next (past (modMember (gives op (setFormat [] code)) k setSeen)))
    (o.active = false → exec (.nearBlockSnapshot k serial) s = .next (past s))
      ∧ (o.active = true → ∀ c a f n ch, o.instr = .xrch c a f n ch ∨ o.instr = .xrchc c a f n ch →
          (s.lostChips.contains o.chip = true ∨ s.lostTo.contains (g.desc.owner, o.chip) = true → exec (.nearBlockSnapshot k serial) s
              = .next (completeFab (past s) k serial (some (0x0E, BitVec.ofNat 64 (o.ch * 2 ^ 32)))))
            ∧ (s.lostChips.contains o.chip = false → s.lostTo.contains (g.desc.owner, o.chip) = false → exec (.nearBlockSnapshot k serial) s = .next (past (sendTo s o.chip
                (.landingArrival k serial o.sent (.request s.chip g.desc.launch g.desc.owner (core.regs.ctl.ensign.extractLsb' 0 8)
                  (phaseRun g) (BitVec.ofNat 52 (o.base + o.first + o.sent)) code b))))))
      ∧ (o.active = true → ∀ c a f n ch r, (o.instr = .xred c a f n ch r → contributes (some r)) ∧ (o.instr = .xtri c a f n ch → contributes none)))
    ∧ (∀ (s : State) (k : CoreId) (serial pair : Nat) (source : BitVec 22) (launch : Word) (owner : BitVec 12) (gen format : Byte) (run : Nat)
        (vba : BitVec 52) (b : Cells), s.inject.getLsbD 63 = false →
      let asks := exec (.landingArrival k serial pair (.request source launch owner gen run vba format b)) s
      let reply (s : State) (r : Landed) : State := sendTo s source (.landingArrival k serial pair r)
      (contextOf s launch owner = none → asks = .next (reply s .refused))
        ∧ (∀ g, contextOf s launch owner = some g → run ≠ phaseRun g → asks = .next s)
        ∧ (∀ g, contextOf s launch owner = some g → run = phaseRun g →
            (∀ e, translate s g 0 vba = .error e → asks = .next (reply s .refused))
            ∧ (∀ p, translate s g 0 vba = .ok p →
                (gen ≠ ownerGen s owner ∨ p.write = false ∨ p.cow = true ∨ p.window = true
                    ∨ (p.code ≠ format ∧ p.code ≠ 0 ∧ format ≠ 0) → asks = .next (reply s .refused))
                ∧ (gen = ownerGen s owner → p.write = true → p.cow = false → p.window = false → (p.code = format ∨ p.code = 0 ∨ format = 0) →
                    (4096 ≤ buffered g g.desc.launch ∨ (∃ q ∈ g.landed, q.slot = p.slot) → asks = .next (reply s .overflow))
                    ∧ (buffered g g.desc.launch < 4096 → (∀ q ∈ g.landed, q.slot ≠ p.slot) → hasLatent (rawBlock s.mem p.slot) = false →
                        slotPorted p.slot = false →
                        asks = .next (reply (modGang s g.id fun g => { g with landed := g.landed ++ [⟨p.slot, b, false⟩] })
                          (.block (cbelow (rawBlock s.mem p.slot) tagAt))))))))
    ∧ (∀ (s : State) (k : CoreId) (g : Gang) (core : Core) (serial pair : Nat) (o : FabOp) (b : Cells), getMember s k = some (g, core) →
      findFab core serial = some o →
      exec (.landingArrival k serial pair .refused) s = .next (completeFab s k serial (some (0x0E, BitVec.ofNat 64 (o.ch * 2 ^ 32))))
        ∧ exec (.landingArrival k serial pair .overflow) s = .next (completeFab s k serial (some (0x12, BitVec.ofNat 64 o.ch)))
        ∧ (∀ sl code v, o.near[pair]? = some (sl, code, v) → g.desc.pair = false →
            (landingRoom g sl = false → exec (.landingArrival k serial pair (.block b)) s
                = .next (completeFab s k serial (some (0x12, BitVec.ofNat 64 o.ch))))
            ∧ (landingRoom g sl = true → ∃ t, exec (.landingArrival k serial pair (.block b)) s = .next t ∧ t.mem = s.mem
                ∧ ∀ g' c', getMember t k = some (g', c') → g'.landed = g.landed ++ [⟨sl, b, false⟩] ∧ c'.acc = core.acc ∧ c'.log = core.log
                  ∧ c'.regs.g = core.regs.g ∧ ∀ q, findFab c' serial = some q → q.acked = o.acked + 1 ∧ q.done = (o.done || o.n ≤ o.acked + 1)))
        ∧ (∃ t, exec (.fabricCompletion k serial) s = .next t ∧ t.mem = s.mem ∧ ∀ g' c', getMember t k = some (g', c') → c'.regs = core.regs
            ∧ c'.log = core.log ∧ ∀ q, findFab c' serial = some q → q.acked = o.acked + 1 ∧ q.done = (o.done || o.n ≤ o.acked + 1))
        ∧ (∀ t fail, t = completeFab s k serial fail → ∀ g' c', getMember t k = some (g', c') →
            ∀ q, findFab c' serial = some q → q.done = true ∧ q.fail = o.fail.or fail))
    ∧ (∀ (s : State) (k : CoreId) (g : Gang) (core : Core) (c : Common) (far : Reg) (ch : BitVec 8) (o : FabOp),
      getMember s k = some (g, core) → core.fabs = [o] → o.instr = .xcrck c far ch →
      let crc : Word := core.regs.ctl.crcx.setWidth 32
      (g.tide < o.planned → exec (.crcCompare k) s = .next s)
        ∧ (o.planned ≤ g.tide → exec (.crcCompare k) s = .next (modMember s k fun _ => { core with
            fabs := []
            raised := core.raised ++ if o.active ∧ crc ≠ o.value then
              [{ code := 0x0E, cl := .x, tval := BitVec.ofNat 64 (o.ch * 2 ^ 32 + crc.toNat), pc := o.pc }] else [] })))
    ∧ (∀ (c : Core) (o : FabOp) (b : Cells), c.fabs = [o] → isChecked o.instr = true → o.active = true → o.n = o.folded + 1 →
        o.folds = [(o.folded, b)] → (foldCore c).regs.ctl.crcx = (crc32c (c.regs.ctl.crcx.setWidth 32) (cbytes b 0 4096)).setWidth 64)
    ∧ crc32c 0 [0x31, 0x32, 0x33, 0x34, 0x35, 0x36, 0x37, 0x38, 0x39] = 0xE3069283

/-- R244 to R248, R311: the home arms an index once in a generation, takes a contribution once for each block while there is room, and
aborts otherwise, with a bitmap of those that had armed and word to each; a contribution of another format is refused; a generation that is
incomplete at its deadline aborts. A complete window's blocks are merged in a fixed tree over the contributors, written, and its
generation advanced, with the flags for its contributors. The model's choices: a region's pages are those of member 0 (log 23, DEDUCED),
the generation is latched at the planned completion (log 25, DEDUCED), and what a home without a member does (log 78, DEDUCED). -/
def Obligations.WindowsAtTheirHome : Prop :=
  (∀ (s : State) (launch : Word) (owner : BitVec 12) (gen : Byte) (d : WinDecl) (index : Nat) (source : BitVec 22) (k : CoreId)
      (ch : BitVec 8) (serial : Nat),
    let arms := exec (.windowArmAtHome launch owner gen d index source k ch serial) s
    let reply (s : State) (r : ArmReply) : State := sendTo s source (.windowGenerationReturn k ch serial r)
    let entry : Arming := { index := index, chip := source, core := k, ch := ch, serial := serial }
    (windowContext s launch owner = none ∨ gen ≠ ownerGen s owner → arms = .next (reply s .refused))
      ∧ (∀ g, windowContext s launch owner = some g → gen = ownerGen s owner →
          let v := getWindow g launch d.num
          let w : Window := if v.armed = [] then { v with decl := d } else v
          let clock := if w.launch = g.desc.launch then g.tide else s.ptide
          ((∀ e ∈ w.armed, e.index ≠ index) → arms = .next (reply (modGang s g.id fun g => setWindow g
              { w with armed := w.armed ++ [entry], started := some (w.started.getD clock) }) (.generation w.gen)))
            ∧ ((∃ e ∈ w.armed, e.index = index) → arms = .next (abortWindow s g.id { w with armed := w.armed ++ [entry] }))))
    ∧ (∀ (s : State) (gang : Nat) (g : Gang) (w : Window), getGang s gang = some g →
        let t := abortWindow s gang w
        t.mem = s.mem
          ∧ (∀ e ∈ w.armed, e.chip ≠ s.chip → Sent.step e.chip (.windowGenerationReturn e.core e.ch e.serial (.aborted w.gen)) ∈ t.sent)
          ∧ ∃ g', getGang t gang = some g' ∧ getWindow g' w.launch w.num = { num := w.num, launch := w.launch, gen := w.gen + 1 }
            ∧ g'.abortLog = g.abortLog ++ [(w.num, w.gen, armedBitmap w)] ∧ g'.cores = g.cores ∧ g'.landed = g.landed)
    ∧ (∀ (w : Window) (i : Nat), (armedBitmap w).testBit i = w.armed.any fun e => e.index == i)
    ∧ (∀ (s : State) (from_ : Sender) (n : Nat) (gen : BitVec 16) (index block : Nat) (op : Option RedOp) (b : Cells) (source : BitVec 22)
        (k : CoreId) (serial : Nat),
      let comes := exec (.windowContributionArrival from_ n gen index block op b source k serial) s
      (windowContext s from_.launch from_.owner = none → comes = .next s)
        ∧ (∀ g, windowContext s from_.launch from_.owner = some g → from_.gen ≠ ownerGen s from_.owner →
            comes = .next (sendTo s source (.landingArrival k serial block .refused)))
        ∧ (∀ g, windowContext s from_.launch from_.owner = some g → from_.gen = ownerGen s from_.owner →
          let w := getWindow g from_.launch n
          let page := translate s g 0 (BitVec.ofNat 52 (w.decl.vba + block))
          let held (reserved : List Nat) : State := sendTo (modGang s g.id fun g => setWindow g
            { w with parts := w.parts ++ [⟨block, index, op, b⟩], reserved := reserved }) source (.fabricCompletion k serial)
          (w.gen ≠ gen ∨ (∀ e ∈ w.armed, e.index ≠ index) → comes = .next s)
            ∧ (w.gen = gen → (∃ e ∈ w.armed, e.index = index) → ∀ p, page = .ok p → reduces op p.code = true → blkFormat b = p.code →
                ((∃ q ∈ w.parts, q.block = block ∧ q.index = index) → comes = .next (abortWindow s g.id w))
                ∧ ((∀ q ∈ w.parts, ¬(q.block = block ∧ q.index = index)) →
                    (block ∈ w.reserved → comes = .next (held w.reserved))
                    ∧ (block ∉ w.reserved → buffered g from_.launch < 4096 → comes = .next (held (w.reserved ++ [block])))
                    ∧ (block ∉ w.reserved → 4096 ≤ buffered g from_.launch → comes = .next
                        (abortWindow (sendTo s source (.landingArrival k serial block .overflow)) g.id w (some (source, k))))))
            ∧ (w.gen = gen → (∃ e ∈ w.armed, e.index = index) → ∀ p, page = .ok p → (reduces op p.code = false ∨ blkFormat b ≠ p.code) →
                comes = .next (w.armed.foldl (fun s e =>
                  sendTo s e.chip (.windowGenerationReturn e.core e.ch e.serial (.format block))) s))))
    ∧ (∀ (s : State) (gang n : Nat) (gen : BitVec 16) (g : Gang) (w : Window), getGang s gang = some g →
      (g.home.find? (fun w => w.num == n && w.gen == gen && lateWindow s g w) = none → exec (.windowDeadline gang n gen) s = .next s)
        ∧ (g.home.find? (fun w => w.num == n && w.gen == gen && lateWindow s g w) = some w →
            (w.armed ≠ [] → windowComplete w = false → exec (.windowDeadline gang n gen) s = .next (abortWindow s gang w))
            ∧ (w.armed = [] ∨ windowComplete w = true →
                exec (.windowDeadline gang n gen) s = .next (modGang s gang fun g => setWindow g { w with judged := true })))
        ∧ (lateWindow s g w = true ↔ w.judged = false ∧ ∃ t, w.started = some t
            ∧ t + w.decl.deadline ≤ if w.launch = g.desc.launch then g.tide else s.ptide))
    ∧ (∀ (s : State) (k : CoreId) (g : Gang) (core : Core) (c : Common) (far : Reg) (ch : BitVec 8) (o : FabOp) (gen : BitVec 16),
      getMember s k = some (g, core) → core.fabs = [o] → o.instr = .xwin c far ch → o.done = false →
      ∀ p ∈ [(ArmReply.generation gen, { o with gen := gen, done := true }),
             (.refused, { o with done := true, fail := o.fail.or (some (0x0E, BitVec.ofNat 64 (o.ch * 2 ^ 32))) })],
        ∃ t, exec (.windowGenerationReturn k ch o.serial p.1) s = .next t ∧ t.mem = s.mem ∧ ∀ g' c', getMember t k = some (g', c') →
          c'.fabs = [p.2] ∧ c'.regs = core.regs ∧ c'.armed = core.armed ∧ c'.raised = core.raised)
    ∧ (∀ (c : Core) (o : FabOp) (tide : Nat) (e : Common) (far : Reg) (ch : BitVec 8), c.fabs = [o] → o.instr = .xwin e far ch →
        let t := finishFabs c tide
        (o.done = false ∨ tide < o.planned → t = c)
          ∧ (o.done = true → o.planned ≤ tide → t.fabs = [] ∧ t.regs = c.regs
              ∧ (∀ q, o.fail = some q → t.raised = c.raised ++ [{ code := q.1, cl := .x, tval := q.2, pc := o.pc }] ∧ t.armed = c.armed)
              ∧ (o.fail = none → o.active = true → t.raised = c.raised
                ∧ t.armed = c.armed.map fun a => if a.serial = o.serial then { a with gen := o.gen, latched := true } else a)))
    ∧ (∀ (s : State) (k : CoreId) (g : Gang) (core : Core) (ch : BitVec 8) (serial : Nat) (gen : BitVec 16),
        getMember s k = some (g, core) → core.fabs = [] →
        ((∀ a ∈ core.armed, a.serial ≠ serial) → exec (.windowGenerationReturn k ch serial (.aborted gen)) s = .next s)
          ∧ (∀ a, core.armed.find? (fun a => a.serial == serial) = some a →
              let tval : Dword := gen.setWidth 64 ||| (ch.setWidth 64 <<< 16)
              ((∀ b, g.barrier = some b → b.commit = false) → exec (.windowGenerationReturn k ch serial (.aborted gen)) s
                  = .next (modMember s k fun c => { c with raised := c.raised ++ [{ code := 0x0F, cl := .x, tval := tval, pc := a.pc }] }))
                ∧ (∀ b, g.barrier = some b → b.commit = true → exec (.windowGenerationReturn k ch serial (.aborted gen)) s
                  = .next (endBarrierHold (modGang s k.gang fun g => { g with
                      barrier := g.barrier.map fun b => { b with own := { abort := true, trapc := 0x30F, tval := tval } } }) k.gang))))
    ∧ (∀ (f : List Nat → List Nat → List Nat × BitVec 5) (p q r u : List Nat),
        (mergeTree f [p, q, r] 32).1 = [(f (f p q).1 r).1] ∧ (mergeTree f [p, q, r, u] 32).1 = [(f (f p q).1 (f r u).1).1])
    ∧ (∀ (a b : Word) (c d : Dword),
        let gives (op : RedOp) (f : Fmt) (r : Nat × BitVec 5) : Prop := redElem op f a.toNat b.toNat = r
        (∀ f ∈ [Fmt.f32, .bf16], gives .add f ((add32 .rne false a b).1.toNat, (add32 .rne false a b).2)
            ∧ gives .min f ((min32 a b).1.toNat, (min32 a b).2) ∧ gives .max f ((max32 a b).1.toNat, (max32 a b).2))
          ∧ (∀ f ∈ [Fmt.i32, .n32], gives .add f ((a + b).toNat, 0))
          ∧ gives .min .i32 ((if b.slt a then b else a).toNat, 0) ∧ gives .max .i32 ((if a.slt b then b else a).toNat, 0)
          ∧ gives .min .n32 ((if b < a then b else a).toNat, 0) ∧ gives .max .n32 ((if a < b then b else a).toNat, 0)
          ∧ (∀ f ∈ [Fmt.i64, .n64], redElem .add f c.toNat d.toNat = ((c + d).toNat, 0)))
    ∧ (∀ (f : Fmt) (l : List Nat) (b : Cells) (i : Nat),
        let n := fmtWidth f / 8
        f ∈ [Fmt.f32, .bf16, .i32, .i64, .n32, .n64] → i < 4096 / n →
        (redLeaves f b)[i]? = some (if f = .bf16 then (widen .bf16 (cle b (n * i) n)).toNat else cle b (n * i) n)
          ∧ (l.length = 4096 / n → cle (redPack f l).1 (n * i) n
              = (if f = .bf16 then (convert .f32 .bf16 .rne false (l.getD i 0)).1 else l.getD i 0) % 256 ^ n))
    ∧ (∀ (f : Fmt) (parts : List Contrib) (block : Nat) (p q r : Contrib),
        let part (i : Nat) (p : Contrib) : Prop := parts.find? (fun p => p.block == block && p.index == i) = some p
        part 0 p → part 1 q → part 2 r →
        (∀ op, p.op = some op →
            let a := redNode op f (redLeaves f p.data) (redLeaves f q.data)
            let b := redNode op f a.1 (redLeaves f r.data)
            let o := redPack f b.1
            mergeBlock f parts 3 block = (o.1, a.2 ||| b.2 ||| o.2))
          ∧ (p.op = none →
            let a := triNode (triLeaves p.data) (triLeaves q.data)
            let b := triNode a.1 (triLeaves r.data)
            mergeBlock f parts 3 block = (triPack b.1, a.2 ||| b.2)))
    ∧ (∀ (s : State) (gang : Nat) (g : Gang) (w : Window), getGang s gang = some g → Memory.wf s.mem = true → w.reserved.Nodup →
        let page (b : Nat) : Except Cause Page := translate s g 0 (BitVec.ofNat 52 (w.decl.vba + b))
        let flags := windowFlags s g w
        let t := writeWindow s gang w
        (∀ b ∈ w.reserved, ∃ p, page b = .ok p ∧ slotPorted p.slot = false) →
        (∀ b ∈ w.reserved, ∀ d ∈ w.reserved, ∀ p q, page b = .ok p → page d = .ok q → b ≠ d → slotNumber p.slot ≠ slotNumber q.slot) →
        (∀ b ∈ w.reserved, ∀ p, page b = .ok p →
            let m := mergeBlock ((fmtOfByte p.code).getD .f32) w.parts w.decl.contrib b
            let new := rawBlock t.mem p.slot
            blkValid new = true ∧ blkPoison new = false ∧ blkFormat new = p.code ∧ blkGen new = blkGen (rawBlock s.mem p.slot) + 1
              ∧ (∀ o, o < 4096 → cget new o = cget m.1 o) ∧ flags ||| m.2 = flags)
          ∧ (∀ q, (∀ b ∈ w.reserved, ∀ p, page b = .ok p → slotNumber q ≠ slotNumber p.slot) → rawBlock t.mem q = rawBlock s.mem q)
          ∧ (∃ g', getGang t gang = some g' ∧ getWindow g' w.launch w.num = { num := w.num, launch := w.launch, gen := w.gen + 1 })
          ∧ (w.launch = g.desc.launch → ∀ e ∈ w.armed, e.chip = s.chip → ∀ g' c c', getMember s e.core = some (g', c) →
              (getMember t e.core).map (·.2) = some c' → c'.regs.ctl.aflags = c.regs.ctl.aflags ||| flags.setWidth 64)
          ∧ (w.launch ≠ g.desc.launch → ∀ e ∈ w.armed, e.chip ≠ s.chip →
              Sent.step e.chip (.windowGenerationReturn e.core e.ch e.serial (.flags flags)) ∈ t.sent))

/-- R249 to R252: a released effect is performed in one step at its target if its checks pass, in their order; the old element and the flags
come back to the issuing core, written at the end of the arrival cycle and in the checkpoint at once (R267; log 79, DEDUCED, says which
cycle that is), a failed check leaves a record there and zero here, and the next FENCE reports what went wrong. That the target's pages are
those of member 0 (log 23, DEDUCED), and that a returned element takes no landing record (log 64, DEDUCED), are the model's choices. -/
def Obligations.StagedEffects : Prop :=
  (∀ (s : State) (e : Effect), e.kind ≠ .kick →
    let performs := exec (.stagedEffectPerform e) s
    let writes : Bool := match e.kind with | .amo _ r => r | _ => true
    let reply (s : State) (f : Fmt) (r : AtomReply) : State :=
      sendTo s e.source (.atomicReturn ⟨e.gang, e.idx⟩ e.dest writes f r e.chip e.serial)
    (contextOf s e.launch e.owner = none → performs = .next (reply s .n32 .refused))
      ∧ (∀ g, contextOf s e.launch e.owner = some g →
          (e.gen ≠ ownerGen s e.owner → performs = .next (reply s .n32 .stale))
          ∧ (e.gen = ownerGen s e.owner → ∀ p f, translate s g 0 e.vba = .ok p → fmtOfByte p.code = some f →
              let b := getBlock s g.desc.owner p.slot
              hasLatent (rawBlock s.mem p.slot) = false → hasLatent b = false →
              let w := fmtWidth f / 8
              let old := cle b e.off.toNat w
              let fails (code : Byte) : Prop := performs = .next (reply (modGang s g.id fun g =>
                let r : RedFault := { addr := e.vba ++ e.off, operand := e.operand, opcode := (effectForm e.kind).1, f := (effectForm e.kind).2
                                      cause := code }
                if g.redLog.length < 16 then { g with redLog := g.redLog ++ [r] } else { g with redMore := g.redMore + 1 }) .n32 .fault)
              let rights : Prop := p.write = true ∧ p.cow = false ∧ p.window = false
              (¬rights → fails 0x07)
                ∧ (rights → atomSupports f e.kind = false → fails 0x08)
                ∧ (rights → atomSupports f e.kind = true → e.off.toNat % w ≠ 0 → fails 0x0B)
                ∧ (rights → atomSupports f e.kind = true → e.off.toNat % w = 0 →
                    (blkValid b = false → fails 0x09)
                    ∧ (blkValid b = true → blockDisagrees p.code b = true → fails 0x08)
                    ∧ (blkValid b = true → blockDisagrees p.code b = false → markedIn b e.off.toNat w = true → fails 0x10)
                    ∧ (blkValid b = true → blockDisagrees p.code b = false → markedIn b e.off.toNat w = false →
                        (∀ op r, e.kind = .amo op r →
                          let v := atomCombine op f old (e.operand.toNat % 2 ^ fmtWidth f)
                          performs = .next (reply (putBlock s g.desc.owner p.slot (writeElem b p.code e.off.toNat w v.1)) f
                            (.done (BitVec.ofNat 64 old) v.2)))
                        ∧ (e.kind = .cas → performs = .next (reply (if old = e.operand.toNat % 2 ^ fmtWidth f
                            then putBlock s g.desc.owner p.slot (writeElem b p.code e.off.toNat w (e.swap.toNat % 2 ^ fmtWidth f)) else s) f
                              (.done (BitVec.ofNat 64 old) 0)))))))
    )
    ∧ (∀ (s : State) (e : Effect) (g : Gang), e.kind = .kick → getGang s e.gang = some g →
        exec (.stagedEffectPerform e) s = .next (modMember (sendEvent s 0x03 (memberOf g e.idx) e.launch 0 0 e.operand none (BitVec.ofNat 16 g.part)) ⟨e.gang, e.idx⟩
          fun c => { c with outstanding := c.outstanding.filter fun n => n.serial != e.serial }))
    ∧ (∀ (s : State) (k : CoreId) (d : Reg) (writes : Bool) (ty : Fmt) (r : AtomReply) (chip : BitVec 22) (serial : Nat),
        let value : Dword := match r with | .done old _ => if ty = .i32 then (old.setWidth 32).signExtend 64 else old | _ => 0
        let flags : BitVec 5 := match r with | .done _ f => f | _ => 0
        let status : Dword := match r with
          | .done .. => 0 | .fault => 4 | .stale => 16 | .refused => 2 | .dead => 0x101 ||| (chip.setWidth 64 <<< 16)
        let kept (tide : Nat) (q : Regs) : Regs := { q with
          g := if writes = true ∧ d ≠ 0 then q.g.set d.toNat value d.isLt else q.g
          landings := if writes = true ∧ d ≠ 0 then q.landings.filter fun l => !(l.dest == .g d && l.due ≤ tide) else q.landings
          ctl := { q.ctl with aflags := q.ctl.aflags ||| flags.setWidth 64 } }
        ∀ g, getGang s k.gang = some g →
        let past (c : Core) : Bool := g.stage == .port && (g.held || c.fences.any fun f => f.scope == .sys && f.due ≤ g.tide)
        let back (c : Core) : Core := if writes then { c with regs := { c.regs with landings := c.regs.landings ++
            [{ dest := if d = 0 then .none else .g d, value := value, due := if past c then g.tide else g.tide + 1
               issued := if past c then g.tide - 1 else g.tide, cl := .x, long := false }] } } else c
        let marks (c : Core) : Core := if flags = 0 then c else if past c
          then { c with regs := { c.regs with ctl := { c.regs.ctl with aflags := c.regs.ctl.aflags ||| flags.setWidth 64 } } }
          else { c with atEnd := c.atEnd ++ [.aflags flags] }
        exec (.atomicReturn k d writes ty r chip serial) s = .next (modPair s k fun c =>
          { (if past c then marks (back c) else back (marks c)) with
            checkpoint := kept g.tide c.checkpoint
            fenceBits := orFstat c.fenceBits status
            cards := c.cards.filter fun j => !(j.open_ && j.id == serial)
            outstanding := c.outstanding.filter fun n => n.serial != serial }))
    ∧ (∀ (s : State) (k : CoreId) (f : Core → Core) (g : Gang) (c : Core), getMember s k = some (g, c) →
        ((getMember (modPair s k f) k).map (·.2) = some (f c)) ∧ (modPair s k f).mem = s.mem
          ∧ (g.desc.pair = false → ∀ i c', i ≠ k.idx → g.cores[i]? = some c' →
              (getMember (modPair s k f) ⟨k.gang, i⟩).map (·.2) = some c'))

/-! ## Landings, fences and ports -/

/-- R62, R125, R126, R228: of the landings whose cycle has come, the one that issued first writes its register, under its mask, and leaves;
its flags join at the end of the cycle. R171 to R173, R266: a direction write opens each block that it reaches, its before-image kept, and
writes the lanes' elements and, in an SQ tile, their scale fields; without room for the images it raises UNDO_OVERFLOW. R149, R150, R302: a
FENCE waits for its effects and its writes, and its status word lands and joins FSTAT; with REDF set the gang is killed. R50, R66, R72, R180,
R181, R227, R229, R230: what each thing that waits for the end of its core's cycle does there, and in what order; and the pennant's write.
The model's choices: an XTSTV reads its status as it lands (log 29, DEDUCED), and the joining of flags at the end of that cycle (log 98). -/
def Obligations.LandingsAndFences : Prop :=
  (∀ (c : Core) (tide : Nat), (landingReady c tide = none ↔ ∀ l ∈ c.regs.landings, tide < l.due)
      ∧ ∀ a, landingReady c tide = some a → a ∈ c.regs.landings ∧ a.due ≤ tide ∧ ∀ l ∈ c.regs.landings, l.due ≤ tide →
          ¬(l.issued < a.issued ∨ (l.issued = a.issued ∧ (l.cl.code.toNat < a.cl.code.toNat ∨ l.cl = a.cl ∧ l.pc.toNat < a.pc.toNat))))
    ∧ (∀ (s : State) (k : CoreId) (g : Gang) (core : Core) (l : Landing), getMember s k = some (g, core) →
      (landingReady core g.tide = none → exec (.pendingLanding k) s = .next s)
        ∧ (core.faults = [] → landingReady core g.tide = some l →
            let r := core.regs
            let value := if l.test = [] then l.value else voidStatus s l.test
            let ends (r : Regs) : Core := { core with
              regs := { r with landings := core.regs.landings.erase l
                               ctl := if l.cl = .m then { r.ctl with fpcsr := r.ctl.fpcsr ||| l.flags.setWidth 64
                                                                     bndlog := r.ctl.bndlog ||| l.hits.setWidth 64 } else r.ctl }
              atEnd := core.atEnd ++ if l.cl = .m ∨ (l.flags = 0 ∧ l.hits = 0) then [] else [.flags l.flags l.hits] }
            let lands (r : Regs) : Prop := exec (.pendingLanding k) s = .next (modMember s k fun _ => ends r)
            (l.dest = .none → lands r)
              ∧ (∀ d, l.dest = .g d → lands { r with g := if d = 0 then r.g else r.g.set d.toNat value d.isLt })
              ∧ (∀ d, l.dest = .p d → lands { r with
                  p := if d = 0 then r.p else r.p.set d.toNat (l.pred &&& l.mask ||| r.rp d &&& ~~~l.mask) d.isLt })
              ∧ (∀ d, l.dest = .v d → lands { r with
                  v := r.v.set d.toNat (Vector.ofFn fun j => if l.mask.getLsbD j.val then l.lanes[j] else (r.rv d)[j]) d.isLt })
              ∧ ∀ sp i shape f, l.dest = .tile sp i shape → tshpFmt shape = some f → tshpOk shape = true → Memory.wf s.mem = true →
                (∀ k : Fin 128, l.mask.getLsbD k.val = true → inShape shape f (dirElem false sp.dir i k.val) = true) →
                let slot (b : Nat) : Slot := .tile core.num (8 * sp.num.toNat + b)
                let blocks := blocksIn shape f sp.dir i l.mask
                let new := (blocks.map slot).filter fun sl => !imagedIn core.log sl
                let loc (k : Fin 128) : Nat × Nat := elemLoc f (dirElem false sp.dir i k.val).1 (dirElem false sp.dir i k.val).2
                let lanes (b : Nat) : List (Fin 128) := (List.finRange 128).filter fun k => l.mask.getLsbD k.val && (loc k).1 == b
                let w := fmtWidth f
                let fits : Prop := new = [] ∨ images core + new.length ≤ 64 ∧ core.log.length + core.reserved + new.length ≤ 1024
                (¬fits → exec (.pendingLanding k) s = .next (modMember s k fun _ => { core with
                    regs := { r with landings := r.landings.erase l }
                    raised := core.raised ++ [{ code := 0x11, cl := l.cl, tval := 1024, pc := l.pc }] }))
                ∧ (fits → ∃ mem : Cells,
                  exec (.pendingLanding k) s = .next (modMember { s with serial := s.serial + new.length, mem := mem } k fun _ => { ends r with
                    log := (new.zipIdx.map fun e => { order := s.serial + e.2, entry := .image e.1 (rawBlock s.mem e.1) false }).reverse ++ core.log })
                  ∧ Memory.wf mem = true ∧ (∀ q, (∀ b ∈ blocks, slotNumber q ≠ slotNumber (slot b)) → rawBlock mem q = rawBlock s.mem q)
                  ∧ ∀ b ∈ blocks, let c := rawBlock s.mem (slot b)
                    let c' := rawBlock mem (slot b)
                    Opened c c' (fmtByte f)
                    ∧ (∀ k ∈ lanes b, cbits c' (loc k).2 w = l.lanes[k].toNat % 2 ^ w)
                    ∧ (∀ o, o < 8 * (if f.isSq then 4096 else 4336) → (∀ k ∈ lanes b, o < (loc k).2 ∨ (loc k).2 + w ≤ o) →
                        cbit c' o = (blkValid c && cbit c o))
                    ∧ (f.isSq = true → (sp.dir = .row ∨ sp.dir = .col) → (∀ k ∈ lanes b, ∀ j ∈ lanes b, k.val / 32 = j.val / 32 →
                          (l.lanes[k] ^^^ l.lanes[j]) &&& (if sp.dir = .col then 0x00FF3800 else 0x00FF0700) = 0) →
                        ∀ k ∈ lanes b, let p := dirElem false sp.dir i k.val
                          sqE c' (scaleAt f p.2) = (l.lanes[k].extractLsb' 16 8).toNat
                            ∧ sqR c' (scaleAt f p.2) p.1 = (l.lanes[k].extractLsb' 8 3).toNat
                            ∧ sqC c' (scaleAt f p.2) p.2 = (l.lanes[k].extractLsb' 11 3).toNat))))
    ∧ (∀ (s : State) (sl : Slot),
        let b := rawBlock s.mem sl
        (voidStatus s [sl]).getLsbD 24 = blkValid b ∧ (voidStatus s [sl]).extractLsb' 16 8 = blkFormat b
          ∧ (voidStatus s [sl]).extractLsb' 0 16 = blkGen b)
    ∧ (∀ (s : State) (k : CoreId) (g : Gang) (core : Core) (f : Fence), getMember s k = some (g, core) → core.fences = [f] →
      let l : Landing :=
        { dest := if f.d = 0 then .none else .g f.d, value := core.fenceBits, due := g.tide, issued := f.issued, cl := .s, long := f.d != 0
          pc := f.pc }
      let join (r : Regs) : Regs := { r with landings := r.landings ++ [l] }
      let early := f.issued + fenceLat f.scope
      let out := f.scope = .sys ∧ ∃ p ∈ core.outstanding, p.tide < f.issued
      let on := waiting g 3 f.serial
      let lands := exec (.fenceStatusLand k) s
      (g.stage = .port → early ≤ g.tide → out → on = false →
          lands = .next (modGang s k.gang fun g => startClaim s g 3 (memberOf g k.idx) false f.serial))
        ∧ (on = true → ¬out → lands = .next (modGang s k.gang fun g => endClaims g fun q => q.cause == 3 && q.id == f.serial))
        ∧ (g.stage = .port → (on = true ↔ out) → early < g.tide → f.due ≤ g.tide → fenceWaits core g.tide f false = true →
            lands = .next (modMember s k fun c => { c with fences := c.fences.map fun q =>
              if q.serial = f.serial then { q with due := g.tide + 1 } else q }))
        ∧ (g.stage = .land → (on = false ∨ out) → (g.tide < f.due ∨ fenceWaits core g.tide f true = true) → lands = .next s)
        ∧ (g.stage = .land → (on = false ∨ out) → f.due ≤ g.tide → fenceWaits core g.tide f true = false → lands = .next (modMember s k fun _ => { core with
            fences := []
            fenceBits := 0
            atEnd := core.atEnd ++ [.fstat core.fenceBits]
            regs := join core.regs
            checkpoint := if f.issued < g.phaseStart then join core.checkpoint else core.checkpoint
            raised := core.raised ++ if core.fenceBits.getLsbD 2 then [{ code := 0, cl := .s, tval := core.fenceBits, pc := f.pc }] else [] })))
    ∧ (∀ (c : Core) (tide : Nat) (f : Fence) (soon : Bool), fenceWaits c tide f soon = true ↔
        (∃ a ∈ c.accesses, a.inStore = true ∧ a.spots ≠ [] ∧ a.issued < f.issued ∧ (accScope c.num a).code.toNat ≤ f.scope.code.toNat)
          ∨ ∃ p ∈ c.pens, p.issued < f.issued ∧ (slotScope c.num p.slot).code.toNat ≤ f.scope.code.toNat
            ∧ (soon = true → penSoon c tide p = false))
    ∧ (∀ (gang tide : Nat) (s : State) (c : Core), c.faults = [] →
      let ends (e : AtEnd) : State × Core := endOne gang tide (s, c) e
      let ctl (f : Ctl → Ctl) : State × Core := (s, { c with regs := { c.regs with ctl := f c.regs.ctl } })
      (∀ n v, ends (.ctl n v) = (s, setCtlReg c n.toNat v))
        ∧ (∀ f h, ends (.flags f h) = ctl fun r => { r with fpcsr := r.fpcsr ||| f.setWidth 64, bndlog := r.bndlog ||| h.setWidth 64 })
        ∧ (∀ f, ends (.aflags f) = ctl fun r => { r with aflags := r.aflags ||| f.setWidth 64 })
        ∧ (∀ w, ∃ z : Dword, ends (.fstat w) = (ctl fun r => { r with fstat := z })
            ∧ z.extractLsb' 0 5 = (c.regs.ctl.fstat ||| w).extractLsb' 0 5
            ∧ (z.extractLsb' 8 8).toNat = min 255 ((c.regs.ctl.fstat.extractLsb' 8 8).toNat + (w.extractLsb' 8 8).toNat)
            ∧ z.extractLsb' 16 22 = (if c.regs.ctl.fstat.extractLsb' 16 22 = 0 then w.extractLsb' 16 22 else c.regs.ctl.fstat.extractLsb' 16 22))
        ∧ (∀ b, ends (.fold b) = ctl fun r => { r with crcx := (crc32c (r.crcx.setWidth 32) (cbytes b 0 4096)).setWidth 64 })
        ∧ (∀ f, ends (.push f) = (s, { c with regs := { c.regs with tokens := vmod c.regs.tokens f (· + 1) } }))
        ∧ (∀ wake q b, ends (.bank wake q b) = (modGang s gang fun g => if wake then wakeBank g q b tide else dozeBank g q b, c))
        ∧ (∀ p, ends (.unpark p) = (s, { c with regs := { c.regs with park := c.regs.park &&& ~~~(BitVec.ofNat 512 (2 ^ p)) } }))
        ∧ (∀ t n v mask, t < 8 → n < 127 → n % 2 = 0 → Memory.wf s.mem = true →
            let sq : Bool := (tshpFmt ((c.regs.ctl.tshp[t]?).getD 0)).any Fmt.isSq
            let at_ (k : Fin 128) : Slot × Nat :=
              let row := n + k.val / 64
              let byte := 4 * (k.val % 64)
              if sq = true then (.tile c.num (8 * t + 2 * (row / 32) + byte / 128), 128 * (row % 32) + byte % 128)
              else (.tile c.num (8 * t + row / 16), 256 * (row % 16) + byte)
            let lanes := (List.finRange 128).filter fun k => mask.getLsbD k.val
            let out := ends (.park t n v mask)
            out.2.regs = { c.regs with park := c.regs.park ||| BitVec.ofNat 512 (2 ^ (64 * t + n / 2)) } ∧ out.2.atEnd = c.atEnd
              ∧ (∀ k ∈ lanes, BitVec.ofNat 32 (cle (rawBlock out.1.mem (at_ k).1) (at_ k).2 4) = v[k])
              ∧ (∀ sl o, o < 4352 → (∀ k ∈ lanes, slotNumber sl ≠ slotNumber (at_ k).1 ∨ o < (at_ k).2 ∨ (at_ k).2 + 4 ≤ o) →
                  cget (rawBlock out.1.mem sl) o = cget (rawBlock s.mem sl) o)
              ∧ (∀ k ∈ lanes, imagedIn out.2.log (at_ k).1 = true))
        ∧ (∀ l due, (tide < due → ends (.drop l due) = (s, { c with atEnd := c.atEnd ++ [.drop l due] }))
            ∧ (due ≤ tide → Memory.wf s.mem = true → l.Nodup →
                (∀ a ∈ l, ∀ b ∈ l, slotNumber a = slotNumber b → a = b) →
                let out := ends (.drop l due)
                (∀ sl ∈ l, rawBlock out.1.mem sl = [])
                  ∧ (∀ q, (∀ sl ∈ l, slotNumber q ≠ slotNumber sl) → rawBlock out.1.mem q = rawBlock s.mem q)
                  ∧ out.2 = { c with reserved := c.reserved - l.length
                                     log := (l.zipIdx.map fun e => { order := s.serial + e.2, entry := .image e.1 (rawBlock s.mem e.1) true }).reverse
                                       ++ c.log })))
    ∧ (∀ (s : State) (gang j : Nat) (g : Gang) (c : Core), getMember s ⟨gang, j⟩ = some (g, c) → c.atEnd ≠ [] →
        (∀ b, AtEnd.fold b ∉ c.atEnd) →
        let rank (n : Nat) : List AtEnd := c.atEnd.filter fun e => (match e with
          | .park .. | .unpark _ => 0
          | .ctl .. | .bank .. => 1
          | .flags .. | .fstat _ | .aflags _ | .fold _ => 2
          | .push _ => 3
          | .drop .. => 4) == n
        let out := (rank 0 ++ rank 1 ++ rank 2 ++ rank 3 ++ rank 4).foldl (endOne gang g.tide) (s, { c with atEnd := [] })
        endCore s gang j = modMember out.1 ⟨gang, j⟩ fun _ => out.2)
    ∧ (∀ (s : State) (g : Gang) (i : Nat) (c : Core) (p : Pen),
        let rest : Core := { c with pens := c.pens.filter fun q => q.serial != p.serial }
        (p.active = false → writePen s g i c p = (s, rest))
          ∧ (p.active = true → slotPorted p.slot = false →
            let b := rawBlock s.mem p.slot
            writePen s g i c p = ({ s with serial := s.serial + 1
                                           mem := setRawBlock s.mem p.slot (cbelow (writeElem b p.code p.off 4 p.value.toNat) tagAt) },
              { rest with reserved := c.reserved - 1
                          log := { order := s.serial, entry := .word p.slot p.off 4 (cle b p.off 4) (blkGen b) (!blkValid b) } :: c.log }))
          ∧ (penReady c g.tide p = true ↔ p.due ≤ g.tide ∧ p.served = true ∧ ∀ e ∈ c.exchs, p.issued ≤ e.issued))

/-- R285, R286, R289: an element port serves its requests in order, a read whose bank is taken by the rebuild of its group, one a cycle; the
others wait a cycle. R214: a late transfer's data has come, and its hold ends. R298: another agent writes or reads at a port. -/
def Obligations.PortsServe : Prop :=
  (∀ (s : State) (k : CoreId) (g : Gang) (core : Core), getMember s k = some (g, core) →
      (portReqs g k.idx core = [] → exec (.elementPortServe k) s = .next s)
        ∧ (∀ r, portReqs g k.idx core = [r] → hasLatent (rawBlock s.mem (.berth core.num r.slot)) = false →
            ∀ i n, r.who = .entry i n → exec (.elementPortServe k) s = .next (modMember s ⟨k.gang, i⟩ fun c => { c with
              accesses := c.accesses.map fun a => if a.serial = n then { a with served := true, rebuilt := [] } else a }))
        ∧ (∀ r, portReqs g k.idx core = [r] → hasLatent (rawBlock s.mem (.berth core.num r.slot)) = false →
            ∀ i n, r.who = .ask i n → exec (.elementPortServe k) s = .next (modMember s ⟨k.gang, i⟩ fun c => { c with
              asks := c.asks.filter fun a => a.serial != n }))
        ∧ (∀ r q, portReqs g k.idx core = [r, q] → keyLt q.key r.key = false → hasLatent (rawBlock s.mem (.berth core.num r.slot)) = false →
            hasLatent (rawBlock s.mem (.berth core.num q.slot)) = false → q.write = true → banksOf r = banksOf q → banksOf r ≠ [] →
            ∀ i n j m, r.who = .entry i n → q.who = .entry j m → r ≠ q → exec (.elementPortServe k) s
              = .next (modMember (modMember s ⟨k.gang, i⟩ fun c => { c with
                    accesses := c.accesses.map fun a => if a.serial = n then { a with served := true, rebuilt := [] } else a }) ⟨k.gang, j⟩ fun c => { c with
                  accesses := c.accesses.map fun a => if a.serial = m then { a with due := a.due + 1 } else a })))
    ∧ (∀ (w w' w'' : Asker) (y y' y'' : List Nat),
        let other : PortReq := { who := w, key := y, slot := 5, off := 0x50, n := 4, write := false }
        let own : PortReq := { who := w', key := y', slot := 5, off := 0x40, n := 4, write := false }
        let wide : PortReq := { who := w'', key := y'', slot := 5, off := 0, n := 512, write := false }
        serve [other, own, wide] [] [] = [other, own] ∧ serve [own, wide] [] [] = [own, { wide with busy := [9] }]
          ∧ serve [wide] [] [] = [wide] ∧ serve [own, { wide with write := true }] [] [] = [own])
    ∧ (∀ (s : State) (gang claim : Nat), exec (.hbmPairArrival gang claim) s = .next (modGang s gang fun g => { g with
        cores := g.cores.map fun c => { c with accesses := c.accesses.map fun a => if a.serial = claim then { a with arrived := true } else a }
        hold := { g.hold with active := g.hold.active.filter fun c => !(c.cause == 0 && c.id == claim) } }))
    ∧ (∀ (s : State) (sl : Slot) (off : Nat) (bytes : List Byte) (b : Cells), Memory.wf s.mem = true →
        exec (.otherAgentPerform sl (.writeBlock b)) s = .next { s with mem := setRawBlock s.mem sl b }
          ∧ (hasLatent (rawBlock s.mem sl) = false → exec (.otherAgentPerform sl .read) s = .next s)
          ∧ (off + bytes.length ≤ 4096 → ∃ t, exec (.otherAgentPerform sl (.writeBytes off bytes)) s = .next t
              ∧ t = { s with mem := t.mem } ∧ (∀ q, slotNumber q ≠ slotNumber sl → rawBlock t.mem q = rawBlock s.mem q)
              ∧ ∀ o < 4096, cget (rawBlock t.mem sl) o = if off ≤ o ∧ o < off + bytes.length then bytes.getD (o - off) 0
                  else cget (rawBlock s.mem sl) o))

/-! ## The ends of a phase -/

/-- R268, R269, R304: a rollback undoes the log, gives each core its checkpoint and its shadows back, keeps the abort in the trap registers
and every sticky flag, counts, and holds 16 cycles and the longest log; a commit writes the landings, writes the complete windows,
releases the staged effects, swaps the double buffers and takes the next checkpoint. The form of votes, notices and the saves they bring,
and what of a committed phase a rollback moves with the start of the phase, are the model's reading (logs 73, 74 and 77), and so is that a
block entry over a double-buffered run keeps its slot (log 104). -/
def Obligations.PhasesEnd : Prop :=
  (∀ (s : State) (gang : Nat) (g : Gang) (r : Abort), getGang s gang = some g → g.aborted = some r → (∀ c ∈ g.cores, c.faults = []) →
    ∃ (t : State) (g' : Gang), exec (.phaseRollback gang) s = .next t ∧ t.mem = (undoLogs s g).mem ∧ getGang t gang = some g'
      ∧ (s.ptide + (16 + g.cores.foldl (fun a c => max a c.log.length) 0), Instr.rollbackEnd gang) ∈ t.agenda
      ∧ g'.tide = g.tide ∧ g'.phaseStart = g.tide + 1 ∧ g'.aborts = g.aborts + 1 ∧ g'.aborted = none ∧ g'.landed = [] ∧ g'.manifest = g.manifest
      ∧ g'.claims 6 = true ∧ g'.hold.holds[6] = g.hold.holds[6] + 1 ∧ g'.cores.length = g.cores.length
      ∧ (2 ≤ g.aborts → escalates r = false → g'.fatal = some { member := memberOf g r.member, trapc := r.trapc, tval := r.tval })
      ∧ (escalates r = true → g'.fatal = some { member := memberOf g r.member, trapc := 0x10, tval := r.tval, poison := true })
      ∧ ∀ (i : Nat) (c : Core), g.cores[i]? = some c → ∃ c' : Core, g'.cores[i]? = some c'
        ∧ c'.regs.g = c.checkpoint.g ∧ c'.regs.p = c.checkpoint.p ∧ c'.regs.v = c.checkpoint.v ∧ c'.regs.tokens = c.checkpoint.tokens
        ∧ c'.regs.latch = c.checkpoint.latch ∧ c'.regs.gpos = c.checkpoint.gpos ∧ c'.regs.park = c.checkpoint.park
        ∧ c'.regs.q = c.checkpoint.q ∧ c'.regs.sNext = c.checkpoint.sNext + (g.tide + 1) - c.checkBase
        ∧ (∀ j : Fin 4, c'.acc[j] = if c.accWritten.getLsbD j.val = true ∨ namedUnit g i r = some (3, j.val) then c.shadow[j] else c.acc[j])
        ∧ c'.accWritten = 0 ∧ c'.log = [] ∧ c'.reserved = 0 ∧ c'.exchs = [] ∧ c'.cmds = Vector.replicate 3 none ∧ c'.fabs = []
        ∧ c'.armed = [] ∧ c'.sentOn = [] ∧ c'.pens = [] ∧ c'.raised = [] ∧ c'.trapped = false
        ∧ (let move (t : Nat) : Nat := t + (g.tide + 1) - c.checkBase
           c'.accesses = (c.accesses.filter (·.committed)).map (fun a => { a with due := move a.due, issued := move a.issued })
            ∧ c'.fences = (c.fences.filter fun f => f.issued < g.phaseStart).map (fun f => { f with due := move f.due, issued := move f.issued })
            ∧ c'.regs.landings = c.checkpoint.landings.map (fun l => { l with due := move l.due, issued := move l.issued }))
        ∧ c'.asks = [] ∧ c'.atEnd = [] ∧ c'.standing = c.standing.filter (·.released)
        ∧ let k := c'.regs.ctl
          let z := c.checkpoint.ctl
          let old := c.regs.ctl
          let q := if r.forced = true ∧ (g.stage = .port ∨ g.stage = .land) then c.regs.q else c.qStart
          k = { z with
            bndlog := z.bndlog ||| old.bndlog, voidmode := z.voidmode ||| (old.voidmode &&& 2), fstat := z.fstat ||| old.fstat
            aflags := z.aflags ||| old.aflags, fpcsr := z.fpcsr ||| old.fpcsr, trapc := r.trapc, tval := r.tval
            trappc := if r.named ∧ memberOf g i = memberOf g r.member ∧ r.trapc.extractLsb' 8 2 ≠ 0 then r.pc else q[0].addr
            trapq := q.map (·.addr), tnull := queueNull q })
    ∧ (∀ (s : State) (g : Gang) (c : Core), g.cores = [c] → undoLogs s g = c.log.foldl (fun s e => undoEntry g.desc.owner s e.entry) s)
    ∧ (∀ (s : State) (o : BitVec 12) (a b : Slot), Memory.wf s.mem = true → slotNumber a ≠ slotNumber b → slotPorted a = false →
        slotPorted b = false → hasLatent (rawBlock s.mem a) = false → hasLatent (rawBlock s.mem b) = false →
        let t := undoEntry o (swapSlots s o a b) (.swap a b)
        ∀ q, ∀ i < tagAt, cget (rawBlock t.mem q) i = cget (rawBlock s.mem q) i)
    ∧ (∀ (s : State) (o : BitVec 12) (sl : Slot) (off w old : Nat) (gen : BitVec 16) (b : Cells),
        undoEntry o s (.word sl off w old gen true) = putBlock s o sl []
          ∧ (slotPorted sl = false → undoEntry o s (.word sl off w old gen true) = voidSlot s sl) ∧ undoEntry o s (.image sl b false) = { s with mem := setRawBlock s.mem sl b }
          ∧ (Memory.wf s.mem = true → slotPorted sl = false → off + w ≤ 4096 → old < 256 ^ w →
              let b' := rawBlock (undoEntry o s (.word sl off w old gen false)).mem sl
              cle b' off w = old ∧ blkGen b' = gen
                ∧ ∀ i < 4096, i < off ∨ off + w ≤ i → cget b' i = cget (rawBlock s.mem sl) i))
    ∧ (∀ (s : State) (gang : Nat), exec (.rollbackEnd gang) s = .next (modGang s gang fun g => { g with
        hold := { g.hold with active := g.hold.active.filter fun c => c.cause != 6 }, cores := g.cores.map noteHeld
        tide := g.tide + 1, stage := .port, turn := 0 }))
    ∧ (∀ (s : State) (gang : Nat) (trapc tval : Dword), exec (.abortNotice gang trapc tval) s = .next (modGang s gang fun g =>
        let h : Gang := if trapc.setWidth 8 = (0x13 : BitVec 8) ∨ trapc.setWidth 8 = (0x06 : BitVec 8) then { g with saveNext := some 2 } else g
        if g.status = .placed ∧ g.aborted = none ∧ g.claims 6 = false ∧ g.fatal.any (!·.poison) = false then
          { h with aborted := some { trapc := trapc, tval := tval, forced := true } } else if g.status = .placed then h else g))
    ∧ (∀ (s : State) (gang : Nat) (chip : BitVec 22) (v : Vote), (holdsCopy s gang chip = false →
          exec (.jointBarrierArrival gang chip v) s = .next (if v.pending = true ∨ v.commit = false then s else voteOutside s gang chip v))
        ∧ (holdsCopy s gang chip = true → exec (.jointBarrierArrival gang chip v) s = .next (endBarrierHold (modGang s gang fun g =>
        if g.status ≠ .placed then g else
        let came := (if v.pending then g.came else g.came.eraseP fun p => p.1 == chip && p.2.pending) ++ [(chip, v)]
        { g with came := came, cameSince := some (g.cameSince.getD s.ptide) }) gang)))
    ∧ (∀ (s : State) (gang : Nat) (g : Gang), getGang s gang = some g →
        (barrierDone s g = true → endBarrierHold s gang = modGang s gang fun g =>
            { g with hold := { g.hold with active := g.hold.active.filter fun c => !(c.cause == 3 && c.barrier) } })
          ∧ (barrierDone s g = false → endBarrierHold s gang = s)
          ∧ (barrierDone s g = true ↔ ∃ b, g.barrier = some b ∧ b.own.pending = false
              ∧ (∀ c ∈ g.desc.chips, c ≠ s.chip → ∃ p ∈ g.came, p.1 = c ∧ p.2.pending = false)
              ∧ (b.commit = true → firstAbort s g b.own = none → ∀ c ∈ g.cores.take g.size, ∀ a ∈ c.armed, ∀ h, outsideHome s g a = some h →
                  a.flags ≠ none ∨ chipLostTo s g.desc.owner h = true)))
    ∧ (∀ (m : Manifest), (∀ p ∈ m, meValid p.2 = true → meDouble p.2 = false) → swapDoubles m = m)
    ∧ (∀ (i j : Nat) (e b : MEntry), i ≠ j → meValid e = true → meDouble e = true → meValid b = true → meDouble b = false →
        meVba b = meVba e + meCount e → meCount b = meCount e →
        swapDoubles [(i, e), (j, b)] = [(i, { e with dw1 := e.dw1 &&& 0xFFFFFFFF00000000 ||| b.dw1 &&& 0xFFFFFFFF }),
          (j, { b with dw1 := b.dw1 &&& 0xFFFFFFFF00000000 ||| e.dw1 &&& 0xFFFFFFFF })])
    ∧ (∀ (s : State) (gang claim : Nat), exec (.farPortAccept gang claim) s = .next (modGang s gang fun g =>
        if ∃ c ∈ g.cores, ∃ t ∈ c.standing, t.serial = claim ∧ farUp s t = true then { g with
          cores := g.cores.map fun c => { c with standing := c.standing.map fun t => if t.serial = claim then { t with accepted := true } else t }
          hold := { g.hold with active := g.hold.active.filter fun c => !(c.cause == 2 && c.id == claim) } } else g))
    ∧ (∀ (s : State) (gang : Nat) (g : Gang), getGang s gang = some g →
      let ends (g : Gang) : Gang :=
        useVotes s { g with hold := { g.hold with active := g.hold.active.filter fun c => !(c.cause == 3 && c.barrier) } }
      let votes := (votesOf s g).map (·.2)
      (g.barrier = none → exec (.jointCommit gang) s = .next s)
        ∧ (∀ b, g.barrier = some b → b.commit = false →
            exec (.jointCommit gang) s = .next (takeVotes (modGang s gang ends) gang b.own.wants votes))
        ∧ (∀ own, (∀ v ∈ votes, v.flags = []) → takeVotes s gang own votes = modGang s gang fun g => { g with
            preempt := match g.preempt with
              | some p => some { p with agreed := p.agreed || own || votes.any (·.wants) }
              | none => if own = true ∨ votes.any (·.wants) = true then some { since := s.ptide, rotation := own, deadline := false, agreed := true }
                  else none
            barred := votes.any fun v => !v.able })
        ∧ (∀ b, g.barrier = some b → b.commit = true → g.desc.pair = false →
            (∀ v, firstAbort s g b.own = some v → exec (.jointCommit gang) s = .next (modGang (modGang s gang ends) gang fun g =>
                { g with aborted := some { trapc := v.trapc, tval := v.tval } }))
            ∧ (b.own.abort = false → (∀ p ∈ g.came, p.2.abort = false) → firstAbort s g b.own = none)
            ∧ (b.own.abort = true → otherChips s g = [] → firstAbort s g b.own = some b.own))
        ∧ (∀ b, g.barrier = some b → b.commit = true → firstAbort s g b.own = none →
            let lands : State := g.landed.foldl (fun s p => putBlock s g.desc.owner p.slot p.block)
              (takeVotes (modGang s gang ends) gang b.own.wants votes)
            let windows : State := (ownWindows g).foldl (fun s w => writeWindow s gang w) (modGang lands gang fun g => { g with landed := [] })
            ∃ (t : State) (g' : Gang), exec (.jointCommit gang) s = .next t ∧ getGang t gang = some g'
              ∧ t.mem = windows.mem ∧ (ownWindows g = [] → t.mem = (g.landed.foldl (fun s p => putBlock s g.desc.owner p.slot p.block) s).mem)
              ∧ g'.landed = [] ∧ g'.barrier = none ∧ g'.aborts = 0 ∧ g'.phaseStart = g.tide + 1 ∧ g'.tide = g.tide
              ∧ g'.manifest = swapDoubles g.manifest
              ∧ (∀ (i : Nat) (c : Core) e ch cell w, g.cores[i]? = some c → i < g.size → cell ∈ c.log → cell.entry = .staged (.atom e ch) w → e.chip ≠ s.chip →
                  s.lostChips.contains e.chip = false → s.lostTo.contains (g.desc.owner, e.chip) = false → Sent.step e.chip (.stagedEffectPerform e) ∈ t.sent)
              ∧ ∀ (i : Nat) (c : Core), g.cores[i]? = some c → ∃ c' : Core, g'.cores[i]? = some c' ∧ c'.acc = c.acc ∧ c'.log = [] ∧ c'.reserved = 0 ∧ c'.sentOn = []
                ∧ c'.armed = [] ∧ c'.accWritten = 0 ∧ c'.checkpoint = c'.regs ∧ c'.checkBase = g.tide + 1 ∧ c'.exchs = c.exchs
                ∧ (∀ j : Fin 4, c'.shadow[j] = if c.accWritten.getLsbD j.val then c.acc[j] else c.shadow[j])
                ∧ c'.regs = { c.regs with ctl := { c.regs.ctl with phase := (c.regs.ctl.phase &&& ~~~3) + 4, aflags := c'.regs.ctl.aflags } }
                ∧ ((∀ p ∈ g.came, p.2.flags = []) → ownWindows g = [] → c'.regs.ctl.aflags
                    = c.armed.foldl (fun x a => x ||| (a.flags.getD 0).setWidth 64) c.regs.ctl.aflags)))

/-! ## The harbourmaster's service -/

/-- R53, R152, R318, R326 to R338, R346, R357, R360, R361, R365, R376, R381: decisions, placement, kills and their fences, rechecks, suspensions,
deadlines and lost chips, each with what it leaves of the gang. The wait of a copy for a lost chip and the safe point of
several chips are the model's (logs 68 and 83), and so are the place of a fatal gang's KILL in the queue (log 91) and the messages by which
another chip's kill reaches this one (log 92). -/
def Obligations.GangsAreServed : Prop :=
  (∀ (s : State) (part : Nat),
      ((partOf s part).resetting = true → exec (.scheduleDecision part) s = .next s)
        ∧ ((partOf s part).resetting = false → readyOrder s part = [] →
            exec (.scheduleDecision part) s = .next (modPart s part fun p => { p with reservation := none }))
        ∧ (∃ t, exec (.scheduleDecision part) s = .next t ∧ exec (.agingStep part) s = .next t
            ∧ (let interval := schedOf s part 1
               (partOf s part).resetting = false → interval ≠ 0 → ∀ g ∈ t.gangs, g.part = part → gangReady g = true →
                (g.age + ((s.ptide - g.age) / interval + 1) * interval, Instr.agingStep part) ∈ t.agenda))
        ∧ (∀ g ∈ readyOrder s part, g ∈ s.gangs ∧ g.part = part ∧ (g.status = .queued ∨ g.status = .saved) ∧ ∀ d ∈ g.desc.deps, d ∈ g.ended)
        ∧ (readyOrder s part).Pairwise (fun g h => effPrio s h < effPrio s g ∨ (effPrio s h = effPrio s g ∧ g.age ≤ h.age))
        ∧ (∀ g : Gang, schedOf s g.part 1 ≠ 0 → effPrio s g = min 7 (g.desc.prio + (s.ptide - g.age) / schedOf s g.part 1)))
    ∧ (∀ (s : State) (part : Nat) (g : Gang) (o : Nat × Nat) (banks : List (Nat × List Nat)), Memory.wf s.mem = true →
      (partOf s part).resetting = false → readyOrder s part = [g] → getGang s g.id = some g → g.status = .queued →
      placeFor (modPart s part fun p => { p with reservation := none }) g none = some (o, banks, none) →
      ∃ (t : State) (g' : Gang), exec (.scheduleDecision part) s = .next t ∧ getGang t g.id = some g' ∧ g'.status = .placed ∧ g'.started = false
        ∧ g'.x0 = o.1 ∧ g'.y0 = o.2 ∧ g'.quays = banks ∧ g'.cores.length = 2 * g.desc.w * (2 * g.desc.h)
        ∧ (otherChips s g = [] → (s.ptide + Config.placeTime s.free, Instr.multichipStart g.id) ∈ t.agenda)
        ∧ (otherChips s g ≠ [] → Sent.placed g.desc.launch ∈ t.sent)
        ∧ ∀ (i : Nat) (c : Core), g'.cores[i]? = some c → c.x = o.1 + i % (2 * g.desc.w) ∧ c.y = o.2 + i / (2 * g.desc.w)
          ∧ c.regs.g = Vector.replicate 64 0 ∧ c.regs.v = Vector.replicate 64 (Vector.replicate 128 0) ∧ c.regs.rp 0 = BitVec.allOnes 128
          ∧ c.regs.ctl.gangid = BitVec.ofNat 64 (g.desc.launch.toNat * 2 ^ 16 + i)
          ∧ c.regs.ctl.ensign = BitVec.ofNat 64 (g.desc.owner.toNat * 256 + (ownerGen s g.desc.owner).toNat)
          ∧ c.regs.ctl.phase = 0 ∧ c.regs.ctl.fpcsr = 0 ∧ c.log = [] ∧ c.checkpoint = c.regs
          ∧ (∀ j < 512, rawBlock t.mem (.berth c.num j) = []) ∧ ∀ j < 64, rawBlock t.mem (.tile c.num j) = [])
    ∧ (∀ (s : State) (gang : Nat) (g : Gang), getGang s gang = some g → g.status = .placed → (∃ c ∈ otherChips s g, chipLostTo s g.desc.owner c = true) →
        exec (.multichipStart gang) s = .next (post { s with free := s.free + 1 } (Config.placeTime s.free + 1) (.multichipStart gang)))
    ∧ (∀ (s : State) (gang : Nat), (∀ g, getGang s gang = some g → g.status = .placed → ∀ c ∈ otherChips s g, chipLostTo s g.desc.owner c = false) →
        ∃ t, exec (.multichipStart gang) s = .next t ∧ t.mem = s.mem
        ∧ t.gangs = s.gangs.map fun g => if g.id = gang ∧ g.status = .placed then { g with started := true, runStart := s.ptide } else g)
    ∧ (∀ (s : State) (gang : Nat) (g : Gang) (p : Preempt), getGang s gang = some g → g.preempt = some p →
      let limit := schedOf s g.part 2
      let again (d : Nat) : Prop := exec (.safeDeadlineExpiry gang) s = .next (post s d (.safeDeadlineExpiry gang))
      (p.deadline = false ∨ g.status ≠ .placed → exec (.safeDeadlineExpiry gang) s = .next s)
        ∧ (p.deadline = true → g.status = .placed →
            (s.ptide < p.since + limit → again (p.since + limit - s.ptide))
            ∧ (p.since + limit ≤ s.ptide → g.claims 5 = true ∨ g.claims 6 = true ∨ unsettled g = true → again 1)
            ∧ (p.since + limit ≤ s.ptide → g.claims 5 = false → g.claims 6 = false → unsettled g = false → ∃ t g',
                exec (.safeDeadlineExpiry gang) s = .next t ∧ getGang t gang = some g' ∧ g'.saveNext = some 2 ∧ g'.preempt = none
                  ∧ g'.aborted = some { trapc := 0x13, tval := BitVec.ofNat 64 g.tide, forced := true, tell := true })))
    ∧ (∀ (s : State) (gang : Nat) (g : Gang) (i : Nat) (c : Core) (instr : Instr), getGang s gang = some g →
      (g.cores.zipIdx.filter fun p => p.1.trapped && trapCode p.1 == 0x07) = [(c, i)] → isSecondary g i = false → g.status = .placed →
      let checks := exec (.permissionRecheck gang) s
      let m := memberOf g i
      let ends (s : State) : Prop := checks = .next (modGang s gang fun g => { g with rechecks := [] })
      let waits (t : State) : Prop :=
        checks = .next (post { t with free := t.free + 1 } (Config.serviceTime t.free + 1) (.permissionRecheck gang))
      let fails : State := killFatal s gang { member := m, trapc := c.regs.ctl.trapc, tval := c.regs.ctl.tval }
      let w := (c.regs.ctl.tval.extractLsb' 0 40).toNat
      (g.rechecks.find? (fun p => p.1 == m) = none → fetchAt false g.lines (trapCluster c) c.regs.ctl.trappc 0 = .ok instr →
          (authEntry s g w = none → ends fails)
          ∧ (∀ e, authEntry s g w = some e →
              (grants e (accessKinds instr) = false → ends fails)
              ∧ (grants e (accessKinds instr) = true → queueFull s = true → waits s)
              ∧ (grants e (accessKinds instr) = true → queueFull s = false →
                  let r := postCmd s (refreshRecord g e w) false
                  waits (modGang r.2 gang fun g => { g with rechecks := g.rechecks ++ [(m, r.1)] }))))
        ∧ (∀ n t, g.rechecks.find? (fun p => p.1 == m) = some (m, n) → s.tickets.find? (fun t => t.num == n) = some t →
            (t.acked = none → waits s)
            ∧ (∀ v, t.acked = some v → v.extractLsb' 0 8 ≠ 0 → ends fails)
            ∧ (∀ v, t.acked = some v → v.extractLsb' 0 8 = 0 →
                ends (tretMember (modPart s g.part fun p => { p with absorbed := p.absorbed + 1 }) ⟨gang, i⟩))))
    ∧ (∀ (s : State) (gang : Nat) (g : Gang) (c : Core) (i : Nat), getGang s gang = some g →
      g.cores.zipIdx.find? (fun p => p.1.trapped && trapCode p.1 == 0x06) = some (c, i) →
      let awaits (g : Gang) : Gang := { g with awaitPage := some c.regs.ctl.tval }
      let forced : Prop := exec (.absentSuspend gang) s
        = .next (forceRollback (modGang s gang awaits) gang c.regs.ctl.trapc c.regs.ctl.tval (some 2) true (some (i, c.regs.ctl.trappc)))
      let free : Prop := mustRollBack g = false ∧ awaitedByInvalidate (modGang s gang awaits) g = false
      let running : Prop := ∃ c ∈ g.cores, ∃ t ∈ c.standing, t.released = true
      (¬free → forced)
        ∧ (free → running → exec (.absentSuspend gang) s
            = .next (post { modGang s gang awaits with free := s.free + 1 } (Config.serviceTime s.free + 1) (.absentSuspend gang)))
        ∧ (free → ¬running →
            let t := modGang (modGang s gang awaits) gang fun g => { g with saveNext := some 3, preempt := none }
            exec (.absentSuspend gang) s = .next (if otherChips s g = [] then t else { t with sent := t.sent ++ [.save g.desc.launch g.tide 3] })))
    ∧ (∀ (s : State) (gang : Nat) (by_ : KillBy) (g : Gang), Memory.wf s.mem = true → getGang s gang = some g → (by_ = .own ∨ by_ = .host) →
      let ends (kind : Nat) : Prop := ∃ t, exec (.gangKill gang by_) s = .next t ∧ getGang t gang = none
        ∧ hostMsg 0x10 0 0 (BitVec.ofNat 16 g.part) (eventBody kind (g.fatal.getD { member := 0, trapc := 0, tval := 0 }).member
              g.desc.launch (g.fatal.getD { member := 0, trapc := 0, tval := 0 }).trapc
              (g.fatal.getD { member := 0, trapc := 0, tval := 0 }).tval 0 (some g)) ∈ t.outbox
        ∧ (∀ c ∈ g.cores, (∀ j < 512, rawBlock t.mem (.berth c.num j) = []) ∧ ∀ j < 64, rawBlock t.mem (.tile c.num j) = [])
        ∧ ((∃ o ∈ s.owners, o.id = g.desc.owner) → ownerGen t g.desc.owner = ownerGen s g.desc.owner + if kind = 0x0A then 0 else 1)
      let killed : Prop := g.status = .killing ∧ g.kill.isSome = true
      (¬killed → exec (.gangKill gang by_) s = .next (if otherChips s g = [] then s else beginKill s gang none (by_ == .host)))
        ∧ (killed → (partOf s g.part).resetting = false → g.fatal ≠ none → ends 0x02)
        ∧ (killed → (partOf s g.part).resetting = false → g.fatal = none → by_ = .host → ends 0x05)
        ∧ (killed → g.fatal = none → by_ = .own → stillOut g = false → ends 0x0A)
        ∧ (killed → g.fatal = none → by_ = .own → stillOut g = true → exec (.gangKill gang by_) s
            = .next (post { s with free := s.free + 1 } (Config.serviceTime s.free + 1) (.gangKill gang .own))))
    ∧ (∀ (s : State) (gang : Nat) (owner : BitVec 12),
        exec (.gangKill gang (.away owner false)) s = .next { s with gangs := s.gangs.map fun h =>
            if h.desc.owner = owner ∧ h.status = .placed then startClaim s h 3 0 false 0 (some gang) 1 else h }
          ∧ ∃ t, exec (.gangKill gang (.away owner true)) s = .next t ∧ t = { s with owners := t.owners, gangs := t.gangs }
            ∧ ((∃ o ∈ s.owners, o.id = owner) → ownerGen t owner = ownerGen s owner + 1) ∧ t.gangs.length = s.gangs.length
            ∧ ∀ (i : Nat) (h : Gang), s.gangs[i]? = some h → ∃ h', t.gangs[i]? = some h' ∧ h' = { h with hold := h'.hold, cores := h'.cores }
              ∧ h'.hold.active = h.hold.active.filter (fun c => !(c.cause == 3 && c.fence == some gang && c.by_ == 1))
              ∧ (h.desc.owner ≠ owner → h'.cores = h.cores)
              ∧ (h.desc.owner = owner → h'.cores = h.cores.map fun c =>
                  let ctl (r : Ctl) : Ctl := { r with ensign := BitVec.ofNat 64 (owner.toNat * 256 + (ownerGen t owner).toNat) }
                  { c with regs := { c.regs with ctl := ctl c.regs.ctl }, checkpoint := { c.checkpoint with ctl := ctl c.checkpoint.ctl } }))
    ∧ (∀ (s : State) (g : Gang) (r : Nat × Nat × Nat),
        let all := (originsOf s.partCount g.part g.desc.w g.desc.h).filter (usable s g)
        let cost (o : Nat × Nat) : Nat := ((s.gangs.flatMap (·.cores)).filter fun c => inShapeOf o.1 o.2 g.desc.w g.desc.h c).length
        (reserveFor s g = none ↔ all = [])
          ∧ (reserveFor s g = some r → r.1 = g.id ∧ r.2 ∈ all ∧ ∀ o ∈ all, cost r.2 ≤ cost o))
    ∧ (∀ (s : State) (gang : Nat) (chip : BitVec 22), GangIds s → ∃ t, exec (.ensignFenceTimeout gang chip) s = .next t ∧ t.mem = s.mem
        ∧ t.lostChips = s.lostChips ∧ ∀ g, getGang s gang = some g → (g.desc.owner, chip) ∈ t.lostTo
          ∧ (∀ h ∈ s.gangs, h.desc.owner ≠ g.desc.owner → getGang t h.id = some h)
          ∧ ∀ h ∈ s.gangs, h.desc.owner = g.desc.owner → h.status = .placed → chip ∈ h.desc.chips → chip ≠ s.chip → ∃ h',
              getGang t h.id = some h' ∧ h'.aborted = some { trapc := 0x13, tval := BitVec.ofNat 64 h.tide, forced := true }
                ∧ h'.saveNext = some 2 ∧ h'.kind = 7)
    ∧ (∀ (s : State) (chip : BitVec 22), GangIds s → ∃ t, exec (.chipLost chip) s = .next t ∧ chip ∈ t.lostChips ∧ t.mem = s.mem
        ∧ ∀ g ∈ s.gangs, g.status = .placed → chip ∈ g.desc.chips → chip ≠ s.chip → ∃ g', getGang t g.id = some g'
          ∧ g'.aborted = some { trapc := 0x13, tval := BitVec.ofNat 64 g.tide, forced := true } ∧ g'.saveNext = some 2 ∧ g'.kind = 7
          ∧ g'.barrier = none ∧ g'.tide = g.tide)
    ∧ (∀ (s : State) (gang : Nat) (g : Gang), getGang s gang = some g →
        (g.fatal = none → exec (.poisonEscalation gang) s = .next s)
          ∧ (∀ f, g.fatal = some f → ∃ slot, exec (.poisonEscalation gang) s = .next (killFatal s gang { f with slot := slot }))
          ∧ (g.status = .killing → ∀ f, killFatal s gang f = s)
          ∧ (g.status ≠ .killing → ∀ f, ∃ (t : State) (g' : Gang), t = killFatal s gang f ∧ getGang t gang = some g' ∧ g'.status = .killing
              ∧ g'.fatal = some f ∧ g'.kill = g.kill ∧ ((∃ k ∈ t.tickets, k.cmd = killRecord g) ∨ killRecord g ∈ t.backlog)))

/-- R338 to R346: a save leaves a descriptor, its hold record and its frame, block by block as R339 to R343 lay it out, with its cores,
banks and slots free; a restoration waits for its place, gives back the exchanged blocks and what the frame records of the registers, and
starts with the other chips. That a save's message to a copy that is not about to be saved is a request (log 74), and that a KIND 3 message
suspends that copy too (log 83), is the model's reading. -/
def Obligations.ContextsAreKept : Prop :=
  (∀ (s : State) (gang : Nat) (word : Option Nat) (g : Gang) (kind : Nat), getGang s gang = some g →
      let saves := exec (.contextSave ⟨gang, word⟩) s
      (g.saveNext = none ∧ otherChips s g = [] ∨ g.saveNext = some kind ∧ saveReady g = false → saves = .next s)
        ∧ (g.saveNext = none → otherChips s g ≠ [] →
            (g.status ≠ .placed → saves = .next s)
              ∧ (g.status = .placed → word ≠ some 3 → g.preempt = none → ∃ (t : State) (h : Gang),
                  saves = .next t ∧ getGang t gang = some h ∧ h.preempt.isSome = true ∧ h.cores = g.cores ∧ t.mem = s.mem)
              ∧ (g.status = .placed → word = some 3 → saves = .next (
                  if mustRollBack g = true ∨ awaitedByInvalidate s g = true then forceRollback s gang 0x06 (BitVec.ofNat 64 g.tide) (some 2)
                  else modGang s gang fun g => { g with saveNext := some 3, preempt := none })))
        ∧ (g.saveNext = some kind → saveReady g = true → kind ≠ 2 → awaitedByInvalidate s g = true → (∀ c ∈ g.cores, c.trapped = false) →
            saves = .next (forceRollback s gang 0x13 (BitVec.ofNat 64 g.tide) (some 2)))
        ∧ (g.saveNext = some kind → saveReady g = true → (kind = 2 ∨ awaitedByInvalidate s g = false) →
            (∀ i c unit entry, rollbackFault g none = some (i, c, unit, entry) → saves = .next (rollbackFatal s gang i c unit entry))
            ∧ (rollbackFault g none = none → ∀ g1, getGang (landAllDue (performAll s gang) gang) gang = some g1 →
                let s1 : State := landAllDue (performAll s gang) gang
                ((∃ c ∈ g1.cores, c.raised ≠ []) → saves = .next (settle s1 gang))
                ∧ ((∀ c ∈ g1.cores, c.raised = []) → Memory.wf s1.mem = true → ∃ (t : State) (h : Gang), saves = .next t ∧ getGang t gang = some h
                    ∧ h.status = (if g1.awaitPage.isSome then .absent else if g1.kind = 7 then .lost else .saved)
                    ∧ h.desc = g1.desc ∧ h.cores = [] ∧ h.quays = [] ∧ h.quays2 = [] ∧ h.hold.holds = g1.hold.holds ∧ h.hold.cycles = g1.hold.cycles
                    ∧ h.kept.length = g1.cores.length ∧ (∃ e ∈ t.agenda, e.2 = .scheduleDecision g1.part)
                    ∧ (otherChips s1 g1 ≠ [] → Sent.save g1.desc.launch g1.tide kind ∈ t.sent)
                    ∧ (∀ c ∈ g1.cores, (∀ j < 512, rawBlock t.mem (.berth c.num j) = []) ∧ ∀ j < 64, rawBlock t.mem (.tile c.num j) = [])
                    ∧ ((∀ sl, hasLatent (rawBlock s1.mem sl) = false) → (∀ c ∈ g1.cores, c.num < 1024) → g1.cores.length ≤ 2 * g1.size →
                        (g1.desc.pair = false → g1.cores.length ≤ g1.size ∧ g1.quays2 = []) → quayCount g1.quays2 ≤ quayCount g1.quays →
                        (∀ p ∈ quayMoves s1 g1, 589824 ≤ slotNumber p.2 ∧ slotNumber p.2 < 720896) →
                        (∀ c ∈ g1.cores, (imagesHeld c).length ≤ 64 ∧ ∀ m ∈ c.cmds.toList, ∀ q, m = some q →
                          q.tileA.length ≤ 8 ∧ q.tileB.length ≤ 8) →
                        (∀ (x y : Bool) (i j : Nat), (x = true ∨ y = true → g1.desc.pair = true) → i < regionSize g1 → j < regionSize g1 →
                          slotNumber (frameSlot s1 g1 x i) = slotNumber (frameSlot s1 g1 y j) → x = y ∧ i = j) →
                        let holds (frame : Slot) (b : Cells) : Prop := (∀ o < 4096, cget (getBlock t g1.desc.owner frame) o = cget b o)
                          ∧ blkValid (getBlock t g1.desc.owner frame) = blkValid b ∧ blkGen (getBlock t g1.desc.owner frame) = blkGen b
                        (∀ p ∈ quayMoves s1 g1, holds p.1 (rawBlock s1.mem p.2))
                          ∧ ∀ (k : Nat) (c : Core), g1.cores[k]? = some c →
                            let map := (g1.safeNow[k]?).getD 0
                            let frame (i : Nat) : Slot := memberFrame s1 g1 k i
                            (∀ p ∈ exchangedSlots g1 c kind map, holds (frame p.1) (rawBlock s1.mem p.2))
                              ∧ (∀ j p, (imagesHeld c)[j]? = some p → holds (frame (576 + j)) p.2)
                              ∧ ∃ s2 : State, s2 = { s1 with mem := s2.mem }
                                ∧ (∀ sl, slotPorted sl = false → slotNumber sl < 720896 → rawBlock s2.mem sl = rawBlock s1.mem sl)
                                ∧ ∀ p ∈ stateBlocks s2 g1 k c kind map, holds (frame p.1) (writtenBlock p.2))))))
    ∧ (∀ (g : Gang) (k : Nat) (c : Core) (kind map : Nat),
        let b := coreRecord g k c kind map
        let live := liveOf g kind map
        cle b 0 8 = g.tide % 2 ^ 64 ∧ cle b 8 1 = kind % 256 ∧ cle b 9 1 = (if kind = 1 then map % 256 else 0) ∧ cle b 10 1 = g.aborts % 256
          ∧ cle b 12 1 = c.accWritten.toNat ∧ cle b 14 2 = c.log.length % 65536 ∧ cle b 16 4 = g.desc.launch.toNat
          ∧ cle b 20 2 = memberOf g k % 65536 ∧ cle b 24 8 = c.regs.ctl.trappc.toNat
          ∧ cle b 32 8 = (if kind = 1 ∨ kind = 3 then (c.regs.sNext - g.tide) % 2 ^ 64 else 0)
          ∧ (∀ i < 64, cle b (64 + 8 * i) 8 = if live.g.getLsbD i then (c.regs.rgn i).toNat else 0)
          ∧ (∀ i : Fin 16, i ≠ 0 → cle b (576 + 16 * i.val) 16 = if live.p.getLsbD i.val then c.regs.p[i].toNat else 0)
          ∧ (∀ i n, frameCtl[i]? = some n → cle b (832 + 8 * i) 8 = ((readCtl c g.tide n).getD 0).toNat) ∧ frameCtl.length = 56
          ∧ cle b 1280 64 = c.regs.park.toNat ∧ (∀ i : Fin 3, cle b (1344 + 8 * i.val) 8 = c.regs.q[i].addr.toNat)
          ∧ (∀ i : Fin 3, (BitVec.ofNat 64 (cle b 1368 8)).getLsbD i.val = c.regs.q[i].null)
          ∧ (∀ i : Fin 3, cle b (1376 + 16 * i.val) 8 = c.regs.points[i].addr.toNat
              ∧ cle b (1384 + 16 * i.val) 8 = (c.regs.points[i].next - g.tide) % 2 ^ 64)
          ∧ (∀ i : Fin 8, cle b (1424 + i.val) 1 = c.regs.tokens[i] % 256 ∧ cle b (1432 + 8 * i.val) 8 = c.regs.latch[i].toNat)
          ∧ ∀ i : Fin 2, cle b (1496 + 8 * i.val) 8 = c.regs.gpos[i] % 2 ^ 64)
    ∧ (∀ (s : State) (gang x0 y0 : Nat) (g : Gang), getGang s gang = some g →
        (g.status ≠ .placed ∨ g.started = true ∨ g.kept = [] ∨ g.x0 ≠ x0 ∨ g.y0 ≠ y0 → exec (.contextRestore gang x0 y0) s = .next s)
          ∧ (g.status = .placed → g.started = false → g.kept ≠ [] → g.x0 = x0 → g.y0 = y0 → ∃ (t : State) (h : Gang),
              exec (.contextRestore gang x0 y0) s = .next t ∧ getGang t gang = some h ∧ h.kept = []
                ∧ h.tide = cle (getBlock s g.desc.owner (memberFrame s g 0 776)) 0 8 ∧ h.desc = g.desc ∧ h.awaitPage = none
                ∧ h.aborts = cle (getBlock s g.desc.owner (memberFrame s g 0 776)) 10 1
                ∧ (otherChips s g = [] → ∃ e ∈ t.agenda, e.2 = .multichipStart gang) ∧ (otherChips s g ≠ [] → Sent.placed g.desc.launch ∈ t.sent)
                ∧ (Memory.wf s.mem = true → g.kept.length = g.cores.length → g.cores.length ≤ 2 * g.size →
                    (g.desc.pair = false → g.cores.length ≤ g.size ∧ g.quays2 = []) → quayCount g.quays2 ≤ quayCount g.quays →
                    (∀ p ∈ quayMoves s g, 589824 ≤ slotNumber p.2 ∧ slotNumber p.2 < 720896) →
                    ((quayMoves s g).map fun p => slotNumber p.2).Nodup →
                    (∀ sl, hasLatent (rawBlock s.mem sl) = false) → (g.cores.map Core.num).Nodup → (∀ c ∈ g.cores, c.num < 1024) →
                    (∀ (x : Bool) (i : Nat), (x = true → g.desc.pair = true) → i < regionSize g → storedTag (rawBlock s.mem (frameSlot s g x i)) = some (tagOf s g.desc.owner)) →
                    (∀ (x y : Bool) (i j : Nat), (x = true ∨ y = true → g.desc.pair = true) → i < regionSize g → j < regionSize g →
                      slotNumber (frameSlot s g x i) = slotNumber (frameSlot s g y j) → x = y ∧ i = j) →
                    (∀ p ∈ quayMoves s g, ∀ o < 4096, cget (rawBlock t.mem p.2) o = cget (getBlock s g.desc.owner p.1) o)
                    ∧ ∀ (k : Nat) (c : Core), g.cores[k]? = some c → ∃ c' : Core, h.cores[k]? = some c' ∧ c'.x = c.x ∧ c'.y = c.y
                      ∧ let block (i : Nat) : Cells := getBlock s g.desc.owner (memberFrame s g k i)
                        let kind := cle (block 776) 8 1
                        let map := cle (block 776) 9 1
                        let live := liveOf g kind map
                        let r := readRecord g (block 776) (fun i => block (768 + i)) c.regs
                        (∀ p ∈ exchangedSlots g c kind map, ∀ o < 4096, cget (rawBlock t.mem p.2) o = cget (block p.1) o)
                          ∧ c'.regs.g = r.g ∧ c'.regs.p = r.p ∧ c'.regs.v = r.v ∧ c'.regs.park = r.park ∧ c'.regs.tokens = r.tokens
                          ∧ c'.regs.latch = r.latch ∧ c'.regs.gpos = r.gpos ∧ c'.regs.ctl.fpcsr = r.ctl.fpcsr ∧ c'.regs.ctl.tshp = r.ctl.tshp
                          ∧ c'.regs.ctl.gangid = c.regs.ctl.gangid ∧ c'.regs.ctl.ensign = c.regs.ctl.ensign
                          ∧ c'.regs.ctl.coreloc = c.regs.ctl.coreloc
                          ∧ (∀ n : Fin 4, c'.acc[n] = (if live.a.getLsbD n.val then readAcc fun i => block (640 + 16 * n.val + i)
                                else Vector.replicate 128 (Vector.replicate 128 0))
                              ∧ c'.shadow[n] = readAcc fun i => block (704 + 16 * n.val + i)))))
    ∧ (∀ (g : Gang) (k : Nat) (c : Core) (kind map : Nat) (vec : Nat → Cells), kind < 256 → kind ≠ 1 → c.regs.g[0] = 0 →
        c.regs.p[0] = BitVec.allOnes 128 →
        let r := readRecord g (coreRecord g k c kind map) vec c.regs
        r.g = c.regs.g ∧ r.p = c.regs.p ∧ r.park = c.regs.park ∧ r.latch = c.regs.latch ∧ r.ctl.trappc = c.regs.ctl.trappc
          ∧ r.q = c.regs.q ∧ r.ctl.fpcsr = c.regs.ctl.fpcsr &&& ctlMask 0xB0)
    ∧ (∀ (f : Nat → Cells) (i j : Fin 128),
        (readAcc f)[i][j] = BitVec.ofNat 32 (cle (f (i.val / 8)) (512 * (i.val % 8) + 4 * j.val) 4))
    ∧ (∀ (a : Acc) (i j : Fin 128), (readAcc (fun b => accBlock a b))[i][j] = a[i][j])

/-! ## The host -/

/-- R354 to R356, R360 to R362: a malformed command, an owner without a key and an unknown gang or partition are acknowledged with their
codes; INVALIDATE makes entries absent and is acknowledged once nothing reaches their slots; POPULATE and REFRESH make them present at
consecutive slots; KILL and RESET end gangs. -/
def Obligations.TranslationCommands : Prop :=
  (∀ (s : State) (n : Nat) (r : CmdRec),
      (recOk r = false → recordCode s r = some 1)
        ∧ (recOk r = true → opOf r ≠ 5 → ownerBound s (recOwner r) = none → recordCode s r = some 4)
        ∧ (recOk r = true → opOf r = 5 → s.partCount ≤ recPart r → recordCode s r = some 5)
        ∧ (recOk r = true → opOf r = 3 ∨ opOf r = 4 → ownerBound s (recOwner r) ≠ none →
            (∀ g ∈ s.gangs, ¬(g.desc.owner = recOwner r ∧ g.desc.launch = recLaunch r)) → recordCode s r = some 5)
        ∧ (∀ c, recordCode s r = some c → ∀ i ∈ [Instr.invalidate n r, .populate n r, .refresh n r, .kill n r, .reset n r],
            exec i s = .next (ackTicket s n (BitVec.ofNat 64 c)))
        ∧ (recordCode s r = none → ∀ c, applyCommand s r = .error c → ∀ i ∈ [Instr.invalidate n r, .populate n r, .refresh n r],
            exec i s = .next (ackTicket s n (BitVec.ofNat 64 c)))
        ∧ (recordCode s r = none → ∀ t k, applyCommand s r = .ok (t, k) →
            let status := BitVec.ofNat 64 (k * 65536)
            let a : State := { t with tickets := t.tickets.map fun q => if q.num = n then { q with applied := some status } else q }
            let was := (t.gangs.filter fun g => g.desc.owner == recOwner r).map fun g => (g.id, g.manifest)
            let b : State := { a with tickets := a.tickets.map fun q => if q.num = n then { q with was := was } else q }
            exec (.invalidate n r) s = .next (pumpQueue (post { b with free := b.free + 1 } (Config.serviceTime b.free) (.invalidateAck n)))
              ∧ exec (.populate n r) s = .next (ackTicket (wakeSuspended a r) n status)
              ∧ exec (.refresh n r) s = .next (ackTicket a n status)))
    ∧ (∀ (s t : State) (r : CmdRec) (k : Nat), applyCommand s r = .ok (t, k) → k = ((targetGangs s r).filter fun g =>
        let changes (m : Manifest) : Bool := touches r m && match commandOn s g.part r m with | .ok n => n != m | .error _ => false
        changes (imageManifest s g.part g.desc.manifest) || g.status != .queued && changes g.manifest).length)
    ∧ (∀ (s : State), s.backlog = [] → ∃ t, pumpQueue s = t ∧ t.mem = s.mem ∧ t.gangs = s.gangs ∧ t.tickets.map (·.num) = s.tickets.map (·.num))
    ∧ (∀ (s : State) (n : Nat) (status : Dword), s.backlog = [] → (∀ t ∈ (ackTicket s n status).tickets, t.num = n → t.acked = some status)
        ∧ (ackTicket s n status).tickets.length = s.tickets.length ∧ (ackTicket s n status).mem = s.mem
        ∧ ((∃ t ∈ s.tickets, t.num = n ∧ t.host = true) →
            hostMsg 0x10 0 0 0xFFFF (eventBody 0x08 0 0 0 0 (Config.ackWord n status) none) ∈ (ackTicket s n status).outbox))
    ∧ (∀ (s : State) (n : Nat),
        ((∀ t ∈ s.tickets, t.num = n → t.acked ≠ none) → exec (.invalidateAck n) s = .next s)
          ∧ ∀ t, s.tickets.find? (fun t => t.num == n && t.acked.isNone) = some t →
            ((∃ g ∈ s.gangs, stillReaches s t g = true) → exec (.invalidateAck n) s
                = .next (post { s with free := s.free + 1 } (Config.serviceTime s.free + 1) (.invalidateAck n)))
            ∧ ((∀ g ∈ s.gangs, stillReaches s t g = false) → exec (.invalidateAck n) s = .next (ackTicket s n (t.applied.getD 0))))
    ∧ (∀ (r : CmdRec) (e : MEntry),
        meVba (alterEntry r e) = meVba e ∧ meCount (alterEntry r e) = meCount e ∧ meLevel (alterEntry r e) = meLevel e
          ∧ mePsize (alterEntry r e) = mePsize e ∧ meValid (alterEntry r e) = meValid e
          ∧ (opOf r = 1 → mePresent (alterEntry r e) = false ∧ (alterEntry r e).dw1 = e.dw1 ∧ meRead (alterEntry r e) = meRead e
              ∧ meWrite (alterEntry r e) = meWrite e)
          ∧ (opOf r ≠ 1 → mePresent (alterEntry r e) = true ∧ meSlot (alterEntry r e) = (recSlot r + (meVba e - recFirst r)) % 2 ^ 32
              ∧ meWrite (alterEntry r e) = r.dw3.getLsbD 63 ∧ meRead (alterEntry r e) = r.dw3.getLsbD 62
              ∧ meCow (alterEntry r e) = r.dw3.getLsbD 61))
    ∧ (∀ (r : CmdRec) (i : Nat) (e : MEntry) (m : Manifest), meValid e = true → hintTakes r (meLevel e) = true →
        ((meVba e + meCount e ≤ recFirst r ∨ recFirst r + recCount r ≤ meVba e) → changeEntry r (i, e) m = .ok m)
          ∧ (1 ≤ meCount e → recFirst r ≤ meVba e → meVba e + meCount e ≤ recFirst r + recCount r → meCount e % pageBlocks (mePsize e) = 0 →
              (opOf r = 1 → mePresent e = true) → changeEntry r (i, e) m = .ok (setEntry m i (alterEntry r e))))
    ∧ (∀ (s : State) (n : Nat) (r : CmdRec) (g : Gang), recordCode s r = none → opOf r = 4 →
        s.gangs.find? (fun g => g.desc.owner == recOwner r && g.desc.launch == recLaunch r) = some g →
        let a : State := { s with tickets := s.tickets.map fun q => if q.num = n then { q with applied := some 65536 } else q }
        (g.status = .queued → ∃ t, exec (.kill n r) s = .next t ∧ getGang t g.id = none
            ∧ hostMsg 0x10 0 0 (BitVec.ofNat 16 g.part) (eventBody 0x05 0 g.desc.launch 0 0 0 none) ∈ t.outbox)
          ∧ (g.status ≠ .queued → exec (.kill n r) s = .next (beginKill a g.id none true))
          ∧ (getGang s g.id = some g → g.kill = none → atBoundary s g = true →
              beginKill a g.id none true = modGang a g.id fun h => { h with kill := some true, fatal := g.fatal })
          ∧ (getGang s g.id = some g → g.kill = none → atBoundary s g = false → ∃ (t : State) (g' : Gang), beginKill a g.id none true = t ∧ getGang t g.id = some g'
              ∧ g'.status = .killing ∧ ∃ e ∈ t.agenda, e.2 = .gangKill g.id .host))
    ∧ (∀ (s : State) (n : Nat) (r : CmdRec), recordCode s r = none → opOf r = 5 → recPart r < 4 → s.newCount = none →
        (∀ g ∈ s.gangs, g.part = recPart r → g.status = .queued) →
        ∃ t, exec (.reset n r) s = .next t ∧ (∀ g ∈ t.gangs, g.part ≠ recPart r) ∧ (partOf t (recPart r)).images = []
          ∧ (partOf t (recPart r)).sched = schedReset ∧ (partOf t (recPart r)).resetting = false
          ∧ (∀ o ∈ t.owners, o.bound ≠ some (recPart r))
          ∧ hostMsg 0x10 0 0 (BitVec.ofNat 16 (recPart r)) (eventBody 0x09 0 0 0 0 0 none) ∈ t.outbox)

/-- R326 to R328, R358, R363 to R366, R395, R398, R399: a request outside its session or with a header that R363 does not form is dropped,
and one of another TYPE or LENGTH is refused as malformed; any other is answered in its own type and sequence, by its body or by its reason.
KEY binds, IMAGE stores, LAUNCH queues, QUERY reports, CANCEL ends, releases, resumes or restores, RESET clears. The form in which an IMAGE
carries a firmware copy is the model's choice (log 51). -/
def Obligations.PilotRequests : Prop :=
  ∀ (s : State) (h : Hdr) (resv : Nat) (launch : Word) (nonce : BitVec 256) (owner : BitVec 16) (wrapped : BitVec 576) (msg : List Byte)
    (kind last mode : Byte) (handle count : Word) (off total : Dword) (p : Piece) (desc : List Dword),
    let ok (type len : Nat) : Prop := hdrOk h type len = true ∧ h.session ∈ s.sessions
    let reply (i : Instr) (t : State) (body : List Byte) : Prop :=
      exec i s = .next { t with outbox := t.outbox ++ [hostMsg h.type 1 h.seq h.part body] }
    let refuses (i : Instr) (reason : Nat) : Prop :=
      exec i s = .next { s with outbox := s.outbox ++ [hostMsg h.type 3 h.seq h.part (leBytes 4 reason)] }
    let part := h.part.toNat
    let here : Prop := part < s.partCount
    let found (g : Gang) : Prop := s.gangs.find? (fun g => g.part == part && g.desc.launch == launch) = some g
    (∀ q ∈ [(Instr.attest h nonce, 2, 32), (.key h owner resv wrapped, 3, 76), (.image h kind handle off total last resv p, 4, 32 + pieceLen p),
            (.launch h desc, 5, 8 * desc.length), (.query h launch resv, 6, 8), (.cancelKill h launch mode resv, 7, 8),
            (.cancelRelease h launch resv, 7, 8), (.cancelResume h launch resv, 7, 8), (.cancelRestore h launch resv, 7, 8),
            (.pilotReset h count, 8, 4)],
        ((hdrForm h = false ∨ h.session ∉ s.sessions) → exec q.1 s = .next s)
        ∧ (hdrForm h = true → h.session ∈ s.sessions → (h.type.toNat ≠ q.2.1 ∨ h.len.toNat ≠ q.2.2) → refuses q.1 1))
      ∧ (hdrOk h 1 msg.length = false → exec (.hello h msg) s = .next s)
      ∧ (hdrOk h 1 msg.length = true → (Config.spdmSigns msg = false ∨ s.leaf < 2 ^ 20) → reply (.hello h msg)
          { s with
            leaf := if Config.spdmSigns msg then s.leaf + 1 else s.leaf
            sessions := match Config.spdmOpens msg with
              | some n => if n ∈ s.sessions then s.sessions else s.sessions ++ [n]
              | none => s.sessions } (Config.spdmReply s.keys.identity s.keys.session s.leaf msg))
      ∧ (hdrOk h 1 msg.length = true → Config.spdmSigns msg = true → 2 ^ 20 ≤ s.leaf → refuses (.hello h msg) 4)
      ∧ (ok 2 32 → (s.leaf < 2 ^ 20 → reply (.attest h nonce) { s with leaf := s.leaf + 1 }
            (attestReport s nonce ++ Config.sign s.keys.identity s.leaf (attestReport s nonce)))
          ∧ (2 ^ 20 ≤ s.leaf → refuses (.attest h nonce) 4))
      ∧ (ok 3 76 → here → resv = 0 → owner ≠ 0 → owner.toNat < 4096 →
          let o : BitVec 12 := owner.setWidth 12
          (∀ b, ownerBound s o = some b → b ≠ part → refuses (.key h owner resv wrapped) 0x19)
            ∧ ((∀ b, ownerBound s o = some b → b = part) → ∀ key, Config.unwrap s.keys.session h.session wrapped = some key →
                ∃ t, reply (.key h owner resv wrapped) t [] ∧ ownerBound t o = some part ∧ ownerGen t o = ownerGen s o ∧ t.gangs = s.gangs))
      ∧ (ok 4 (32 + pieceLen p) → here → resv = 0 → kind.toNat < 3 → last.toNat < 2 → pieceFits kind.toNat p = true →
          let q := partOf s part
          (handle = 0 → (kind = 1 → total = 1114112) → (kind = 2 → total = 8192) → q.images.length < 1024 →
              off.toNat + pieceLen p ≤ total.toNat →
              let i : Image := { handle := BitVec.ofNat 32 q.nextHandle, kind := kind.toNat, total := total.toNat }
              reply (.image h kind handle off total last resv p) (modPart s part fun q => { q with
                images := q.images ++ [addPiece i off.toNat (last == 1) p], nextHandle := q.nextHandle + 1 }) (leBytes 4 i.handle.toNat))
            ∧ (handle ≠ 0 → getImage q handle = none → refuses (.image h kind handle off total last resv p) 1)
            ∧ (∀ i, handle ≠ 0 → getImage q handle = some i → i.kind = kind.toNat → i.sealed = false → total = 0 →
                off.toNat + pieceLen p ≤ i.total → reply (.image h kind handle off total last resv p) (modPart s part fun q => { q with
                  images := q.images.map fun k => if k.handle = handle then addPiece i off.toNat (last == 1) p else k })
                  (leBytes 4 handle.toNat)))
      ∧ (∀ n f, p = .firmware n f → ok 4 (32 + n) → reply (.image h kind handle off total last resv p) (post { s with
          fwCopies := vmod s.fwCopies (1 - s.fwCopy) fun _ => { f with raise := false }
          fwMinimum := if f.raise = true ∧ s.fwMinimum.toNat < f.version.toNat then f.version else s.fwMinimum } 0 .warmStart) (leBytes 4 0))
      ∧ (ok 5 (8 * desc.length) →
          (launchReasons s h desc = [] → reply (.launch h desc) (enqueueLaunch s part (descOf s desc).1) []
            ∧ ((∀ n ∈ (descOf s desc).1.deps, ∀ e ∈ (partOf s part).ends, e.launch = n → e.normal = true) →
                let d := (descOf s desc).1
                ∃ g ∈ (enqueueLaunch s part d).gangs, g.id = s.nextGang ∧ g.part = part ∧ g.desc = d ∧ g.status = .queued ∧ g.age = s.ptide
                  ∧ g.cores = []))
          ∧ (∀ n ∈ launchReasons s h desc, (∀ m ∈ launchReasons s h desc, n ≤ m) → refuses (.launch h desc) n))
      ∧ (ok 6 8 → resv = 0 → here →
          (launch = 0 → reply (.query h launch resv) s (partReply s part))
            ∧ (launch ≠ 0 → ∀ g, found g → reply (.query h launch resv) s (launchReply s part launch (stateCode g) (phaseOf g) g.hold))
            ∧ (launch ≠ 0 → (∀ g ∈ s.gangs, ¬(g.part = part ∧ g.desc.launch = launch)) →
                (∀ e ∈ (partOf s part).ends, e.launch ≠ launch) → refuses (.query h launch resv) 5)
            ∧ (launch ≠ 0 → (∀ g ∈ s.gangs, ¬(g.part = part ∧ g.desc.launch = launch)) → ∀ e, (partOf s part).ends = [e] → e.launch = launch →
                reply (.query h launch resv) s (launchReply s part launch (if e.normal then 5 else 6) 0 {})))
      ∧ (ok 7 8 → resv = 0 → here → ∀ g, found g →
          (mode = 0 → reply (.cancelKill h launch mode resv) (killByHost s g) []) ∧ (mode ≠ 0 → refuses (.cancelKill h launch mode resv) 1)
            ∧ (heldInTrap g = true → reply (.cancelRelease h launch resv) (beginKill s g.id none false) []
                ∧ reply (.cancelResume h launch resv) (resumeGang s g.id) [])
            ∧ (heldInTrap g = false → refuses (.cancelRelease h launch resv) 1 ∧ refuses (.cancelResume h launch resv) 1)
            ∧ (g.status = .lost → reply (.cancelRestore h launch resv)
                (post (modGang s g.id fun g => { g with status := .saved, kind := 0 }) 0 (.scheduleDecision g.part)) [])
            ∧ (g.status ≠ .lost → refuses (.cancelRestore h launch resv) 5))
      ∧ (ok 7 8 → resv = 0 → here → (∀ g ∈ s.gangs, ¬(g.part = part ∧ g.desc.launch = launch)) →
          ∀ i ∈ [Instr.cancelKill h launch mode resv, .cancelRelease h launch resv, .cancelResume h launch resv, .cancelRestore h launch resv],
            refuses i 5)
      ∧ (ok 8 4 → (h.part ≠ 0xFFFF → here → reply (.pilotReset h count) (beginReset s part) [])
          ∧ (h.part = 0xFFFF → (count = 1 ∨ count = 2 ∨ count = 4 → reply (.pilotReset h count) (beginResetAll s count.toNat) [])
            ∧ (count ≠ 1 → count ≠ 2 → count ≠ 4 → refuses (.pilotReset h count) 1)))

/-- R347, R366, R367, R384, R387, R405: READ and WRITE of blocks under an owner's key, of manifest entries, schedule and control registers,
commands, the error record, the black box and the injection word. -/
def Obligations.PilotTransfers : Prop :=
  ∀ (s : State) (h : Hdr) (len handle entry launch : Word) (reg : Byte) (member num : BitVec 16) (resv : Nat) (t : BlockTarget)
    (blocks : List Cells) (entries : List (Dword × Dword)) (vals : List Dword) (val : Dword) (r : CmdRec),
    let ok (type n : Nat) : Prop := hdrOk h type n = true ∧ h.session ∈ s.sessions
    let reply (i : Instr) (t : State) (body : List Byte) : Prop :=
      exec i s = .next { t with outbox := t.outbox ++ [hostMsg h.type 1 h.seq h.part body] }
    let refuses (i : Instr) (reason : Nat) : Prop :=
      exec i s = .next { s with outbox := s.outbox ++ [hostMsg h.type 3 h.seq h.part (leBytes 4 reason)] }
    let part := h.part.toNat
    let here : Prop := part < s.partCount ∧ h.part ≠ 0xFFFF
    let whole (unit n : Nat) : Prop := resv = 0 ∧ len.toNat = unit * n ∧ len.toNat ≤ 2 ^ 24
    let owner : BitVec 12 := t.owner.setWidth 12
    (∀ i ∈ [Instr.readBlocks h len t resv, .readManifest h len handle entry resv, .readSched h len reg resv,
            .readCoreRegister h len launch member num resv, .readErrorRecord h len resv, .readBlackBox h len resv, .readInjection h len resv],
        (hdrForm h = false ∨ h.session ∉ s.sessions → exec i s = .next s)
          ∧ (hdrForm h = true → h.session ∈ s.sessions → h.type ≠ 9 ∨ h.len ≠ 32 → refuses i 1) ∧ (ok 9 32 → resv ≠ 0 → refuses i 1))
      ∧ (∀ i ∈ [Instr.writeBlocks h len t resv blocks, .writeManifest h len handle entry resv entries, .writeSched h len reg resv vals,
            .writeCoreRegister h len launch member num resv vals, .writeCommand h len resv r, .writeInjection h len resv val],
        (hdrForm h = false ∨ h.session ∉ s.sessions → exec i s = .next s)
          ∧ (hdrForm h = true → h.session ∈ s.sessions → h.type ≠ 10 ∨ h.len.toNat ≠ 32 + len.toNat → refuses i 1))
      ∧ (ok 9 32 → ∀ n, whole 4352 n →
          (∀ e, targetSlots s h t n = .error e → refuses (.readBlocks h len t resv) e)
            ∧ (∀ sl, n = 1 → targetSlots s h t 1 = .ok [sl] → slotPorted sl = false → hasLatent (rawBlock s.mem sl) = false →
                reply (.readBlocks h len t resv) s (cbytes (rawBlock s.mem sl) 0 4352)))
      ∧ (ok 10 (32 + len.toNat) → ∀ n, whole 4352 n → blocks.length = n →
          (∀ e, targetSlots s h t n = .error e → refuses (.writeBlocks h len t resv blocks) e)
            ∧ (∀ l, targetSlots s h t n = .ok l →
                reply (.writeBlocks h len t resv blocks) ((l.zip blocks).foldl (fun s p => putBlock s owner p.1 (hostBlock p.2)) s) []))
      ∧ (∀ n, (t.owner = 0 → targetSlots s h t n = .error 1)
          ∧ (t.owner ≠ 0 → t.owner.toNat < 4096 → here → ownerBound s owner = none → targetSlots s h t n = .error 4))
      ∧ (here → ∀ i, getImage (partOf s part) handle = some i → i.kind = 1 → ∀ n, whole 16 n → entry.toNat + n ≤ 69632 →
          (ok 9 32 → reply (.readManifest h len handle entry resv) s (cbytes i.bytes (16 * entry.toNat) (16 * n)))
            ∧ (ok 10 (32 + len.toNat) → entries.length = n → reply (.writeManifest h len handle entry resv entries) (modPart s part fun q => { q with
                images := q.images.map fun k => if k.handle = handle then { k with
                  bytes := entries.zipIdx.foldl (fun b p => putEntry b (entry.toNat + p.2) ⟨p.1.1, p.1.2⟩) i.bytes } else k }) []))
      ∧ (here → ∀ n, whole 8 n → reg.toNat + n ≤ 3 → reg ≠ 3 →
          (ok 9 32 → reply (.readSched h len reg resv) s ((List.range n).flatMap fun i => leBytes 8 (schedOf s part (reg.toNat + i))))
            ∧ (ok 10 (32 + len.toNat) → vals.length = n → ∃ t, reply (.writeSched h len reg resv vals) t []
                ∧ ∀ i, i < 3 → part < 4 → schedOf t part i = if reg.toNat ≤ i ∧ i < reg.toNat + n then (vals.getD (i - reg.toNat) 0).toNat
                    else schedOf s part i))
      ∧ (h.part = 0xFFFF → reg = 3 → len = 8 → resv = 0 → (ok 9 32 → reply (.readSched h len reg resv) s (leBytes 8 s.sched3.toNat))
          ∧ (ok 10 40 → vals = [val] → reply (.writeSched h len reg resv vals)
              { s with sched3 := val &&& 7, level := max s.level (min 4 (val.toNat % 8)) } []))
      ∧ (here → len = 8 → resv = 0 → ∀ g c, s.gangs.find? (fun g => g.part == part && g.desc.launch == launch) = some g →
          member.toNat < g.size → g.cores[member.toNat]? = some c →
          (ok 9 32 → ∀ v, readCtl c g.tide num.toNat = some v → reply (.readCoreRegister h len launch member num resv) s (leBytes 8 v.toNat))
            ∧ (ok 9 32 → readCtl c g.tide num.toNat = none → refuses (.readCoreRegister h len launch member num resv) 1)
            ∧ (ok 10 40 → vals = [val] → 5 ≤ num.toNat → readCtl c g.tide num.toNat ≠ none →
                (num.toNat < 0x10 ∨ 0x18 ≤ num.toNat ∨ tshpOk val = true) → g.desc.pair = false →
                reply (.writeCoreRegister h len launch member num resv vals) (hwrMember s ⟨g.id, member.toNat⟩ num.toNat val) [])
            ∧ (ok 10 40 → vals = [val] → num.toNat < 5 → refuses (.writeCoreRegister h len launch member num resv vals) 1))
      ∧ (ok 10 96 → len = 64 → resv = 0 →
          (queueFull s = true → exec (.writeCommand h len resv r) s = .next (post s 1 (.writeCommand h len resv r)))
            ∧ (queueFull s = false → reply (.writeCommand h len resv r) (postCmd s r true).2 (leBytes 8 s.nextTicket)
                ∧ ∃ q ∈ (postCmd s r true).2.tickets, q.num = s.nextTicket ∧ q.cmd = r ∧ q.host = true ∧ q.acked = none))
      ∧ (h.part = 0xFFFF → resv = 0 → ok 9 32 →
          (len = 4096 → reply (.readErrorRecord h len resv) s (errorRecord s))
            ∧ (∀ n, len.toNat = 64 * n → len.toNat ≤ 2 ^ 24 →
                reply (.readBlackBox h len resv) s ((pad (boxData s) (64 * n)).take (64 * n)))
            ∧ (len = 8 → reply (.readInjection h len resv) s (leBytes 8 s.inject.toNat)))
      ∧ (h.part ≠ 0xFFFF → resv = 0 → ok 9 32 → (len = 4096 → refuses (.readErrorRecord h len resv) 1)
          ∧ (len = 64 → refuses (.readBlackBox h len resv) 1) ∧ (len = 8 → refuses (.readInjection h len resv) 1))
      ∧ (h.part = 0xFFFF → resv = 0 → len = 8 → ok 10 40 →
          (val &&& 0x7FFFFFC000008000 = 0 → reply (.writeInjection h len resv val) { s with inject := val } [])
            ∧ (val &&& 0x7FFFFFC000008000 ≠ 0 → refuses (.writeInjection h len resv val) 1))
      ∧ (∀ (chip : BitVec 22) (b : Cells), Memory.wf b = true →
          (s.inject.getLsbD 63 = false ∨ s.inject.extractLsb' 16 22 ≠ chip → outgoing s chip b = (b, s))
            ∧ (s.inject.getLsbD 63 = true → s.inject.extractLsb' 16 22 = chip →
                (outgoing s chip b).2.inject.getLsbD 63 = false
                ∧ ∀ o, cget (outgoing s chip b).1 o = if o = (s.inject.extractLsb' 0 12).toNat
                    then cget b o ^^^ (1 <<< (s.inject.extractLsb' 12 3).toNat) else cget b o))

/-! ## Faults, repair and power -/

/-- R275, R292, R318, R369, R378 to R380, R386 to R393: an error waits for the read that meets it; rows, lanes, columns, links and ports are
spared, halved, retired and withdrawn with their records. That a corrected error of a register is counted at once is the model's choice
(log 56, DEDUCED), as are the severities of the records (log 42, DEDUCED) and what of lanes, rows, spares and routes is free or named by
the outside (log 57, DESIGN CHOICE). -/
def Obligations.FaultsAndRepair : Prop :=
  ∀ (s : State) (port lane quad column a b stack row : Nat) (unc spare : Bool) (slots : List Nat) (chip : BitVec 22),
    let noted (t : State) (code : BitVec 16) (x y : Nat) : Prop :=
      ∃ r ∈ t.box, r.code = code ∧ r.a = BitVec.ofNat 64 x ∧ r.b = BitVec.ofNat 64 y ∧ r.tide = s.ptide
    (∀ (sl : Slot) (word : Nat) (k : CoreId) (unit entry : Nat) g c, Memory.wf s.mem = true →
        (∃ t, exec (.storageError (.payload sl word unc)) s = .next t ∧ t = { s with mem := t.mem }
            ∧ (∀ q, slotNumber q ≠ slotNumber sl → rawBlock t.mem q = rawBlock s.mem q)
            ∧ (∀ o < 4352, cget (rawBlock t.mem sl) o = cget (rawBlock s.mem sl) o)
            ∧ cbit (rawBlock t.mem sl) (8 * (if unc then latentAt else softAt) + word % 1024) = true)
          ∧ (getMember s k = some (g, c) →
              exec (.storageError (.register k unit entry true)) s
                  = .next (modMember s k fun c => { c with faults := c.faults ++ [(unit, entry, faultIn c unit entry)] })
                ∧ exec (.storageError (.register k unit entry false)) s = .next (countError s (8 * c.quad) 1)
                ∧ exec (.storageError (.rollback k unit entry)) s
                  = .next (modMember s k fun c => { c with faults := c.faults ++ [(8 + unit, entry, 0)] })))
      ∧ (∃ t, exec (.storageError .harbour) s = .next t ∧ (∃ e ∈ t.agenda, e = (s.ptide, .warmStart)) ∧ (∃ r ∈ t.flushed, r.code = 0x00F0)
          ∧ t.mem = s.mem ∧ t.gangs = s.gangs)
      ∧ (∃ t, exec (.hbmRowSpare stack row unc spare slots) s = .next t
          ∧ (unc = false → rowCount s stack row + 1 < 4 → rowCount t stack row = rowCount s stack row + 1 ∧ t.retiredSlots = s.retiredSlots
              ∧ t.mem = s.mem)
          ∧ (unc = true ∨ 4 ≤ rowCount s stack row + 1 →
              hostMsg 0x10 0 0 0xFFFF (eventBody 0x0B 0 0 (if spare then 0x30 else 0x31) (BitVec.ofNat 64 stack) (BitVec.ofNat 64 row) none)
                  ∈ t.outbox
                ∧ (spare = true → t.retiredSlots = s.retiredSlots ∧ (stack, row) ∈ t.sparedRows
                    ∧ t.mem = (slots.foldl (fun s i => (scrub s (.hbm stack i) 0 4096).1) s).mem)
                ∧ (spare = false → noted t 0x0031 stack row ∧ t.mem = s.mem ∧ ∀ i ∈ slots, (stack, i) ∈ t.retiredSlots)))
      ∧ (∀ p, s.ports[port]? = some p → ∃ t q, exec (.laneFail port lane) s = .next t ∧ t.ports[port]? = some q
          ∧ (p.lanes = 0 → t = s)
          ∧ (p.lanes ≠ 0 → p.spare = false → q.spare = true ∧ q.lanes = p.lanes ∧ noted t 0x0040 port lane
              ∧ (s.ptide + min (Config.retrainTime s.free) (2 ^ 20), Instr.laneRetrainDone port) ∈ t.agenda)
          ∧ (p.lanes = 4 → p.spare = true → q.lanes = 2 ∧ noted t 0x0041 port lane
              ∧ (s.ptide + min (Config.retrainTime s.free) (2 ^ 20), Instr.laneRetrainDone port) ∈ t.agenda)
          ∧ (p.lanes ≠ 0 → p.lanes ≠ 4 → p.spare = true → q.lanes = 0 ∧ noted t 0x0042 port lane))
      ∧ (∀ p, s.ports[port]? = some p → ∃ t, exec (.laneRetrainDone port) s = .next t ∧ t.ports[port]? = some { p with paused := 0 }
          ∧ t.gangs = s.gangs ∧ t.mem = s.mem)
      ∧ (∀ p, s.ports[port]? = some p →
          let times := (p.times.filter fun t => s.ptide < t.2 + 2 ^ 30) ++ [(lane, s.ptide)]
          let fails : Prop := 1024 < (times.filter fun t => t.1 == lane).length
          let counted := countError s (960 + 8 * port) 1
          let t : State := { counted with ports := vmod counted.ports port fun p => { p with
            times := if fails then times.filter fun t => t.1 != lane else times } }
          exec (.flitRetry ⟨port, lane⟩) s = .next (if fails then post t 0 (.laneFail port lane) else t)
            ∧ (port < 64 → counterAt counted (960 + 8 * port) = satAdd p.retries 1))
      ∧ (∀ host, ∃ t, exec (.chipRouteRestored ⟨chip, host⟩) s = .next t
          ∧ t = { s with alternate := t.alternate, around := t.around, lostChips := t.lostChips, lostTo := t.lostTo }
          ∧ (∀ c, c ∈ t.lostChips ↔ c ∈ s.lostChips ∧ c ≠ chip) ∧ (∀ c, c ∈ t.alternate ↔ c ∈ s.alternate ∧ c ≠ chip)
          ∧ (host = false → t.lostTo = s.lostTo) ∧ (host = true → ∀ e, e ∈ t.lostTo ↔ e ∈ s.lostTo ∧ e.2 ≠ chip)
          ∧ (∀ l < 184, linkDead s l = true → ∀ alt, routeUses t chip alt l = false))
      ∧ (∀ q, s.quads[quad]? = some q →
          let busy : Prop := ∃ g ∈ s.gangs, holdsQuad g quad = true
          (q.withdrawn = true → exec (.coreRetire quad column) s = .next s ∧ exec (.quadrantWithdraw quad column) s = .next s)
            ∧ (q.withdrawn = false → q.retired ≠ none → exec (.coreRetire quad column) s = .next (post s 0 (.quadrantWithdraw quad column)))
            ∧ (q.withdrawn = false → q.retired = none → ¬busy → ∃ t, exec (.coreRetire quad column) s = .next t
                ∧ t.quads[quad]? = some { q with retired := some column, pending := none, charges := [] } ∧ noted t 0x0050 quad column)
            ∧ (q.withdrawn = false → q.retired = none → busy → ∃ t, exec (.coreRetire quad column) s = .next t
                ∧ t.quads[quad]? = some { q with pending := some column } ∧ (∃ e ∈ t.agenda, e.2 = .coreRetire quad column)
                ∧ ∀ g ∈ t.gangs, g.status = .placed → holdsQuad g quad = true → GangIds s → g.preempt ≠ none)
            ∧ (q.withdrawn = false → ∃ t, exec (.quadrantWithdraw quad column) s = .next t
                ∧ t.quads[quad]? = some { q with withdrawn := true, pending := none, charges := [] } ∧ noted t 0x0051 quad column))
      ∧ (s.routes.getLsbD (pairIndex a b) = true ∨ a = b ∨ 16 ≤ a ∨ 16 ≤ b → exec (.longLinkDeath a b) s = .next s)
      ∧ (s.routes.getLsbD (pairIndex a b) = false → a ≠ b → a < 16 → b < 16 → ∃ t, exec (.longLinkDeath a b) s = .next t
          ∧ t.routes.getLsbD (pairIndex a b) = true ∧ (∀ i, i ≠ pairIndex a b → t.routes.getLsbD i = s.routes.getLsbD i) ∧ t.mem = s.mem
          ∧ noted t 0x0060 (pairIndex a b) 0)
      ∧ (∀ p, s.farPorts[port]? = some p → ∃ t, exec (.farPortDown port) s = .next t ∧ t.farPorts[port]? = some { p with up := false }
          ∧ t.mem = s.mem ∧ ∀ g ∈ s.gangs, ∀ e ∈ farOn s g port, isSecondary g e.1 = false → GangIds s →
            ∃ g', getGang t g.id = some g' ∧ waiting g' 2 e.2.serial = true)
      ∧ (∀ p, s.farPorts[port]? = some p → ∃ t, exec (.farPortReturn port) s = .next t
          ∧ t.farPorts[port]? = some { p with up := p.count != 0 } ∧ t.mem = s.mem
          ∧ ∀ g ∈ s.gangs, ∀ e ∈ farOn s g port, e.2.released = true → ∃ v ∈ t.agenda, v.2 = .xfarPairSwap ⟨g.id, e.1⟩ e.2.serial)
      ∧ exec .blackboxMirror s = .next (post { s with mirror := some s.box } 700000 .blackboxMirror)

/-- R387, R394 to R397, R400, R401, R403: a start halts when a step that must succeed fails; a cold start leaves a fresh package around what
boot flash holds; a warm start ends every gang and voids every on-die slot, and keeps the counters, the maps and HBM; the clock has five
levels; power-off stops everything. That the package tide restarts at 0 (log 10, DESIGN CHOICE), and what a warm start leaves of sessions,
partitions, schedule and injection (log 52, DEDUCED), are the model's choices; the partition count, the level after a start, the record of an unused CXL port and the identifier are
the model's (logs 6, 7, 84 and 85, DESIGN CHOICE), as is the watchdog without firmware (log 5). -/
def Obligations.StartsAndPower : Prop :=
  ∀ (s : State) (failing : List (Nat × Nat)) (far : List Nat),
    let halted (t : State) : Prop := t.power = .halted ∧ t.gangs = [] ∧ t.sessions = []
    let repaired (n : Nat) (t : State) : Prop :=
      let lost (k : Nat) : Prop := t.warm = false ∧ k ∈ Config.untrained n
      (∀ k, lost k → ∀ q, t.hbmStacks[k]? = some q → q.unused = true)
        ∧ (∀ p ∈ s.sparedRows, Config.unmended (n + 1) p.1 p.2 = true → ∀ q, t.hbmStacks[p.1]? = some q → q.unused = true)
        ∧ (∀ p ∈ s.sparedRows, ¬lost p.1 → Config.unmended (n + 1) p.1 p.2 = false → p ∈ t.mendedRows) ∧ t.sparedRows = []
        ∧ ∀ p ∈ Config.unrepaired (n + 2), ∀ q, t.quads[p.1]? = some q → q.withdrawn = true
    let fails : Prop := Config.startFails s.free = true ∨ firmwareCopy s = none
    (fails → ∃ t, exec (.coldStart failing far) s = .next t ∧ halted t)
      ∧ (∀ c, Config.startFails s.free = false → firmwareCopy s = some c → ∃ t, exec (.coldStart failing far) s = .next t
          ∧ t.power = .running ∧ t.warm = false ∧ t.gangs = [] ∧ t.owners = [] ∧ t.sessions = [] ∧ t.mem = [] ∧ t.partCount = 1 ∧ t.level = 0
          ∧ t.ptide = 0 ∧ t.chip = Config.assignedChip (s.free + 1) ∧ t.keys = deriveKeys ∧ t.flushed = s.flushed ∧ t.leaf = s.leaf ∧ t.fwMinimum = s.fwMinimum ∧ t.fwCopy = c
          ∧ t.fwCopies = s.fwCopies ∧ (∀ r, r ∈ t.retiredSlots ↔ r ∈ Config.retiredBase ∨ r ∈ s.retiredSlots)
          ∧ (∀ e ∈ s.agenda, outside e.2 = true → (e.1 - s.ptide, e.2) ∈ t.agenda) ∧ (∃ r ∈ t.box, r.code = 0x0001 ∧ r.a = 0)
          ∧ repaired (s.free + 2) t
          ∧ (∀ p < 8, (far[p]?).getD 0 = 0 → ∃ r ∈ t.box, r.code = 0x0042 ∧ r.a = BitVec.ofNat 64 (64 + p))
          ∧ ∀ (p : Nat) (q : FarPort), t.farPorts[p]? = some q → q.count = (far[p]?).getD 0 ∧ q.up = (q.count != 0)
            ∧ q.first = (far.take p).foldl (· + ·) 0)
      ∧ (fails → ∃ t, exec .warmStart s = .next t ∧ halted t)
      ∧ (∀ c, Config.startFails s.free = false → firmwareCopy s = some c → ∃ t, exec .warmStart s = .next t
          ∧ t.power = .running ∧ t.warm = true ∧ t.gangs = [] ∧ t.tickets = [] ∧ t.sessions = [] ∧ (∀ o ∈ t.owners, o.bound = none)
          ∧ (∀ o, ownerGen t o = ownerGen s o) ∧ t.parts = Vector.replicate 4 Partition.fresh ∧ t.partCount = s.partCount
          ∧ (∀ r, r ∈ t.retiredSlots ↔ r ∈ Config.retiredBase ∨ r ∈ s.retiredSlots) ∧ t.fwCopies = s.fwCopies ∧ t.fwCopy = c
          ∧ (∀ e ∈ s.agenda, outside e.2 = true → e ∈ t.agenda) ∧ t.ports = s.ports ∧ repaired (s.free + 1) t ∧ t.routes = s.routes ∧ t.flushed = s.box.drop (s.box.length - 64)
          ∧ t.level = s.level ∧ t.keys = deriveKeys ∧ t.chip = s.chip
          ∧ (∀ (i : Nat) (k : Stack), s.hbmStacks[i]? = some k → ∃ unused, t.hbmStacks[i]? = some { k with unused := unused })
          ∧ (∀ (i : Nat) (q : Quad), s.quads[i]? = some q → ∃ withdrawn,
              t.quads[i]? = some { q with withdrawn := withdrawn, pending := none, charges := [] })
          ∧ t.inject.getLsbD 63 = false ∧ (∃ r ∈ t.box, r.code = 0x0001 ∧ r.a = 1)
          ∧ (∀ sl, slotNumber sl < slotNumber (.hbm 0 0) → rawBlock t.mem sl = [])
          ∧ ∀ sl, slotNumber (.hbm 0 0) ≤ slotNumber sl → Memory.wf s.mem = true → rawBlock t.mem sl = rawBlock s.mem sl)
      ∧ (s.harbour.firmware ≠ [] → s.harbour.lastIssue + 2 ^ 30 ≤ s.ptide → ∃ t, exec .warmStart s = .next t ∧
          exec .watchdogExpiry s = .next (post t (2 ^ 30) .watchdogExpiry))
      ∧ (s.harbour.firmware = [] → exec .watchdogExpiry s = .next (post s (2 ^ 30) .watchdogExpiry))
      ∧ (s.harbour.firmware ≠ [] → s.ptide < s.harbour.lastIssue + 2 ^ 30 →
          exec .watchdogExpiry s = .next (post s (s.harbour.lastIssue + 2 ^ 30 - s.ptide) .watchdogExpiry))
      ∧ (let r := Config.readings s.free
         exec .throttleRaise s = .next { s with
            free := s.free + 1, level := if 7125 < r.amps ∨ 4200 < r.watts ∨ 100 < r.heat then min 4 (s.level + 1) else s.level }
          ∧ exec .throttleLower s = .next { s with
            free := s.free + 1, level := if 10 * r.amps < 9 * 7125 ∧ 10 * r.watts < 9 * 4200 ∧ r.heat < 90
              then max (min 4 (s.sched3.toNat % 8)) (s.level - 1) else s.level })
      ∧ (firmwareCopy s = none ↔ ∀ c < 2, ∀ f, s.fwCopies[c]? = some f → Config.firmwareOk f.bytes = true → f.version.toNat < s.fwMinimum.toNat)
      ∧ (∃ t, exec .emergencyPowerOff s = .next t ∧ t.power = .off ∧ t.mem = s.mem ∧ t.gangs = s.gangs
          ∧ (∃ r ∈ t.flushed, r.code = 0x00F0))

/-! ## Fetching, stepping and resetting -/

/-- The words that the worked examples of 04, 06 to 11, 12 and 16 to 18 write out, each decoded as its example spells it. -/
def Obligations.WorkedExampleWordsDecode : Prop :=
  let is (cl : Cl) (w : Syl) (i : Instr) : Prop := decodeSyl true cl w none = .ok i
  let two (cl : Cl) (w e : Syl) (i : Instr) : Prop := decodeSyl true cl w (some e) = .ok i
  is .v 0x1212220620A3001 (.vfma { guard := 2, en := true, idle := 1, pushR := true } 3 4 5 6 .rne false)
    ∧ is .s 0x288000219FFFFFF (.bc {} .nt .nz 3 0xFFFFFF)
    ∧ is .s 0x28800045C000003 (.bc {} .nk .pos 11 3)
    ∧ is .s 0x2980001F8000007 (.call {} .none 63 7)
    ∧ is .s 0x2000000A4080003 (.ld {} 5 8 .i32 3)
    ∧ two .m 0x080000480000808 0x000000258000000
        (.mma {} 600 ⟨true, 1, .whole, 0⟩ ⟨false, 0, .whole, 0⟩ ⟨false, 1, .whole, 0⟩ 1)
    ∧ two .m 0x0B8000201002803 0x0000002BC050004
        (.mdrn {} 700 ⟨⟨false, 4, .whole, 0⟩, ⟨true, 0, .whole, 0⟩, some ⟨false, 5, .whole, 0⟩, 0, some 20, false, 0, .rne, false, .f32⟩)
    ∧ is .v 0x340000104800824 (.vcvt {} 8 9 .f32 .rne true .e4m3)
    ∧ is .x 0x080010434D80380 (.xch { popL := true } (.reg 26) 27 28 0)
    ∧ is .x 0x098000434D80388 (.xchp {} 26 27 28 1)
    ∧ is .x 0x090AC0420880248 (.xchg { guard := 1, en := true, idle := 6 } 16 17 18 1)
    ∧ is .x 0x200000428A81AC0 (.xrch {} 20 21 22 3)
    ∧ is .x 0x218A00000B80000 (.xwin { guard := 1, en := true } 23 0)
    ∧ is .x 0x228A00420000080 (.xtri { guard := 1, en := true } 16 0 4 0)

/-- R94 to R96, R117 to R123, R350, R391: decoding what encodes an instruction gives the instruction back, every operand at every
value that its encoding admits. A core of a gang refuses the harbourmaster's opcodes. -/
def Obligations.DecodingUndoesEncoding : Prop :=
  ∀ (i : Instr) (cl : Cl) (w : Syl) (e : Option Syl), i.wf cl = true → encode i = some (w, e) →
    decodeSyl true cl w e = .ok i
      ∧ decodeSyl false cl w e = (if cl = .s ∧ 0x1F0 ≤ w.op.toNat then .error .illegalPriv else .ok i)

/-- R21, R59, R86, R125, R257: who steps next. The head of the agenda when its time has come, alone; the harbourmaster's core; of a
gang that is neither held, aborted, killed nor about to be saved, the first cluster due in the order S, V, M and X of each core: the
instruction that its line decodes to at its issue point is what is executed, and its turn passes on, but to the next member of a
V group. R301: a WAITP that holds a tide is read again first, as soon as a step has performed at its port. A nullified entry issues without
effect but for the port time of its access (log 93), a breakpoint raises BREAK, and a word that is no instruction raises its cause, in a
stamped command on the cycle of its stamp; what raises a cause so counts as its cluster's issue (of a breakpoint: log 76). A stopped
package runs nothing but a cold start. -/
def Obligations.StepRunsTheDecodedInstruction : Prop :=
  (∀ (s : State) (n t : Nat) (g : Gang) (c : Core) (l : Line),
    s.power = .running → s.turn = n + 3 → s.gangs[n]? = some g → g.status = .placed → g.started = true → g.aborted = none →
    g.fatal = none → g.kill = none → (∀ w ∈ g.home, w.outside g = false ∨ lateWindow s g w = false) → g.saveNext = none →
    g.hold.active = [] → g.stage = .issue → chipOverdue s g = none → g.turn ≤ t →
    (∀ u, g.turn ≤ u → u < t → turnDue g u = false) → turnDue g t = true → g.cores[t / 4]? = some c →
    (∀ h ∈ s.gangs, rereadOf s h = none) →
    let cl := clOf t
    let k : CoreId := ⟨g.id, t / 4⟩
    let a := issueAddr c cl
    let stays : State := { setTurn s g.id t with cur := .core k cl }
    let passed : State := { setTurn (setTurn s g.id t) g.id (t + 1) with cur := .core k cl }
    let issue (i : Option Instr) : List Issued := { cl := cl, sync := (l.syl (addrSyl a)).common.sync, rdv := (i.map isRdv).getD false,
                                                    kind := (i.map barrierKind).getD 0, pc := a } :: heldGroup g.lines cl a
    lineAt g.lines a = some l →
      (∀ i, decodeAt false cl l (addrSyl a) = .ok i → (cl = .s → c.regs.q[0].null = false) → breaks c cl a = false →
        step s = exec i (if cl = .v ∧ (l.syl (addrSyl a)).common.group = true then stays else passed))
      ∧ (cl = .s → c.regs.q[0].null = true →
        let null := nullIssue g.lines g.tide c
        let out := nullTime { k := k, hb := false, cl := .s, g := g, core := c, s := passed } null
        step s = .next (modMember out.2 k fun _ => out.1)
          ∧ out.1 = { null with asks := out.1.asks } ∧ (∃ more, out.1.asks = c.asks ++ more ∧ more.length ≤ 1)
          ∧ out.2 = { passed with serial := out.2.serial }
          ∧ (∀ i, fetchAt false g.lines .s a 0 = .ok i → accessOf { k := k, hb := false, cl := .s, g := g, core := c, s := passed } i = none →
              out = (null, passed)))
      ∧ (∀ i, decodeAt false cl l (addrSyl a) = .ok i → (cl = .s → c.regs.q[0].null = false) → breaks c cl a = true → stampWaits g i = false →
        step s = .next (modMember passed k fun c =>
          addRaised c { code := cBreak, cl := cl, tval := c.regs.ctl.bpaddr, pc := a } (issue (some i))))
      ∧ ((cl = .s → c.regs.q[0].null = false) → breaks c cl a = false → ∀ e pc tval code,
        (decodeAt false cl l (addrSyl a) = .error e ∧
          (e, code, tval, pc) ∈ [(Bad.chain, cChain, a &&& ~~~7, a &&& ~~~7),
            (.link, cReserved, l.link.setWidth 64, a &&& ~~~7), (.illegalOp, cIllegalOp, (l.syl (addrSyl a)).setWidth 64, a),
            (.reserved, cReserved, (l.syl (addrSyl a)).setWidth 64, a),
            (.illegalPriv, cIllegalPriv, (l.syl (addrSyl a)).setWidth 64, a)]) →
        step s = .next (modMember passed k fun c => if code ≠ cChain ∧ g.tide < faultCycle g cl a then waitUntil c cl (faultCycle g cl a)
          else addRaised c { code := code, cl := cl, tval := tval, pc := pc } (issue none))))
  ∧ (∀ (s : State) (i : Instr) (l : Line), s.power = .running → s.turn = 2 → (∀ h ∈ s.gangs, rereadOf s h = none) →
    let h := s.harbour
    let a := h.core.regs.q[0].addr
    h.core.regs.sNext ≤ h.tide → harbourWaits h = false → h.core.regs.q[0].null = false → lineAt h.firmware a = some l →
    decodeAt true .s l (addrSyl a) = .ok i → breaks h.core .s a = false →
      step s = exec i { s with turn := 3, cur := .harbour, harbour := { h with lastIssue := s.ptide } })
  ∧ (∀ (s : State) (t : Nat) (i : Instr) (r : List (Nat × Instr)), s.power = .running → s.turn = 0 → s.agenda = (t, i) :: r →
    (∀ h ∈ s.gangs, rereadOf s h = none) →
    step s = if t ≤ s.ptide then exec i { s with agenda := r, cur := .device } else .next { s with turn := 1 })
  ∧ (∀ (s : State) (g : Gang) (i : Instr), s.power = .running → s.gangs.findSome? (rereadOf s) = some i → step s = exec i s
      ∧ (rereadOf s g = some i → ∃ (j : Nat) (c : Core) (a : Access) (v : Word), i = .waitpReread ⟨g.id, j⟩ ∧ g.cores[j]? = some c
        ∧ a ∈ c.accesses ∧ a.op = .waitp v))
  ∧ (∀ (s : State), s.power ≠ .running → (∀ e ∈ s.agenda, isColdStart e.2 = false) →
    step s = .fault (if s.power = .halted then .halted else .poweredOff))

/-- R53, R63, R66, R67, R333, R394, R396: the package after a cold start, and a core as placement leaves it, every register of both at
the value that the manual gives; but that the package tide starts at 0 (log 10, DESIGN CHOICE), and that a package which was never started
runs as after a cold start (log 4), are the model's choices. -/
def Obligations.ResetState : Prop :=
  (State.reset.power = .running ∧ State.reset.keys = deriveKeys ∧ State.reset.warm = false ∧ State.reset.ptide = 0 ∧ State.reset.gangs = [] ∧ State.reset.tickets = []
    ∧ State.reset.sessions = [] ∧ State.reset.mirror = none ∧ (∀ o, ownerGen State.reset o = 0)
    ∧ (∀ p ∈ State.reset.parts.toList, p.images = [] ∧ p.sched = #v[7000000, 70000000, 700000] ∧ p.absorbed = 0 ∧ p.ends = [])
    ∧ (∀ sl, blkValid (rawBlock State.reset.mem sl) = false) ∧ Memory.wf State.reset.mem = true ∧ GangIds State.reset
    ∧ ∃ r, State.reset.box = [r] ∧ r.code = 0x0001 ∧ r.seq = 0 ∧ r.a = 0)
  ∧ ∀ (g : Gang) (gen : Byte) (m : Nat) (named place : Nat × Nat) (tide : Nat), m < 1024 →
    let c := freshCore g gen m named place
    (∀ r : Reg, c.regs.g[r.toNat]? = some 0) ∧ (∀ r : Reg, c.regs.v[r.toNat]? = some (Vector.replicate 128 0))
      ∧ (∀ r : PReg, c.regs.p[r.toNat]? = some (if r = 0 then BitVec.allOnes 128 else 0))
      ∧ (∀ (a : Fin 4) (i j : Fin 128), c.acc[a][i][j] = 0) ∧ c.regs.landings = [] ∧ c.regs.park = 0
      ∧ (∀ k : Fin 8, c.regs.tokens[k] = 0) ∧ (∀ q : Fin 3, c.regs.q[q].null = false) ∧ c.regs.q[0].addr = g.entries[0]
      ∧ (∀ p : Fin 3, c.regs.points[p].addr = g.entries[p.val + 1])
      ∧ (∀ n ∈ [0x001, 0x048, 0x049, 0x040, 0x041, 0x058, 0x060, 0x070, 0x071, 0x072, 0x080, 0x081, 0x082, 0x083, 0x084, 0x085, 0x086,
          0x087, 0x090, 0x0A0, 0x0A8, 0x0B0] ++ List.range' 0x010 8 ++ List.range' 0x020 4 ++ List.range' 0x030 16 ++ List.range' 0x068 8,
          readCtl c tide n = some 0)
      ∧ readCtl c tide 0x000 = some (BitVec.ofNat 64 tide) ∧ readCtl c tide 0x050 = some 0x10000
      ∧ readCtl c tide 0x002 = some ((g.desc.launch.setWidth 64 <<< 16) ||| BitVec.ofNat 64 m)
      ∧ readCtl (freshCore g gen m (5, 17) place) tide 0x003 = some 0x2225
      ∧ readCtl c tide 0x004 = some ((g.desc.owner.setWidth 64 <<< 8) ||| gen.setWidth 64)
      ∧ readCtl c tide 0x0C0 = some (BitVec.ofNat 64 g.caps.length)

/-- R272, R273, R277: memory holds a byte for each byte of each block's payload and side record. It lists addresses in strictly rising
order and no byte that reads as an unlisted one. R328, R365: every launch on the chip has an entry of its own. Every step of a machine
whose memory has that form, or whose entries have numbers of their own, leaves it so. -/
def Obligations.StepKeepsTheInvariants : Prop :=
  ∀ (s t : State), step s = .next t → (Memory.wf s.mem = true → Memory.wf t.mem = true) ∧ (GangIds s → GangIds t)

/-- R94 to R96: every instruction has a meaning. None is refused, and a step stops only in a package that has halted or is without
power, or where an instruction's cursor names no placed core. -/
def Obligations.NothingIsRefused : Prop :=
  ∀ (s : State) (i : Instr) (r : Refusal) (f : Fault), exec i s ≠ .refused r ∧ step s ≠ .refused r
    ∧ (exec i s = .fault f → f = .noCore) ∧ (step s = .fault f → f = .noCore ∨ s.power ≠ .running)

end
end

