-- ==== Sys2Proof/Laws/Encoding.lean ====
section
/-! SUPPORT. The round trips of every field, format and syllable of Decode.lean: what the encoder lays down, the decoder
picks up. -/

namespace Sys2Proof

/-! ## Fields of a concatenation -/

theorem field_high {v w : Nat} (a : BitVec v) (b : BitVec w) (s l : Nat) (h : w ≤ s) :
    (a ++ b).extractLsb' s l = a.extractLsb' (s - w) l := BitVec.extractLsb'_append_eq_of_le h
theorem field_low {v w : Nat} (a : BitVec v) (b : BitVec w) (s l : Nat) (h : s + l ≤ w) :
    (a ++ b).extractLsb' s l = b.extractLsb' s l := BitVec.extractLsb'_append_eq_of_add_le h
theorem field_self {v : Nat} (a : BitVec v) : a.extractLsb' 0 v = a := BitVec.extractLsb'_eq_self
theorem bit_high {v w : Nat} (a : BitVec v) (b : BitVec w) (i : Nat) (h : w ≤ i) : (a ++ b).getLsbD i = a.getLsbD (i - w) := by
  rw [BitVec.getLsbD_append, if_neg (by omega)]
theorem bit_low {v w : Nat} (a : BitVec v) (b : BitVec w) (i : Nat) (h : i < w) : (a ++ b).getLsbD i = b.getLsbD i := by
  rw [BitVec.getLsbD_append, if_pos h]
theorem join_high {v w : Nat} (a : BitVec v) (b : BitVec w) : (a ++ b).extractLsb' w v = a := by
  have : w - w = 0 := Nat.sub_self w
  rw [field_high a b w v (Nat.le_refl w), this, field_self]
theorem join_low {v w : Nat} (a : BitVec v) (b : BitVec w) : (a ++ b).extractLsb' 0 w = b := by
  rw [field_low a b 0 w (by omega), field_self]
theorem join_parts {v w : Nat} (a : BitVec (v + w)) : a.extractLsb' w v ++ a.extractLsb' 0 w = a := by
  refine BitVec.eq_of_getLsbD_eq fun i hi => ?_
  rw [BitVec.getLsbD_append]
  by_cases h : i < w
  · simp [h]
  · rw [if_neg h, BitVec.getLsbD_extractLsb']
    have : i - w < v := by omega
    simp [this, Nat.add_sub_cancel' (Nat.le_of_not_lt h)]
theorem bit_self (b : Bool) : (BitVec.ofBool b).getLsbD 0 = b := by cases b <;> rfl

/-! ## Codes -/

@[simp] theorem Cl.ofCode_code (r : Cl) : Cl.ofCode r.code = r := by cases r <;> rfl
@[simp] theorem Fmt.ofCode_code (r : Fmt) : Fmt.ofCode r.code = some r := by cases r <;> rfl
@[simp] theorem Rnd.ofCode_code (r : Rnd) : Rnd.ofCode r.code = r := by cases r <;> rfl
@[simp] theorem Rel.ofCode_code (r : Rel) : Rel.ofCode r.code = some r := by cases r <;> rfl
@[simp] theorem FRel.ofCode_code (r : FRel) : FRel.ofCode r.code = some r := by cases r <;> rfl
@[simp] theorem Cond.ofCode_code (r : Cond) : Cond.ofCode r.code = some r := by cases r <;> rfl
@[simp] theorem Nul.ofCode_code (r : Nul) : Nul.ofCode r.code = some r := by cases r <;> rfl
@[simp] theorem Scope.ofCode_code (r : Scope) : Scope.ofCode r.code = r := by cases r <;> rfl
@[simp] theorem AtomOp.ofCode_code (r : AtomOp) : AtomOp.ofCode r.code = some r := by cases r <;> rfl
@[simp] theorem RedOp.ofCode_code (r : RedOp) : RedOp.ofCode r.code = some r := by cases r <;> rfl
@[simp] theorem Dir.ofCode_code (r : Dir) : Dir.ofCode r.code = r := by cases r <;> rfl
@[simp] theorem Side.ofCode_code (r : Side) : Side.ofCode r.code = some r := by cases r <;> rfl

/-! ## Formats -/

@[simp] theorem Common.ofBits_toBits (r : Common) : Common.ofBits r.toBits = r := by
  obtain ⟨g, s, e, i, p, q, u, v, y, z⟩ := r
  simp only [Common.ofBits, Common.toBits, Common.mk.injEq]
  refine ⟨?_, ?_, ?_, ?_, ?_, ?_, ?_, ?_, ?_, ?_⟩
  · exact (field_high _ _ _ _ (Nat.le_of_ble_eq_true rfl)).trans <| (field_high _ _ _ _ (Nat.le_of_ble_eq_true rfl)).trans <| (field_high _ _ _ _ (Nat.le_of_ble_eq_true rfl)).trans <| (field_high _ _ _ _ (Nat.le_of_ble_eq_true rfl)).trans <| (field_high _ _ _ _ (Nat.le_of_ble_eq_true rfl)).trans <| (field_high _ _ _ _ (Nat.le_of_ble_eq_true rfl)).trans <| (field_high _ _ _ _ (Nat.le_of_ble_eq_true rfl)).trans <| (field_high _ _ _ _ (Nat.le_of_ble_eq_true rfl)).trans <| (field_high _ _ _ _ (Nat.le_of_ble_eq_true rfl)).trans <| field_self _
  · exact (bit_high _ _ _ (Nat.le_of_ble_eq_true rfl)).trans <| (bit_high _ _ _ (Nat.le_of_ble_eq_true rfl)).trans <| (bit_high _ _ _ (Nat.le_of_ble_eq_true rfl)).trans <| (bit_high _ _ _ (Nat.le_of_ble_eq_true rfl)).trans <| (bit_high _ _ _ (Nat.le_of_ble_eq_true rfl)).trans <| (bit_high _ _ _ (Nat.le_of_ble_eq_true rfl)).trans <| (bit_high _ _ _ (Nat.le_of_ble_eq_true rfl)).trans <| (bit_high _ _ _ (Nat.le_of_ble_eq_true rfl)).trans <| (bit_low _ _ _ (Nat.le_of_ble_eq_true rfl)).trans <| bit_self _
  · exact (bit_high _ _ _ (Nat.le_of_ble_eq_true rfl)).trans <| (bit_high _ _ _ (Nat.le_of_ble_eq_true rfl)).trans <| (bit_high _ _ _ (Nat.le_of_ble_eq_true rfl)).trans <| (bit_high _ _ _ (Nat.le_of_ble_eq_true rfl)).trans <| (bit_high _ _ _ (Nat.le_of_ble_eq_true rfl)).trans <| (bit_high _ _ _ (Nat.le_of_ble_eq_true rfl)).trans <| (bit_high _ _ _ (Nat.le_of_ble_eq_true rfl)).trans <| (bit_low _ _ _ (Nat.le_of_ble_eq_true rfl)).trans <| bit_self _
  · exact (field_high _ _ _ _ (Nat.le_of_ble_eq_true rfl)).trans <| (field_high _ _ _ _ (Nat.le_of_ble_eq_true rfl)).trans <| (field_high _ _ _ _ (Nat.le_of_ble_eq_true rfl)).trans <| (field_high _ _ _ _ (Nat.le_of_ble_eq_true rfl)).trans <| (field_high _ _ _ _ (Nat.le_of_ble_eq_true rfl)).trans <| (field_high _ _ _ _ (Nat.le_of_ble_eq_true rfl)).trans <| (field_low _ _ _ _ (Nat.le_of_ble_eq_true rfl)).trans <| field_self _
  · exact (bit_high _ _ _ (Nat.le_of_ble_eq_true rfl)).trans <| (bit_high _ _ _ (Nat.le_of_ble_eq_true rfl)).trans <| (bit_high _ _ _ (Nat.le_of_ble_eq_true rfl)).trans <| (bit_high _ _ _ (Nat.le_of_ble_eq_true rfl)).trans <| (bit_high _ _ _ (Nat.le_of_ble_eq_true rfl)).trans <| (bit_low _ _ _ (Nat.le_of_ble_eq_true rfl)).trans <| bit_self _
  · exact (bit_high _ _ _ (Nat.le_of_ble_eq_true rfl)).trans <| (bit_high _ _ _ (Nat.le_of_ble_eq_true rfl)).trans <| (bit_high _ _ _ (Nat.le_of_ble_eq_true rfl)).trans <| (bit_high _ _ _ (Nat.le_of_ble_eq_true rfl)).trans <| (bit_low _ _ _ (Nat.le_of_ble_eq_true rfl)).trans <| bit_self _
  · exact (bit_high _ _ _ (Nat.le_of_ble_eq_true rfl)).trans <| (bit_high _ _ _ (Nat.le_of_ble_eq_true rfl)).trans <| (bit_high _ _ _ (Nat.le_of_ble_eq_true rfl)).trans <| (bit_low _ _ _ (Nat.le_of_ble_eq_true rfl)).trans <| bit_self _
  · exact (bit_high _ _ _ (Nat.le_of_ble_eq_true rfl)).trans <| (bit_high _ _ _ (Nat.le_of_ble_eq_true rfl)).trans <| (bit_low _ _ _ (Nat.le_of_ble_eq_true rfl)).trans <| bit_self _
  · exact (bit_high _ _ _ (Nat.le_of_ble_eq_true rfl)).trans <| (bit_low _ _ _ (Nat.le_of_ble_eq_true rfl)).trans <| bit_self _
  · exact (bit_low _ _ _ (Nat.le_of_ble_eq_true rfl)).trans <| bit_self _

@[simp] theorem Ty.ofBits_toBits (r : Ty) : Ty.ofBits r.toBits = r := by
  obtain ⟨r, s, t⟩ := r
  simp only [Ty.ofBits, Ty.toBits, Ty.mk.injEq]
  refine ⟨?_, ?_, ?_⟩
  · exact (field_high _ _ _ _ (Nat.le_of_ble_eq_true rfl)).trans <| (field_high _ _ _ _ (Nat.le_of_ble_eq_true rfl)).trans <| field_self _
  · exact (bit_high _ _ _ (Nat.le_of_ble_eq_true rfl)).trans <| (bit_low _ _ _ (Nat.le_of_ble_eq_true rfl)).trans <| bit_self _
  · exact (field_low _ _ _ _ (Nat.le_of_ble_eq_true rfl)).trans <| field_self _

@[simp] theorem Rrr.ofBits_toBits (r : Rrr) : Rrr.ofBits r.toBits = r := by
  obtain ⟨d, a, b, e, f, t⟩ := r
  simp only [Rrr.ofBits, Rrr.toBits, Rrr.mk.injEq]
  refine ⟨?_, ?_, ?_, ?_, ?_, ?_⟩
  · exact (field_high _ _ _ _ (Nat.le_of_ble_eq_true rfl)).trans <| (field_high _ _ _ _ (Nat.le_of_ble_eq_true rfl)).trans <| (field_high _ _ _ _ (Nat.le_of_ble_eq_true rfl)).trans <| (field_high _ _ _ _ (Nat.le_of_ble_eq_true rfl)).trans <| (field_high _ _ _ _ (Nat.le_of_ble_eq_true rfl)).trans <| field_self _
  · exact (field_high _ _ _ _ (Nat.le_of_ble_eq_true rfl)).trans <| (field_high _ _ _ _ (Nat.le_of_ble_eq_true rfl)).trans <| (field_high _ _ _ _ (Nat.le_of_ble_eq_true rfl)).trans <| (field_high _ _ _ _ (Nat.le_of_ble_eq_true rfl)).trans <| (field_low _ _ _ _ (Nat.le_of_ble_eq_true rfl)).trans <| field_self _
  · exact (field_high _ _ _ _ (Nat.le_of_ble_eq_true rfl)).trans <| (field_high _ _ _ _ (Nat.le_of_ble_eq_true rfl)).trans <| (field_high _ _ _ _ (Nat.le_of_ble_eq_true rfl)).trans <| (field_low _ _ _ _ (Nat.le_of_ble_eq_true rfl)).trans <| field_self _
  · exact (field_high _ _ _ _ (Nat.le_of_ble_eq_true rfl)).trans <| (field_high _ _ _ _ (Nat.le_of_ble_eq_true rfl)).trans <| (field_low _ _ _ _ (Nat.le_of_ble_eq_true rfl)).trans <| field_self _
  · exact (field_high _ _ _ _ (Nat.le_of_ble_eq_true rfl)).trans <| (field_low _ _ _ _ (Nat.le_of_ble_eq_true rfl)).trans <| field_self _
  · exact (congrArg Ty.ofBits ((field_low _ _ _ _ (Nat.le_of_ble_eq_true rfl)).trans <| field_self _)).trans (Ty.ofBits_toBits t)

@[simp] theorem Rri.ofBits_toBits (r : Rri) : Rri.ofBits r.toBits = r := by
  obtain ⟨d, a, i⟩ := r
  simp only [Rri.ofBits, Rri.toBits, Rri.mk.injEq]
  refine ⟨?_, ?_, ?_⟩
  · exact (field_high _ _ _ _ (Nat.le_of_ble_eq_true rfl)).trans <| (field_high _ _ _ _ (Nat.le_of_ble_eq_true rfl)).trans <| field_self _
  · exact (field_high _ _ _ _ (Nat.le_of_ble_eq_true rfl)).trans <| (field_low _ _ _ _ (Nat.le_of_ble_eq_true rfl)).trans <| field_self _
  · exact (field_low _ _ _ _ (Nat.le_of_ble_eq_true rfl)).trans <| field_self _

@[simp] theorem Ri.ofBits_toBits (r : Ri) : Ri.ofBits r.toBits = r := by
  obtain ⟨d, i⟩ := r
  simp only [Ri.ofBits, Ri.toBits, Ri.mk.injEq]
  refine ⟨?_, ?_⟩
  · exact (field_high _ _ _ _ (Nat.le_of_ble_eq_true rfl)).trans <| field_self _
  · exact (field_low _ _ _ _ (Nat.le_of_ble_eq_true rfl)).trans <| field_self _

@[simp] theorem Bt.ofBits_toBits (r : Bt) : Bt.ofBits r.toBits = r := by
  obtain ⟨n, a, c, o⟩ := r
  simp only [Bt.ofBits, Bt.toBits, Bt.mk.injEq]
  refine ⟨?_, ?_, ?_, ?_⟩
  · exact (field_high _ _ _ _ (Nat.le_of_ble_eq_true rfl)).trans <| (field_high _ _ _ _ (Nat.le_of_ble_eq_true rfl)).trans <| (field_high _ _ _ _ (Nat.le_of_ble_eq_true rfl)).trans <| field_self _
  · exact (field_high _ _ _ _ (Nat.le_of_ble_eq_true rfl)).trans <| (field_high _ _ _ _ (Nat.le_of_ble_eq_true rfl)).trans <| (field_low _ _ _ _ (Nat.le_of_ble_eq_true rfl)).trans <| field_self _
  · exact (field_high _ _ _ _ (Nat.le_of_ble_eq_true rfl)).trans <| (field_low _ _ _ _ (Nat.le_of_ble_eq_true rfl)).trans <| field_self _
  · exact (field_low _ _ _ _ (Nat.le_of_ble_eq_true rfl)).trans <| field_self _

@[simp] theorem Mem.ofBits_toBits (r : Mem) : Mem.ofBits r.toBits = r := by
  obtain ⟨d, b, s, t, o⟩ := r
  simp only [Mem.ofBits, Mem.toBits, Mem.mk.injEq]
  refine ⟨?_, ?_, ?_, ?_, ?_⟩
  · exact (field_high _ _ _ _ (Nat.le_of_ble_eq_true rfl)).trans <| (field_high _ _ _ _ (Nat.le_of_ble_eq_true rfl)).trans <| (field_high _ _ _ _ (Nat.le_of_ble_eq_true rfl)).trans <| (field_high _ _ _ _ (Nat.le_of_ble_eq_true rfl)).trans <| field_self _
  · exact (field_high _ _ _ _ (Nat.le_of_ble_eq_true rfl)).trans <| (field_high _ _ _ _ (Nat.le_of_ble_eq_true rfl)).trans <| (field_high _ _ _ _ (Nat.le_of_ble_eq_true rfl)).trans <| (field_low _ _ _ _ (Nat.le_of_ble_eq_true rfl)).trans <| field_self _
  · exact (field_high _ _ _ _ (Nat.le_of_ble_eq_true rfl)).trans <| (field_high _ _ _ _ (Nat.le_of_ble_eq_true rfl)).trans <| (field_low _ _ _ _ (Nat.le_of_ble_eq_true rfl)).trans <| field_self _
  · exact (field_high _ _ _ _ (Nat.le_of_ble_eq_true rfl)).trans <| (field_low _ _ _ _ (Nat.le_of_ble_eq_true rfl)).trans <| field_self _
  · exact (field_low _ _ _ _ (Nat.le_of_ble_eq_true rfl)).trans <| field_self _

@[simp] theorem Tv.ofBits_toBits (r : Tv) : Tv.ofBits r.toBits = r := by
  obtain ⟨v, s, t, b, z⟩ := r
  simp only [Tv.ofBits, Tv.toBits, Tv.mk.injEq]
  refine ⟨?_, ?_, ?_, ?_, ?_⟩
  · exact (field_high _ _ _ _ (Nat.le_of_ble_eq_true rfl)).trans <| (field_high _ _ _ _ (Nat.le_of_ble_eq_true rfl)).trans <| (field_high _ _ _ _ (Nat.le_of_ble_eq_true rfl)).trans <| (field_high _ _ _ _ (Nat.le_of_ble_eq_true rfl)).trans <| field_self _
  · exact (field_high _ _ _ _ (Nat.le_of_ble_eq_true rfl)).trans <| (field_high _ _ _ _ (Nat.le_of_ble_eq_true rfl)).trans <| (field_high _ _ _ _ (Nat.le_of_ble_eq_true rfl)).trans <| (field_low _ _ _ _ (Nat.le_of_ble_eq_true rfl)).trans <| field_self _
  · exact (congrArg Ty.ofBits ((field_high _ _ _ _ (Nat.le_of_ble_eq_true rfl)).trans <| (field_high _ _ _ _ (Nat.le_of_ble_eq_true rfl)).trans <| (field_low _ _ _ _ (Nat.le_of_ble_eq_true rfl)).trans <| field_self _)).trans (Ty.ofBits_toBits t)
  · exact (field_high _ _ _ _ (Nat.le_of_ble_eq_true rfl)).trans <| (field_low _ _ _ _ (Nat.le_of_ble_eq_true rfl)).trans <| field_self _
  · exact (field_low _ _ _ _ (Nat.le_of_ble_eq_true rfl)).trans <| field_self _

@[simp] theorem Mx.ofBits_toBits (r : Mx) : Mx.ofBits r.toBits = r := by
  obtain ⟨d, a, b, v, f⟩ := r
  simp only [Mx.ofBits, Mx.toBits, Mx.mk.injEq]
  refine ⟨?_, ?_, ?_, ?_, ?_⟩
  · exact (field_high _ _ _ _ (Nat.le_of_ble_eq_true rfl)).trans <| (field_high _ _ _ _ (Nat.le_of_ble_eq_true rfl)).trans <| (field_high _ _ _ _ (Nat.le_of_ble_eq_true rfl)).trans <| (field_high _ _ _ _ (Nat.le_of_ble_eq_true rfl)).trans <| field_self _
  · exact (field_high _ _ _ _ (Nat.le_of_ble_eq_true rfl)).trans <| (field_high _ _ _ _ (Nat.le_of_ble_eq_true rfl)).trans <| (field_high _ _ _ _ (Nat.le_of_ble_eq_true rfl)).trans <| (field_low _ _ _ _ (Nat.le_of_ble_eq_true rfl)).trans <| field_self _
  · exact (field_high _ _ _ _ (Nat.le_of_ble_eq_true rfl)).trans <| (field_high _ _ _ _ (Nat.le_of_ble_eq_true rfl)).trans <| (field_low _ _ _ _ (Nat.le_of_ble_eq_true rfl)).trans <| field_self _
  · exact (field_high _ _ _ _ (Nat.le_of_ble_eq_true rfl)).trans <| (field_low _ _ _ _ (Nat.le_of_ble_eq_true rfl)).trans <| field_self _
  · exact (field_low _ _ _ _ (Nat.le_of_ble_eq_true rfl)).trans <| field_self _

@[simp] theorem MxExt.ofBits_toBits (r : MxExt) : MxExt.ofBits r.toBits = r := by
  obtain ⟨s, c, b, t, z⟩ := r
  simp only [MxExt.ofBits, MxExt.toBits, MxExt.mk.injEq]
  refine ⟨?_, ?_, ?_, ?_, ?_⟩
  · exact (field_high _ _ _ _ (Nat.le_of_ble_eq_true rfl)).trans <| (field_high _ _ _ _ (Nat.le_of_ble_eq_true rfl)).trans <| (field_high _ _ _ _ (Nat.le_of_ble_eq_true rfl)).trans <| (field_high _ _ _ _ (Nat.le_of_ble_eq_true rfl)).trans <| field_self _
  · exact (field_high _ _ _ _ (Nat.le_of_ble_eq_true rfl)).trans <| (field_high _ _ _ _ (Nat.le_of_ble_eq_true rfl)).trans <| (field_high _ _ _ _ (Nat.le_of_ble_eq_true rfl)).trans <| (field_low _ _ _ _ (Nat.le_of_ble_eq_true rfl)).trans <| field_self _
  · exact (field_high _ _ _ _ (Nat.le_of_ble_eq_true rfl)).trans <| (field_high _ _ _ _ (Nat.le_of_ble_eq_true rfl)).trans <| (field_low _ _ _ _ (Nat.le_of_ble_eq_true rfl)).trans <| field_self _
  · exact (congrArg Ty.ofBits ((field_high _ _ _ _ (Nat.le_of_ble_eq_true rfl)).trans <| (field_low _ _ _ _ (Nat.le_of_ble_eq_true rfl)).trans <| field_self _)).trans (Ty.ofBits_toBits t)
  · exact (field_low _ _ _ _ (Nat.le_of_ble_eq_true rfl)).trans <| field_self _

@[simp] theorem Xe.ofBits_toBits (r : Xe) : Xe.ofBits r.toBits = r := by
  obtain ⟨n, f, c, k, g, q⟩ := r
  simp only [Xe.ofBits, Xe.toBits, Xe.mk.injEq]
  refine ⟨?_, ?_, ?_, ?_, ?_, ?_⟩
  · exact (field_high _ _ _ _ (Nat.le_of_ble_eq_true rfl)).trans <| (field_high _ _ _ _ (Nat.le_of_ble_eq_true rfl)).trans <| (field_high _ _ _ _ (Nat.le_of_ble_eq_true rfl)).trans <| (field_high _ _ _ _ (Nat.le_of_ble_eq_true rfl)).trans <| (field_high _ _ _ _ (Nat.le_of_ble_eq_true rfl)).trans <| field_self _
  · exact (field_high _ _ _ _ (Nat.le_of_ble_eq_true rfl)).trans <| (field_high _ _ _ _ (Nat.le_of_ble_eq_true rfl)).trans <| (field_high _ _ _ _ (Nat.le_of_ble_eq_true rfl)).trans <| (field_high _ _ _ _ (Nat.le_of_ble_eq_true rfl)).trans <| (field_low _ _ _ _ (Nat.le_of_ble_eq_true rfl)).trans <| field_self _
  · exact (field_high _ _ _ _ (Nat.le_of_ble_eq_true rfl)).trans <| (field_high _ _ _ _ (Nat.le_of_ble_eq_true rfl)).trans <| (field_high _ _ _ _ (Nat.le_of_ble_eq_true rfl)).trans <| (field_low _ _ _ _ (Nat.le_of_ble_eq_true rfl)).trans <| field_self _
  · exact (field_high _ _ _ _ (Nat.le_of_ble_eq_true rfl)).trans <| (field_high _ _ _ _ (Nat.le_of_ble_eq_true rfl)).trans <| (field_low _ _ _ _ (Nat.le_of_ble_eq_true rfl)).trans <| field_self _
  · exact (field_high _ _ _ _ (Nat.le_of_ble_eq_true rfl)).trans <| (field_low _ _ _ _ (Nat.le_of_ble_eq_true rfl)).trans <| field_self _
  · exact (field_low _ _ _ _ (Nat.le_of_ble_eq_true rfl)).trans <| field_self _

@[simp] theorem Spec.ofBits_toBits (r : Spec) : Spec.ofBits r.toBits = r := by
  obtain ⟨a, n, d, i⟩ := r
  simp only [Spec.ofBits, Spec.toBits, Spec.mk.injEq]
  refine ⟨?_, ?_, ?_, ?_⟩
  · exact (bit_high _ _ _ (Nat.le_of_ble_eq_true rfl)).trans <| (bit_high _ _ _ (Nat.le_of_ble_eq_true rfl)).trans <| (bit_high _ _ _ (Nat.le_of_ble_eq_true rfl)).trans <| bit_self _
  · exact (field_high _ _ _ _ (Nat.le_of_ble_eq_true rfl)).trans <| (field_high _ _ _ _ (Nat.le_of_ble_eq_true rfl)).trans <| (field_low _ _ _ _ (Nat.le_of_ble_eq_true rfl)).trans <| field_self _
  · exact (congrArg Dir.ofCode ((field_high _ _ _ _ (Nat.le_of_ble_eq_true rfl)).trans <| (field_low _ _ _ _ (Nat.le_of_ble_eq_true rfl)).trans <| field_self _)).trans (Dir.ofCode_code d)
  · exact (field_low _ _ _ _ (Nat.le_of_ble_eq_true rfl)).trans <| field_self _

/-! ## The syllable -/

@[simp] theorem Syl.op_mk (op : BitVec 9) (c : Common) (o : BitVec 35) : (Syl.mk op c o).op = op := by
  unfold Syl.op Syl.mk
  exact (field_high _ _ _ _ (Nat.le_of_ble_eq_true rfl)).trans <| (field_high _ _ _ _ (Nat.le_of_ble_eq_true rfl)).trans <| field_self _

@[simp] theorem Syl.operand_mk (op : BitVec 9) (c : Common) (o : BitVec 35) : (Syl.mk op c o).operand = o := by
  unfold Syl.operand Syl.mk
  exact (field_low _ _ _ _ (Nat.le_of_ble_eq_true rfl)).trans <| field_self _

@[simp] theorem Syl.common_mk (op : BitVec 9) (c : Common) (o : BitVec 35) : (Syl.mk op c o).common = c := by
  unfold Syl.common Syl.mk
  refine (congrArg Common.ofBits ?_).trans (Common.ofBits_toBits c)
  exact (field_high _ _ _ _ (Nat.le_of_ble_eq_true rfl)).trans <| (field_low _ _ _ _ (Nat.le_of_ble_eq_true rfl)).trans <| field_self _

/-! ## The field shapes shared by many opcodes -/

@[simp] theorem pfield_ofPreg (p : PReg) : pfield (ofPreg p) = some p := by
  have h : (ofPreg p).extractLsb' 4 2 = 0 := (field_high _ _ _ _ (by decide)).trans (field_self _)
  have l : (ofPreg p).extractLsb' 0 4 = p := (field_low _ _ _ _ (by decide)).trans (field_self _)
  rw [pfield, if_pos h, l]
@[simp] theorem regField_ofReg (r : Reg) : regField (ofReg r) = some r := by
  have h : (ofReg r).extractLsb' 6 4 = 0 := (field_high _ _ _ _ (by decide)).trans (field_self _)
  have l : (ofReg r).extractLsb' 0 6 = r := (field_low _ _ _ _ (by decide)).trans (field_self _)
  rw [regField, if_pos h, l]
@[simp] theorem nearReg_ofNearReg (r : Reg) : nearReg (ofNearReg r) = some r := by
  have h : (ofNearReg r).extractLsb' 6 4 = 8 := (field_high _ _ _ _ (by decide)).trans (field_self _)
  have l : (ofNearReg r).extractLsb' 0 6 = r := (field_low _ _ _ _ (by decide)).trans (field_self _)
  rw [nearReg, if_pos h, l]
@[simp] theorem fmt_ty (f : Fmt) : f.ty.fmt = some f := by
  rw [Ty.fmt, if_pos ⟨rfl, rfl⟩]
  exact Fmt.ofCode_code f
theorem spec_acc_bit (sp : Spec) : sp.toBits.getLsbD 9 = sp.acc := by
  have : (Spec.ofBits sp.toBits).acc = sp.acc := by rw [Spec.ofBits_toBits]
  exact this
/-- A drain's fields come back as they were. -/
theorem mxDrain_parts (k : BitVec 36 → Drain → Instr) (s : BitVec 36) (dr : Drain) :
    mxDrain
      (Mx.toBits ⟨dr.d.toBits, dr.a.toBits, (dr.res.map Spec.toBits).getD 0, dr.vc,
        BitVec.ofBool dr.drop ++ BitVec.ofBool dr.scl.isSome ++ BitVec.ofBool dr.res.isSome⟩)
      (MxExt.toBits ⟨s, (dr.scl.map ofReg).getD 0, dr.bound, ⟨dr.rnd.code, dr.sat, dr.ty.code⟩, 0⟩) k = some (k s dr) := by
  obtain ⟨d, a, res, vc, scl, drop, bound, rnd, sat, ty⟩ := dr
  have f (x y z : Bool) : (BitVec.ofBool x ++ BitVec.ofBool y ++ BitVec.ofBool z).getLsbD 0 = z
      ∧ (BitVec.ofBool x ++ BitVec.ofBool y ++ BitVec.ofBool z).getLsbD 1 = y
      ∧ (BitVec.ofBool x ++ BitVec.ofBool y ++ BitVec.ofBool z).getLsbD 2 = x := by
    cases x <;> cases y <;> cases z <;> exact ⟨rfl, rfl, rfl⟩
  have zero : regField 0#10 = some 0 := rfl
  simp only [mxDrain, Mx.ofBits_toBits, MxExt.ofBits_toBits, Fmt.ofCode_code, f, Spec.ofBits_toBits, Rnd.ofCode_code,
    Option.bind_eq_bind, Option.bind_some]
  cases scl <;> cases res <;> simp [zero]
theorem near_ofBits_toBits {n : Near} (h : n.wf = true) : Near.ofBits n.toBits = some n := by
  cases n with
  | reg g =>
    have b : (Near.toBits (.reg g)).getLsbD 9 = true := (bit_high (8 : BitVec 4) g 9 (by decide)).trans (by decide)
    have m : (Near.toBits (.reg g)).extractLsb' 6 3 = 0 := (field_high (8 : BitVec 4) g 6 3 (by decide)).trans (by decide)
    have l : (Near.toBits (.reg g)).extractLsb' 0 6 = g := (field_low _ _ _ _ (by decide)).trans (field_self _)
    rw [Near.ofBits, if_pos b, if_pos m, l]
  | tile sp =>
    have acc : sp.acc = false := by
      simp only [Near.wf, Spec.wholeTile, Bool.and_eq_true, Bool.not_eq_true'] at h
      exact h.1.1
    have b : sp.toBits.getLsbD 9 = false := by
      have : (Spec.ofBits sp.toBits).acc = sp.acc := by rw [Spec.ofBits_toBits]
      exact this.trans acc
    rw [Near.toBits, Near.ofBits, if_neg (fun q => Bool.noConfusion (b.symm.trans q)), Spec.ofBits_toBits]

end Sys2Proof
end

