-- ==== Sys2Proof/Laws/State.lean ====
section
/-! SUPPORT. What the named updates of Ops.lean change and leave: one lemma a field, for the machine, a core and its registers. -/

namespace Sys2Proof.Machine

/-! ## Updates of the machine -/

@[simp] theorem modGang_power (s : State) (i : Nat) (f : Gang → Gang) : (modGang s i f).power = s.power := rfl
@[simp] theorem modGang_warm (s : State) (i : Nat) (f : Gang → Gang) : (modGang s i f).warm = s.warm := rfl
@[simp] theorem modGang_ptide (s : State) (i : Nat) (f : Gang → Gang) : (modGang s i f).ptide = s.ptide := rfl
@[simp] theorem modGang_chip (s : State) (i : Nat) (f : Gang → Gang) : (modGang s i f).chip = s.chip := rfl
@[simp] theorem modGang_mem (s : State) (i : Nat) (f : Gang → Gang) : (modGang s i f).mem = s.mem := rfl
@[simp] theorem modGang_nextGang (s : State) (i : Nat) (f : Gang → Gang) : (modGang s i f).nextGang = s.nextGang := rfl
@[simp] theorem modGang_parts (s : State) (i : Nat) (f : Gang → Gang) : (modGang s i f).parts = s.parts := rfl
@[simp] theorem modGang_partCount (s : State) (i : Nat) (f : Gang → Gang) : (modGang s i f).partCount = s.partCount := rfl
@[simp] theorem modGang_newCount (s : State) (i : Nat) (f : Gang → Gang) : (modGang s i f).newCount = s.newCount := rfl
@[simp] theorem modGang_owners (s : State) (i : Nat) (f : Gang → Gang) : (modGang s i f).owners = s.owners := rfl
@[simp] theorem modGang_harbour (s : State) (i : Nat) (f : Gang → Gang) : (modGang s i f).harbour = s.harbour := rfl
@[simp] theorem modGang_tickets (s : State) (i : Nat) (f : Gang → Gang) : (modGang s i f).tickets = s.tickets := rfl
@[simp] theorem modGang_nextTicket (s : State) (i : Nat) (f : Gang → Gang) : (modGang s i f).nextTicket = s.nextTicket := rfl
@[simp] theorem modGang_backlog (s : State) (i : Nat) (f : Gang → Gang) : (modGang s i f).backlog = s.backlog := rfl
@[simp] theorem modGang_routes (s : State) (i : Nat) (f : Gang → Gang) : (modGang s i f).routes = s.routes := rfl
@[simp] theorem modGang_ports (s : State) (i : Nat) (f : Gang → Gang) : (modGang s i f).ports = s.ports := rfl
@[simp] theorem modGang_alternate (s : State) (i : Nat) (f : Gang → Gang) : (modGang s i f).alternate = s.alternate := rfl
@[simp] theorem modGang_around (s : State) (i : Nat) (f : Gang → Gang) : (modGang s i f).around = s.around := rfl
@[simp] theorem modGang_lostChips (s : State) (i : Nat) (f : Gang → Gang) : (modGang s i f).lostChips = s.lostChips := rfl
@[simp] theorem modGang_lostTo (s : State) (i : Nat) (f : Gang → Gang) : (modGang s i f).lostTo = s.lostTo := rfl
@[simp] theorem modGang_farPorts (s : State) (i : Nat) (f : Gang → Gang) : (modGang s i f).farPorts = s.farPorts := rfl
@[simp] theorem modGang_quads (s : State) (i : Nat) (f : Gang → Gang) : (modGang s i f).quads = s.quads := rfl
@[simp] theorem modGang_hbmStacks (s : State) (i : Nat) (f : Gang → Gang) : (modGang s i f).hbmStacks = s.hbmStacks := rfl
@[simp] theorem modGang_rowErrors (s : State) (i : Nat) (f : Gang → Gang) : (modGang s i f).rowErrors = s.rowErrors := rfl
@[simp] theorem modGang_sparedRows (s : State) (i : Nat) (f : Gang → Gang) : (modGang s i f).sparedRows = s.sparedRows := rfl
@[simp] theorem modGang_mendedRows (s : State) (i : Nat) (f : Gang → Gang) : (modGang s i f).mendedRows = s.mendedRows := rfl
@[simp] theorem modGang_retiredSlots (s : State) (i : Nat) (f : Gang → Gang) : (modGang s i f).retiredSlots = s.retiredSlots := rfl
@[simp] theorem modGang_box (s : State) (i : Nat) (f : Gang → Gang) : (modGang s i f).box = s.box := rfl
@[simp] theorem modGang_boxSeq (s : State) (i : Nat) (f : Gang → Gang) : (modGang s i f).boxSeq = s.boxSeq := rfl
@[simp] theorem modGang_mirror (s : State) (i : Nat) (f : Gang → Gang) : (modGang s i f).mirror = s.mirror := rfl
@[simp] theorem modGang_flushed (s : State) (i : Nat) (f : Gang → Gang) : (modGang s i f).flushed = s.flushed := rfl
@[simp] theorem modGang_inject (s : State) (i : Nat) (f : Gang → Gang) : (modGang s i f).inject = s.inject := rfl
@[simp] theorem modGang_level (s : State) (i : Nat) (f : Gang → Gang) : (modGang s i f).level = s.level := rfl
@[simp] theorem modGang_sched3 (s : State) (i : Nat) (f : Gang → Gang) : (modGang s i f).sched3 = s.sched3 := rfl
@[simp] theorem modGang_leaf (s : State) (i : Nat) (f : Gang → Gang) : (modGang s i f).leaf = s.leaf := rfl
@[simp] theorem modGang_keys (s : State) (i : Nat) (f : Gang → Gang) : (modGang s i f).keys = s.keys := rfl
@[simp] theorem modGang_fwCopies (s : State) (i : Nat) (f : Gang → Gang) : (modGang s i f).fwCopies = s.fwCopies := rfl
@[simp] theorem modGang_fwCopy (s : State) (i : Nat) (f : Gang → Gang) : (modGang s i f).fwCopy = s.fwCopy := rfl
@[simp] theorem modGang_fwVersion (s : State) (i : Nat) (f : Gang → Gang) : (modGang s i f).fwVersion = s.fwVersion := rfl
@[simp] theorem modGang_fwMinimum (s : State) (i : Nat) (f : Gang → Gang) : (modGang s i f).fwMinimum = s.fwMinimum := rfl
@[simp] theorem modGang_sessions (s : State) (i : Nat) (f : Gang → Gang) : (modGang s i f).sessions = s.sessions := rfl
@[simp] theorem modGang_outbox (s : State) (i : Nat) (f : Gang → Gang) : (modGang s i f).outbox = s.outbox := rfl
@[simp] theorem modGang_sent (s : State) (i : Nat) (f : Gang → Gang) : (modGang s i f).sent = s.sent := rfl
@[simp] theorem modGang_serial (s : State) (i : Nat) (f : Gang → Gang) : (modGang s i f).serial = s.serial := rfl
@[simp] theorem modGang_agenda (s : State) (i : Nat) (f : Gang → Gang) : (modGang s i f).agenda = s.agenda := rfl
@[simp] theorem modGang_cur (s : State) (i : Nat) (f : Gang → Gang) : (modGang s i f).cur = s.cur := rfl
@[simp] theorem modGang_turn (s : State) (i : Nat) (f : Gang → Gang) : (modGang s i f).turn = s.turn := rfl
@[simp] theorem modGang_free (s : State) (i : Nat) (f : Gang → Gang) : (modGang s i f).free = s.free := rfl

@[simp] theorem modMember_power (s : State) (k : CoreId) (f : Core → Core) : (modMember s k f).power = s.power := rfl
@[simp] theorem modMember_warm (s : State) (k : CoreId) (f : Core → Core) : (modMember s k f).warm = s.warm := rfl
@[simp] theorem modMember_ptide (s : State) (k : CoreId) (f : Core → Core) : (modMember s k f).ptide = s.ptide := rfl
@[simp] theorem modMember_chip (s : State) (k : CoreId) (f : Core → Core) : (modMember s k f).chip = s.chip := rfl
@[simp] theorem modMember_mem (s : State) (k : CoreId) (f : Core → Core) : (modMember s k f).mem = s.mem := rfl
@[simp] theorem modMember_nextGang (s : State) (k : CoreId) (f : Core → Core) : (modMember s k f).nextGang = s.nextGang := rfl
@[simp] theorem modMember_parts (s : State) (k : CoreId) (f : Core → Core) : (modMember s k f).parts = s.parts := rfl
@[simp] theorem modMember_partCount (s : State) (k : CoreId) (f : Core → Core) : (modMember s k f).partCount = s.partCount := rfl
@[simp] theorem modMember_newCount (s : State) (k : CoreId) (f : Core → Core) : (modMember s k f).newCount = s.newCount := rfl
@[simp] theorem modMember_owners (s : State) (k : CoreId) (f : Core → Core) : (modMember s k f).owners = s.owners := rfl
@[simp] theorem modMember_harbour (s : State) (k : CoreId) (f : Core → Core) : (modMember s k f).harbour = s.harbour := rfl
@[simp] theorem modMember_tickets (s : State) (k : CoreId) (f : Core → Core) : (modMember s k f).tickets = s.tickets := rfl
@[simp] theorem modMember_nextTicket (s : State) (k : CoreId) (f : Core → Core) : (modMember s k f).nextTicket = s.nextTicket := rfl
@[simp] theorem modMember_backlog (s : State) (k : CoreId) (f : Core → Core) : (modMember s k f).backlog = s.backlog := rfl
@[simp] theorem modMember_routes (s : State) (k : CoreId) (f : Core → Core) : (modMember s k f).routes = s.routes := rfl
@[simp] theorem modMember_ports (s : State) (k : CoreId) (f : Core → Core) : (modMember s k f).ports = s.ports := rfl
@[simp] theorem modMember_alternate (s : State) (k : CoreId) (f : Core → Core) : (modMember s k f).alternate = s.alternate := rfl
@[simp] theorem modMember_around (s : State) (k : CoreId) (f : Core → Core) : (modMember s k f).around = s.around := rfl
@[simp] theorem modMember_lostChips (s : State) (k : CoreId) (f : Core → Core) : (modMember s k f).lostChips = s.lostChips := rfl
@[simp] theorem modMember_lostTo (s : State) (k : CoreId) (f : Core → Core) : (modMember s k f).lostTo = s.lostTo := rfl
@[simp] theorem modMember_farPorts (s : State) (k : CoreId) (f : Core → Core) : (modMember s k f).farPorts = s.farPorts := rfl
@[simp] theorem modMember_quads (s : State) (k : CoreId) (f : Core → Core) : (modMember s k f).quads = s.quads := rfl
@[simp] theorem modMember_hbmStacks (s : State) (k : CoreId) (f : Core → Core) : (modMember s k f).hbmStacks = s.hbmStacks := rfl
@[simp] theorem modMember_rowErrors (s : State) (k : CoreId) (f : Core → Core) : (modMember s k f).rowErrors = s.rowErrors := rfl
@[simp] theorem modMember_sparedRows (s : State) (k : CoreId) (f : Core → Core) : (modMember s k f).sparedRows = s.sparedRows := rfl
@[simp] theorem modMember_mendedRows (s : State) (k : CoreId) (f : Core → Core) : (modMember s k f).mendedRows = s.mendedRows := rfl
@[simp] theorem modMember_retiredSlots (s : State) (k : CoreId) (f : Core → Core) : (modMember s k f).retiredSlots = s.retiredSlots := rfl
@[simp] theorem modMember_box (s : State) (k : CoreId) (f : Core → Core) : (modMember s k f).box = s.box := rfl
@[simp] theorem modMember_boxSeq (s : State) (k : CoreId) (f : Core → Core) : (modMember s k f).boxSeq = s.boxSeq := rfl
@[simp] theorem modMember_mirror (s : State) (k : CoreId) (f : Core → Core) : (modMember s k f).mirror = s.mirror := rfl
@[simp] theorem modMember_flushed (s : State) (k : CoreId) (f : Core → Core) : (modMember s k f).flushed = s.flushed := rfl
@[simp] theorem modMember_inject (s : State) (k : CoreId) (f : Core → Core) : (modMember s k f).inject = s.inject := rfl
@[simp] theorem modMember_level (s : State) (k : CoreId) (f : Core → Core) : (modMember s k f).level = s.level := rfl
@[simp] theorem modMember_sched3 (s : State) (k : CoreId) (f : Core → Core) : (modMember s k f).sched3 = s.sched3 := rfl
@[simp] theorem modMember_leaf (s : State) (k : CoreId) (f : Core → Core) : (modMember s k f).leaf = s.leaf := rfl
@[simp] theorem modMember_keys (s : State) (k : CoreId) (f : Core → Core) : (modMember s k f).keys = s.keys := rfl
@[simp] theorem modMember_fwCopies (s : State) (k : CoreId) (f : Core → Core) : (modMember s k f).fwCopies = s.fwCopies := rfl
@[simp] theorem modMember_fwCopy (s : State) (k : CoreId) (f : Core → Core) : (modMember s k f).fwCopy = s.fwCopy := rfl
@[simp] theorem modMember_fwVersion (s : State) (k : CoreId) (f : Core → Core) : (modMember s k f).fwVersion = s.fwVersion := rfl
@[simp] theorem modMember_fwMinimum (s : State) (k : CoreId) (f : Core → Core) : (modMember s k f).fwMinimum = s.fwMinimum := rfl
@[simp] theorem modMember_sessions (s : State) (k : CoreId) (f : Core → Core) : (modMember s k f).sessions = s.sessions := rfl
@[simp] theorem modMember_outbox (s : State) (k : CoreId) (f : Core → Core) : (modMember s k f).outbox = s.outbox := rfl
@[simp] theorem modMember_sent (s : State) (k : CoreId) (f : Core → Core) : (modMember s k f).sent = s.sent := rfl
@[simp] theorem modMember_serial (s : State) (k : CoreId) (f : Core → Core) : (modMember s k f).serial = s.serial := rfl
@[simp] theorem modMember_agenda (s : State) (k : CoreId) (f : Core → Core) : (modMember s k f).agenda = s.agenda := rfl
@[simp] theorem modMember_cur (s : State) (k : CoreId) (f : Core → Core) : (modMember s k f).cur = s.cur := rfl
@[simp] theorem modMember_turn (s : State) (k : CoreId) (f : Core → Core) : (modMember s k f).turn = s.turn := rfl
@[simp] theorem modMember_free (s : State) (k : CoreId) (f : Core → Core) : (modMember s k f).free = s.free := rfl

@[simp] theorem post_power (s : State) (d : Nat) (i : Instr) : (post s d i).power = s.power := rfl
@[simp] theorem post_warm (s : State) (d : Nat) (i : Instr) : (post s d i).warm = s.warm := rfl
@[simp] theorem post_ptide (s : State) (d : Nat) (i : Instr) : (post s d i).ptide = s.ptide := rfl
@[simp] theorem post_chip (s : State) (d : Nat) (i : Instr) : (post s d i).chip = s.chip := rfl
@[simp] theorem post_mem (s : State) (d : Nat) (i : Instr) : (post s d i).mem = s.mem := rfl
@[simp] theorem post_gangs (s : State) (d : Nat) (i : Instr) : (post s d i).gangs = s.gangs := rfl
@[simp] theorem post_nextGang (s : State) (d : Nat) (i : Instr) : (post s d i).nextGang = s.nextGang := rfl
@[simp] theorem post_parts (s : State) (d : Nat) (i : Instr) : (post s d i).parts = s.parts := rfl
@[simp] theorem post_partCount (s : State) (d : Nat) (i : Instr) : (post s d i).partCount = s.partCount := rfl
@[simp] theorem post_newCount (s : State) (d : Nat) (i : Instr) : (post s d i).newCount = s.newCount := rfl
@[simp] theorem post_owners (s : State) (d : Nat) (i : Instr) : (post s d i).owners = s.owners := rfl
@[simp] theorem post_harbour (s : State) (d : Nat) (i : Instr) : (post s d i).harbour = s.harbour := rfl
@[simp] theorem post_tickets (s : State) (d : Nat) (i : Instr) : (post s d i).tickets = s.tickets := rfl
@[simp] theorem post_nextTicket (s : State) (d : Nat) (i : Instr) : (post s d i).nextTicket = s.nextTicket := rfl
@[simp] theorem post_backlog (s : State) (d : Nat) (i : Instr) : (post s d i).backlog = s.backlog := rfl
@[simp] theorem post_routes (s : State) (d : Nat) (i : Instr) : (post s d i).routes = s.routes := rfl
@[simp] theorem post_ports (s : State) (d : Nat) (i : Instr) : (post s d i).ports = s.ports := rfl
@[simp] theorem post_alternate (s : State) (d : Nat) (i : Instr) : (post s d i).alternate = s.alternate := rfl
@[simp] theorem post_around (s : State) (d : Nat) (i : Instr) : (post s d i).around = s.around := rfl
@[simp] theorem post_lostChips (s : State) (d : Nat) (i : Instr) : (post s d i).lostChips = s.lostChips := rfl
@[simp] theorem post_lostTo (s : State) (d : Nat) (i : Instr) : (post s d i).lostTo = s.lostTo := rfl
@[simp] theorem post_farPorts (s : State) (d : Nat) (i : Instr) : (post s d i).farPorts = s.farPorts := rfl
@[simp] theorem post_quads (s : State) (d : Nat) (i : Instr) : (post s d i).quads = s.quads := rfl
@[simp] theorem post_hbmStacks (s : State) (d : Nat) (i : Instr) : (post s d i).hbmStacks = s.hbmStacks := rfl
@[simp] theorem post_rowErrors (s : State) (d : Nat) (i : Instr) : (post s d i).rowErrors = s.rowErrors := rfl
@[simp] theorem post_sparedRows (s : State) (d : Nat) (i : Instr) : (post s d i).sparedRows = s.sparedRows := rfl
@[simp] theorem post_mendedRows (s : State) (d : Nat) (i : Instr) : (post s d i).mendedRows = s.mendedRows := rfl
@[simp] theorem post_retiredSlots (s : State) (d : Nat) (i : Instr) : (post s d i).retiredSlots = s.retiredSlots := rfl
@[simp] theorem post_box (s : State) (d : Nat) (i : Instr) : (post s d i).box = s.box := rfl
@[simp] theorem post_boxSeq (s : State) (d : Nat) (i : Instr) : (post s d i).boxSeq = s.boxSeq := rfl
@[simp] theorem post_mirror (s : State) (d : Nat) (i : Instr) : (post s d i).mirror = s.mirror := rfl
@[simp] theorem post_flushed (s : State) (d : Nat) (i : Instr) : (post s d i).flushed = s.flushed := rfl
@[simp] theorem post_inject (s : State) (d : Nat) (i : Instr) : (post s d i).inject = s.inject := rfl
@[simp] theorem post_level (s : State) (d : Nat) (i : Instr) : (post s d i).level = s.level := rfl
@[simp] theorem post_sched3 (s : State) (d : Nat) (i : Instr) : (post s d i).sched3 = s.sched3 := rfl
@[simp] theorem post_leaf (s : State) (d : Nat) (i : Instr) : (post s d i).leaf = s.leaf := rfl
@[simp] theorem post_keys (s : State) (d : Nat) (i : Instr) : (post s d i).keys = s.keys := rfl
@[simp] theorem post_fwCopies (s : State) (d : Nat) (i : Instr) : (post s d i).fwCopies = s.fwCopies := rfl
@[simp] theorem post_fwCopy (s : State) (d : Nat) (i : Instr) : (post s d i).fwCopy = s.fwCopy := rfl
@[simp] theorem post_fwVersion (s : State) (d : Nat) (i : Instr) : (post s d i).fwVersion = s.fwVersion := rfl
@[simp] theorem post_fwMinimum (s : State) (d : Nat) (i : Instr) : (post s d i).fwMinimum = s.fwMinimum := rfl
@[simp] theorem post_sessions (s : State) (d : Nat) (i : Instr) : (post s d i).sessions = s.sessions := rfl
@[simp] theorem post_outbox (s : State) (d : Nat) (i : Instr) : (post s d i).outbox = s.outbox := rfl
@[simp] theorem post_sent (s : State) (d : Nat) (i : Instr) : (post s d i).sent = s.sent := rfl
@[simp] theorem post_serial (s : State) (d : Nat) (i : Instr) : (post s d i).serial = s.serial := rfl
@[simp] theorem post_cur (s : State) (d : Nat) (i : Instr) : (post s d i).cur = s.cur := rfl
@[simp] theorem post_turn (s : State) (d : Nat) (i : Instr) : (post s d i).turn = s.turn := rfl
@[simp] theorem post_free (s : State) (d : Nat) (i : Instr) : (post s d i).free = s.free := rfl

@[simp] theorem sendEvent_power (s : State) (n m : Nat) (l : Word) (a b c : Dword) (g : Option Gang) (p : BitVec 16) : (sendEvent s n m l a b c g p).power = s.power := rfl
@[simp] theorem sendEvent_warm (s : State) (n m : Nat) (l : Word) (a b c : Dword) (g : Option Gang) (p : BitVec 16) : (sendEvent s n m l a b c g p).warm = s.warm := rfl
@[simp] theorem sendEvent_ptide (s : State) (n m : Nat) (l : Word) (a b c : Dword) (g : Option Gang) (p : BitVec 16) : (sendEvent s n m l a b c g p).ptide = s.ptide := rfl
@[simp] theorem sendEvent_chip (s : State) (n m : Nat) (l : Word) (a b c : Dword) (g : Option Gang) (p : BitVec 16) : (sendEvent s n m l a b c g p).chip = s.chip := rfl
@[simp] theorem sendEvent_mem (s : State) (n m : Nat) (l : Word) (a b c : Dword) (g : Option Gang) (p : BitVec 16) : (sendEvent s n m l a b c g p).mem = s.mem := rfl
@[simp] theorem sendEvent_gangs (s : State) (n m : Nat) (l : Word) (a b c : Dword) (g : Option Gang) (p : BitVec 16) : (sendEvent s n m l a b c g p).gangs = s.gangs := rfl
@[simp] theorem sendEvent_nextGang (s : State) (n m : Nat) (l : Word) (a b c : Dword) (g : Option Gang) (p : BitVec 16) : (sendEvent s n m l a b c g p).nextGang = s.nextGang := rfl
@[simp] theorem sendEvent_parts (s : State) (n m : Nat) (l : Word) (a b c : Dword) (g : Option Gang) (p : BitVec 16) : (sendEvent s n m l a b c g p).parts = s.parts := rfl
@[simp] theorem sendEvent_partCount (s : State) (n m : Nat) (l : Word) (a b c : Dword) (g : Option Gang) (p : BitVec 16) : (sendEvent s n m l a b c g p).partCount = s.partCount := rfl
@[simp] theorem sendEvent_newCount (s : State) (n m : Nat) (l : Word) (a b c : Dword) (g : Option Gang) (p : BitVec 16) : (sendEvent s n m l a b c g p).newCount = s.newCount := rfl
@[simp] theorem sendEvent_owners (s : State) (n m : Nat) (l : Word) (a b c : Dword) (g : Option Gang) (p : BitVec 16) : (sendEvent s n m l a b c g p).owners = s.owners := rfl
@[simp] theorem sendEvent_harbour (s : State) (n m : Nat) (l : Word) (a b c : Dword) (g : Option Gang) (p : BitVec 16) : (sendEvent s n m l a b c g p).harbour = s.harbour := rfl
@[simp] theorem sendEvent_tickets (s : State) (n m : Nat) (l : Word) (a b c : Dword) (g : Option Gang) (p : BitVec 16) : (sendEvent s n m l a b c g p).tickets = s.tickets := rfl
@[simp] theorem sendEvent_nextTicket (s : State) (n m : Nat) (l : Word) (a b c : Dword) (g : Option Gang) (p : BitVec 16) : (sendEvent s n m l a b c g p).nextTicket = s.nextTicket := rfl
@[simp] theorem sendEvent_backlog (s : State) (n m : Nat) (l : Word) (a b c : Dword) (g : Option Gang) (p : BitVec 16) : (sendEvent s n m l a b c g p).backlog = s.backlog := rfl
@[simp] theorem sendEvent_routes (s : State) (n m : Nat) (l : Word) (a b c : Dword) (g : Option Gang) (p : BitVec 16) : (sendEvent s n m l a b c g p).routes = s.routes := rfl
@[simp] theorem sendEvent_ports (s : State) (n m : Nat) (l : Word) (a b c : Dword) (g : Option Gang) (p : BitVec 16) : (sendEvent s n m l a b c g p).ports = s.ports := rfl
@[simp] theorem sendEvent_alternate (s : State) (n m : Nat) (l : Word) (a b c : Dword) (g : Option Gang) (p : BitVec 16) : (sendEvent s n m l a b c g p).alternate = s.alternate := rfl
@[simp] theorem sendEvent_around (s : State) (n m : Nat) (l : Word) (a b c : Dword) (g : Option Gang) (p : BitVec 16) : (sendEvent s n m l a b c g p).around = s.around := rfl
@[simp] theorem sendEvent_lostChips (s : State) (n m : Nat) (l : Word) (a b c : Dword) (g : Option Gang) (p : BitVec 16) : (sendEvent s n m l a b c g p).lostChips = s.lostChips := rfl
@[simp] theorem sendEvent_lostTo (s : State) (n m : Nat) (l : Word) (a b c : Dword) (g : Option Gang) (p : BitVec 16) : (sendEvent s n m l a b c g p).lostTo = s.lostTo := rfl
@[simp] theorem sendEvent_farPorts (s : State) (n m : Nat) (l : Word) (a b c : Dword) (g : Option Gang) (p : BitVec 16) : (sendEvent s n m l a b c g p).farPorts = s.farPorts := rfl
@[simp] theorem sendEvent_quads (s : State) (n m : Nat) (l : Word) (a b c : Dword) (g : Option Gang) (p : BitVec 16) : (sendEvent s n m l a b c g p).quads = s.quads := rfl
@[simp] theorem sendEvent_hbmStacks (s : State) (n m : Nat) (l : Word) (a b c : Dword) (g : Option Gang) (p : BitVec 16) : (sendEvent s n m l a b c g p).hbmStacks = s.hbmStacks := rfl
@[simp] theorem sendEvent_rowErrors (s : State) (n m : Nat) (l : Word) (a b c : Dword) (g : Option Gang) (p : BitVec 16) : (sendEvent s n m l a b c g p).rowErrors = s.rowErrors := rfl
@[simp] theorem sendEvent_sparedRows (s : State) (n m : Nat) (l : Word) (a b c : Dword) (g : Option Gang) (p : BitVec 16) : (sendEvent s n m l a b c g p).sparedRows = s.sparedRows := rfl
@[simp] theorem sendEvent_mendedRows (s : State) (n m : Nat) (l : Word) (a b c : Dword) (g : Option Gang) (p : BitVec 16) : (sendEvent s n m l a b c g p).mendedRows = s.mendedRows := rfl
@[simp] theorem sendEvent_retiredSlots (s : State) (n m : Nat) (l : Word) (a b c : Dword) (g : Option Gang) (p : BitVec 16) : (sendEvent s n m l a b c g p).retiredSlots = s.retiredSlots := rfl
@[simp] theorem sendEvent_box (s : State) (n m : Nat) (l : Word) (a b c : Dword) (g : Option Gang) (p : BitVec 16) : (sendEvent s n m l a b c g p).box = s.box := rfl
@[simp] theorem sendEvent_boxSeq (s : State) (n m : Nat) (l : Word) (a b c : Dword) (g : Option Gang) (p : BitVec 16) : (sendEvent s n m l a b c g p).boxSeq = s.boxSeq := rfl
@[simp] theorem sendEvent_mirror (s : State) (n m : Nat) (l : Word) (a b c : Dword) (g : Option Gang) (p : BitVec 16) : (sendEvent s n m l a b c g p).mirror = s.mirror := rfl
@[simp] theorem sendEvent_flushed (s : State) (n m : Nat) (l : Word) (a b c : Dword) (g : Option Gang) (p : BitVec 16) : (sendEvent s n m l a b c g p).flushed = s.flushed := rfl
@[simp] theorem sendEvent_inject (s : State) (n m : Nat) (l : Word) (a b c : Dword) (g : Option Gang) (p : BitVec 16) : (sendEvent s n m l a b c g p).inject = s.inject := rfl
@[simp] theorem sendEvent_level (s : State) (n m : Nat) (l : Word) (a b c : Dword) (g : Option Gang) (p : BitVec 16) : (sendEvent s n m l a b c g p).level = s.level := rfl
@[simp] theorem sendEvent_sched3 (s : State) (n m : Nat) (l : Word) (a b c : Dword) (g : Option Gang) (p : BitVec 16) : (sendEvent s n m l a b c g p).sched3 = s.sched3 := rfl
@[simp] theorem sendEvent_leaf (s : State) (n m : Nat) (l : Word) (a b c : Dword) (g : Option Gang) (p : BitVec 16) : (sendEvent s n m l a b c g p).leaf = s.leaf := rfl
@[simp] theorem sendEvent_keys (s : State) (n m : Nat) (l : Word) (a b c : Dword) (g : Option Gang) (p : BitVec 16) : (sendEvent s n m l a b c g p).keys = s.keys := rfl
@[simp] theorem sendEvent_fwCopies (s : State) (n m : Nat) (l : Word) (a b c : Dword) (g : Option Gang) (p : BitVec 16) : (sendEvent s n m l a b c g p).fwCopies = s.fwCopies := rfl
@[simp] theorem sendEvent_fwCopy (s : State) (n m : Nat) (l : Word) (a b c : Dword) (g : Option Gang) (p : BitVec 16) : (sendEvent s n m l a b c g p).fwCopy = s.fwCopy := rfl
@[simp] theorem sendEvent_fwVersion (s : State) (n m : Nat) (l : Word) (a b c : Dword) (g : Option Gang) (p : BitVec 16) : (sendEvent s n m l a b c g p).fwVersion = s.fwVersion := rfl
@[simp] theorem sendEvent_fwMinimum (s : State) (n m : Nat) (l : Word) (a b c : Dword) (g : Option Gang) (p : BitVec 16) : (sendEvent s n m l a b c g p).fwMinimum = s.fwMinimum := rfl
@[simp] theorem sendEvent_sessions (s : State) (n m : Nat) (l : Word) (a b c : Dword) (g : Option Gang) (p : BitVec 16) : (sendEvent s n m l a b c g p).sessions = s.sessions := rfl
@[simp] theorem sendEvent_sent (s : State) (n m : Nat) (l : Word) (a b c : Dword) (g : Option Gang) (p : BitVec 16) : (sendEvent s n m l a b c g p).sent = s.sent := rfl
@[simp] theorem sendEvent_serial (s : State) (n m : Nat) (l : Word) (a b c : Dword) (g : Option Gang) (p : BitVec 16) : (sendEvent s n m l a b c g p).serial = s.serial := rfl
@[simp] theorem sendEvent_agenda (s : State) (n m : Nat) (l : Word) (a b c : Dword) (g : Option Gang) (p : BitVec 16) : (sendEvent s n m l a b c g p).agenda = s.agenda := rfl
@[simp] theorem sendEvent_cur (s : State) (n m : Nat) (l : Word) (a b c : Dword) (g : Option Gang) (p : BitVec 16) : (sendEvent s n m l a b c g p).cur = s.cur := rfl
@[simp] theorem sendEvent_turn (s : State) (n m : Nat) (l : Word) (a b c : Dword) (g : Option Gang) (p : BitVec 16) : (sendEvent s n m l a b c g p).turn = s.turn := rfl
@[simp] theorem sendEvent_free (s : State) (n m : Nat) (l : Word) (a b c : Dword) (g : Option Gang) (p : BitVec 16) : (sendEvent s n m l a b c g p).free = s.free := rfl

@[simp] theorem putBlock_power (s : State) (o : BitVec 12) (sl : Slot) (b : Cells) : (putBlock s o sl b).power = s.power := rfl
@[simp] theorem putBlock_warm (s : State) (o : BitVec 12) (sl : Slot) (b : Cells) : (putBlock s o sl b).warm = s.warm := rfl
@[simp] theorem putBlock_ptide (s : State) (o : BitVec 12) (sl : Slot) (b : Cells) : (putBlock s o sl b).ptide = s.ptide := rfl
@[simp] theorem putBlock_chip (s : State) (o : BitVec 12) (sl : Slot) (b : Cells) : (putBlock s o sl b).chip = s.chip := rfl
@[simp] theorem putBlock_gangs (s : State) (o : BitVec 12) (sl : Slot) (b : Cells) : (putBlock s o sl b).gangs = s.gangs := rfl
@[simp] theorem putBlock_nextGang (s : State) (o : BitVec 12) (sl : Slot) (b : Cells) : (putBlock s o sl b).nextGang = s.nextGang := rfl
@[simp] theorem putBlock_parts (s : State) (o : BitVec 12) (sl : Slot) (b : Cells) : (putBlock s o sl b).parts = s.parts := rfl
@[simp] theorem putBlock_partCount (s : State) (o : BitVec 12) (sl : Slot) (b : Cells) : (putBlock s o sl b).partCount = s.partCount := rfl
@[simp] theorem putBlock_newCount (s : State) (o : BitVec 12) (sl : Slot) (b : Cells) : (putBlock s o sl b).newCount = s.newCount := rfl
@[simp] theorem putBlock_owners (s : State) (o : BitVec 12) (sl : Slot) (b : Cells) : (putBlock s o sl b).owners = s.owners := rfl
@[simp] theorem putBlock_harbour (s : State) (o : BitVec 12) (sl : Slot) (b : Cells) : (putBlock s o sl b).harbour = s.harbour := rfl
@[simp] theorem putBlock_tickets (s : State) (o : BitVec 12) (sl : Slot) (b : Cells) : (putBlock s o sl b).tickets = s.tickets := rfl
@[simp] theorem putBlock_nextTicket (s : State) (o : BitVec 12) (sl : Slot) (b : Cells) : (putBlock s o sl b).nextTicket = s.nextTicket := rfl
@[simp] theorem putBlock_backlog (s : State) (o : BitVec 12) (sl : Slot) (b : Cells) : (putBlock s o sl b).backlog = s.backlog := rfl
@[simp] theorem putBlock_routes (s : State) (o : BitVec 12) (sl : Slot) (b : Cells) : (putBlock s o sl b).routes = s.routes := rfl
@[simp] theorem putBlock_ports (s : State) (o : BitVec 12) (sl : Slot) (b : Cells) : (putBlock s o sl b).ports = s.ports := rfl
@[simp] theorem putBlock_alternate (s : State) (o : BitVec 12) (sl : Slot) (b : Cells) : (putBlock s o sl b).alternate = s.alternate := rfl
@[simp] theorem putBlock_around (s : State) (o : BitVec 12) (sl : Slot) (b : Cells) : (putBlock s o sl b).around = s.around := rfl
@[simp] theorem putBlock_lostChips (s : State) (o : BitVec 12) (sl : Slot) (b : Cells) : (putBlock s o sl b).lostChips = s.lostChips := rfl
@[simp] theorem putBlock_lostTo (s : State) (o : BitVec 12) (sl : Slot) (b : Cells) : (putBlock s o sl b).lostTo = s.lostTo := rfl
@[simp] theorem putBlock_farPorts (s : State) (o : BitVec 12) (sl : Slot) (b : Cells) : (putBlock s o sl b).farPorts = s.farPorts := rfl
@[simp] theorem putBlock_quads (s : State) (o : BitVec 12) (sl : Slot) (b : Cells) : (putBlock s o sl b).quads = s.quads := rfl
@[simp] theorem putBlock_hbmStacks (s : State) (o : BitVec 12) (sl : Slot) (b : Cells) : (putBlock s o sl b).hbmStacks = s.hbmStacks := rfl
@[simp] theorem putBlock_rowErrors (s : State) (o : BitVec 12) (sl : Slot) (b : Cells) : (putBlock s o sl b).rowErrors = s.rowErrors := rfl
@[simp] theorem putBlock_sparedRows (s : State) (o : BitVec 12) (sl : Slot) (b : Cells) : (putBlock s o sl b).sparedRows = s.sparedRows := rfl
@[simp] theorem putBlock_mendedRows (s : State) (o : BitVec 12) (sl : Slot) (b : Cells) : (putBlock s o sl b).mendedRows = s.mendedRows := rfl
@[simp] theorem putBlock_retiredSlots (s : State) (o : BitVec 12) (sl : Slot) (b : Cells) : (putBlock s o sl b).retiredSlots = s.retiredSlots := rfl
@[simp] theorem putBlock_box (s : State) (o : BitVec 12) (sl : Slot) (b : Cells) : (putBlock s o sl b).box = s.box := rfl
@[simp] theorem putBlock_boxSeq (s : State) (o : BitVec 12) (sl : Slot) (b : Cells) : (putBlock s o sl b).boxSeq = s.boxSeq := rfl
@[simp] theorem putBlock_mirror (s : State) (o : BitVec 12) (sl : Slot) (b : Cells) : (putBlock s o sl b).mirror = s.mirror := rfl
@[simp] theorem putBlock_flushed (s : State) (o : BitVec 12) (sl : Slot) (b : Cells) : (putBlock s o sl b).flushed = s.flushed := rfl
@[simp] theorem putBlock_inject (s : State) (o : BitVec 12) (sl : Slot) (b : Cells) : (putBlock s o sl b).inject = s.inject := rfl
@[simp] theorem putBlock_level (s : State) (o : BitVec 12) (sl : Slot) (b : Cells) : (putBlock s o sl b).level = s.level := rfl
@[simp] theorem putBlock_sched3 (s : State) (o : BitVec 12) (sl : Slot) (b : Cells) : (putBlock s o sl b).sched3 = s.sched3 := rfl
@[simp] theorem putBlock_leaf (s : State) (o : BitVec 12) (sl : Slot) (b : Cells) : (putBlock s o sl b).leaf = s.leaf := rfl
@[simp] theorem putBlock_keys (s : State) (o : BitVec 12) (sl : Slot) (b : Cells) : (putBlock s o sl b).keys = s.keys := rfl
@[simp] theorem putBlock_fwCopies (s : State) (o : BitVec 12) (sl : Slot) (b : Cells) : (putBlock s o sl b).fwCopies = s.fwCopies := rfl
@[simp] theorem putBlock_fwCopy (s : State) (o : BitVec 12) (sl : Slot) (b : Cells) : (putBlock s o sl b).fwCopy = s.fwCopy := rfl
@[simp] theorem putBlock_fwVersion (s : State) (o : BitVec 12) (sl : Slot) (b : Cells) : (putBlock s o sl b).fwVersion = s.fwVersion := rfl
@[simp] theorem putBlock_fwMinimum (s : State) (o : BitVec 12) (sl : Slot) (b : Cells) : (putBlock s o sl b).fwMinimum = s.fwMinimum := rfl
@[simp] theorem putBlock_sessions (s : State) (o : BitVec 12) (sl : Slot) (b : Cells) : (putBlock s o sl b).sessions = s.sessions := rfl
@[simp] theorem putBlock_outbox (s : State) (o : BitVec 12) (sl : Slot) (b : Cells) : (putBlock s o sl b).outbox = s.outbox := rfl
@[simp] theorem putBlock_sent (s : State) (o : BitVec 12) (sl : Slot) (b : Cells) : (putBlock s o sl b).sent = s.sent := rfl
@[simp] theorem putBlock_serial (s : State) (o : BitVec 12) (sl : Slot) (b : Cells) : (putBlock s o sl b).serial = s.serial := rfl
@[simp] theorem putBlock_agenda (s : State) (o : BitVec 12) (sl : Slot) (b : Cells) : (putBlock s o sl b).agenda = s.agenda := rfl
@[simp] theorem putBlock_cur (s : State) (o : BitVec 12) (sl : Slot) (b : Cells) : (putBlock s o sl b).cur = s.cur := rfl
@[simp] theorem putBlock_turn (s : State) (o : BitVec 12) (sl : Slot) (b : Cells) : (putBlock s o sl b).turn = s.turn := rfl
@[simp] theorem putBlock_free (s : State) (o : BitVec 12) (sl : Slot) (b : Cells) : (putBlock s o sl b).free = s.free := rfl

@[simp] theorem modBlock_power (s : State) (sl : Slot) (f : Cells → Cells) : (modBlock s sl f).power = s.power := rfl
@[simp] theorem modBlock_warm (s : State) (sl : Slot) (f : Cells → Cells) : (modBlock s sl f).warm = s.warm := rfl
@[simp] theorem modBlock_ptide (s : State) (sl : Slot) (f : Cells → Cells) : (modBlock s sl f).ptide = s.ptide := rfl
@[simp] theorem modBlock_chip (s : State) (sl : Slot) (f : Cells → Cells) : (modBlock s sl f).chip = s.chip := rfl
@[simp] theorem modBlock_gangs (s : State) (sl : Slot) (f : Cells → Cells) : (modBlock s sl f).gangs = s.gangs := rfl
@[simp] theorem modBlock_nextGang (s : State) (sl : Slot) (f : Cells → Cells) : (modBlock s sl f).nextGang = s.nextGang := rfl
@[simp] theorem modBlock_parts (s : State) (sl : Slot) (f : Cells → Cells) : (modBlock s sl f).parts = s.parts := rfl
@[simp] theorem modBlock_partCount (s : State) (sl : Slot) (f : Cells → Cells) : (modBlock s sl f).partCount = s.partCount := rfl
@[simp] theorem modBlock_newCount (s : State) (sl : Slot) (f : Cells → Cells) : (modBlock s sl f).newCount = s.newCount := rfl
@[simp] theorem modBlock_owners (s : State) (sl : Slot) (f : Cells → Cells) : (modBlock s sl f).owners = s.owners := rfl
@[simp] theorem modBlock_harbour (s : State) (sl : Slot) (f : Cells → Cells) : (modBlock s sl f).harbour = s.harbour := rfl
@[simp] theorem modBlock_tickets (s : State) (sl : Slot) (f : Cells → Cells) : (modBlock s sl f).tickets = s.tickets := rfl
@[simp] theorem modBlock_nextTicket (s : State) (sl : Slot) (f : Cells → Cells) : (modBlock s sl f).nextTicket = s.nextTicket := rfl
@[simp] theorem modBlock_backlog (s : State) (sl : Slot) (f : Cells → Cells) : (modBlock s sl f).backlog = s.backlog := rfl
@[simp] theorem modBlock_routes (s : State) (sl : Slot) (f : Cells → Cells) : (modBlock s sl f).routes = s.routes := rfl
@[simp] theorem modBlock_ports (s : State) (sl : Slot) (f : Cells → Cells) : (modBlock s sl f).ports = s.ports := rfl
@[simp] theorem modBlock_alternate (s : State) (sl : Slot) (f : Cells → Cells) : (modBlock s sl f).alternate = s.alternate := rfl
@[simp] theorem modBlock_around (s : State) (sl : Slot) (f : Cells → Cells) : (modBlock s sl f).around = s.around := rfl
@[simp] theorem modBlock_lostChips (s : State) (sl : Slot) (f : Cells → Cells) : (modBlock s sl f).lostChips = s.lostChips := rfl
@[simp] theorem modBlock_lostTo (s : State) (sl : Slot) (f : Cells → Cells) : (modBlock s sl f).lostTo = s.lostTo := rfl
@[simp] theorem modBlock_farPorts (s : State) (sl : Slot) (f : Cells → Cells) : (modBlock s sl f).farPorts = s.farPorts := rfl
@[simp] theorem modBlock_quads (s : State) (sl : Slot) (f : Cells → Cells) : (modBlock s sl f).quads = s.quads := rfl
@[simp] theorem modBlock_hbmStacks (s : State) (sl : Slot) (f : Cells → Cells) : (modBlock s sl f).hbmStacks = s.hbmStacks := rfl
@[simp] theorem modBlock_rowErrors (s : State) (sl : Slot) (f : Cells → Cells) : (modBlock s sl f).rowErrors = s.rowErrors := rfl
@[simp] theorem modBlock_sparedRows (s : State) (sl : Slot) (f : Cells → Cells) : (modBlock s sl f).sparedRows = s.sparedRows := rfl
@[simp] theorem modBlock_mendedRows (s : State) (sl : Slot) (f : Cells → Cells) : (modBlock s sl f).mendedRows = s.mendedRows := rfl
@[simp] theorem modBlock_retiredSlots (s : State) (sl : Slot) (f : Cells → Cells) : (modBlock s sl f).retiredSlots = s.retiredSlots := rfl
@[simp] theorem modBlock_box (s : State) (sl : Slot) (f : Cells → Cells) : (modBlock s sl f).box = s.box := rfl
@[simp] theorem modBlock_boxSeq (s : State) (sl : Slot) (f : Cells → Cells) : (modBlock s sl f).boxSeq = s.boxSeq := rfl
@[simp] theorem modBlock_mirror (s : State) (sl : Slot) (f : Cells → Cells) : (modBlock s sl f).mirror = s.mirror := rfl
@[simp] theorem modBlock_flushed (s : State) (sl : Slot) (f : Cells → Cells) : (modBlock s sl f).flushed = s.flushed := rfl
@[simp] theorem modBlock_inject (s : State) (sl : Slot) (f : Cells → Cells) : (modBlock s sl f).inject = s.inject := rfl
@[simp] theorem modBlock_level (s : State) (sl : Slot) (f : Cells → Cells) : (modBlock s sl f).level = s.level := rfl
@[simp] theorem modBlock_sched3 (s : State) (sl : Slot) (f : Cells → Cells) : (modBlock s sl f).sched3 = s.sched3 := rfl
@[simp] theorem modBlock_leaf (s : State) (sl : Slot) (f : Cells → Cells) : (modBlock s sl f).leaf = s.leaf := rfl
@[simp] theorem modBlock_keys (s : State) (sl : Slot) (f : Cells → Cells) : (modBlock s sl f).keys = s.keys := rfl
@[simp] theorem modBlock_fwCopies (s : State) (sl : Slot) (f : Cells → Cells) : (modBlock s sl f).fwCopies = s.fwCopies := rfl
@[simp] theorem modBlock_fwCopy (s : State) (sl : Slot) (f : Cells → Cells) : (modBlock s sl f).fwCopy = s.fwCopy := rfl
@[simp] theorem modBlock_fwVersion (s : State) (sl : Slot) (f : Cells → Cells) : (modBlock s sl f).fwVersion = s.fwVersion := rfl
@[simp] theorem modBlock_fwMinimum (s : State) (sl : Slot) (f : Cells → Cells) : (modBlock s sl f).fwMinimum = s.fwMinimum := rfl
@[simp] theorem modBlock_sessions (s : State) (sl : Slot) (f : Cells → Cells) : (modBlock s sl f).sessions = s.sessions := rfl
@[simp] theorem modBlock_outbox (s : State) (sl : Slot) (f : Cells → Cells) : (modBlock s sl f).outbox = s.outbox := rfl
@[simp] theorem modBlock_sent (s : State) (sl : Slot) (f : Cells → Cells) : (modBlock s sl f).sent = s.sent := rfl
@[simp] theorem modBlock_serial (s : State) (sl : Slot) (f : Cells → Cells) : (modBlock s sl f).serial = s.serial := rfl
@[simp] theorem modBlock_agenda (s : State) (sl : Slot) (f : Cells → Cells) : (modBlock s sl f).agenda = s.agenda := rfl
@[simp] theorem modBlock_cur (s : State) (sl : Slot) (f : Cells → Cells) : (modBlock s sl f).cur = s.cur := rfl
@[simp] theorem modBlock_turn (s : State) (sl : Slot) (f : Cells → Cells) : (modBlock s sl f).turn = s.turn := rfl
@[simp] theorem modBlock_free (s : State) (sl : Slot) (f : Cells → Cells) : (modBlock s sl f).free = s.free := rfl

@[simp] theorem modQuad_power (s : State) (q : Nat) (f : Quad → Quad) : (modQuad s q f).power = s.power := rfl
@[simp] theorem modQuad_warm (s : State) (q : Nat) (f : Quad → Quad) : (modQuad s q f).warm = s.warm := rfl
@[simp] theorem modQuad_ptide (s : State) (q : Nat) (f : Quad → Quad) : (modQuad s q f).ptide = s.ptide := rfl
@[simp] theorem modQuad_chip (s : State) (q : Nat) (f : Quad → Quad) : (modQuad s q f).chip = s.chip := rfl
@[simp] theorem modQuad_mem (s : State) (q : Nat) (f : Quad → Quad) : (modQuad s q f).mem = s.mem := rfl
@[simp] theorem modQuad_gangs (s : State) (q : Nat) (f : Quad → Quad) : (modQuad s q f).gangs = s.gangs := rfl
@[simp] theorem modQuad_nextGang (s : State) (q : Nat) (f : Quad → Quad) : (modQuad s q f).nextGang = s.nextGang := rfl
@[simp] theorem modQuad_parts (s : State) (q : Nat) (f : Quad → Quad) : (modQuad s q f).parts = s.parts := rfl
@[simp] theorem modQuad_partCount (s : State) (q : Nat) (f : Quad → Quad) : (modQuad s q f).partCount = s.partCount := rfl
@[simp] theorem modQuad_newCount (s : State) (q : Nat) (f : Quad → Quad) : (modQuad s q f).newCount = s.newCount := rfl
@[simp] theorem modQuad_owners (s : State) (q : Nat) (f : Quad → Quad) : (modQuad s q f).owners = s.owners := rfl
@[simp] theorem modQuad_harbour (s : State) (q : Nat) (f : Quad → Quad) : (modQuad s q f).harbour = s.harbour := rfl
@[simp] theorem modQuad_tickets (s : State) (q : Nat) (f : Quad → Quad) : (modQuad s q f).tickets = s.tickets := rfl
@[simp] theorem modQuad_nextTicket (s : State) (q : Nat) (f : Quad → Quad) : (modQuad s q f).nextTicket = s.nextTicket := rfl
@[simp] theorem modQuad_backlog (s : State) (q : Nat) (f : Quad → Quad) : (modQuad s q f).backlog = s.backlog := rfl
@[simp] theorem modQuad_routes (s : State) (q : Nat) (f : Quad → Quad) : (modQuad s q f).routes = s.routes := rfl
@[simp] theorem modQuad_ports (s : State) (q : Nat) (f : Quad → Quad) : (modQuad s q f).ports = s.ports := rfl
@[simp] theorem modQuad_alternate (s : State) (q : Nat) (f : Quad → Quad) : (modQuad s q f).alternate = s.alternate := rfl
@[simp] theorem modQuad_around (s : State) (q : Nat) (f : Quad → Quad) : (modQuad s q f).around = s.around := rfl
@[simp] theorem modQuad_lostChips (s : State) (q : Nat) (f : Quad → Quad) : (modQuad s q f).lostChips = s.lostChips := rfl
@[simp] theorem modQuad_lostTo (s : State) (q : Nat) (f : Quad → Quad) : (modQuad s q f).lostTo = s.lostTo := rfl
@[simp] theorem modQuad_farPorts (s : State) (q : Nat) (f : Quad → Quad) : (modQuad s q f).farPorts = s.farPorts := rfl
@[simp] theorem modQuad_hbmStacks (s : State) (q : Nat) (f : Quad → Quad) : (modQuad s q f).hbmStacks = s.hbmStacks := rfl
@[simp] theorem modQuad_rowErrors (s : State) (q : Nat) (f : Quad → Quad) : (modQuad s q f).rowErrors = s.rowErrors := rfl
@[simp] theorem modQuad_sparedRows (s : State) (q : Nat) (f : Quad → Quad) : (modQuad s q f).sparedRows = s.sparedRows := rfl
@[simp] theorem modQuad_mendedRows (s : State) (q : Nat) (f : Quad → Quad) : (modQuad s q f).mendedRows = s.mendedRows := rfl
@[simp] theorem modQuad_retiredSlots (s : State) (q : Nat) (f : Quad → Quad) : (modQuad s q f).retiredSlots = s.retiredSlots := rfl
@[simp] theorem modQuad_box (s : State) (q : Nat) (f : Quad → Quad) : (modQuad s q f).box = s.box := rfl
@[simp] theorem modQuad_boxSeq (s : State) (q : Nat) (f : Quad → Quad) : (modQuad s q f).boxSeq = s.boxSeq := rfl
@[simp] theorem modQuad_mirror (s : State) (q : Nat) (f : Quad → Quad) : (modQuad s q f).mirror = s.mirror := rfl
@[simp] theorem modQuad_flushed (s : State) (q : Nat) (f : Quad → Quad) : (modQuad s q f).flushed = s.flushed := rfl
@[simp] theorem modQuad_inject (s : State) (q : Nat) (f : Quad → Quad) : (modQuad s q f).inject = s.inject := rfl
@[simp] theorem modQuad_level (s : State) (q : Nat) (f : Quad → Quad) : (modQuad s q f).level = s.level := rfl
@[simp] theorem modQuad_sched3 (s : State) (q : Nat) (f : Quad → Quad) : (modQuad s q f).sched3 = s.sched3 := rfl
@[simp] theorem modQuad_leaf (s : State) (q : Nat) (f : Quad → Quad) : (modQuad s q f).leaf = s.leaf := rfl
@[simp] theorem modQuad_keys (s : State) (q : Nat) (f : Quad → Quad) : (modQuad s q f).keys = s.keys := rfl
@[simp] theorem modQuad_fwCopies (s : State) (q : Nat) (f : Quad → Quad) : (modQuad s q f).fwCopies = s.fwCopies := rfl
@[simp] theorem modQuad_fwCopy (s : State) (q : Nat) (f : Quad → Quad) : (modQuad s q f).fwCopy = s.fwCopy := rfl
@[simp] theorem modQuad_fwVersion (s : State) (q : Nat) (f : Quad → Quad) : (modQuad s q f).fwVersion = s.fwVersion := rfl
@[simp] theorem modQuad_fwMinimum (s : State) (q : Nat) (f : Quad → Quad) : (modQuad s q f).fwMinimum = s.fwMinimum := rfl
@[simp] theorem modQuad_sessions (s : State) (q : Nat) (f : Quad → Quad) : (modQuad s q f).sessions = s.sessions := rfl
@[simp] theorem modQuad_outbox (s : State) (q : Nat) (f : Quad → Quad) : (modQuad s q f).outbox = s.outbox := rfl
@[simp] theorem modQuad_sent (s : State) (q : Nat) (f : Quad → Quad) : (modQuad s q f).sent = s.sent := rfl
@[simp] theorem modQuad_serial (s : State) (q : Nat) (f : Quad → Quad) : (modQuad s q f).serial = s.serial := rfl
@[simp] theorem modQuad_agenda (s : State) (q : Nat) (f : Quad → Quad) : (modQuad s q f).agenda = s.agenda := rfl
@[simp] theorem modQuad_cur (s : State) (q : Nat) (f : Quad → Quad) : (modQuad s q f).cur = s.cur := rfl
@[simp] theorem modQuad_turn (s : State) (q : Nat) (f : Quad → Quad) : (modQuad s q f).turn = s.turn := rfl
@[simp] theorem modQuad_free (s : State) (q : Nat) (f : Quad → Quad) : (modQuad s q f).free = s.free := rfl

@[simp] theorem modGang_gangs (s : State) (i : Nat) (f : Gang → Gang) :
    (modGang s i f).gangs = s.gangs.map fun g => if g.id == i then f g else g := rfl
@[simp] theorem post_agenda (s : State) (d : Nat) (i : Instr) : (post s d i).agenda = insertEvent s.agenda (s.ptide + d) i := rfl
@[simp] theorem sendEvent_outbox (s : State) (n m : Nat) (l : Word) (a b c : Dword) (g : Option Gang) (p : BitVec 16) :
    (sendEvent s n m l a b c g p).outbox = s.outbox ++ [hostMsg 0x10 0 0 p (eventBody n m l a b c g)] := rfl
@[simp] theorem fresh_fst (s : State) : (fresh s).1 = s.serial := rfl
@[simp] theorem fresh_snd (s : State) : (fresh s).2 = { s with serial := s.serial + 1 } := rfl
@[simp] theorem draw_fst {α : Type} (f : Nat → α) (s : State) : (draw f s).1 = f s.free := rfl
@[simp] theorem draw_snd {α : Type} (f : Nat → α) (s : State) : (draw f s).2 = { s with free := s.free + 1 } := rfl

/-! ## Finding what was changed -/

/-- A changed gang is found as it was changed, when the change keeps its number. -/
theorem find_map_id (l : List Gang) (i : Nat) (f : Gang → Gang) (hf : ∀ g, (f g).id = g.id) :
    (l.map fun g => if g.id == i then f g else g).find? (fun g => g.id == i) = (l.find? fun g => g.id == i).map f := by
  induction l with
  | nil => rfl
  | cons g t ih =>
    rw [List.map_cons, List.find?_cons, List.find?_cons]
    by_cases h : g.id = i
    · simp [h, hf]
    · rw [if_neg (by simpa using h), ih, show (g.id == i) = false by simpa using h]

theorem find_map_other (l : List Gang) (i j : Nat) (f : Gang → Gang) (hf : ∀ g, (f g).id = g.id) (hij : j ≠ i) :
    (l.map fun g => if g.id == i then f g else g).find? (fun g => g.id == j) = l.find? fun g => g.id == j := by
  induction l with
  | nil => rfl
  | cons g t ih =>
    rw [List.map_cons, List.find?_cons, List.find?_cons, ih]
    by_cases h : g.id = i
    · have hj : (g.id == j) = false := by simpa [h] using fun e => hij (Eq.symm e)
      rw [if_pos (by simpa using h), hf, hj]
    · rw [if_neg (by simpa using h)]

theorem getGang_modGang (s : State) (i : Nat) (f : Gang → Gang) (hf : ∀ g, (f g).id = g.id) :
    getGang (modGang s i f) i = (getGang s i).map f := find_map_id s.gangs i f hf

theorem getGang_modGang_other (s : State) (i j : Nat) (f : Gang → Gang) (hf : ∀ g, (f g).id = g.id) (hij : j ≠ i) :
    getGang (modGang s i f) j = getGang s j := find_map_other s.gangs i j f hf hij

theorem getMember_eq_some {s : State} {k : CoreId} {g : Gang} {c : Core} :
    getMember s k = some (g, c) ↔ getGang s k.gang = some g ∧ g.cores[k.idx]? = some c := by
  simp only [getMember, Option.bind_eq_bind, Option.bind_eq_some_iff, Option.some.injEq, Prod.mk.injEq]
  constructor
  · rintro ⟨g', hg, c', hc, rfl, rfl⟩
    exact ⟨hg, hc⟩
  · rintro ⟨hg, hc⟩
    exact ⟨g, hg, c, hc, rfl, rfl⟩

/-- A changed core is found as it was changed. -/
theorem getMember_modMember {s : State} {k : CoreId} {g : Gang} {c : Core} (f : Core → Core) (h : getMember s k = some (g, c)) :
    getMember (modMember s k f) k = some (modCore g k.idx f, f c) := by
  obtain ⟨hg, hc⟩ := getMember_eq_some.1 h
  refine getMember_eq_some.2 ⟨?_, ?_⟩
  · rw [modMember, getGang_modGang s k.gang (fun g => modCore g k.idx f) fun _ => rfl, hg]
    rfl
  · simp [modCore, hc]

/-- Every other core stands as it stood. -/
theorem core_modMember_other {s : State} {k j : CoreId} (f : Core → Core) (h : j ≠ k) :
    (getMember (modMember s k f) j).map (·.2) = (getMember s j).map (·.2) := by
  simp only [getMember, modMember, Option.bind_eq_bind]
  by_cases hg : j.gang = k.gang
  · have hi : j.idx ≠ k.idx := fun e => h (by cases j; cases k; simp_all)
    rw [hg, getGang_modGang s k.gang (fun g => modCore g k.idx f) fun _ => rfl]
    cases getGang s k.gang with
    | none => rfl
    | some g =>
      simp only [Option.map_some, Option.bind_some, modCore, List.getElem?_modify]
      have : ¬ k.idx = j.idx := fun e => hi e.symm
      simp only [this, if_false]
      cases g.cores[j.idx]? <;> rfl
  · rw [getGang_modGang_other s k.gang j.gang (fun g => modCore g k.idx f) (fun _ => rfl) hg]

/-! ## Vectors and registers -/

theorem vmod_get {α : Type} {n : Nat} (v : Vector α n) (i j : Nat) (f : α → α) (hj : j < n) :
    (vmod v i f)[j] = if i = j then f v[j] else v[j] := by
  unfold vmod
  split
  · rw [Vector.getElem_set]
    split
    · rename_i h; subst h; rfl
    · rfl
  · rw [if_neg (by omega)]

/-- g0 reads zero. -/
@[simp] theorem rg_zero (r : Regs) : r.rg 0 = 0 := rfl
/-- p0 reads all ones. -/
@[simp] theorem rp_zero (r : Regs) : r.rp 0 = BitVec.allOnes 128 := rfl

/-- A scalar register reads what was written to it; g0 reads zero whatever is written. -/
theorem rg_setG (r : Regs) (i j : Reg) (v : Dword) : (r.setG i v).rg j = if j = 0 then 0 else if j = i then v else r.rg j := by
  unfold Regs.rg Regs.setG
  by_cases hj : j = 0
  · simp [hj]
  · by_cases hi : i = 0
    · subst hi; simp only [hj, if_true, if_false]
    · have : i.toNat = j.toNat ↔ j = i := ⟨fun h => (BitVec.eq_of_toNat_eq h).symm, fun h => by rw [h]⟩
      simp only [hj, hi, if_false, Vector.getElem_set, this]

theorem rp_setP (r : Regs) (i j : PReg) (v m : Pred) :
    (r.setP i v m).rp j = if j = 0 then BitVec.allOnes 128 else if j = i then v &&& m ||| r.rp i &&& ~~~m else r.rp j := by
  by_cases hj : j = 0
  · subst hj; rw [if_pos rfl]; rfl
  · by_cases hi : i = 0
    · subst hi; rw [if_neg hj, if_neg hj]; rfl
    · have : i.toNat = j.toNat ↔ j = i := ⟨fun h => (BitVec.eq_of_toNat_eq h).symm, fun h => by rw [h]⟩
      simp only [Regs.rp, Regs.setP, hj, hi, if_false, Vector.getElem_set, this]

theorem rv_setV (r : Regs) (i j : Reg) (v : Lanes) (m : Pred) :
    (r.setV i v m).rv j = if j = i then mergeLanes (r.rv i) v m else r.rv j := by
  have : i.toNat = j.toNat ↔ j = i := ⟨fun h => (BitVec.eq_of_toNat_eq h).symm, fun h => by rw [h]⟩
  simp only [Regs.rv, Regs.setV, Vector.getElem_set, this]

/-- A lane merged under a mask. -/
theorem mergeLanes_get (a b : Lanes) (m : Pred) (k : Fin 128) : (mergeLanes a b m)[k] = if m.getLsbD k.val then b[k] else a[k] := by
  unfold mergeLanes
  split
  · rename_i h
    have on : m.getLsbD k.val = true := by rw [h, BitVec.getLsbD_allOnes]; exact decide_eq_true k.isLt
    rw [if_pos on]
  · simp


@[simp] theorem setG_p (r : Regs) (i : Reg) (v : Dword) : (r.setG i v).p = r.p := by unfold Regs.setG; split <;> rfl
@[simp] theorem setG_v (r : Regs) (i : Reg) (v : Dword) : (r.setG i v).v = r.v := by unfold Regs.setG; split <;> rfl
@[simp] theorem setG_ctl (r : Regs) (i : Reg) (v : Dword) : (r.setG i v).ctl = r.ctl := by unfold Regs.setG; split <;> rfl
@[simp] theorem setG_park (r : Regs) (i : Reg) (v : Dword) : (r.setG i v).park = r.park := by unfold Regs.setG; split <;> rfl
@[simp] theorem setG_latch (r : Regs) (i : Reg) (v : Dword) : (r.setG i v).latch = r.latch := by unfold Regs.setG; split <;> rfl
@[simp] theorem setG_gpos (r : Regs) (i : Reg) (v : Dword) : (r.setG i v).gpos = r.gpos := by unfold Regs.setG; split <;> rfl
@[simp] theorem setG_tokens (r : Regs) (i : Reg) (v : Dword) : (r.setG i v).tokens = r.tokens := by unfold Regs.setG; split <;> rfl
@[simp] theorem setG_q (r : Regs) (i : Reg) (v : Dword) : (r.setG i v).q = r.q := by unfold Regs.setG; split <;> rfl
@[simp] theorem setG_sNext (r : Regs) (i : Reg) (v : Dword) : (r.setG i v).sNext = r.sNext := by unfold Regs.setG; split <;> rfl
@[simp] theorem setG_points (r : Regs) (i : Reg) (v : Dword) : (r.setG i v).points = r.points := by unfold Regs.setG; split <;> rfl
@[simp] theorem setG_landings (r : Regs) (i : Reg) (v : Dword) : (r.setG i v).landings = r.landings := by unfold Regs.setG; split <;> rfl
@[simp] theorem setP_g (r : Regs) (i : PReg) (v m : Pred) : (r.setP i v m).g = r.g := by unfold Regs.setP; split <;> rfl
@[simp] theorem setP_v (r : Regs) (i : PReg) (v m : Pred) : (r.setP i v m).v = r.v := by unfold Regs.setP; split <;> rfl
@[simp] theorem setP_ctl (r : Regs) (i : PReg) (v m : Pred) : (r.setP i v m).ctl = r.ctl := by unfold Regs.setP; split <;> rfl
@[simp] theorem setP_park (r : Regs) (i : PReg) (v m : Pred) : (r.setP i v m).park = r.park := by unfold Regs.setP; split <;> rfl
@[simp] theorem setP_latch (r : Regs) (i : PReg) (v m : Pred) : (r.setP i v m).latch = r.latch := by unfold Regs.setP; split <;> rfl
@[simp] theorem setP_gpos (r : Regs) (i : PReg) (v m : Pred) : (r.setP i v m).gpos = r.gpos := by unfold Regs.setP; split <;> rfl
@[simp] theorem setP_tokens (r : Regs) (i : PReg) (v m : Pred) : (r.setP i v m).tokens = r.tokens := by unfold Regs.setP; split <;> rfl
@[simp] theorem setP_q (r : Regs) (i : PReg) (v m : Pred) : (r.setP i v m).q = r.q := by unfold Regs.setP; split <;> rfl
@[simp] theorem setP_sNext (r : Regs) (i : PReg) (v m : Pred) : (r.setP i v m).sNext = r.sNext := by unfold Regs.setP; split <;> rfl
@[simp] theorem setP_points (r : Regs) (i : PReg) (v m : Pred) : (r.setP i v m).points = r.points := by unfold Regs.setP; split <;> rfl
@[simp] theorem setP_landings (r : Regs) (i : PReg) (v m : Pred) : (r.setP i v m).landings = r.landings := by unfold Regs.setP; split <;> rfl
@[simp] theorem setV_g (r : Regs) (i : Reg) (v : Lanes) (m : Pred) : (r.setV i v m).g = r.g := rfl
@[simp] theorem setV_p (r : Regs) (i : Reg) (v : Lanes) (m : Pred) : (r.setV i v m).p = r.p := rfl
@[simp] theorem setV_ctl (r : Regs) (i : Reg) (v : Lanes) (m : Pred) : (r.setV i v m).ctl = r.ctl := rfl
@[simp] theorem setV_park (r : Regs) (i : Reg) (v : Lanes) (m : Pred) : (r.setV i v m).park = r.park := rfl
@[simp] theorem setV_latch (r : Regs) (i : Reg) (v : Lanes) (m : Pred) : (r.setV i v m).latch = r.latch := rfl
@[simp] theorem setV_gpos (r : Regs) (i : Reg) (v : Lanes) (m : Pred) : (r.setV i v m).gpos = r.gpos := rfl
@[simp] theorem setV_tokens (r : Regs) (i : Reg) (v : Lanes) (m : Pred) : (r.setV i v m).tokens = r.tokens := rfl
@[simp] theorem setV_q (r : Regs) (i : Reg) (v : Lanes) (m : Pred) : (r.setV i v m).q = r.q := rfl
@[simp] theorem setV_sNext (r : Regs) (i : Reg) (v : Lanes) (m : Pred) : (r.setV i v m).sNext = r.sNext := rfl
@[simp] theorem setV_points (r : Regs) (i : Reg) (v : Lanes) (m : Pred) : (r.setV i v m).points = r.points := rfl
@[simp] theorem setV_landings (r : Regs) (i : Reg) (v : Lanes) (m : Pred) : (r.setV i v m).landings = r.landings := rfl

/-! ## Updates of a core -/

@[simp] theorem mapCtl_x (c : Core) (f : Ctl → Ctl) : (c.mapCtl f).x = c.x := rfl
@[simp] theorem mapCtl_y (c : Core) (f : Ctl → Ctl) : (c.mapCtl f).y = c.y := rfl
@[simp] theorem mapCtl_qStart (c : Core) (f : Ctl → Ctl) : (c.mapCtl f).qStart = c.qStart := rfl
@[simp] theorem mapCtl_acc (c : Core) (f : Ctl → Ctl) : (c.mapCtl f).acc = c.acc := rfl
@[simp] theorem mapCtl_shadow (c : Core) (f : Ctl → Ctl) : (c.mapCtl f).shadow = c.shadow := rfl
@[simp] theorem mapCtl_accWritten (c : Core) (f : Ctl → Ctl) : (c.mapCtl f).accWritten = c.accWritten := rfl
@[simp] theorem mapCtl_accesses (c : Core) (f : Ctl → Ctl) : (c.mapCtl f).accesses = c.accesses := rfl
@[simp] theorem mapCtl_asks (c : Core) (f : Ctl → Ctl) : (c.mapCtl f).asks = c.asks := rfl
@[simp] theorem mapCtl_exchs (c : Core) (f : Ctl → Ctl) : (c.mapCtl f).exchs = c.exchs := rfl
@[simp] theorem mapCtl_cmds (c : Core) (f : Ctl → Ctl) : (c.mapCtl f).cmds = c.cmds := rfl
@[simp] theorem mapCtl_channelFree (c : Core) (f : Ctl → Ctl) : (c.mapCtl f).channelFree = c.channelFree := rfl
@[simp] theorem mapCtl_cards (c : Core) (f : Ctl → Ctl) : (c.mapCtl f).cards = c.cards := rfl
@[simp] theorem mapCtl_log (c : Core) (f : Ctl → Ctl) : (c.mapCtl f).log = c.log := rfl
@[simp] theorem mapCtl_reserved (c : Core) (f : Ctl → Ctl) : (c.mapCtl f).reserved = c.reserved := rfl
@[simp] theorem mapCtl_fabs (c : Core) (f : Ctl → Ctl) : (c.mapCtl f).fabs = c.fabs := rfl
@[simp] theorem mapCtl_sentOn (c : Core) (f : Ctl → Ctl) : (c.mapCtl f).sentOn = c.sentOn := rfl
@[simp] theorem mapCtl_armed (c : Core) (f : Ctl → Ctl) : (c.mapCtl f).armed = c.armed := rfl
@[simp] theorem mapCtl_standing (c : Core) (f : Ctl → Ctl) : (c.mapCtl f).standing = c.standing := rfl
@[simp] theorem mapCtl_fences (c : Core) (f : Ctl → Ctl) : (c.mapCtl f).fences = c.fences := rfl
@[simp] theorem mapCtl_fenceBits (c : Core) (f : Ctl → Ctl) : (c.mapCtl f).fenceBits = c.fenceBits := rfl
@[simp] theorem mapCtl_outstanding (c : Core) (f : Ctl → Ctl) : (c.mapCtl f).outstanding = c.outstanding := rfl
@[simp] theorem mapCtl_outward (c : Core) (f : Ctl → Ctl) : (c.mapCtl f).outward = c.outward := rfl
@[simp] theorem mapCtl_pens (c : Core) (f : Ctl → Ctl) : (c.mapCtl f).pens = c.pens := rfl
@[simp] theorem mapCtl_links (c : Core) (f : Ctl → Ctl) : (c.mapCtl f).links = c.links := rfl
@[simp] theorem mapCtl_atEnd (c : Core) (f : Ctl → Ctl) : (c.mapCtl f).atEnd = c.atEnd := rfl
@[simp] theorem mapCtl_raised (c : Core) (f : Ctl → Ctl) : (c.mapCtl f).raised = c.raised := rfl
@[simp] theorem mapCtl_issuedNow (c : Core) (f : Ctl → Ctl) : (c.mapCtl f).issuedNow = c.issuedNow := rfl
@[simp] theorem mapCtl_resumeBreak (c : Core) (f : Ctl → Ctl) : (c.mapCtl f).resumeBreak = c.resumeBreak := rfl
@[simp] theorem mapCtl_trapped (c : Core) (f : Ctl → Ctl) : (c.mapCtl f).trapped = c.trapped := rfl
@[simp] theorem mapCtl_faults (c : Core) (f : Ctl → Ctl) : (c.mapCtl f).faults = c.faults := rfl
@[simp] theorem mapCtl_lostLink (c : Core) (f : Ctl → Ctl) : (c.mapCtl f).lostLink = c.lostLink := rfl
@[simp] theorem mapCtl_checkpoint (c : Core) (f : Ctl → Ctl) : (c.mapCtl f).checkpoint = c.checkpoint := rfl
@[simp] theorem mapCtl_checkBase (c : Core) (f : Ctl → Ctl) : (c.mapCtl f).checkBase = c.checkBase := rfl
@[simp] theorem mapCtl_ctl (c : Core) (f : Ctl → Ctl) : (c.mapCtl f).regs.ctl = f c.regs.ctl := rfl

@[simp] theorem modPoint_x (c : Core) (cl : Cl) (f : Point → Point) : (c.modPoint cl f).x = c.x := rfl
@[simp] theorem modPoint_y (c : Core) (cl : Cl) (f : Point → Point) : (c.modPoint cl f).y = c.y := rfl
@[simp] theorem modPoint_qStart (c : Core) (cl : Cl) (f : Point → Point) : (c.modPoint cl f).qStart = c.qStart := rfl
@[simp] theorem modPoint_acc (c : Core) (cl : Cl) (f : Point → Point) : (c.modPoint cl f).acc = c.acc := rfl
@[simp] theorem modPoint_shadow (c : Core) (cl : Cl) (f : Point → Point) : (c.modPoint cl f).shadow = c.shadow := rfl
@[simp] theorem modPoint_accWritten (c : Core) (cl : Cl) (f : Point → Point) : (c.modPoint cl f).accWritten = c.accWritten := rfl
@[simp] theorem modPoint_accesses (c : Core) (cl : Cl) (f : Point → Point) : (c.modPoint cl f).accesses = c.accesses := rfl
@[simp] theorem modPoint_asks (c : Core) (cl : Cl) (f : Point → Point) : (c.modPoint cl f).asks = c.asks := rfl
@[simp] theorem modPoint_exchs (c : Core) (cl : Cl) (f : Point → Point) : (c.modPoint cl f).exchs = c.exchs := rfl
@[simp] theorem modPoint_cmds (c : Core) (cl : Cl) (f : Point → Point) : (c.modPoint cl f).cmds = c.cmds := rfl
@[simp] theorem modPoint_channelFree (c : Core) (cl : Cl) (f : Point → Point) : (c.modPoint cl f).channelFree = c.channelFree := rfl
@[simp] theorem modPoint_cards (c : Core) (cl : Cl) (f : Point → Point) : (c.modPoint cl f).cards = c.cards := rfl
@[simp] theorem modPoint_log (c : Core) (cl : Cl) (f : Point → Point) : (c.modPoint cl f).log = c.log := rfl
@[simp] theorem modPoint_reserved (c : Core) (cl : Cl) (f : Point → Point) : (c.modPoint cl f).reserved = c.reserved := rfl
@[simp] theorem modPoint_fabs (c : Core) (cl : Cl) (f : Point → Point) : (c.modPoint cl f).fabs = c.fabs := rfl
@[simp] theorem modPoint_sentOn (c : Core) (cl : Cl) (f : Point → Point) : (c.modPoint cl f).sentOn = c.sentOn := rfl
@[simp] theorem modPoint_armed (c : Core) (cl : Cl) (f : Point → Point) : (c.modPoint cl f).armed = c.armed := rfl
@[simp] theorem modPoint_standing (c : Core) (cl : Cl) (f : Point → Point) : (c.modPoint cl f).standing = c.standing := rfl
@[simp] theorem modPoint_fences (c : Core) (cl : Cl) (f : Point → Point) : (c.modPoint cl f).fences = c.fences := rfl
@[simp] theorem modPoint_fenceBits (c : Core) (cl : Cl) (f : Point → Point) : (c.modPoint cl f).fenceBits = c.fenceBits := rfl
@[simp] theorem modPoint_outstanding (c : Core) (cl : Cl) (f : Point → Point) : (c.modPoint cl f).outstanding = c.outstanding := rfl
@[simp] theorem modPoint_outward (c : Core) (cl : Cl) (f : Point → Point) : (c.modPoint cl f).outward = c.outward := rfl
@[simp] theorem modPoint_pens (c : Core) (cl : Cl) (f : Point → Point) : (c.modPoint cl f).pens = c.pens := rfl
@[simp] theorem modPoint_links (c : Core) (cl : Cl) (f : Point → Point) : (c.modPoint cl f).links = c.links := rfl
@[simp] theorem modPoint_atEnd (c : Core) (cl : Cl) (f : Point → Point) : (c.modPoint cl f).atEnd = c.atEnd := rfl
@[simp] theorem modPoint_raised (c : Core) (cl : Cl) (f : Point → Point) : (c.modPoint cl f).raised = c.raised := rfl
@[simp] theorem modPoint_issuedNow (c : Core) (cl : Cl) (f : Point → Point) : (c.modPoint cl f).issuedNow = c.issuedNow := rfl
@[simp] theorem modPoint_resumeBreak (c : Core) (cl : Cl) (f : Point → Point) : (c.modPoint cl f).resumeBreak = c.resumeBreak := rfl
@[simp] theorem modPoint_trapped (c : Core) (cl : Cl) (f : Point → Point) : (c.modPoint cl f).trapped = c.trapped := rfl
@[simp] theorem modPoint_faults (c : Core) (cl : Cl) (f : Point → Point) : (c.modPoint cl f).faults = c.faults := rfl
@[simp] theorem modPoint_lostLink (c : Core) (cl : Cl) (f : Point → Point) : (c.modPoint cl f).lostLink = c.lostLink := rfl
@[simp] theorem modPoint_checkpoint (c : Core) (cl : Cl) (f : Point → Point) : (c.modPoint cl f).checkpoint = c.checkpoint := rfl
@[simp] theorem modPoint_checkBase (c : Core) (cl : Cl) (f : Point → Point) : (c.modPoint cl f).checkBase = c.checkBase := rfl

@[simp] theorem setCtlReg_x (c : Core) (n : Nat) (v : Dword) : (setCtlReg c n v).x = c.x := rfl
@[simp] theorem setCtlReg_y (c : Core) (n : Nat) (v : Dword) : (setCtlReg c n v).y = c.y := rfl
@[simp] theorem setCtlReg_qStart (c : Core) (n : Nat) (v : Dword) : (setCtlReg c n v).qStart = c.qStart := rfl
@[simp] theorem setCtlReg_acc (c : Core) (n : Nat) (v : Dword) : (setCtlReg c n v).acc = c.acc := rfl
@[simp] theorem setCtlReg_shadow (c : Core) (n : Nat) (v : Dword) : (setCtlReg c n v).shadow = c.shadow := rfl
@[simp] theorem setCtlReg_accWritten (c : Core) (n : Nat) (v : Dword) : (setCtlReg c n v).accWritten = c.accWritten := rfl
@[simp] theorem setCtlReg_accesses (c : Core) (n : Nat) (v : Dword) : (setCtlReg c n v).accesses = c.accesses := rfl
@[simp] theorem setCtlReg_asks (c : Core) (n : Nat) (v : Dword) : (setCtlReg c n v).asks = c.asks := rfl
@[simp] theorem setCtlReg_exchs (c : Core) (n : Nat) (v : Dword) : (setCtlReg c n v).exchs = c.exchs := rfl
@[simp] theorem setCtlReg_cmds (c : Core) (n : Nat) (v : Dword) : (setCtlReg c n v).cmds = c.cmds := rfl
@[simp] theorem setCtlReg_channelFree (c : Core) (n : Nat) (v : Dword) : (setCtlReg c n v).channelFree = c.channelFree := rfl
@[simp] theorem setCtlReg_cards (c : Core) (n : Nat) (v : Dword) : (setCtlReg c n v).cards = c.cards := rfl
@[simp] theorem setCtlReg_log (c : Core) (n : Nat) (v : Dword) : (setCtlReg c n v).log = c.log := rfl
@[simp] theorem setCtlReg_reserved (c : Core) (n : Nat) (v : Dword) : (setCtlReg c n v).reserved = c.reserved := rfl
@[simp] theorem setCtlReg_fabs (c : Core) (n : Nat) (v : Dword) : (setCtlReg c n v).fabs = c.fabs := rfl
@[simp] theorem setCtlReg_sentOn (c : Core) (n : Nat) (v : Dword) : (setCtlReg c n v).sentOn = c.sentOn := rfl
@[simp] theorem setCtlReg_armed (c : Core) (n : Nat) (v : Dword) : (setCtlReg c n v).armed = c.armed := rfl
@[simp] theorem setCtlReg_standing (c : Core) (n : Nat) (v : Dword) : (setCtlReg c n v).standing = c.standing := rfl
@[simp] theorem setCtlReg_fences (c : Core) (n : Nat) (v : Dword) : (setCtlReg c n v).fences = c.fences := rfl
@[simp] theorem setCtlReg_fenceBits (c : Core) (n : Nat) (v : Dword) : (setCtlReg c n v).fenceBits = c.fenceBits := rfl
@[simp] theorem setCtlReg_outstanding (c : Core) (n : Nat) (v : Dword) : (setCtlReg c n v).outstanding = c.outstanding := rfl
@[simp] theorem setCtlReg_outward (c : Core) (n : Nat) (v : Dword) : (setCtlReg c n v).outward = c.outward := rfl
@[simp] theorem setCtlReg_pens (c : Core) (n : Nat) (v : Dword) : (setCtlReg c n v).pens = c.pens := rfl
@[simp] theorem setCtlReg_links (c : Core) (n : Nat) (v : Dword) : (setCtlReg c n v).links = c.links := rfl
@[simp] theorem setCtlReg_atEnd (c : Core) (n : Nat) (v : Dword) : (setCtlReg c n v).atEnd = c.atEnd := rfl
@[simp] theorem setCtlReg_raised (c : Core) (n : Nat) (v : Dword) : (setCtlReg c n v).raised = c.raised := rfl
@[simp] theorem setCtlReg_issuedNow (c : Core) (n : Nat) (v : Dword) : (setCtlReg c n v).issuedNow = c.issuedNow := rfl
@[simp] theorem setCtlReg_resumeBreak (c : Core) (n : Nat) (v : Dword) : (setCtlReg c n v).resumeBreak = c.resumeBreak := rfl
@[simp] theorem setCtlReg_trapped (c : Core) (n : Nat) (v : Dword) : (setCtlReg c n v).trapped = c.trapped := rfl
@[simp] theorem setCtlReg_faults (c : Core) (n : Nat) (v : Dword) : (setCtlReg c n v).faults = c.faults := rfl
@[simp] theorem setCtlReg_lostLink (c : Core) (n : Nat) (v : Dword) : (setCtlReg c n v).lostLink = c.lostLink := rfl
@[simp] theorem setCtlReg_checkpoint (c : Core) (n : Nat) (v : Dword) : (setCtlReg c n v).checkpoint = c.checkpoint := rfl
@[simp] theorem setCtlReg_checkBase (c : Core) (n : Nat) (v : Dword) : (setCtlReg c n v).checkBase = c.checkBase := rfl

end Sys2Proof.Machine
end

