-- ==== Sys2Proof/Laws/Issue.lean ====
section
/-! SUPPORT. Issuing an instruction, said once: what an issue answers, what it changes and what it leaves (R59, R62, R76, R83,
R84, R94, R125). -/

namespace Sys2Proof.Machine

open Sys2Proof.Safety

/-! ## The context of an issue -/

theorem ctxOf_s {s : State} {cl : Cl} {x : Ctx} (h : ctxOf s cl = some x) : x.s = s := by
  unfold ctxOf at h
  split at h
  · split at h
    · obtain ⟨p, -, rfl⟩ := Option.map_eq_some_iff.1 h
      rfl
    · cases h
  · split at h
    · cases h; rfl
    · cases h
  · cases h

theorem ctxOf_cl {s : State} {cl : Cl} {x : Ctx} (h : ctxOf s cl = some x) : x.cl = cl := by
  unfold ctxOf at h
  split at h
  · split at h
    · obtain ⟨p, -, rfl⟩ := Option.map_eq_some_iff.1 h
      rfl
    · cases h
  · split at h
    · rename_i hc
      cases h
      exact hc.symm
    · cases h
  · cases h

/-- On a placed core the context is that core's. -/
theorem ctxOf_core {s : State} {cl : Cl} {k : CoreId} {g : Gang} {c : Core} (hc : s.cur = .core k cl)
    (hm : getMember s k = some (g, c)) : ctxOf s cl = some ⟨k, false, cl, g, c, s⟩ := by
  simp [ctxOf, hc, hm]

/-! ## What an issue answers -/

theorem firstCause_one (e : Cause) : firstCause [e] = some e := rfl

theorem registerPoison_clear {x : Ctx} (c : Common) (h : x.core.faults = []) : registerPoison x c = none := by
  simp [registerPoison, h]

/-- With nothing in its way, an instruction whose own effect is `core` and `s` leaves exactly those, and its issue point moved on. -/
theorem issueIn_ok {x : Ctx} {c : Common} {how : Ctx → How} {body : Body} {core : Core} {s : State} (clear : Clear x c)
    (h : body x = .ok (core, s)) : issueIn x c how body = .next (issued x c core s (how x)) := by
  simp [issueIn, clear.1, registerPoison_clear c clear.2, h, firstCause, issued]

/-- With nothing else in its way, an instruction that meets a cause raises it. -/
theorem issueIn_error {x : Ctx} {c : Common} {how : Ctx → How} {body : Body} {e : Cause} (clear : Clear x c)
    (h : body x = .error e) : issueIn x c how body = .next (caused x c e (how x)) := by
  simp [issueIn, clear.1, registerPoison_clear c clear.2, h, firstCause, caused]

/-- An issue always answers a next state. -/
theorem issueIn_next (x : Ctx) (c : Common) (how : Ctx → How) (body : Body) : ∃ t, issueIn x c how body = .next t := by
  unfold issueIn
  dsimp only
  split <;> exact ⟨_, rfl⟩

theorem issueHow_on {cl : Cl} {c : Common} {how : Ctx → How} {on off : Body} {s : State} {x : Ctx} {core : Core} {t : State}
    (hx : ctxOf s cl = some x) (clear : Clear x c) (guard : guardOn x c = true) (h : on x = .ok (core, t)) :
    issueHow cl c how on off s = .next (issued x c core t (how x)) := by
  simp only [issueHow, hx]
  exact issueIn_ok clear (by simp only [guard, if_true]; exact h)

theorem issueHow_off {cl : Cl} {c : Common} {how : Ctx → How} {on off : Body} {s : State} {x : Ctx} {core : Core} {t : State}
    (hx : ctxOf s cl = some x) (clear : Clear x c) (guard : guardOn x c = false) (h : off x = .ok (core, t)) :
    issueHow cl c how on off s = .next (issued x c core t (how x)) := by
  simp only [issueHow, hx]
  exact issueIn_ok clear (by simp only [guard, Bool.false_eq_true, if_false]; exact h)

theorem issueHow_cause {cl : Cl} {c : Common} {how : Ctx → How} {on off : Body} {s : State} {x : Ctx} {e : Cause}
    (hx : ctxOf s cl = some x) (clear : Clear x c) (guard : guardOn x c = true) (h : on x = .error e) :
    issueHow cl c how on off s = .next (caused x c e (how x)) := by
  simp only [issueHow, hx]
  exact issueIn_error clear (by simp only [guard, if_true]; exact h)

theorem issueV_ok {c : Common} {f : Ctx → Pred → Except Cause Core} {s : State} {x : Ctx} {core : Core} (hx : ctxOf s .v = some x)
    (clear : Clear x c) (h : f x (laneMask x c) = .ok core) : issueV c f s = .next (issued x c core s) := by
  simp only [issueV, hx]
  refine issueIn_ok clear ?_
  simp [onCore, h, Except.map, ctxOf_s hx]

/-! ## Landings -/

theorem addLanding_ok {x : Ctx} {l : Landing} {core : Core} (h : l.long = false ∨ core.pending < 16) :
    addLanding x l core = .ok (withLanding core { l with pc := x.pc }) := by
  unfold addLanding
  rw [if_neg]
  · rfl
  · rcases h with h | h
    · simp [h]
    · simp; omega

/-- The seventeenth pending landing raises SCHED_MISS (R62). -/
theorem addLanding_full {x : Ctx} {l : Landing} {core : Core} (hl : l.long = true) (h : 16 ≤ core.pending) :
    addLanding x l core = .error x.miss := by simp [addLanding, hl, h]

theorem landG_ok {x : Ctx} {d : Reg} {v : Dword} {lat : Nat} (h : lat ≤ 1 ∨ Room x) :
    landG x d v lat x.core = .ok (landingG x d v lat) := by
  unfold landG landingG
  split
  · rfl
  · refine addLanding_ok ?_
    rcases h with h | h
    · left; simp; omega
    · exact .inr h

theorem landV_ok {x : Ctx} {d : Reg} {f : LaneFn} {mask : Pred} {lat : Nat} (h : lat ≤ 1 ∨ Room x) :
    landV x d f mask lat x.core = .ok (landingV x d (lanesOf f) mask lat (laneFlags f mask)) := by
  refine addLanding_ok ?_
  rcases h with h | h
  · left; simp; omega
  · exact .inr h

theorem landP_ok {x : Ctx} {d : PReg} {f : Fin 128 → Bool} {flags : BitVec 5} {mask : Pred} :
    landP x d f flags mask x.core = .ok (landingP x d (predOf f) mask flags) := addLanding_ok (.inl rfl)

/-! ## What the issue point changes and leaves -/

theorem advance_frame (x : Ctx) (c : Common) (how : How) (core : Core) :
    (advance x c how core).acc = core.acc ∧ (advance x c how core).accesses = core.accesses
      ∧ (advance x c how core).log = core.log ∧ (advance x c how core).raised = core.raised
      ∧ (advance x c how core).atEnd = core.atEnd ∧ (advance x c how core).exchs = core.exchs
      ∧ (advance x c how core).cmds = core.cmds
      ∧ (advance x c how core).regs.g = core.regs.g ∧ (advance x c how core).regs.p = core.regs.p
      ∧ (advance x c how core).regs.v = core.regs.v ∧ (advance x c how core).regs.ctl = core.regs.ctl
      ∧ (advance x c how core).regs.landings = core.regs.landings ∧ (advance x c how core).regs.tokens = core.regs.tokens := by
  unfold advance
  split <;> exact ⟨rfl, rfl, rfl, rfl, rfl, rfl, rfl, rfl, rfl, rfl, rfl, rfl, rfl⟩

end Sys2Proof.Machine
end

