-- ==== Sys2Proof/Laws/Memory.lean ====
section
/-! SUPPORT. Sparse bytes: reads after writes, and that every operation of Memory.lean keeps the canonical form. -/

namespace Sys2Proof.Machine

/-! ## The canonical form -/

theorem cwfFrom_cons {lo a : Nat} {b : Byte} {t : Cells} :
    cwfFrom lo ((a, b) :: t) = true ↔ lo ≤ a ∧ b ≠ 0 ∧ cwfFrom (a + 1) t = true := by
  simp [cwfFrom, and_assoc]

@[simp] theorem cwfFrom_nil (lo : Nat) : cwfFrom lo [] = true := rfl

theorem cwfFrom_mono {lo hi : Nat} {c : Cells} (h : lo ≤ hi) (w : cwfFrom hi c = true) : cwfFrom lo c = true := by
  cases c with
  | nil => rfl
  | cons e t =>
    obtain ⟨a, b⟩ := e
    rw [cwfFrom_cons] at *
    exact ⟨Nat.le_trans h w.1, w.2⟩

theorem memory_wf_iff {c : Cells} : Memory.wf c = true ↔ cwfFrom 0 c = true := Iff.rfl

theorem cput_keeps {c : Cells} : ∀ {lo : Nat} (o : Nat) (b : Byte), lo ≤ o → cwfFrom lo c = true → cwfFrom lo (cput c o b) = true := by
  induction c with
  | nil =>
    intro lo o b h _
    simp only [cput]
    split
    · rfl
    · exact cwfFrom_cons.2 ⟨h, by assumption, rfl⟩
  | cons e t ih =>
    intro lo o b h w
    obtain ⟨a, x⟩ := e
    rw [cwfFrom_cons] at w
    obtain ⟨h1, h2, h3⟩ := w
    simp only [cput]
    split
    · split
      · exact cwfFrom_cons.2 ⟨h1, h2, h3⟩
      · exact cwfFrom_cons.2 ⟨h, by assumption, cwfFrom_cons.2 ⟨by omega, h2, h3⟩⟩
    · split
      · split
        · exact cwfFrom_mono (by omega) h3
        · exact cwfFrom_cons.2 ⟨h, by assumption, by simp_all⟩
      · exact cwfFrom_cons.2 ⟨h1, h2, ih o b (by omega) h3⟩

theorem cputs_keeps (bs : List Byte) : ∀ {lo : Nat} {c : Cells} (o : Nat), lo ≤ o → cwfFrom lo c = true →
    cwfFrom lo (cputs c o bs) = true := by
  induction bs with
  | nil => intro lo c o _ w; exact w
  | cons b t ih => intro lo c o h w; exact ih (o + 1) (by omega) (cput_keeps o b h w)

theorem cputLe_keeps {lo : Nat} {c : Cells} (o n v : Nat) (h : lo ≤ o) (w : cwfFrom lo c = true) :
    cwfFrom lo (cputLe c o n v) = true := cputs_keeps _ o h w

theorem csub_keeps {c : Cells} (lo n : Nat) : ∀ {m : Nat}, cwfFrom m c = true → cwfFrom (m - lo) (csub c lo n) = true := by
  induction c with
  | nil => intro m _; rfl
  | cons e t ih =>
    intro m w
    obtain ⟨a, x⟩ := e
    rw [cwfFrom_cons] at w
    have tail := ih w.2.2
    simp only [csub]
    split
    · refine cwfFrom_cons.2 ⟨by omega, w.2.1, ?_⟩
      rwa [show a - lo + 1 = a + 1 - lo by omega]
    · exact cwfFrom_mono (by omega) tail

theorem cbelow_keeps {c : Cells} (n : Nat) : ∀ {m : Nat}, cwfFrom m c = true → cwfFrom m (cbelow c n) = true := by
  induction c with
  | nil => intro m _; rfl
  | cons e t ih =>
    intro m w
    obtain ⟨a, x⟩ := e
    rw [cwfFrom_cons] at w
    simp only [cbelow]
    split
    · exact cwfFrom_cons.2 ⟨w.1, w.2.1, ih w.2.2⟩
    · exact cwfFrom_mono (by omega) (ih w.2.2)

theorem cfrom_keeps {c : Cells} (n : Nat) : ∀ {m : Nat}, cwfFrom m c = true → cwfFrom (max m n) (cfrom c n) = true := by
  induction c with
  | nil => intro m _; rfl
  | cons e t ih =>
    intro m w
    obtain ⟨a, x⟩ := e
    rw [cwfFrom_cons] at w
    have tail := ih w.2.2
    simp only [cfrom]
    split
    · refine cwfFrom_cons.2 ⟨by omega, w.2.1, cwfFrom_mono (by omega) tail⟩
    · exact cwfFrom_mono (by omega) tail

theorem cshift_keeps {c : Cells} (n : Nat) : ∀ {m : Nat}, cwfFrom m c = true → cwfFrom (m + n) (cshift c n) = true := by
  induction c with
  | nil => intro m _; rfl
  | cons e t ih =>
    intro m w
    obtain ⟨a, x⟩ := e
    rw [cwfFrom_cons] at w
    refine cwfFrom_cons.2 ⟨by omega, w.2.1, ?_⟩
    have := ih w.2.2
    rwa [show a + n + 1 = a + 1 + n by omega]

/-- Two canonical pieces, the first wholly below `n` and the second from `n` up, make one. -/
theorem append_keeps {c d : Cells} (n : Nat) : ∀ {m : Nat}, m ≤ n → cwfFrom m c = true → (∀ e ∈ c, e.1 < n) → cwfFrom n d = true →
    cwfFrom m (c ++ d) = true := by
  induction c with
  | nil => intro m h _ _ wd; exact cwfFrom_mono h wd
  | cons e t ih =>
    intro m _ wc hb wd
    obtain ⟨a, x⟩ := e
    rw [cwfFrom_cons] at wc
    have ha : a < n := hb (a, x) (by simp)
    exact cwfFrom_cons.2 ⟨wc.1, wc.2.1, ih ha wc.2.2 (fun e he => hb e (by simp [he])) wd⟩

theorem cbelow_bounded (c : Cells) (n : Nat) : ∀ e ∈ cbelow c n, e.1 < n := by
  induction c with
  | nil => simp [cbelow]
  | cons e t ih =>
    obtain ⟨a, x⟩ := e
    simp only [cbelow]
    split
    · intro e he
      rcases List.mem_cons.1 he with rfl | he
      · assumption
      · exact ih e he
    · exact ih

theorem csplice_keeps {c d : Cells} (lo n : Nat) {m : Nat} (hm : m ≤ lo) (wc : cwfFrom m c = true) (wd : cwfFrom 0 d = true) :
    cwfFrom m (csplice c lo n d) = true := by
  have tail : cwfFrom (lo + n) (cfrom c (lo + n)) = true := cwfFrom_mono (by omega) (cfrom_keeps (lo + n) wc)
  have mid : cwfFrom lo (cshift (cbelow d n) lo) = true := by
    have := cshift_keeps lo (cbelow_keeps n wd)
    rwa [Nat.zero_add] at this
  have bound : ∀ e ∈ cshift (cbelow d n) lo, e.1 < lo + n := by
    intro e he
    obtain ⟨e', he', rfl⟩ := List.mem_map.1 he
    have := cbelow_bounded d n e' he'
    simp only
    omega
  rw [csplice, List.append_assoc]
  exact append_keeps lo hm (cbelow_keeps lo wc) (cbelow_bounded c lo) (append_keeps (lo + n) (by omega) mid bound tail)

theorem cpack_keeps (bs : List Byte) : ∀ (o : Nat), cwfFrom o (cpack o bs) = true := by
  induction bs with
  | nil => intro o; rfl
  | cons b t ih =>
    intro o
    simp only [cpack]
    split
    · exact cwfFrom_mono (by omega) (ih (o + 1))
    · exact cwfFrom_cons.2 ⟨Nat.le_refl o, by assumption, ih (o + 1)⟩

theorem cputBit_keeps {c : Cells} (i : Nat) (b : Bool) (w : Memory.wf c = true) : Memory.wf (cputBit c i b) = true :=
  cput_keeps _ _ (Nat.zero_le _) w

/-- Whatever cells it is given, `cnorm` answers canonical ones. -/
theorem cnorm_wf (c : Cells) : Memory.wf (cnorm c) = true := by
  unfold cnorm
  split
  · assumption
  · have all (d : Cells) : cwfFrom 0 (d.foldr (fun e d => cput d e.1 e.2) []) = true := by
      induction d with
      | nil => rfl
      | cons e t ih => exact cput_keeps _ _ (Nat.zero_le _) ih
    exact all c

@[simp] theorem cnorm_of_wf {c : Cells} (h : Memory.wf c = true) : cnorm c = c := by simp [cnorm, h]

theorem setRawBlock_keeps {m : Cells} (sl : Slot) (b : Cells) (w : Memory.wf m = true) : Memory.wf (setRawBlock m sl b) = true :=
  csplice_keeps _ _ (Nat.zero_le _) w (cnorm_wf b)

theorem rawBlock_keeps {m : Cells} (sl : Slot) (w : Memory.wf m = true) : Memory.wf (rawBlock m sl) = true :=
  cwfFrom_mono (Nat.zero_le _) (csub_keeps _ _ w)

theorem putBlock_keeps {s : State} (o : BitVec 12) (sl : Slot) (b : Cells) (w : Memory.wf s.mem = true) :
    Memory.wf (putBlock s o sl b).mem = true := setRawBlock_keeps sl _ w

theorem voidSlot_keeps {s : State} (sl : Slot) (w : Memory.wf s.mem = true) : Memory.wf (voidSlot s sl).mem = true :=
  setRawBlock_keeps sl [] w

theorem voidSlots_keeps (l : List Slot) : ∀ {s : State}, Memory.wf s.mem = true → Memory.wf (voidSlots s l).mem = true := by
  induction l with
  | nil => intro s w; exact w
  | cons sl t ih => intro s w; exact ih (voidSlot_keeps sl w)

/-! ## Reads after writes -/

theorem cget_of_below {c : Cells} : ∀ {lo o : Nat}, o < lo → cwfFrom lo c = true → cget c o = 0 := by
  induction c with
  | nil => intros; rfl
  | cons e t ih =>
    intro lo o h w
    obtain ⟨a, x⟩ := e
    rw [cwfFrom_cons] at w
    rw [cget, if_neg (by omega)]
    exact ih (by omega) w.2.2

/-- A byte written reads back, and every other byte reads as before. -/
theorem cget_cput {c : Cells} : ∀ {lo : Nat} (o : Nat) (b : Byte) (i : Nat), cwfFrom lo c = true →
    cget (cput c o b) i = if i = o then b else cget c i := by
  induction c with
  | nil =>
    intro lo o b i _
    by_cases hb : b = 0
    · simp [cput, hb, cget]
    · simp only [cput, hb, if_false, cget]
      by_cases h : o = i <;> simp [h, eq_comm]
  | cons e t ih =>
    intro lo o b i w
    obtain ⟨a, x⟩ := e
    rw [cwfFrom_cons] at w
    have low (j : Nat) (h : j ≤ a) : cget t j = 0 := cget_of_below (lo := a + 1) (by omega) w.2.2
    simp only [cput]
    split
    · rename_i hlt
      split
      · rename_i hb
        subst hb
        by_cases hi : i = o
        · subst hi
          rw [if_pos rfl, cget, if_neg (by omega), low i (by omega)]
        · rw [if_neg hi]
      · by_cases hi : i = o
        · subst hi; simp [cget]
        · rw [if_neg hi, cget, if_neg (fun h => hi h.symm)]
    · split
      · rename_i heq
        subst heq
        split
        · rename_i hb
          subst hb
          by_cases hi : i = o
          · subst hi; rw [if_pos rfl, low i (Nat.le_refl _)]
          · rw [if_neg hi, cget, if_neg (fun h => hi h.symm)]
        · by_cases hi : i = o
          · subst hi; simp [cget]
          · rw [if_neg hi, cget, cget, if_neg (fun h => hi h.symm), if_neg (fun h => hi h.symm)]
      · rename_i h1 h2
        by_cases hi : a = i
        · subst hi
          rw [cget, if_pos rfl, if_neg (fun h => h2 h.symm), cget, if_pos rfl]
        · rw [cget, if_neg hi, ih o b i w.2.2, cget, if_neg hi]

theorem cget_append (c d : Cells) (i : Nat) : cget (c ++ d) i = if (∃ e ∈ c, e.1 = i) then cget c i else cget d i := by
  induction c with
  | nil => simp
  | cons e t ih =>
    obtain ⟨a, x⟩ := e
    by_cases h : a = i
    · simp [cget, h]
    · simp only [List.cons_append, cget, h, if_false, ih, List.mem_cons, exists_eq_or_imp, false_or]

theorem cget_of_absent {c : Cells} {i : Nat} (h : ∀ e ∈ c, e.1 ≠ i) : cget c i = 0 := by
  induction c with
  | nil => rfl
  | cons e t ih =>
    obtain ⟨a, x⟩ := e
    rw [cget, if_neg (h (a, x) (by simp))]
    exact ih fun e he => h e (by simp [he])

theorem cget_cbelow (c : Cells) (n i : Nat) : cget (cbelow c n) i = if i < n then cget c i else 0 := by
  induction c with
  | nil => simp [cbelow, cget]
  | cons e t ih =>
    obtain ⟨a, x⟩ := e
    simp only [cbelow]
    split
    · rw [cget, cget, ih]
      by_cases h : a = i
      · subst h; simp [*]
      · simp [h]
    · rw [ih, cget]
      by_cases h : a = i
      · subst h; simp [*]
      · simp [h]

theorem cget_cfrom (c : Cells) (n i : Nat) : cget (cfrom c n) i = if n ≤ i then cget c i else 0 := by
  induction c with
  | nil => simp [cfrom, cget]
  | cons e t ih =>
    obtain ⟨a, x⟩ := e
    simp only [cfrom]
    split
    · rw [cget, cget, ih]
      by_cases h : a = i
      · subst h; simp [*]
      · simp [h]
    · rw [ih, cget]
      by_cases h : a = i
      · subst h; simp [*]
      · simp [h]

theorem cget_cshift (c : Cells) (n i : Nat) : cget (cshift c n) i = if n ≤ i then cget c (i - n) else 0 := by
  induction c with
  | nil => simp [cshift, cget]
  | cons e t ih =>
    obtain ⟨a, x⟩ := e
    change cget ((a + n, x) :: cshift t n) i = _
    rw [cget, ih, cget]
    by_cases h : n ≤ i
    · by_cases h2 : a + n = i
      · simp [h, show a = i - n by omega]
      · simp [h, h2, show a ≠ i - n by omega]
    · simp [h, show a + n ≠ i by omega]

theorem cget_csub (c : Cells) (lo n i : Nat) : cget (csub c lo n) i = if i < n then cget c (lo + i) else 0 := by
  induction c with
  | nil => simp [csub, cget]
  | cons e t ih =>
    obtain ⟨a, x⟩ := e
    simp only [csub]
    split
    · rw [cget, ih, cget]
      by_cases h : a = lo + i
      · subst h
        simp
        intro hh; omega
      · rw [if_neg (by omega), if_neg h]
    · rename_i out
      rw [ih, cget]
      by_cases h : a = lo + i
      · rw [if_neg (by omega), if_neg (by omega)]
      · rw [if_neg h]

theorem cget_csplice (c d : Cells) (lo n i : Nat) :
    cget (csplice c lo n d) i = if lo ≤ i ∧ i < lo + n then cget d (i - lo) else cget c i := by
  have below : (∃ e ∈ cbelow c lo, e.1 = i) → i < lo := fun ⟨e, he, h⟩ => h ▸ cbelow_bounded c lo e he
  have mid : (∃ e ∈ cshift (cbelow d n) lo, e.1 = i) → lo ≤ i ∧ i < lo + n := by
    rintro ⟨e, he, h⟩
    obtain ⟨e', he', rfl⟩ := List.mem_map.1 he
    have := cbelow_bounded d n e' he'
    simp only at h
    omega
  rw [csplice, List.append_assoc, cget_append, cget_append]
  by_cases h1 : ∃ e ∈ cbelow c lo, e.1 = i
  · have := below h1
    rw [if_pos h1, if_neg (by omega), cget_cbelow, if_pos this]
  · rw [if_neg h1]
    by_cases h2 : ∃ e ∈ cshift (cbelow d n) lo, e.1 = i
    · have := mid h2
      rw [if_pos h2, if_pos this, cget_cshift, if_pos this.1, cget_cbelow, if_pos (by omega)]
    · have absent {c : Cells} (h : ¬ ∃ e ∈ c, e.1 = i) : cget c i = 0 := cget_of_absent fun e he hh => h ⟨e, he, hh⟩
      have c0 := absent h1
      have d0 := absent h2
      rw [cget_cbelow] at c0
      rw [cget_cshift, cget_cbelow] at d0
      rw [if_neg h2, cget_cfrom]
      by_cases h3 : lo ≤ i ∧ i < lo + n
      · rw [if_pos h3, if_neg (by omega)]
        rw [if_pos h3.1, if_pos (by omega)] at d0
        exact d0.symm
      · rw [if_neg h3]
        by_cases h4 : i < lo
        · rw [if_pos h4] at c0
          rw [if_neg (by omega), c0]
        · rw [if_pos (by omega)]

/-- Equal reads everywhere make equal canonical cells. -/
theorem cells_ext {c : Cells} : ∀ {d : Cells} {lo : Nat}, cwfFrom lo c = true → cwfFrom lo d = true → (∀ i, cget c i = cget d i) → c = d := by
  induction c with
  | nil =>
    intro d lo _ wd h
    cases d with
    | nil => rfl
    | cons e t =>
      obtain ⟨a, x⟩ := e
      have := h a
      rw [cwfFrom_cons] at wd
      simp [cget] at this
      exact absurd this.symm wd.2.1
  | cons e t ih =>
    intro d lo wc wd h
    obtain ⟨a, x⟩ := e
    cases d with
    | nil =>
      have := h a
      rw [cwfFrom_cons] at wc
      simp [cget] at this
      exact absurd this wc.2.1
    | cons e' t' =>
      obtain ⟨a', x'⟩ := e'
      rw [cwfFrom_cons] at wc wd
      have hc (i : Nat) (hi : i ≤ a) : cget t i = 0 := cget_of_below (lo := a + 1) (by omega) wc.2.2
      have hd (i : Nat) (hi : i ≤ a') : cget t' i = 0 := cget_of_below (lo := a' + 1) (by omega) wd.2.2
      have haa : a = a' := by
        rcases Nat.lt_trichotomy a a' with hlt | heq | hgt
        · have := h a
          rw [cget, if_pos rfl, cget, if_neg (by omega), hd a (by omega)] at this
          exact absurd this wc.2.1
        · exact heq
        · have := h a'
          rw [cget, if_neg (by omega), cget, if_pos rfl, hc a' (by omega)] at this
          exact absurd this.symm wd.2.1
      subst haa
      have hx : x = x' := by have := h a; simpa [cget] using this
      subst hx
      have : t = t' := ih wc.2.2 wd.2.2 fun i => by
        have := h i
        by_cases hi : a = i
        · subst hi; rw [hc a (Nat.le_refl _), hd a (Nat.le_refl _)]
        · rwa [cget, if_neg hi, cget, if_neg hi] at this
      rw [this]

/-! ## Blocks and slots -/

/-- A byte of memory after a block is written: the block's byte within its slot, and elsewhere what stood there. -/
theorem cget_setRawBlock (m : Cells) (sl : Slot) (b : Cells) (i : Nat) :
    cget (setRawBlock m sl b) i =
      if slotBase sl ≤ i ∧ i < slotBase sl + blockStride then cget (cnorm b) (i - slotBase sl) else cget m i :=
  cget_csplice m (cnorm b) _ _ i

theorem cget_rawBlock (m : Cells) (sl : Slot) (i : Nat) :
    cget (rawBlock m sl) i = if i < blockStride then cget m (slotBase sl + i) else 0 := cget_csub m _ _ i

theorem rawBlock_setRawBlock {m : Cells} (sl : Slot) (b : Cells) (w : Memory.wf m = true) :
    rawBlock (setRawBlock m sl b) sl = cbelow (cnorm b) blockStride := by
  refine cells_ext (rawBlock_keeps sl (setRawBlock_keeps sl b w)) (cbelow_keeps _ (cnorm_wf b)) fun i => ?_
  rw [cget_rawBlock, cget_cbelow, cget_setRawBlock]
  by_cases h : i < blockStride
  · simp [h]
  · simp [h]

theorem rawBlock_setRawBlock_other {m : Cells} {sl sl' : Slot} (b : Cells) (w : Memory.wf m = true)
    (h : slotNumber sl ≠ slotNumber sl') : rawBlock (setRawBlock m sl b) sl' = rawBlock m sl' := by
  refine cells_ext (rawBlock_keeps sl' (setRawBlock_keeps sl b w)) (rawBlock_keeps sl' w) fun i => ?_
  rw [cget_rawBlock, cget_rawBlock, cget_setRawBlock]
  by_cases hi : i < blockStride
  · have : ¬ (slotBase sl ≤ slotBase sl' + i ∧ slotBase sl' + i < slotBase sl + blockStride) := by
      simp only [slotBase, blockStride] at *
      omega
    simp [this]
  · simp [hi]

end Sys2Proof.Machine
end

