-- ==== Sys2Proof/Laws/PerInstr.lean ====
section
/-! SUPPORT. The round trip of encoder and decoder, instruction by instruction. -/

namespace Sys2Proof

/-- The opcode map of a cluster (R117 to R123). -/
def formOf (cl : Cl) (op : Nat) (c : Common) (o : BitVec 35) (x : Syl) : Form :=
  match cl with
  | .s => decS op c o x
  | .v => decV op c o
  | .m => decM op c o x
  | .x => decX op c o

/-- A syllable decodes to the instruction its map gives, when that instruction is well formed. -/
theorem decodeSyl_of {cl : Cl} {c : Common} {op : BitVec 9} {o : BitVec 35} {ext : Option Syl} {i : Instr}
    (two : (twoSyl cl op && ext.isNone) = false) (dir : illegalDir cl op o = false)
    (form : formOf cl op.toNat c o (ext.getD 0) = some (some i)) (wf : i.wf cl = true) :
    decodeSyl true cl (Syl.mk op c o) ext = .ok i := by
  unfold decodeSyl
  simp only [Syl.op_mk, Syl.common_mk, Syl.operand_mk, two, Bool.not_true, Bool.false_and, Bool.false_eq_true, if_false]
  change (match formOf cl op.toNat c o (ext.getD 0) with
    | none => Except.error Bad.illegalOp
    | some r => if illegalDir cl op o = true then Except.error Bad.illegalOp
      else match r with
        | none => Except.error Bad.reserved
        | some i => if i.wf cl = true then Except.ok i else Except.error Bad.reserved) = Except.ok i
  rw [form]
  simp only [dir, Bool.false_eq_true, if_false, wf, if_true]

namespace Laws.Encoding

/-- What the encoder writes for a well-formed instruction, the decoder reads back as that instruction, on the harbourmaster. -/
def Statement (i : Instr) : Prop :=
  ∀ (cl : Cl) (w : Syl) (ext : Option Syl), i.wf cl = true → encode i = some (w, ext) → decodeSyl true cl w ext = .ok i

theorem nop (c : Common) : Statement (.nop c) := by
  intro cl w ext h e
  obtain ⟨rfl, rfl⟩ := Prod.mk.inj (Option.some.inj e)
  cases cl <;> exact decodeSyl_of rfl rfl rfl h
theorem idle (c : Common) (n : BitVec 35) : Statement (.idle c n) := by
  intro cl w ext h e
  obtain ⟨rfl, rfl⟩ := Prod.mk.inj (Option.some.inj e)
  cases cl <;> exact decodeSyl_of rfl rfl rfl h
theorem rdv (c : Common) : Statement (.rdv c) := by
  intro cl w ext h e
  obtain ⟨rfl, rfl⟩ := Prod.mk.inj (Option.some.inj e)
  cases cl <;> exact decodeSyl_of rfl rfl rfl h
theorem add (c : Common) (d a b : Reg) : Statement (.add c d a b) := by
  intro cl w ext h e
  obtain ⟨rfl, rfl⟩ := Prod.mk.inj (Option.some.inj e)
  obtain rfl : cl = .s := by cases cl <;> first | rfl | cases h
  exact decodeSyl_of rfl rfl (Eq.trans (b := some _) rfl (by simp [rrr3])) h
theorem sub (c : Common) (d a b : Reg) : Statement (.sub c d a b) := by
  intro cl w ext h e
  obtain ⟨rfl, rfl⟩ := Prod.mk.inj (Option.some.inj e)
  obtain rfl : cl = .s := by cases cl <;> first | rfl | cases h
  exact decodeSyl_of rfl rfl (Eq.trans (b := some _) rfl (by simp [rrr3])) h
theorem mul (c : Common) (d a b : Reg) : Statement (.mul c d a b) := by
  intro cl w ext h e
  obtain ⟨rfl, rfl⟩ := Prod.mk.inj (Option.some.inj e)
  obtain rfl : cl = .s := by cases cl <;> first | rfl | cases h
  exact decodeSyl_of rfl rfl (Eq.trans (b := some _) rfl (by simp [rrr3])) h
theorem mulh (c : Common) (d a b : Reg) : Statement (.mulh c d a b) := by
  intro cl w ext h e
  obtain ⟨rfl, rfl⟩ := Prod.mk.inj (Option.some.inj e)
  obtain rfl : cl = .s := by cases cl <;> first | rfl | cases h
  exact decodeSyl_of rfl rfl (Eq.trans (b := some _) rfl (by simp [rrr3])) h
theorem mulhn (c : Common) (d a b : Reg) : Statement (.mulhn c d a b) := by
  intro cl w ext h e
  obtain ⟨rfl, rfl⟩ := Prod.mk.inj (Option.some.inj e)
  obtain rfl : cl = .s := by cases cl <;> first | rfl | cases h
  exact decodeSyl_of rfl rfl (Eq.trans (b := some _) rfl (by simp [rrr3])) h
theorem div (c : Common) (d a b : Reg) : Statement (.div c d a b) := by
  intro cl w ext h e
  obtain ⟨rfl, rfl⟩ := Prod.mk.inj (Option.some.inj e)
  obtain rfl : cl = .s := by cases cl <;> first | rfl | cases h
  exact decodeSyl_of rfl rfl (Eq.trans (b := some _) rfl (by simp [rrr3])) h
theorem divn (c : Common) (d a b : Reg) : Statement (.divn c d a b) := by
  intro cl w ext h e
  obtain ⟨rfl, rfl⟩ := Prod.mk.inj (Option.some.inj e)
  obtain rfl : cl = .s := by cases cl <;> first | rfl | cases h
  exact decodeSyl_of rfl rfl (Eq.trans (b := some _) rfl (by simp [rrr3])) h
theorem rem (c : Common) (d a b : Reg) : Statement (.rem c d a b) := by
  intro cl w ext h e
  obtain ⟨rfl, rfl⟩ := Prod.mk.inj (Option.some.inj e)
  obtain rfl : cl = .s := by cases cl <;> first | rfl | cases h
  exact decodeSyl_of rfl rfl (Eq.trans (b := some _) rfl (by simp [rrr3])) h
theorem remn (c : Common) (d a b : Reg) : Statement (.remn c d a b) := by
  intro cl w ext h e
  obtain ⟨rfl, rfl⟩ := Prod.mk.inj (Option.some.inj e)
  obtain rfl : cl = .s := by cases cl <;> first | rfl | cases h
  exact decodeSyl_of rfl rfl (Eq.trans (b := some _) rfl (by simp [rrr3])) h
theorem min (c : Common) (d a b : Reg) : Statement (.min c d a b) := by
  intro cl w ext h e
  obtain ⟨rfl, rfl⟩ := Prod.mk.inj (Option.some.inj e)
  obtain rfl : cl = .s := by cases cl <;> first | rfl | cases h
  exact decodeSyl_of rfl rfl (Eq.trans (b := some _) rfl (by simp [rrr3])) h
theorem max (c : Common) (d a b : Reg) : Statement (.max c d a b) := by
  intro cl w ext h e
  obtain ⟨rfl, rfl⟩ := Prod.mk.inj (Option.some.inj e)
  obtain rfl : cl = .s := by cases cl <;> first | rfl | cases h
  exact decodeSyl_of rfl rfl (Eq.trans (b := some _) rfl (by simp [rrr3])) h
theorem minn (c : Common) (d a b : Reg) : Statement (.minn c d a b) := by
  intro cl w ext h e
  obtain ⟨rfl, rfl⟩ := Prod.mk.inj (Option.some.inj e)
  obtain rfl : cl = .s := by cases cl <;> first | rfl | cases h
  exact decodeSyl_of rfl rfl (Eq.trans (b := some _) rfl (by simp [rrr3])) h
theorem maxn (c : Common) (d a b : Reg) : Statement (.maxn c d a b) := by
  intro cl w ext h e
  obtain ⟨rfl, rfl⟩ := Prod.mk.inj (Option.some.inj e)
  obtain rfl : cl = .s := by cases cl <;> first | rfl | cases h
  exact decodeSyl_of rfl rfl (Eq.trans (b := some _) rfl (by simp [rrr3])) h
theorem and (c : Common) (d a b : Reg) : Statement (.and c d a b) := by
  intro cl w ext h e
  obtain ⟨rfl, rfl⟩ := Prod.mk.inj (Option.some.inj e)
  obtain rfl : cl = .s := by cases cl <;> first | rfl | cases h
  exact decodeSyl_of rfl rfl (Eq.trans (b := some _) rfl (by simp [rrr3])) h
theorem or (c : Common) (d a b : Reg) : Statement (.or c d a b) := by
  intro cl w ext h e
  obtain ⟨rfl, rfl⟩ := Prod.mk.inj (Option.some.inj e)
  obtain rfl : cl = .s := by cases cl <;> first | rfl | cases h
  exact decodeSyl_of rfl rfl (Eq.trans (b := some _) rfl (by simp [rrr3])) h
theorem xor (c : Common) (d a b : Reg) : Statement (.xor c d a b) := by
  intro cl w ext h e
  obtain ⟨rfl, rfl⟩ := Prod.mk.inj (Option.some.inj e)
  obtain rfl : cl = .s := by cases cl <;> first | rfl | cases h
  exact decodeSyl_of rfl rfl (Eq.trans (b := some _) rfl (by simp [rrr3])) h
theorem shl (c : Common) (d a b : Reg) : Statement (.shl c d a b) := by
  intro cl w ext h e
  obtain ⟨rfl, rfl⟩ := Prod.mk.inj (Option.some.inj e)
  obtain rfl : cl = .s := by cases cl <;> first | rfl | cases h
  exact decodeSyl_of rfl rfl (Eq.trans (b := some _) rfl (by simp [rrr3])) h
theorem shr (c : Common) (d a b : Reg) : Statement (.shr c d a b) := by
  intro cl w ext h e
  obtain ⟨rfl, rfl⟩ := Prod.mk.inj (Option.some.inj e)
  obtain rfl : cl = .s := by cases cl <;> first | rfl | cases h
  exact decodeSyl_of rfl rfl (Eq.trans (b := some _) rfl (by simp [rrr3])) h
theorem sar (c : Common) (d a b : Reg) : Statement (.sar c d a b) := by
  intro cl w ext h e
  obtain ⟨rfl, rfl⟩ := Prod.mk.inj (Option.some.inj e)
  obtain rfl : cl = .s := by cases cl <;> first | rfl | cases h
  exact decodeSyl_of rfl rfl (Eq.trans (b := some _) rfl (by simp [rrr3])) h
theorem clz (c : Common) (d a : Reg) : Statement (.clz c d a) := by
  intro cl w ext h e
  obtain ⟨rfl, rfl⟩ := Prod.mk.inj (Option.some.inj e)
  obtain rfl : cl = .s := by cases cl <;> first | rfl | cases h
  exact decodeSyl_of rfl rfl (Eq.trans (b := some _) rfl (by simp [rrr2])) h
theorem popc (c : Common) (d a : Reg) : Statement (.popc c d a) := by
  intro cl w ext h e
  obtain ⟨rfl, rfl⟩ := Prod.mk.inj (Option.some.inj e)
  obtain rfl : cl = .s := by cases cl <;> first | rfl | cases h
  exact decodeSyl_of rfl rfl (Eq.trans (b := some _) rfl (by simp [rrr2])) h
theorem sel (c : Common) (d a b e : Reg) : Statement (.sel c d a b e) := by
  intro cl w ext h e
  obtain ⟨rfl, rfl⟩ := Prod.mk.inj (Option.some.inj e)
  obtain rfl : cl = .s := by cases cl <;> first | rfl | cases h
  exact decodeSyl_of rfl rfl (Eq.trans (b := some _) rfl (by simp [])) h
theorem cmp (c : Common) (d a b : Reg) (rel : Rel) : Statement (.cmp c d a b rel) := by
  intro cl w ext h e
  obtain ⟨rfl, rfl⟩ := Prod.mk.inj (Option.some.inj e)
  obtain rfl : cl = .s := by cases cl <;> first | rfl | cases h
  exact decodeSyl_of rfl rfl (Eq.trans (b := some _) rfl (by simp [])) h
theorem addi (c : Common) (d a : Reg) (imm : BitVec 23) : Statement (.addi c d a imm) := by
  intro cl w ext h e
  obtain ⟨rfl, rfl⟩ := Prod.mk.inj (Option.some.inj e)
  obtain rfl : cl = .s := by cases cl <;> first | rfl | cases h
  exact decodeSyl_of rfl rfl (Eq.trans (b := some _) rfl (by simp [rri])) h
theorem andi (c : Common) (d a : Reg) (imm : BitVec 23) : Statement (.andi c d a imm) := by
  intro cl w ext h e
  obtain ⟨rfl, rfl⟩ := Prod.mk.inj (Option.some.inj e)
  obtain rfl : cl = .s := by cases cl <;> first | rfl | cases h
  exact decodeSyl_of rfl rfl (Eq.trans (b := some _) rfl (by simp [rri])) h
theorem ori (c : Common) (d a : Reg) (imm : BitVec 23) : Statement (.ori c d a imm) := by
  intro cl w ext h e
  obtain ⟨rfl, rfl⟩ := Prod.mk.inj (Option.some.inj e)
  obtain rfl : cl = .s := by cases cl <;> first | rfl | cases h
  exact decodeSyl_of rfl rfl (Eq.trans (b := some _) rfl (by simp [rri])) h
theorem xori (c : Common) (d a : Reg) (imm : BitVec 23) : Statement (.xori c d a imm) := by
  intro cl w ext h e
  obtain ⟨rfl, rfl⟩ := Prod.mk.inj (Option.some.inj e)
  obtain rfl : cl = .s := by cases cl <;> first | rfl | cases h
  exact decodeSyl_of rfl rfl (Eq.trans (b := some _) rfl (by simp [rri])) h
theorem shli (c : Common) (d a : Reg) (n : BitVec 6) : Statement (.shli c d a n) := by
  intro cl w ext h e
  obtain ⟨rfl, rfl⟩ := Prod.mk.inj (Option.some.inj e)
  obtain rfl : cl = .s := by cases cl <;> first | rfl | cases h
  have hi : ((0 : BitVec 17) ++ n).extractLsb' 6 17 = 0 := join_high _ _
  have lo : ((0 : BitVec 17) ++ n).extractLsb' 0 6 = n := join_low _ _
  exact decodeSyl_of rfl rfl (Eq.trans (b := some _) rfl (by simp only [rriShift, Rri.ofBits_toBits, hi, lo, if_true])) h
theorem shri (c : Common) (d a : Reg) (n : BitVec 6) : Statement (.shri c d a n) := by
  intro cl w ext h e
  obtain ⟨rfl, rfl⟩ := Prod.mk.inj (Option.some.inj e)
  obtain rfl : cl = .s := by cases cl <;> first | rfl | cases h
  have hi : ((0 : BitVec 17) ++ n).extractLsb' 6 17 = 0 := join_high _ _
  have lo : ((0 : BitVec 17) ++ n).extractLsb' 0 6 = n := join_low _ _
  exact decodeSyl_of rfl rfl (Eq.trans (b := some _) rfl (by simp only [rriShift, Rri.ofBits_toBits, hi, lo, if_true])) h
theorem sari (c : Common) (d a : Reg) (n : BitVec 6) : Statement (.sari c d a n) := by
  intro cl w ext h e
  obtain ⟨rfl, rfl⟩ := Prod.mk.inj (Option.some.inj e)
  obtain rfl : cl = .s := by cases cl <;> first | rfl | cases h
  have hi : ((0 : BitVec 17) ++ n).extractLsb' 6 17 = 0 := join_high _ _
  have lo : ((0 : BitVec 17) ++ n).extractLsb' 0 6 = n := join_low _ _
  exact decodeSyl_of rfl rfl (Eq.trans (b := some _) rfl (by simp only [rriShift, Rri.ofBits_toBits, hi, lo, if_true])) h
theorem cmpi (c : Common) (d a : Reg) (rel : Rel) (imm : BitVec 20) : Statement (.cmpi c d a rel imm) := by
  intro cl w ext h e
  obtain ⟨rfl, rfl⟩ := Prod.mk.inj (Option.some.inj e)
  obtain rfl : cl = .s := by cases cl <;> first | rfl | cases h
  have hi : (rel.code ++ imm).extractLsb' 20 3 = rel.code := join_high rel.code imm
  have lo : (rel.code ++ imm).extractLsb' 0 20 = imm := join_low rel.code imm
  exact decodeSyl_of rfl rfl (Eq.trans (b := some _) rfl (by simp [hi, lo])) h
theorem liOne (c : Common) (d : Reg) (imm : BitVec 29) : Statement (.liOne c d imm) := by
  intro cl w ext h e
  obtain ⟨rfl, rfl⟩ := Prod.mk.inj (Option.some.inj e)
  obtain rfl : cl = .s := by cases cl <;> first | rfl | cases h
  exact decodeSyl_of rfl rfl (Eq.trans (b := some _) rfl (by simp [])) h
theorem liTwo (c : Common) (d : Reg) (imm : Dword) : Statement (.liTwo c d imm) := by
  intro cl w ext h e
  obtain ⟨rfl, rfl⟩ := Prod.mk.inj (Option.some.inj e)
  obtain rfl : cl = .s := by cases cl <;> first | rfl | cases h
  have hi : ((0 : BitVec 25) ++ imm.extractLsb' 60 4).extractLsb' 4 25 = 0 := join_high _ _
  have lo : ((0 : BitVec 25) ++ imm.extractLsb' 60 4).extractLsb' 0 4 = imm.extractLsb' 60 4 := join_low _ _
  have all : imm.extractLsb' 60 4 ++ imm.extractLsb' 0 60 = imm := join_parts (v := 4) (w := 60) imm
  refine decodeSyl_of rfl rfl (Eq.trans (b := some _) rfl ?_) h
  rw [Ri.ofBits_toBits]
  simp only [hi, lo, if_true, Option.getD_some]
  exact congrArg (fun v => some (some (Instr.liTwo c d v))) all
theorem ld (c : Common) (d base : Reg) (ty : Fmt) (off : BitVec 16) : Statement (.ld c d base ty off) := by
  intro cl w ext h e
  obtain ⟨rfl, rfl⟩ := Prod.mk.inj (Option.some.inj e)
  obtain rfl : cl = .s := by cases cl <;> first | rfl | cases h
  exact decodeSyl_of rfl rfl (Eq.trans (b := some _) rfl (by simp [mem])) h
theorem st (c : Common) (d base : Reg) (ty : Fmt) (off : BitVec 16) : Statement (.st c d base ty off) := by
  intro cl w ext h e
  obtain ⟨rfl, rfl⟩ := Prod.mk.inj (Option.some.inj e)
  obtain rfl : cl = .s := by cases cl <;> first | rfl | cases h
  exact decodeSyl_of rfl rfl (Eq.trans (b := some _) rfl (by simp [mem])) h
theorem lda (c : Common) (d base : Reg) (sc : Scope) (ty : Fmt) (off : BitVec 16) : Statement (.lda c d base sc ty off) := by
  intro cl w ext h e
  obtain ⟨rfl, rfl⟩ := Prod.mk.inj (Option.some.inj e)
  obtain rfl : cl = .s := by cases cl <;> first | rfl | cases h
  exact decodeSyl_of rfl rfl (Eq.trans (b := some _) rfl (by simp [memScoped])) h
theorem stl (c : Common) (d base : Reg) (sc : Scope) (ty : Fmt) (off : BitVec 16) : Statement (.stl c d base sc ty off) := by
  intro cl w ext h e
  obtain ⟨rfl, rfl⟩ := Prod.mk.inj (Option.some.inj e)
  obtain rfl : cl = .s := by cases cl <;> first | rfl | cases h
  exact decodeSyl_of rfl rfl (Eq.trans (b := some _) rfl (by simp [memScoped])) h
theorem amo (c : Common) (d a b : Reg) (op : AtomOp) (ty : Fmt) : Statement (.amo c d a b op ty) := by
  intro cl w ext h e
  obtain ⟨rfl, rfl⟩ := Prod.mk.inj (Option.some.inj e)
  obtain rfl : cl = .s := by cases cl <;> first | rfl | cases h
  exact decodeSyl_of rfl rfl (Eq.trans (b := some _) rfl (by simp [])) h
theorem cas (c : Common) (d a b e : Reg) (ty : Fmt) : Statement (.cas c d a b e ty) := by
  intro cl w ext h e
  obtain ⟨rfl, rfl⟩ := Prod.mk.inj (Option.some.inj e)
  obtain rfl : cl = .s := by cases cl <;> first | rfl | cases h
  exact decodeSyl_of rfl rfl (Eq.trans (b := some _) rfl (by simp [])) h
theorem b (c : Common) (nul : Nul) (off : BitVec 24) : Statement (.b c nul off) := by
  intro cl w ext h e
  obtain ⟨rfl, rfl⟩ := Prod.mk.inj (Option.some.inj e)
  obtain rfl : cl = .s := by cases cl <;> first | rfl | cases h
  exact decodeSyl_of rfl rfl (Eq.trans (b := some _) rfl (by simp [])) h
theorem bc (c : Common) (nul : Nul) (cond : Cond) (a : Reg) (off : BitVec 24) : Statement (.bc c nul cond a off) := by
  intro cl w ext h e
  obtain ⟨rfl, rfl⟩ := Prod.mk.inj (Option.some.inj e)
  obtain rfl : cl = .s := by cases cl <;> first | rfl | cases h
  exact decodeSyl_of rfl rfl (Eq.trans (b := some _) rfl (by simp [])) h
theorem br (c : Common) (nul : Nul) (a : Reg) : Statement (.br c nul a) := by
  intro cl w ext h e
  obtain ⟨rfl, rfl⟩ := Prod.mk.inj (Option.some.inj e)
  obtain rfl : cl = .s := by cases cl <;> first | rfl | cases h
  exact decodeSyl_of rfl rfl (Eq.trans (b := some _) rfl (by simp [])) h
theorem call (c : Common) (nul : Nul) (a : Reg) (off : BitVec 24) : Statement (.call c nul a off) := by
  intro cl w ext h e
  obtain ⟨rfl, rfl⟩ := Prod.mk.inj (Option.some.inj e)
  obtain rfl : cl = .s := by cases cl <;> first | rfl | cases h
  exact decodeSyl_of rfl rfl (Eq.trans (b := some _) rfl (by simp [])) h
theorem loop (c : Common) (nul : Nul) (a : Reg) (off : BitVec 24) : Statement (.loop c nul a off) := by
  intro cl w ext h e
  obtain ⟨rfl, rfl⟩ := Prod.mk.inj (Option.some.inj e)
  obtain rfl : cl = .s := by cases cl <;> first | rfl | cases h
  exact decodeSyl_of rfl rfl (Eq.trans (b := some _) rfl (by simp [])) h
theorem fork (c : Common) (n : BitVec 35) : Statement (.fork c n) := by
  intro cl w ext h e
  obtain ⟨rfl, rfl⟩ := Prod.mk.inj (Option.some.inj e)
  obtain rfl : cl = .s := by cases cl <;> first | rfl | cases h
  exact decodeSyl_of rfl rfl (Eq.trans (b := some _) rfl (by simp [])) h
theorem slack (c : Common) : Statement (.slack c) := by
  intro cl w ext h e
  obtain ⟨rfl, rfl⟩ := Prod.mk.inj (Option.some.inj e)
  obtain rfl : cl = .s := by cases cl <;> first | rfl | cases h
  exact decodeSyl_of rfl rfl (Eq.trans (b := some _) rfl (by simp [none35])) h
theorem commit (c : Common) : Statement (.commit c) := by
  intro cl w ext h e
  obtain ⟨rfl, rfl⟩ := Prod.mk.inj (Option.some.inj e)
  obtain rfl : cl = .s := by cases cl <;> first | rfl | cases h
  exact decodeSyl_of rfl rfl (Eq.trans (b := some _) rfl (by simp [none35])) h
theorem safe (c : Common) (map : BitVec 8) : Statement (.safe c map) := by
  intro cl w ext h e
  obtain ⟨rfl, rfl⟩ := Prod.mk.inj (Option.some.inj e)
  obtain rfl : cl = .s := by cases cl <;> first | rfl | cases h
  have hi : ((0 : BitVec 27) ++ map).extractLsb' 8 27 = 0 := join_high _ _
  have lo : ((0 : BitVec 27) ++ map).extractLsb' 0 8 = map := join_low _ _
  exact decodeSyl_of rfl rfl (Eq.trans (b := some _) rfl (by rw [if_pos hi, lo])) h
theorem waitp (c : Common) (a b : Reg) : Statement (.waitp c a b) := by
  intro cl w ext h e
  obtain ⟨rfl, rfl⟩ := Prod.mk.inj (Option.some.inj e)
  obtain rfl : cl = .s := by cases cl <;> first | rfl | cases h
  exact decodeSyl_of rfl rfl (Eq.trans (b := some _) rfl (by simp [])) h
theorem qmark (c : Common) : Statement (.qmark c) := by
  intro cl w ext h e
  obtain ⟨rfl, rfl⟩ := Prod.mk.inj (Option.some.inj e)
  obtain rfl : cl = .s := by cases cl <;> first | rfl | cases h
  exact decodeSyl_of rfl rfl (Eq.trans (b := some _) rfl (by simp [none35])) h
theorem fence (c : Common) (d : Reg) (sc : Scope) : Statement (.fence c d sc) := by
  intro cl w ext h e
  obtain ⟨rfl, rfl⟩ := Prod.mk.inj (Option.some.inj e)
  obtain rfl : cl = .s := by cases cl <;> first | rfl | cases h
  have hi : ((0 : BitVec 27) ++ sc.code).extractLsb' 2 27 = 0 := join_high _ _
  have lo : ((0 : BitVec 27) ++ sc.code).extractLsb' 0 2 = sc.code := join_low _ _
  refine decodeSyl_of rfl rfl (Eq.trans (b := some _) rfl ?_) h
  rw [Ri.ofBits_toBits]
  simp only [hi, lo, if_true, Scope.ofCode_code]
theorem trap (c : Common) (imm : BitVec 35) : Statement (.trap c imm) := by
  intro cl w ext h e
  obtain ⟨rfl, rfl⟩ := Prod.mk.inj (Option.some.inj e)
  obtain rfl : cl = .s := by cases cl <;> first | rfl | cases h
  exact decodeSyl_of rfl rfl (Eq.trans (b := some _) rfl (by simp [])) h
theorem tret (c : Common) : Statement (.tret c) := by
  intro cl w ext h e
  obtain ⟨rfl, rfl⟩ := Prod.mk.inj (Option.some.inj e)
  obtain rfl : cl = .s := by cases cl <;> first | rfl | cases h
  exact decodeSyl_of rfl rfl (Eq.trans (b := some _) rfl (by simp [none35])) h
theorem mfc (c : Common) (d : Reg) (num : BitVec 12) : Statement (.mfc c d num) := by
  intro cl w ext h e
  obtain ⟨rfl, rfl⟩ := Prod.mk.inj (Option.some.inj e)
  obtain rfl : cl = .s := by cases cl <;> first | rfl | cases h
  have hi : ((0 : BitVec 17) ++ num).extractLsb' 12 17 = 0 := join_high _ _
  have lo : ((0 : BitVec 17) ++ num).extractLsb' 0 12 = num := join_low _ _
  exact decodeSyl_of rfl rfl (Eq.trans (b := some _) rfl (by simp only [riCtl, Ri.ofBits_toBits, hi, lo, if_true])) h
theorem mtc (c : Common) (d : Reg) (num : BitVec 12) : Statement (.mtc c d num) := by
  intro cl w ext h e
  obtain ⟨rfl, rfl⟩ := Prod.mk.inj (Option.some.inj e)
  obtain rfl : cl = .s := by cases cl <;> first | rfl | cases h
  have hi : ((0 : BitVec 17) ++ num).extractLsb' 12 17 = 0 := join_high _ _
  have lo : ((0 : BitVec 17) ++ num).extractLsb' 0 12 = num := join_low _ _
  exact decodeSyl_of rfl rfl (Eq.trans (b := some _) rfl (by simp only [riCtl, Ri.ofBits_toBits, hi, lo, if_true])) h
theorem hsel (c : Common) (a : Reg) : Statement (.hsel c a) := by
  intro cl w ext h e
  obtain ⟨rfl, rfl⟩ := Prod.mk.inj (Option.some.inj e)
  obtain rfl : cl = .s := by cases cl <;> first | rfl | cases h
  exact decodeSyl_of rfl rfl (Eq.trans (b := some _) rfl (by simp [])) h
theorem hrd (c : Common) (d b : Reg) : Statement (.hrd c d b) := by
  intro cl w ext h e
  obtain ⟨rfl, rfl⟩ := Prod.mk.inj (Option.some.inj e)
  obtain rfl : cl = .s := by cases cl <;> first | rfl | cases h
  exact decodeSyl_of rfl rfl (Eq.trans (b := some _) rfl (by simp [])) h
theorem hwr (c : Common) (b e : Reg) : Statement (.hwr c b e) := by
  intro cl w ext h e
  obtain ⟨rfl, rfl⟩ := Prod.mk.inj (Option.some.inj e)
  obtain rfl : cl = .s := by cases cl <;> first | rfl | cases h
  exact decodeSyl_of rfl rfl (Eq.trans (b := some _) rfl (by simp [])) h
theorem hcmd (c : Common) (d a : Reg) : Statement (.hcmd c d a) := by
  intro cl w ext h e
  obtain ⟨rfl, rfl⟩ := Prod.mk.inj (Option.some.inj e)
  obtain rfl : cl = .s := by cases cl <;> first | rfl | cases h
  exact decodeSyl_of rfl rfl (Eq.trans (b := some _) rfl (by simp [rrr2])) h
theorem hwait (c : Common) (d a : Reg) : Statement (.hwait c d a) := by
  intro cl w ext h e
  obtain ⟨rfl, rfl⟩ := Prod.mk.inj (Option.some.inj e)
  obtain rfl : cl = .s := by cases cl <;> first | rfl | cases h
  exact decodeSyl_of rfl rfl (Eq.trans (b := some _) rfl (by simp [rrr2])) h
theorem vadd (c : Common) (d a b : Reg) (rnd : Rnd) (sat : Bool) : Statement (.vadd c d a b rnd sat) := by
  intro cl w ext h e
  obtain ⟨rfl, rfl⟩ := Prod.mk.inj (Option.some.inj e)
  obtain rfl : cl = .v := by cases cl <;> first | rfl | cases h
  exact decodeSyl_of rfl rfl (Eq.trans (b := some _) rfl (by simp [rrrFp, fpTy])) h
theorem vsub (c : Common) (d a b : Reg) (rnd : Rnd) (sat : Bool) : Statement (.vsub c d a b rnd sat) := by
  intro cl w ext h e
  obtain ⟨rfl, rfl⟩ := Prod.mk.inj (Option.some.inj e)
  obtain rfl : cl = .v := by cases cl <;> first | rfl | cases h
  exact decodeSyl_of rfl rfl (Eq.trans (b := some _) rfl (by simp [rrrFp, fpTy])) h
theorem vmul (c : Common) (d a b : Reg) (rnd : Rnd) (sat : Bool) : Statement (.vmul c d a b rnd sat) := by
  intro cl w ext h e
  obtain ⟨rfl, rfl⟩ := Prod.mk.inj (Option.some.inj e)
  obtain rfl : cl = .v := by cases cl <;> first | rfl | cases h
  exact decodeSyl_of rfl rfl (Eq.trans (b := some _) rfl (by simp [rrrFp, fpTy])) h
theorem vdiv (c : Common) (d a b : Reg) : Statement (.vdiv c d a b) := by
  intro cl w ext h e
  obtain ⟨rfl, rfl⟩ := Prod.mk.inj (Option.some.inj e)
  obtain rfl : cl = .v := by cases cl <;> first | rfl | cases h
  exact decodeSyl_of rfl rfl (Eq.trans (b := some _) rfl (by simp [rrrF3])) h
theorem vmin (c : Common) (d a b : Reg) : Statement (.vmin c d a b) := by
  intro cl w ext h e
  obtain ⟨rfl, rfl⟩ := Prod.mk.inj (Option.some.inj e)
  obtain rfl : cl = .v := by cases cl <;> first | rfl | cases h
  exact decodeSyl_of rfl rfl (Eq.trans (b := some _) rfl (by simp [rrrF3])) h
theorem vmax (c : Common) (d a b : Reg) : Statement (.vmax c d a b) := by
  intro cl w ext h e
  obtain ⟨rfl, rfl⟩ := Prod.mk.inj (Option.some.inj e)
  obtain rfl : cl = .v := by cases cl <;> first | rfl | cases h
  exact decodeSyl_of rfl rfl (Eq.trans (b := some _) rfl (by simp [rrrF3])) h
theorem vcps (c : Common) (d a b : Reg) : Statement (.vcps c d a b) := by
  intro cl w ext h e
  obtain ⟨rfl, rfl⟩ := Prod.mk.inj (Option.some.inj e)
  obtain rfl : cl = .v := by cases cl <;> first | rfl | cases h
  exact decodeSyl_of rfl rfl (Eq.trans (b := some _) rfl (by simp [rrrF3])) h
theorem vsqrt (c : Common) (d a : Reg) : Statement (.vsqrt c d a) := by
  intro cl w ext h e
  obtain ⟨rfl, rfl⟩ := Prod.mk.inj (Option.some.inj e)
  obtain rfl : cl = .v := by cases cl <;> first | rfl | cases h
  exact decodeSyl_of rfl rfl (Eq.trans (b := some _) rfl (by simp [rrrF2])) h
theorem vrcp (c : Common) (d a : Reg) : Statement (.vrcp c d a) := by
  intro cl w ext h e
  obtain ⟨rfl, rfl⟩ := Prod.mk.inj (Option.some.inj e)
  obtain rfl : cl = .v := by cases cl <;> first | rfl | cases h
  exact decodeSyl_of rfl rfl (Eq.trans (b := some _) rfl (by simp [rrrF2])) h
theorem vrsq (c : Common) (d a : Reg) : Statement (.vrsq c d a) := by
  intro cl w ext h e
  obtain ⟨rfl, rfl⟩ := Prod.mk.inj (Option.some.inj e)
  obtain rfl : cl = .v := by cases cl <;> first | rfl | cases h
  exact decodeSyl_of rfl rfl (Eq.trans (b := some _) rfl (by simp [rrrF2])) h
theorem vexp2 (c : Common) (d a : Reg) : Statement (.vexp2 c d a) := by
  intro cl w ext h e
  obtain ⟨rfl, rfl⟩ := Prod.mk.inj (Option.some.inj e)
  obtain rfl : cl = .v := by cases cl <;> first | rfl | cases h
  exact decodeSyl_of rfl rfl (Eq.trans (b := some _) rfl (by simp [rrrF2])) h
theorem vlog2 (c : Common) (d a : Reg) : Statement (.vlog2 c d a) := by
  intro cl w ext h e
  obtain ⟨rfl, rfl⟩ := Prod.mk.inj (Option.some.inj e)
  obtain rfl : cl = .v := by cases cl <;> first | rfl | cases h
  exact decodeSyl_of rfl rfl (Eq.trans (b := some _) rfl (by simp [rrrF2])) h
theorem vabs (c : Common) (d a : Reg) : Statement (.vabs c d a) := by
  intro cl w ext h e
  obtain ⟨rfl, rfl⟩ := Prod.mk.inj (Option.some.inj e)
  obtain rfl : cl = .v := by cases cl <;> first | rfl | cases h
  exact decodeSyl_of rfl rfl (Eq.trans (b := some _) rfl (by simp [rrrF2])) h
theorem vneg (c : Common) (d a : Reg) : Statement (.vneg c d a) := by
  intro cl w ext h e
  obtain ⟨rfl, rfl⟩ := Prod.mk.inj (Option.some.inj e)
  obtain rfl : cl = .v := by cases cl <;> first | rfl | cases h
  exact decodeSyl_of rfl rfl (Eq.trans (b := some _) rfl (by simp [rrrF2])) h
theorem vfma (c : Common) (d a b e : Reg) (rnd : Rnd) (sat : Bool) : Statement (.vfma c d a b e rnd sat) := by
  intro cl w ext h e
  obtain ⟨rfl, rfl⟩ := Prod.mk.inj (Option.some.inj e)
  obtain rfl : cl = .v := by cases cl <;> first | rfl | cases h
  exact decodeSyl_of rfl rfl (Eq.trans (b := some _) rfl (by simp [rrrFp, fpTy])) h
theorem vfms (c : Common) (d a b e : Reg) (rnd : Rnd) (sat : Bool) : Statement (.vfms c d a b e rnd sat) := by
  intro cl w ext h e
  obtain ⟨rfl, rfl⟩ := Prod.mk.inj (Option.some.inj e)
  obtain rfl : cl = .v := by cases cl <;> first | rfl | cases h
  exact decodeSyl_of rfl rfl (Eq.trans (b := some _) rfl (by simp [rrrFp, fpTy])) h
theorem vfnma (c : Common) (d a b e : Reg) (rnd : Rnd) (sat : Bool) : Statement (.vfnma c d a b e rnd sat) := by
  intro cl w ext h e
  obtain ⟨rfl, rfl⟩ := Prod.mk.inj (Option.some.inj e)
  obtain rfl : cl = .v := by cases cl <;> first | rfl | cases h
  exact decodeSyl_of rfl rfl (Eq.trans (b := some _) rfl (by simp [rrrFp, fpTy])) h
theorem viadd (c : Common) (d a b : Reg) (n sat : Bool) : Statement (.viadd c d a b n sat) := by
  intro cl w ext h e
  obtain ⟨rfl, rfl⟩ := Prod.mk.inj (Option.some.inj e)
  obtain rfl : cl = .v := by cases cl <;> first | rfl | cases h
  exact decodeSyl_of rfl rfl (Eq.trans (b := some _) rfl (by cases n <;> simp [rrrInt, intTy, Fmt.code])) h
theorem visub (c : Common) (d a b : Reg) (n sat : Bool) : Statement (.visub c d a b n sat) := by
  intro cl w ext h e
  obtain ⟨rfl, rfl⟩ := Prod.mk.inj (Option.some.inj e)
  obtain rfl : cl = .v := by cases cl <;> first | rfl | cases h
  exact decodeSyl_of rfl rfl (Eq.trans (b := some _) rfl (by cases n <;> simp [rrrInt, intTy, Fmt.code])) h
theorem vimul (c : Common) (d a b : Reg) (n sat : Bool) : Statement (.vimul c d a b n sat) := by
  intro cl w ext h e
  obtain ⟨rfl, rfl⟩ := Prod.mk.inj (Option.some.inj e)
  obtain rfl : cl = .v := by cases cl <;> first | rfl | cases h
  exact decodeSyl_of rfl rfl (Eq.trans (b := some _) rfl (by cases n <;> simp [rrrInt, intTy, Fmt.code])) h
theorem vimulh (c : Common) (d a b : Reg) (n : Bool) : Statement (.vimulh c d a b n) := by
  intro cl w ext h e
  obtain ⟨rfl, rfl⟩ := Prod.mk.inj (Option.some.inj e)
  obtain rfl : cl = .v := by cases cl <;> first | rfl | cases h
  exact decodeSyl_of rfl rfl (Eq.trans (b := some _) rfl (by cases n <;> simp [rrrInt, intTy, Fmt.code])) h
theorem vimin (c : Common) (d a b : Reg) (n : Bool) : Statement (.vimin c d a b n) := by
  intro cl w ext h e
  obtain ⟨rfl, rfl⟩ := Prod.mk.inj (Option.some.inj e)
  obtain rfl : cl = .v := by cases cl <;> first | rfl | cases h
  exact decodeSyl_of rfl rfl (Eq.trans (b := some _) rfl (by cases n <;> simp [rrrInt, intTy, Fmt.code])) h
theorem vimax (c : Common) (d a b : Reg) (n : Bool) : Statement (.vimax c d a b n) := by
  intro cl w ext h e
  obtain ⟨rfl, rfl⟩ := Prod.mk.inj (Option.some.inj e)
  obtain rfl : cl = .v := by cases cl <;> first | rfl | cases h
  exact decodeSyl_of rfl rfl (Eq.trans (b := some _) rfl (by cases n <;> simp [rrrInt, intTy, Fmt.code])) h
theorem vand (c : Common) (d a b : Reg) (n : Bool) : Statement (.vand c d a b n) := by
  intro cl w ext h e
  obtain ⟨rfl, rfl⟩ := Prod.mk.inj (Option.some.inj e)
  obtain rfl : cl = .v := by cases cl <;> first | rfl | cases h
  exact decodeSyl_of rfl rfl (Eq.trans (b := some _) rfl (by cases n <;> simp [rrrInt, intTy, Fmt.code])) h
theorem vor (c : Common) (d a b : Reg) (n : Bool) : Statement (.vor c d a b n) := by
  intro cl w ext h e
  obtain ⟨rfl, rfl⟩ := Prod.mk.inj (Option.some.inj e)
  obtain rfl : cl = .v := by cases cl <;> first | rfl | cases h
  exact decodeSyl_of rfl rfl (Eq.trans (b := some _) rfl (by cases n <;> simp [rrrInt, intTy, Fmt.code])) h
theorem vxor (c : Common) (d a b : Reg) (n : Bool) : Statement (.vxor c d a b n) := by
  intro cl w ext h e
  obtain ⟨rfl, rfl⟩ := Prod.mk.inj (Option.some.inj e)
  obtain rfl : cl = .v := by cases cl <;> first | rfl | cases h
  exact decodeSyl_of rfl rfl (Eq.trans (b := some _) rfl (by cases n <;> simp [rrrInt, intTy, Fmt.code])) h
theorem vshl (c : Common) (d a b : Reg) (n : Bool) : Statement (.vshl c d a b n) := by
  intro cl w ext h e
  obtain ⟨rfl, rfl⟩ := Prod.mk.inj (Option.some.inj e)
  obtain rfl : cl = .v := by cases cl <;> first | rfl | cases h
  exact decodeSyl_of rfl rfl (Eq.trans (b := some _) rfl (by cases n <;> simp [rrrInt, intTy, Fmt.code])) h
theorem vshr (c : Common) (d a b : Reg) (n : Bool) : Statement (.vshr c d a b n) := by
  intro cl w ext h e
  obtain ⟨rfl, rfl⟩ := Prod.mk.inj (Option.some.inj e)
  obtain rfl : cl = .v := by cases cl <;> first | rfl | cases h
  exact decodeSyl_of rfl rfl (Eq.trans (b := some _) rfl (by cases n <;> simp [rrrInt, intTy, Fmt.code])) h
theorem vsar (c : Common) (d a b : Reg) (n : Bool) : Statement (.vsar c d a b n) := by
  intro cl w ext h e
  obtain ⟨rfl, rfl⟩ := Prod.mk.inj (Option.some.inj e)
  obtain rfl : cl = .v := by cases cl <;> first | rfl | cases h
  exact decodeSyl_of rfl rfl (Eq.trans (b := some _) rfl (by cases n <;> simp [rrrInt, intTy, Fmt.code])) h
theorem vpopc (c : Common) (d a : Reg) : Statement (.vpopc c d a) := by
  intro cl w ext h e
  obtain ⟨rfl, rfl⟩ := Prod.mk.inj (Option.some.inj e)
  obtain rfl : cl = .v := by cases cl <;> first | rfl | cases h
  exact decodeSyl_of rfl rfl (Eq.trans (b := some _) rfl (by simp [rrr2])) h
theorem vcmp (c : Common) (d : PReg) (a b : Reg) (rel : FRel) : Statement (.vcmp c d a b rel) := by
  intro cl w ext h e
  obtain ⟨rfl, rfl⟩ := Prod.mk.inj (Option.some.inj e)
  obtain rfl : cl = .v := by cases cl <;> first | rfl | cases h
  exact decodeSyl_of rfl rfl (Eq.trans (b := some _) rfl (by simp [])) h
theorem vicmp (c : Common) (d : PReg) (a b : Reg) (rel : Rel) : Statement (.vicmp c d a b rel) := by
  intro cl w ext h e
  obtain ⟨rfl, rfl⟩ := Prod.mk.inj (Option.some.inj e)
  obtain rfl : cl = .v := by cases cl <;> first | rfl | cases h
  exact decodeSyl_of rfl rfl (Eq.trans (b := some _) rfl (by simp [])) h
theorem vclass (c : Common) (d : PReg) (a : Reg) (mask : BitVec 10) : Statement (.vclass c d a mask) := by
  intro cl w ext h e
  obtain ⟨rfl, rfl⟩ := Prod.mk.inj (Option.some.inj e)
  obtain rfl : cl = .v := by cases cl <;> first | rfl | cases h
  have hi : ((0 : BitVec 2) ++ mask.extractLsb' 6 4).extractLsb' 4 2 = 0 := join_high _ _
  have lo : ((0 : BitVec 2) ++ mask.extractLsb' 6 4).extractLsb' 0 4 = mask.extractLsb' 6 4 := join_low _ _
  have all : mask.extractLsb' 6 4 ++ mask.extractLsb' 0 6 = mask := join_parts (v := 4) (w := 6) mask
  refine decodeSyl_of rfl rfl (Eq.trans (b := some _) rfl ?_) h
  rw [Rrr.ofBits_toBits]
  simp only [pfield_ofPreg, hi, lo, Option.bind_some, and_self, if_true]
  exact congrArg (fun v => some (some (Instr.vclass c d a v))) all
theorem pand (c : Common) (d a b : PReg) : Statement (.pand c d a b) := by
  intro cl w ext h e
  obtain ⟨rfl, rfl⟩ := Prod.mk.inj (Option.some.inj e)
  obtain rfl : cl = .v := by cases cl <;> first | rfl | cases h
  exact decodeSyl_of rfl rfl (Eq.trans (b := some _) rfl (by simp [rrrP])) h
theorem por (c : Common) (d a b : PReg) : Statement (.por c d a b) := by
  intro cl w ext h e
  obtain ⟨rfl, rfl⟩ := Prod.mk.inj (Option.some.inj e)
  obtain rfl : cl = .v := by cases cl <;> first | rfl | cases h
  exact decodeSyl_of rfl rfl (Eq.trans (b := some _) rfl (by simp [rrrP])) h
theorem pxor (c : Common) (d a b : PReg) : Statement (.pxor c d a b) := by
  intro cl w ext h e
  obtain ⟨rfl, rfl⟩ := Prod.mk.inj (Option.some.inj e)
  obtain rfl : cl = .v := by cases cl <;> first | rfl | cases h
  exact decodeSyl_of rfl rfl (Eq.trans (b := some _) rfl (by simp [rrrP])) h
theorem pnot (c : Common) (d a : PReg) : Statement (.pnot c d a) := by
  intro cl w ext h e
  obtain ⟨rfl, rfl⟩ := Prod.mk.inj (Option.some.inj e)
  obtain rfl : cl = .v := by cases cl <;> first | rfl | cases h
  exact decodeSyl_of rfl rfl (Eq.trans (b := some _) rfl (by simp [])) h
theorem pcnt (c : Common) (d : Reg) (a : PReg) : Statement (.pcnt c d a) := by
  intro cl w ext h e
  obtain ⟨rfl, rfl⟩ := Prod.mk.inj (Option.some.inj e)
  obtain rfl : cl = .v := by cases cl <;> first | rfl | cases h
  exact decodeSyl_of rfl rfl (Eq.trans (b := some _) rfl (by simp [])) h
theorem pfirst (c : Common) (d : Reg) (a : PReg) : Statement (.pfirst c d a) := by
  intro cl w ext h e
  obtain ⟨rfl, rfl⟩ := Prod.mk.inj (Option.some.inj e)
  obtain rfl : cl = .v := by cases cl <;> first | rfl | cases h
  exact decodeSyl_of rfl rfl (Eq.trans (b := some _) rfl (by simp [])) h
theorem vsel (c : Common) (d a b : Reg) (e : PReg) : Statement (.vsel c d a b e) := by
  intro cl w ext h e
  obtain ⟨rfl, rfl⟩ := Prod.mk.inj (Option.some.inj e)
  obtain rfl : cl = .v := by cases cl <;> first | rfl | cases h
  exact decodeSyl_of rfl rfl (Eq.trans (b := some _) rfl (by simp [])) h
theorem vmov (c : Common) (d a : Reg) : Statement (.vmov c d a) := by
  intro cl w ext h e
  obtain ⟨rfl, rfl⟩ := Prod.mk.inj (Option.some.inj e)
  obtain rfl : cl = .v := by cases cl <;> first | rfl | cases h
  exact decodeSyl_of rfl rfl (Eq.trans (b := some _) rfl (by simp [rrr2])) h
theorem vbcst (c : Common) (d a : Reg) (ty : Fmt) : Statement (.vbcst c d a ty) := by
  intro cl w ext h e
  obtain ⟨rfl, rfl⟩ := Prod.mk.inj (Option.some.inj e)
  obtain rfl : cl = .v := by cases cl <;> first | rfl | cases h
  exact decodeSyl_of rfl rfl (Eq.trans (b := some _) rfl (by simp [rrrT])) h
theorem vextr (c : Common) (d a b : Reg) : Statement (.vextr c d a b) := by
  intro cl w ext h e
  obtain ⟨rfl, rfl⟩ := Prod.mk.inj (Option.some.inj e)
  obtain rfl : cl = .v := by cases cl <;> first | rfl | cases h
  exact decodeSyl_of rfl rfl (Eq.trans (b := some _) rfl (by simp [rrr3])) h
theorem vins (c : Common) (d a b : Reg) : Statement (.vins c d a b) := by
  intro cl w ext h e
  obtain ⟨rfl, rfl⟩ := Prod.mk.inj (Option.some.inj e)
  obtain rfl : cl = .v := by cases cl <;> first | rfl | cases h
  exact decodeSyl_of rfl rfl (Eq.trans (b := some _) rfl (by simp [rrr3])) h
theorem vperm (c : Common) (d a b : Reg) : Statement (.vperm c d a b) := by
  intro cl w ext h e
  obtain ⟨rfl, rfl⟩ := Prod.mk.inj (Option.some.inj e)
  obtain rfl : cl = .v := by cases cl <;> first | rfl | cases h
  exact decodeSyl_of rfl rfl (Eq.trans (b := some _) rfl (by simp [rrr3])) h
theorem vrot (c : Common) (d a b : Reg) : Statement (.vrot c d a b) := by
  intro cl w ext h e
  obtain ⟨rfl, rfl⟩ := Prod.mk.inj (Option.some.inj e)
  obtain rfl : cl = .v := by cases cl <;> first | rfl | cases h
  exact decodeSyl_of rfl rfl (Eq.trans (b := some _) rfl (by simp [rrr3])) h
theorem vmovDirRead (c : Common) (v : Reg) (sp : Spec) (ty : Fmt) : Statement (.vmovDirRead c v sp ty) := by
  intro cl w ext h e
  obtain ⟨rfl, rfl⟩ := Prod.mk.inj (Option.some.inj e)
  obtain rfl : cl = .v := by cases cl <;> first | rfl | cases h
  have dir : sp.dir ≠ .whole := bne_iff_ne.1 (Bool.and_eq_true_iff.1 (Bool.and_eq_true_iff.1 h).1).2
  exact decodeSyl_of rfl (by simp [illegalDir, dir]) (Eq.trans (b := some _) rfl (by simp)) h
theorem vmovDirWrite (c : Common) (v : Reg) (sp : Spec) (rnd : Rnd) (sat : Bool) (ty : Fmt) (bound : BitVec 4) : Statement (.vmovDirWrite c v sp rnd sat ty bound) := by
  intro cl w ext h e
  obtain ⟨rfl, rfl⟩ := Prod.mk.inj (Option.some.inj e)
  obtain rfl : cl = .v := by cases cl <;> first | rfl | cases h
  have dir : sp.dir ≠ .whole := bne_iff_ne.1 (Bool.and_eq_true_iff.1 (Bool.and_eq_true_iff.1 h).1).2
  have acc : sp.acc = false := (Bool.not_eq_true' _).mp (Bool.and_eq_true_iff.1 h).2
  exact decodeSyl_of rfl (by simp [illegalDir, dir, acc]) (Eq.trans (b := some _) rfl (by simp)) h
theorem vrsum (c : Common) (d a : Reg) (ty : Fmt) : Statement (.vrsum c d a ty) := by
  intro cl w ext h e
  obtain ⟨rfl, rfl⟩ := Prod.mk.inj (Option.some.inj e)
  obtain rfl : cl = .v := by cases cl <;> first | rfl | cases h
  exact decodeSyl_of rfl rfl (Eq.trans (b := some _) rfl (by simp [rrrT])) h
theorem vrmax (c : Common) (d a : Reg) (ty : Fmt) : Statement (.vrmax c d a ty) := by
  intro cl w ext h e
  obtain ⟨rfl, rfl⟩ := Prod.mk.inj (Option.some.inj e)
  obtain rfl : cl = .v := by cases cl <;> first | rfl | cases h
  exact decodeSyl_of rfl rfl (Eq.trans (b := some _) rfl (by simp [rrrT])) h
theorem vrmin (c : Common) (d a : Reg) (ty : Fmt) : Statement (.vrmin c d a ty) := by
  intro cl w ext h e
  obtain ⟨rfl, rfl⟩ := Prod.mk.inj (Option.some.inj e)
  obtain rfl : cl = .v := by cases cl <;> first | rfl | cases h
  exact decodeSyl_of rfl rfl (Eq.trans (b := some _) rfl (by simp [rrrT])) h
theorem vramax (c : Common) (d a : Reg) : Statement (.vramax c d a) := by
  intro cl w ext h e
  obtain ⟨rfl, rfl⟩ := Prod.mk.inj (Option.some.inj e)
  obtain rfl : cl = .v := by cases cl <;> first | rfl | cases h
  exact decodeSyl_of rfl rfl (Eq.trans (b := some _) rfl (by simp [rrrF2])) h
theorem vcvt (c : Common) (d a : Reg) (src : Fmt) (rnd : Rnd) (sat : Bool) (ty : Fmt) : Statement (.vcvt c d a src rnd sat ty) := by
  intro cl w ext h e
  obtain ⟨rfl, rfl⟩ := Prod.mk.inj (Option.some.inj e)
  obtain rfl : cl = .v := by cases cl <;> first | rfl | cases h
  have bit : ((0 : BitVec 1) ++ src.code).getLsbD 5 = false := (bit_high _ _ 5 (Nat.le_refl 5)).trans rfl
  have lo : ((0 : BitVec 1) ++ src.code).extractLsb' 0 5 = src.code := join_low _ _
  refine decodeSyl_of rfl rfl (Eq.trans (b := some _) rfl ?_) h
  rw [Rrr.ofBits_toBits]
  simp only [lo, bit, Fmt.ofCode_code, Option.bind_some, and_self, if_true, Rnd.ofCode_code]
theorem vcvtMxImport (c : Common) (d a : Reg) (src : Fmt) (col : Bool) : Statement (.vcvtMxImport c d a src col) := by
  intro cl w ext h e
  obtain ⟨rfl, rfl⟩ := Prod.mk.inj (Option.some.inj e)
  obtain rfl : cl = .v := by cases cl <;> first | rfl | cases h
  have bit : ((0 : BitVec 1) ++ src.code).getLsbD 5 = false := (bit_high _ _ 5 (Nat.le_refl 5)).trans rfl
  have lo : ((0 : BitVec 1) ++ src.code).extractLsb' 0 5 = src.code := join_low _ _
  obtain ⟨ty, mx⟩ := Option.isSome_iff_exists.1 (Bool.and_eq_true_iff.1 h).2
  refine decodeSyl_of rfl rfl (Eq.trans (b := some _) rfl ?_) h
  rw [Rrr.ofBits_toBits]
  simp only [lo, bit, mx, Option.getD_some, Fmt.ty, Fmt.ofCode_code, Option.bind_some, and_self, if_true]
  cases col <;> rfl
theorem vld (c : Common) (d base : Reg) (ty : Fmt) (off : BitVec 16) : Statement (.vld c d base ty off) := by
  intro cl w ext h e
  obtain ⟨rfl, rfl⟩ := Prod.mk.inj (Option.some.inj e)
  obtain rfl : cl = .v := by cases cl <;> first | rfl | cases h
  exact decodeSyl_of rfl rfl (Eq.trans (b := some _) rfl (by simp [mem])) h
theorem vst (c : Common) (d base : Reg) (ty : Fmt) (off : BitVec 16) : Statement (.vst c d base ty off) := by
  intro cl w ext h e
  obtain ⟨rfl, rfl⟩ := Prod.mk.inj (Option.some.inj e)
  obtain rfl : cl = .v := by cases cl <;> first | rfl | cases h
  exact decodeSyl_of rfl rfl (Eq.trans (b := some _) rfl (by simp [mem])) h
theorem vldg (c : Common) (d a b : Reg) (ty : Fmt) : Statement (.vldg c d a b ty) := by
  intro cl w ext h e
  obtain ⟨rfl, rfl⟩ := Prod.mk.inj (Option.some.inj e)
  obtain rfl : cl = .v := by cases cl <;> first | rfl | cases h
  exact decodeSyl_of rfl rfl (Eq.trans (b := some _) rfl (by simp [rrrT])) h
theorem vsts (c : Common) (d a b : Reg) (ty : Fmt) : Statement (.vsts c d a b ty) := by
  intro cl w ext h e
  obtain ⟨rfl, rfl⟩ := Prod.mk.inj (Option.some.inj e)
  obtain rfl : cl = .v := by cases cl <;> first | rfl | cases h
  exact decodeSyl_of rfl rfl (Eq.trans (b := some _) rfl (by simp [rrrT])) h
theorem vpark (c : Common) (v : Reg) : Statement (.vpark c v) := by
  intro cl w ext h e
  obtain ⟨rfl, rfl⟩ := Prod.mk.inj (Option.some.inj e)
  obtain rfl : cl = .v := by cases cl <;> first | rfl | cases h
  exact decodeSyl_of rfl rfl (Eq.trans (b := some _) rfl (by simp [])) h
theorem vunpark (c : Common) (v : Reg) (sp : Spec) : Statement (.vunpark c v sp) := by
  intro cl w ext h e
  obtain ⟨rfl, rfl⟩ := Prod.mk.inj (Option.some.inj e)
  obtain rfl : cl = .v := by cases cl <;> first | rfl | cases h
  have dir : sp.dir = .row := beq_iff_eq.1 (Bool.and_eq_true_iff.1 h).2
  exact decodeSyl_of rfl (by simp [illegalDir, dir]) (Eq.trans (b := some _) rfl (by simp)) h
theorem vtri (c : Common) (d a b : Reg) : Statement (.vtri c d a b) := by
  intro cl w ext h e
  obtain ⟨rfl, rfl⟩ := Prod.mk.inj (Option.some.inj e)
  obtain rfl : cl = .v := by cases cl <;> first | rfl | cases h
  exact decodeSyl_of rfl rfl (Eq.trans (b := some _) rfl (by simp [rrr3])) h
theorem vtrin (c : Common) (d a b : Reg) : Statement (.vtrin c d a b) := by
  intro cl w ext h e
  obtain ⟨rfl, rfl⟩ := Prod.mk.inj (Option.some.inj e)
  obtain rfl : cl = .v := by cases cl <;> first | rfl | cases h
  exact decodeSyl_of rfl rfl (Eq.trans (b := some _) rfl (by simp [rrr3])) h
theorem vbnd (c : Common) (v : Reg) (bound : BitVec 4) : Statement (.vbnd c v bound) := by
  intro cl w ext h e
  obtain ⟨rfl, rfl⟩ := Prod.mk.inj (Option.some.inj e)
  obtain rfl : cl = .v := by cases cl <;> first | rfl | cases h
  exact decodeSyl_of rfl rfl (Eq.trans (b := some _) rfl (by simp [])) h
theorem mma (c : Common) (stamp : BitVec 36) (d a b : Spec) (vc : BitVec 2) : Statement (.mma c stamp d a b vc) := by
  intro cl w ext h e
  obtain ⟨rfl, rfl⟩ := Prod.mk.inj (Option.some.inj e)
  obtain rfl : cl = .m := by cases cl <;> first | rfl | cases h
  exact decodeSyl_of rfl rfl (Eq.trans (b := some _) rfl (by simp [mx])) h
theorem mmat (c : Common) (stamp : BitVec 36) (d a b : Spec) (vc : BitVec 2) : Statement (.mmat c stamp d a b vc) := by
  intro cl w ext h e
  obtain ⟨rfl, rfl⟩ := Prod.mk.inj (Option.some.inj e)
  obtain rfl : cl = .m := by cases cl <;> first | rfl | cases h
  exact decodeSyl_of rfl rfl (Eq.trans (b := some _) rfl (by simp [mx])) h
theorem mzero (c : Common) (stamp : BitVec 36) (d : Spec) : Statement (.mzero c stamp d) := by
  intro cl w ext h e
  obtain ⟨rfl, rfl⟩ := Prod.mk.inj (Option.some.inj e)
  obtain rfl : cl = .m := by cases cl <;> first | rfl | cases h
  exact decodeSyl_of rfl rfl (Eq.trans (b := some _) rfl (by simp [mx])) h
theorem macc (c : Common) (stamp : BitVec 36) (d a : Spec) : Statement (.macc c stamp d a) := by
  intro cl w ext h e
  obtain ⟨rfl, rfl⟩ := Prod.mk.inj (Option.some.inj e)
  obtain rfl : cl = .m := by cases cl <;> first | rfl | cases h
  exact decodeSyl_of rfl rfl (Eq.trans (b := some _) rfl (by simp [mx])) h
theorem mscl (c : Common) (stamp : BitVec 36) (d : Spec) (v : Reg) (col : Bool) : Statement (.mscl c stamp d v col) := by
  intro cl w ext h e
  obtain ⟨rfl, rfl⟩ := Prod.mk.inj (Option.some.inj e)
  obtain rfl : cl = .m := by cases cl <;> first | rfl | cases h
  exact decodeSyl_of rfl rfl (Eq.trans (b := some _) rfl (by cases col <;> simp [mx])) h
theorem mmsk (c : Common) (stamp : BitVec 36) (d : Spec) (g : Reg) : Statement (.mmsk c stamp d g) := by
  intro cl w ext h e
  obtain ⟨rfl, rfl⟩ := Prod.mk.inj (Option.some.inj e)
  obtain rfl : cl = .m := by cases cl <;> first | rfl | cases h
  exact decodeSyl_of rfl rfl (Eq.trans (b := some _) rfl (by simp [mx])) h
theorem mred (c : Common) (stamp : BitVec 36) (v : Reg) (a : Spec) (max : Bool) : Statement (.mred c stamp v a max) := by
  intro cl w ext h e
  obtain ⟨rfl, rfl⟩ := Prod.mk.inj (Option.some.inj e)
  obtain rfl : cl = .m := by cases cl <;> first | rfl | cases h
  exact decodeSyl_of rfl rfl (Eq.trans (b := some _) rfl (by cases max <;> simp [mx])) h
theorem mdrn (c : Common) (stamp : BitVec 36) (dr : Drain) : Statement (.mdrn c stamp dr) := by
  intro cl w ext h e
  obtain ⟨rfl, rfl⟩ := Prod.mk.inj (Option.some.inj e)
  obtain rfl : cl = .m := by cases cl <;> first | rfl | cases h
  exact decodeSyl_of rfl rfl (Eq.trans (b := some _) rfl (congrArg some (mxDrain_parts _ stamp dr))) h
theorem mdrnq (c : Common) (stamp : BitVec 36) (dr : Drain) : Statement (.mdrnq c stamp dr) := by
  intro cl w ext h e
  obtain ⟨rfl, rfl⟩ := Prod.mk.inj (Option.some.inj e)
  obtain rfl : cl = .m := by cases cl <;> first | rfl | cases h
  exact decodeSyl_of rfl rfl (Eq.trans (b := some _) rfl (congrArg some (mxDrain_parts _ stamp dr))) h
theorem mtrn (c : Common) (stamp : BitVec 36) (d a : Spec) : Statement (.mtrn c stamp d a) := by
  intro cl w ext h e
  obtain ⟨rfl, rfl⟩ := Prod.mk.inj (Option.some.inj e)
  obtain rfl : cl = .m := by cases cl <;> first | rfl | cases h
  exact decodeSyl_of rfl rfl (Eq.trans (b := some _) rfl (by simp [mx])) h
theorem mCommandStep (k : CoreId) (unit : Nat) : Statement (.mCommandStep k unit) := fun _ _ _ h _ => by cases h
theorem xch (c : Common) (near : Near) (far cnt : Reg) (gen : BitVec 2) : Statement (.xch c near far cnt gen) := by
  intro cl w ext h e
  obtain ⟨rfl, rfl⟩ := Prod.mk.inj (Option.some.inj e)
  obtain rfl : cl = .x := by cases cl <;> first | rfl | cases h
  have nw : near.wf = true := (Bool.and_eq_true_iff.1 (Bool.and_eq_true_iff.1 h).1).2
  exact decodeSyl_of rfl rfl (Eq.trans (b := some _) rfl (by simp [xeEx, near_ofBits_toBits nw])) h
theorem xchs (c : Common) (near : Near) (far cnt : Reg) (gen : BitVec 2) : Statement (.xchs c near far cnt gen) := by
  intro cl w ext h e
  obtain ⟨rfl, rfl⟩ := Prod.mk.inj (Option.some.inj e)
  obtain rfl : cl = .x := by cases cl <;> first | rfl | cases h
  have nw : near.wf = true := (Bool.and_eq_true_iff.1 (Bool.and_eq_true_iff.1 (Bool.and_eq_true_iff.1 h).1).1).2
  exact decodeSyl_of rfl rfl (Eq.trans (b := some _) rfl (by simp [xeEx, near_ofBits_toBits nw])) h
theorem xchg (c : Common) (near far cnt : Reg) (gen : BitVec 2) : Statement (.xchg c near far cnt gen) := by
  intro cl w ext h e
  obtain ⟨rfl, rfl⟩ := Prod.mk.inj (Option.some.inj e)
  obtain rfl : cl = .x := by cases cl <;> first | rfl | cases h
  exact decodeSyl_of rfl rfl (Eq.trans (b := some _) rfl (by simp [xeExReg])) h
theorem xchp (c : Common) (near far cnt : Reg) (gen : BitVec 2) : Statement (.xchp c near far cnt gen) := by
  intro cl w ext h e
  obtain ⟨rfl, rfl⟩ := Prod.mk.inj (Option.some.inj e)
  obtain rfl : cl = .x := by cases cl <;> first | rfl | cases h
  exact decodeSyl_of rfl rfl (Eq.trans (b := some _) rfl (by simp [xeExReg])) h
theorem xcht (c : Common) (near far cnt : Reg) (gen : BitVec 2) : Statement (.xcht c near far cnt gen) := by
  intro cl w ext h e
  obtain ⟨rfl, rfl⟩ := Prod.mk.inj (Option.some.inj e)
  obtain rfl : cl = .x := by cases cl <;> first | rfl | cases h
  exact decodeSyl_of rfl rfl (Eq.trans (b := some _) rfl (by simp [xeExReg])) h
theorem xtil (c : Common) (near far cnt : Reg) (gen : BitVec 2) : Statement (.xtil c near far cnt gen) := by
  intro cl w ext h e
  obtain ⟨rfl, rfl⟩ := Prod.mk.inj (Option.some.inj e)
  obtain rfl : cl = .x := by cases cl <;> first | rfl | cases h
  exact decodeSyl_of rfl rfl (Eq.trans (b := some _) rfl (by simp [xeExReg])) h
theorem xtilt (c : Common) (near far cnt : Reg) (gen : BitVec 2) : Statement (.xtilt c near far cnt gen) := by
  intro cl w ext h e
  obtain ⟨rfl, rfl⟩ := Prod.mk.inj (Option.some.inj e)
  obtain rfl : cl = .x := by cases cl <;> first | rfl | cases h
  exact decodeSyl_of rfl rfl (Eq.trans (b := some _) rfl (by simp [xeExReg])) h
theorem xfar (c : Common) (near far cnt : Reg) : Statement (.xfar c near far cnt) := by
  intro cl w ext h e
  obtain ⟨rfl, rfl⟩ := Prod.mk.inj (Option.some.inj e)
  obtain rfl : cl = .x := by cases cl <;> first | rfl | cases h
  exact decodeSyl_of rfl rfl (Eq.trans (b := some _) rfl (by simp [])) h
theorem xdrop (c : Common) (near : Near) : Statement (.xdrop c near) := by
  intro cl w ext h e
  obtain ⟨rfl, rfl⟩ := Prod.mk.inj (Option.some.inj e)
  obtain rfl : cl = .x := by cases cl <;> first | rfl | cases h
  have nw : near.wf = true := (Bool.and_eq_true_iff.1 h).2
  exact decodeSyl_of rfl rfl (Eq.trans (b := some _) rfl (by simp [near_ofBits_toBits nw])) h
theorem xtstv (c : Common) (near : Near) (d : Reg) : Statement (.xtstv c near d) := by
  intro cl w ext h e
  obtain ⟨rfl, rfl⟩ := Prod.mk.inj (Option.some.inj e)
  obtain rfl : cl = .x := by cases cl <;> first | rfl | cases h
  have nw : near.wf = true := (Bool.and_eq_true_iff.1 h).2
  exact decodeSyl_of rfl rfl (Eq.trans (b := some _) rfl (by simp [near_ofBits_toBits nw])) h
theorem xpen (c : Common) (near far : Reg) : Statement (.xpen c near far) := by
  intro cl w ext h e
  obtain ⟨rfl, rfl⟩ := Prod.mk.inj (Option.some.inj e)
  obtain rfl : cl = .x := by cases cl <;> first | rfl | cases h
  exact decodeSyl_of rfl rfl (Eq.trans (b := some _) rfl (by simp [])) h
theorem xwake (c : Common) (far : Reg) : Statement (.xwake c far) := by
  intro cl w ext h e
  obtain ⟨rfl, rfl⟩ := Prod.mk.inj (Option.some.inj e)
  obtain rfl : cl = .x := by cases cl <;> first | rfl | cases h
  exact decodeSyl_of rfl rfl (Eq.trans (b := some _) rfl (by simp [xeFar])) h
theorem xdoze (c : Common) (far : Reg) : Statement (.xdoze c far) := by
  intro cl w ext h e
  obtain ⟨rfl, rfl⟩ := Prod.mk.inj (Option.some.inj e)
  obtain rfl : cl = .x := by cases cl <;> first | rfl | cases h
  exact decodeSyl_of rfl rfl (Eq.trans (b := some _) rfl (by simp [xeFar])) h
theorem xnsend (c : Common) (sp : Spec) (dir : Side) : Statement (.xnsend c sp dir) := by
  intro cl w ext h e
  obtain ⟨rfl, rfl⟩ := Prod.mk.inj (Option.some.inj e)
  obtain rfl : cl = .x := by cases cl <;> first | rfl | cases h
  have acc : sp.toBits.getLsbD 9 = false :=
    (spec_acc_bit sp).trans ((Bool.not_eq_true' _).mp (Bool.and_eq_true_iff.1 (Bool.and_eq_true_iff.1 h).1).2)
  exact decodeSyl_of rfl rfl (Eq.trans (b := some _) rfl (by
    simp only [xeSide, Xe.ofBits_toBits, Side.ofCode_code, Spec.ofBits_toBits, acc]; rfl)) h
theorem xnrecv (c : Common) (sp : Spec) (dir : Side) : Statement (.xnrecv c sp dir) := by
  intro cl w ext h e
  obtain ⟨rfl, rfl⟩ := Prod.mk.inj (Option.some.inj e)
  obtain rfl : cl = .x := by cases cl <;> first | rfl | cases h
  have acc : sp.toBits.getLsbD 9 = false :=
    (spec_acc_bit sp).trans ((Bool.not_eq_true' _).mp (Bool.and_eq_true_iff.1 (Bool.and_eq_true_iff.1 h).1).2)
  exact decodeSyl_of rfl rfl (Eq.trans (b := some _) rfl (by
    simp only [xeSide, Xe.ofBits_toBits, Side.ofCode_code, Spec.ofBits_toBits, acc]; rfl)) h
theorem xagu (c : Common) (gen : BitVec 2) : Statement (.xagu c gen) := by
  intro cl w ext h e
  obtain ⟨rfl, rfl⟩ := Prod.mk.inj (Option.some.inj e)
  obtain rfl : cl = .x := by cases cl <;> first | rfl | cases h
  exact decodeSyl_of rfl rfl (Eq.trans (b := some _) rfl (by simp [])) h
theorem xrch (c : Common) (near far cnt : Reg) (ch : BitVec 8) : Statement (.xrch c near far cnt ch) := by
  intro cl w ext h e
  obtain ⟨rfl, rfl⟩ := Prod.mk.inj (Option.some.inj e)
  obtain rfl : cl = .x := by cases cl <;> first | rfl | cases h
  exact decodeSyl_of rfl rfl (Eq.trans (b := some _) rfl (by simp [xeFab])) h
theorem xrchc (c : Common) (near far cnt : Reg) (ch : BitVec 8) : Statement (.xrchc c near far cnt ch) := by
  intro cl w ext h e
  obtain ⟨rfl, rfl⟩ := Prod.mk.inj (Option.some.inj e)
  obtain rfl : cl = .x := by cases cl <;> first | rfl | cases h
  exact decodeSyl_of rfl rfl (Eq.trans (b := some _) rfl (by simp [xeFab])) h
theorem xcrck (c : Common) (far : Reg) (ch : BitVec 8) : Statement (.xcrck c far ch) := by
  intro cl w ext h e
  obtain ⟨rfl, rfl⟩ := Prod.mk.inj (Option.some.inj e)
  obtain rfl : cl = .x := by cases cl <;> first | rfl | cases h
  exact decodeSyl_of rfl rfl (Eq.trans (b := some _) rfl (by simp [xeFarCh])) h
theorem xwin (c : Common) (far : Reg) (ch : BitVec 8) : Statement (.xwin c far ch) := by
  intro cl w ext h e
  obtain ⟨rfl, rfl⟩ := Prod.mk.inj (Option.some.inj e)
  obtain rfl : cl = .x := by cases cl <;> first | rfl | cases h
  exact decodeSyl_of rfl rfl (Eq.trans (b := some _) rfl (by simp [xeFarCh])) h
theorem xred (c : Common) (near far cnt : Reg) (ch : BitVec 8) (op : RedOp) : Statement (.xred c near far cnt ch op) := by
  intro cl w ext h e
  obtain ⟨rfl, rfl⟩ := Prod.mk.inj (Option.some.inj e)
  obtain rfl : cl = .x := by cases cl <;> first | rfl | cases h
  exact decodeSyl_of rfl rfl (Eq.trans (b := some _) rfl (by simp [])) h
theorem xtri (c : Common) (near far cnt : Reg) (ch : BitVec 8) : Statement (.xtri c near far cnt ch) := by
  intro cl w ext h e
  obtain ⟨rfl, rfl⟩ := Prod.mk.inj (Option.some.inj e)
  obtain rfl : cl = .x := by cases cl <;> first | rfl | cases h
  exact decodeSyl_of rfl rfl (Eq.trans (b := some _) rfl (by simp [xeFab])) h
theorem xamo (c : Common) (near far : Reg) (ch : BitVec 8) (op : AtomOp) : Statement (.xamo c near far ch op) := by
  intro cl w ext h e
  obtain ⟨rfl, rfl⟩ := Prod.mk.inj (Option.some.inj e)
  obtain rfl : cl = .x := by cases cl <;> first | rfl | cases h
  exact decodeSyl_of rfl rfl (Eq.trans (b := some _) rfl (by simp [xeAmo])) h
theorem xamor (c : Common) (near far : Reg) (ch : BitVec 8) (op : AtomOp) : Statement (.xamor c near far ch op) := by
  intro cl w ext h e
  obtain ⟨rfl, rfl⟩ := Prod.mk.inj (Option.some.inj e)
  obtain rfl : cl = .x := by cases cl <;> first | rfl | cases h
  exact decodeSyl_of rfl rfl (Eq.trans (b := some _) rfl (by simp [xeAmo])) h
theorem xcas (c : Common) (near far cnt : Reg) (ch : BitVec 8) : Statement (.xcas c near far cnt ch) := by
  intro cl w ext h e
  obtain ⟨rfl, rfl⟩ := Prod.mk.inj (Option.some.inj e)
  obtain rfl : cl = .x := by cases cl <;> first | rfl | cases h
  exact decodeSyl_of rfl rfl (Eq.trans (b := some _) rfl (by simp [xeFab])) h
theorem xkick (c : Common) (far : Reg) (ch : BitVec 8) : Statement (.xkick c far ch) := by
  intro cl w ext h e
  obtain ⟨rfl, rfl⟩ := Prod.mk.inj (Option.some.inj e)
  obtain rfl : cl = .x := by cases cl <;> first | rfl | cases h
  exact decodeSyl_of rfl rfl (Eq.trans (b := some _) rfl (by simp [xeFarCh])) h
theorem xabort (c : Common) (ch : BitVec 8) : Statement (.xabort c ch) := by
  intro cl w ext h e
  obtain ⟨rfl, rfl⟩ := Prod.mk.inj (Option.some.inj e)
  obtain rfl : cl = .x := by cases cl <;> first | rfl | cases h
  exact decodeSyl_of rfl rfl (Eq.trans (b := some _) rfl (by simp [])) h
theorem pendingLanding (k : CoreId) : Statement (.pendingLanding k) := fun _ _ _ h _ => by cases h
theorem exchangePairSwap (k : CoreId) (serial : Nat) : Statement (.exchangePairSwap k serial) := fun _ _ _ h _ => by cases h
theorem exchangePairTranslate (k : CoreId) (serial : Nat) : Statement (.exchangePairTranslate k serial) := fun _ _ _ h _ => by cases h
theorem unitSwap (k : CoreId) (serial : Nat) : Statement (.unitSwap k serial) := fun _ _ _ h _ => by cases h
theorem hbmPairArrival (gang claim : Nat) : Statement (.hbmPairArrival gang claim) := fun _ _ _ h _ => by cases h
theorem queueLeave (k : CoreId) (store : Bool) : Statement (.queueLeave k store) := fun _ _ _ h _ => by cases h
theorem bufferPerform (k : CoreId) (sc : Scope) : Statement (.bufferPerform k sc) := fun _ _ _ h _ => by cases h
theorem otherAgentPerform (slot : Slot) (act : AgentAct) : Statement (.otherAgentPerform slot act) := fun _ _ _ h _ => by cases h
theorem waitpReread (k : CoreId) : Statement (.waitpReread k) := fun _ _ _ h _ => by cases h
theorem fenceStatusLand (k : CoreId) : Statement (.fenceStatusLand k) := fun _ _ _ h _ => by cases h
theorem elementPortServe (k : CoreId) : Statement (.elementPortServe k) := fun _ _ _ h _ => by cases h
theorem bankWakeDone (gang quad bank : Nat) : Statement (.bankWakeDone gang quad bank) := fun _ _ _ h _ => by cases h
theorem bankDoze (gang quad bank : Nat) : Statement (.bankDoze gang quad bank) := fun _ _ _ h _ => by cases h
theorem neighbourArrival (k : CoreId) : Statement (.neighbourArrival k) := fun _ _ _ h _ => by cases h
theorem phaseRollback (gang : Nat) : Statement (.phaseRollback gang) := fun _ _ _ h _ => by cases h
theorem rollbackEnd (gang : Nat) : Statement (.rollbackEnd gang) := fun _ _ _ h _ => by cases h
theorem nearBlockSnapshot (k : CoreId) (serial : Nat) : Statement (.nearBlockSnapshot k serial) := fun _ _ _ h _ => by cases h
theorem landingArrival (k : CoreId) (serial pair : Nat) (l : Landed) : Statement (.landingArrival k serial pair l) := fun _ _ _ h _ => by cases h
theorem crcCompare (k : CoreId) : Statement (.crcCompare k) := fun _ _ _ h _ => by cases h
theorem fabricCompletion (k : CoreId) (serial : Nat) : Statement (.fabricCompletion k serial) := fun _ _ _ h _ => by cases h
theorem windowArmAtHome (launch : Word) (owner : BitVec 12) (gen : Byte) (window : WinDecl) (index : Nat) (source : BitVec 22) (k : CoreId) (ch : BitVec 8) (serial : Nat) : Statement (.windowArmAtHome launch owner gen window index source k ch serial) := fun _ _ _ h _ => by cases h
theorem windowGenerationReturn (k : CoreId) (ch : BitVec 8) (serial : Nat) (r : ArmReply) : Statement (.windowGenerationReturn k ch serial r) := fun _ _ _ h _ => by cases h
theorem windowContributionArrival (launch : Sender) (window : Nat) (gen : BitVec 16) (index blockNo : Nat) (op : Option RedOp) (b : Cells) (source : BitVec 22) (k : CoreId) (serial : Nat) : Statement (.windowContributionArrival launch window gen index blockNo op b source k serial) := fun _ _ _ h _ => by cases h
theorem windowDeadline (gang window : Nat) (gen : BitVec 16) : Statement (.windowDeadline gang window gen) := fun _ _ _ h _ => by cases h
theorem abortNotice (gang : Nat) (trapc tval : Dword) : Statement (.abortNotice gang trapc tval) := fun _ _ _ h _ => by cases h
theorem jointCommit (gang : Nat) : Statement (.jointCommit gang) := fun _ _ _ h _ => by cases h
theorem jointBarrierArrival (gang : Nat) (chip : BitVec 22) (vote : Vote) : Statement (.jointBarrierArrival gang chip vote) := fun _ _ _ h _ => by cases h
theorem stagedEffectPerform (e : Effect) : Statement (.stagedEffectPerform e) := fun _ _ _ h _ => by cases h
theorem atomicReturn (k : CoreId) (dest : Reg) (writes : Bool) (ty : Fmt) (r : AtomReply) (chip : BitVec 22) (serial : Nat) : Statement (.atomicReturn k dest writes ty r chip serial) := fun _ _ _ h _ => by cases h
theorem xfarPairSwap (k : CoreId) (serial : Nat) : Statement (.xfarPairSwap k serial) := fun _ _ _ h _ => by cases h
theorem farPortAccept (gang claim : Nat) : Statement (.farPortAccept gang claim) := fun _ _ _ h _ => by cases h
theorem permissionRecheck (gang : Nat) : Statement (.permissionRecheck gang) := fun _ _ _ h _ => by cases h
theorem absentSuspend (gang : Nat) : Statement (.absentSuspend gang) := fun _ _ _ h _ => by cases h
theorem gangKill (gang : Nat) (byHost : KillBy) : Statement (.gangKill gang byHost) := fun _ _ _ h _ => by cases h
theorem ensignFenceTimeout (gang : Nat) (chip : BitVec 22) : Statement (.ensignFenceTimeout gang chip) := fun _ _ _ h _ => by cases h
theorem scheduleDecision (part : Nat) : Statement (.scheduleDecision part) := fun _ _ _ h _ => by cases h
theorem agingStep (part : Nat) : Statement (.agingStep part) := fun _ _ _ h _ => by cases h
theorem multichipStart (gang : Nat) : Statement (.multichipStart gang) := fun _ _ _ h _ => by cases h
theorem safeDeadlineExpiry (gang : Nat) : Statement (.safeDeadlineExpiry gang) := fun _ _ _ h _ => by cases h
theorem contextSave (w : SaveWord) : Statement (.contextSave w) := fun _ _ _ h _ => by cases h
theorem contextRestore (gang : Nat) (x0 y0 : Nat) : Statement (.contextRestore gang x0 y0) := fun _ _ _ h _ => by cases h
theorem chipLost (chip : BitVec 22) : Statement (.chipLost chip) := fun _ _ _ h _ => by cases h
theorem invalidate (ticket : Nat) (r : CmdRec) : Statement (.invalidate ticket r) := fun _ _ _ h _ => by cases h
theorem invalidateAck (ticket : Nat) : Statement (.invalidateAck ticket) := fun _ _ _ h _ => by cases h
theorem populate (ticket : Nat) (r : CmdRec) : Statement (.populate ticket r) := fun _ _ _ h _ => by cases h
theorem refresh (ticket : Nat) (r : CmdRec) : Statement (.refresh ticket r) := fun _ _ _ h _ => by cases h
theorem kill (ticket : Nat) (r : CmdRec) : Statement (.kill ticket r) := fun _ _ _ h _ => by cases h
theorem reset (ticket : Nat) (r : CmdRec) : Statement (.reset ticket r) := fun _ _ _ h _ => by cases h
theorem hello (h : Hdr) (msg : List Byte) : Statement (.hello h msg) := fun _ _ _ h _ => by cases h
theorem attest (h : Hdr) (nonce : BitVec 256) : Statement (.attest h nonce) := fun _ _ _ h _ => by cases h
theorem key (h : Hdr) (owner : BitVec 16) (resv : Nat) (wrapped : BitVec 576) : Statement (.key h owner resv wrapped) := fun _ _ _ h _ => by cases h
theorem image (h : Hdr) (kind : Byte) (handle : Word) (off total : Dword) (last : Byte) (resv : Nat) (p : Piece) : Statement (.image h kind handle off total last resv p) := fun _ _ _ h _ => by cases h
theorem launch (h : Hdr) (desc : List Dword) : Statement (.launch h desc) := fun _ _ _ h _ => by cases h
theorem query (h : Hdr) (launch : Word) (resv : Nat) : Statement (.query h launch resv) := fun _ _ _ h _ => by cases h
theorem cancelKill (h : Hdr) (launch : Word) (mode : Byte) (resv : Nat) : Statement (.cancelKill h launch mode resv) := fun _ _ _ h _ => by cases h
theorem cancelRelease (h : Hdr) (launch : Word) (resv : Nat) : Statement (.cancelRelease h launch resv) := fun _ _ _ h _ => by cases h
theorem cancelResume (h : Hdr) (launch : Word) (resv : Nat) : Statement (.cancelResume h launch resv) := fun _ _ _ h _ => by cases h
theorem cancelRestore (h : Hdr) (launch : Word) (resv : Nat) : Statement (.cancelRestore h launch resv) := fun _ _ _ h _ => by cases h
theorem pilotReset (h : Hdr) (count : Word) : Statement (.pilotReset h count) := fun _ _ _ h _ => by cases h
theorem readBlocks (h : Hdr) (len : Word) (t : BlockTarget) (resv : Nat) : Statement (.readBlocks h len t resv) := fun _ _ _ h _ => by cases h
theorem writeBlocks (h : Hdr) (len : Word) (t : BlockTarget) (resv : Nat) (blocks : List Cells) : Statement (.writeBlocks h len t resv blocks) := fun _ _ _ h _ => by cases h
theorem readManifest (h : Hdr) (len handle entry : Word) (resv : Nat) : Statement (.readManifest h len handle entry resv) := fun _ _ _ h _ => by cases h
theorem writeManifest (h : Hdr) (len handle entry : Word) (resv : Nat) (entries : List (Dword × Dword)) : Statement (.writeManifest h len handle entry resv entries) := fun _ _ _ h _ => by cases h
theorem readSched (h : Hdr) (len : Word) (reg : Byte) (resv : Nat) : Statement (.readSched h len reg resv) := fun _ _ _ h _ => by cases h
theorem writeSched (h : Hdr) (len : Word) (reg : Byte) (resv : Nat) (vals : List Dword) : Statement (.writeSched h len reg resv vals) := fun _ _ _ h _ => by cases h
theorem readCoreRegister (h : Hdr) (len launch : Word) (member num : BitVec 16) (resv : Nat) : Statement (.readCoreRegister h len launch member num resv) := fun _ _ _ h _ => by cases h
theorem writeCoreRegister (h : Hdr) (len launch : Word) (member num : BitVec 16) (resv : Nat) (vals : List Dword) : Statement (.writeCoreRegister h len launch member num resv vals) := fun _ _ _ h _ => by cases h
theorem writeCommand (h : Hdr) (len : Word) (resv : Nat) (r : CmdRec) : Statement (.writeCommand h len resv r) := fun _ _ _ h _ => by cases h
theorem readErrorRecord (h : Hdr) (len : Word) (resv : Nat) : Statement (.readErrorRecord h len resv) := fun _ _ _ h _ => by cases h
theorem readBlackBox (h : Hdr) (len : Word) (resv : Nat) : Statement (.readBlackBox h len resv) := fun _ _ _ h _ => by cases h
theorem readInjection (h : Hdr) (len : Word) (resv : Nat) : Statement (.readInjection h len resv) := fun _ _ _ h _ => by cases h
theorem writeInjection (h : Hdr) (len : Word) (resv : Nat) (val : Dword) : Statement (.writeInjection h len resv val) := fun _ _ _ h _ => by cases h
theorem poisonEscalation (gang : Nat) : Statement (.poisonEscalation gang) := fun _ _ _ h _ => by cases h
theorem hbmRowSpare (stack row : Nat) (uncorrectable : Bool) (spareLeft : Bool) (slots : List Nat) : Statement (.hbmRowSpare stack row uncorrectable spareLeft slots) := fun _ _ _ h _ => by cases h
theorem laneFail (port lane : Nat) : Statement (.laneFail port lane) := fun _ _ _ h _ => by cases h
theorem laneRetrainDone (port : Nat) : Statement (.laneRetrainDone port) := fun _ _ _ h _ => by cases h
theorem coreRetire (quad column : Nat) : Statement (.coreRetire quad column) := fun _ _ _ h _ => by cases h
theorem quadrantWithdraw (quad column : Nat) : Statement (.quadrantWithdraw quad column) := fun _ _ _ h _ => by cases h
theorem longLinkDeath (a b : Nat) : Statement (.longLinkDeath a b) := fun _ _ _ h _ => by cases h
theorem farPortDown (port : Nat) : Statement (.farPortDown port) := fun _ _ _ h _ => by cases h
theorem blackboxMirror : Statement .blackboxMirror := fun _ _ _ h _ => by cases h
theorem coldStart (failing : List (Nat × Nat)) (farSlots : List Nat) : Statement (.coldStart failing farSlots) := fun _ _ _ h _ => by cases h
theorem warmStart : Statement .warmStart := fun _ _ _ h _ => by cases h
theorem watchdogExpiry : Statement .watchdogExpiry := fun _ _ _ h _ => by cases h
theorem throttleRaise : Statement .throttleRaise := fun _ _ _ h _ => by cases h
theorem throttleLower : Statement .throttleLower := fun _ _ _ h _ => by cases h
theorem emergencyPowerOff : Statement .emergencyPowerOff := fun _ _ _ h _ => by cases h
theorem storageError (e : ErrSite) : Statement (.storageError e) := fun _ _ _ h _ => by cases h
theorem flitRetry (lane : PortLane) : Statement (.flitRetry lane) := fun _ _ _ h _ => by cases h
theorem farPortReturn (port : Nat) : Statement (.farPortReturn port) := fun _ _ _ h _ => by cases h
theorem chipRouteRestored (back : RouteBack) : Statement (.chipRouteRestored back) := fun _ _ _ h _ => by cases h

end Laws.Encoding

end Sys2Proof
end

