-- ==== Sys2Proof/Tests/Slice0.lean ====
section
/-! SUPPORT. Tests. Words written out from the encoding tables decode to the instructions they stand for, one word at least for each
opcode; each hypothesis of each statement for the provers is met somewhere; each check of well-formedness refuses a term; and a few single
steps give what their rules give by hand. -/

namespace Sys2Proof.Tests

open Sys2Proof Sys2Proof.Machine Sys2Proof.Safety

set_option Elab.async false

/-! ## Words (R81, R96, R116 to R124, R350) -/

theorem test_decode_every :
    decodeSyl true .s 0x00012D000000000 none = .ok (.nop ⟨0, false, false, 9, false, true, true, false, true, false⟩) ∧
    decodeSyl true .s 0x00812D512345678 none = .ok (.idle ⟨0, false, false, 9, false, true, true, false, true, false⟩ 0x512345678) ∧
    decodeSyl true .s 0x01012D000000000 none = .ok (.rdv ⟨0, false, false, 9, false, true, true, false, true, false⟩) ∧
    decodeSyl true .v 0x00012D000000000 none = .ok (.nop ⟨0, false, false, 9, false, true, true, false, true, false⟩) ∧
    decodeSyl true .v 0x00812D512345678 none = .ok (.idle ⟨0, false, false, 9, false, true, true, false, true, false⟩ 0x512345678) ∧
    decodeSyl true .v 0x01012D000000000 none = .ok (.rdv ⟨0, false, false, 9, false, true, true, false, true, false⟩) ∧
    decodeSyl true .m 0x00012D000000000 none = .ok (.nop ⟨0, false, false, 9, false, true, true, false, true, false⟩) ∧
    decodeSyl true .m 0x00812D512345678 none = .ok (.idle ⟨0, false, false, 9, false, true, true, false, true, false⟩ 0x512345678) ∧
    decodeSyl true .m 0x01012D000000000 none = .ok (.rdv ⟨0, false, false, 9, false, true, true, false, true, false⟩) ∧
    decodeSyl true .x 0x00012D000000000 none = .ok (.nop ⟨0, false, false, 9, false, true, true, false, true, false⟩) ∧
    decodeSyl true .x 0x00812D512345678 none = .ok (.idle ⟨0, false, false, 9, false, true, true, false, true, false⟩ 0x512345678) ∧
    decodeSyl true .x 0x01012D000000000 none = .ok (.rdv ⟨0, false, false, 9, false, true, true, false, true, false⟩) := by
  and_intros <;> rfl
theorem test_decode_scalar0 :
    decodeSyl true .s 0x0856D24AD620000 none = .ok (.add ⟨10, true, true, 6, true, false, false, true, false, false⟩ 37 26 49) ∧
    decodeSyl true .s 0x08D6D24AD620000 none = .ok (.sub ⟨10, true, true, 6, true, false, false, true, false, false⟩ 37 26 49) ∧
    decodeSyl true .s 0x0956D24AD620000 none = .ok (.mul ⟨10, true, true, 6, true, false, false, true, false, false⟩ 37 26 49) ∧
    decodeSyl true .s 0x09D6D24AD620000 none = .ok (.mulh ⟨10, true, true, 6, true, false, false, true, false, false⟩ 37 26 49) ∧
    decodeSyl true .s 0x0A56D24AD620000 none = .ok (.mulhn ⟨10, true, true, 6, true, false, false, true, false, false⟩ 37 26 49) ∧
    decodeSyl true .s 0x0AD6D24AD620000 none = .ok (.div ⟨10, true, true, 6, true, false, false, true, false, false⟩ 37 26 49) ∧
    decodeSyl true .s 0x0B56D24AD620000 none = .ok (.divn ⟨10, true, true, 6, true, false, false, true, false, false⟩ 37 26 49) ∧
    decodeSyl true .s 0x0BD6D24AD620000 none = .ok (.rem ⟨10, true, true, 6, true, false, false, true, false, false⟩ 37 26 49) ∧
    decodeSyl true .s 0x0C56D24AD620000 none = .ok (.remn ⟨10, true, true, 6, true, false, false, true, false, false⟩ 37 26 49) ∧
    decodeSyl true .s 0x0CD6D24AD620000 none = .ok (.min ⟨10, true, true, 6, true, false, false, true, false, false⟩ 37 26 49) ∧
    decodeSyl true .s 0x0D56D24AD620000 none = .ok (.max ⟨10, true, true, 6, true, false, false, true, false, false⟩ 37 26 49) ∧
    decodeSyl true .s 0x0DD6D24AD620000 none = .ok (.minn ⟨10, true, true, 6, true, false, false, true, false, false⟩ 37 26 49) := by
  and_intros <;> rfl
theorem test_decode_scalar1 :
    decodeSyl true .s 0x0E56D24AD620000 none = .ok (.maxn ⟨10, true, true, 6, true, false, false, true, false, false⟩ 37 26 49) ∧
    decodeSyl true .s 0x0ED6D24AD620000 none = .ok (.and ⟨10, true, true, 6, true, false, false, true, false, false⟩ 37 26 49) ∧
    decodeSyl true .s 0x0F56D24AD620000 none = .ok (.or ⟨10, true, true, 6, true, false, false, true, false, false⟩ 37 26 49) ∧
    decodeSyl true .s 0x0FD6D24AD620000 none = .ok (.xor ⟨10, true, true, 6, true, false, false, true, false, false⟩ 37 26 49) ∧
    decodeSyl true .s 0x1056D24AD620000 none = .ok (.shl ⟨10, true, true, 6, true, false, false, true, false, false⟩ 37 26 49) ∧
    decodeSyl true .s 0x10D6D24AD620000 none = .ok (.shr ⟨10, true, true, 6, true, false, false, true, false, false⟩ 37 26 49) ∧
    decodeSyl true .s 0x1156D24AD620000 none = .ok (.sar ⟨10, true, true, 6, true, false, false, true, false, false⟩ 37 26 49) ∧
    decodeSyl true .s 0x11D6D24AD000000 none = .ok (.clz ⟨10, true, true, 6, true, false, false, true, false, false⟩ 37 26) ∧
    decodeSyl true .s 0x1256D24AD000000 none = .ok (.popc ⟨10, true, true, 6, true, false, false, true, false, false⟩ 37 26) ∧
    decodeSyl true .s 0x12D6D24AD627000 none = .ok (.sel ⟨10, true, true, 6, true, false, false, true, false, false⟩ 37 26 49 14) ∧
    decodeSyl true .s 0x1356D24AD620400 none = .ok (.cmp ⟨10, true, true, 6, true, false, false, true, false, false⟩ 37 26 49 .ltn) := by
  and_intros <;> rfl
theorem test_decode_immediate :
    decodeSyl true .s 0x1856D24AD612345 none = .ok (.addi ⟨10, true, true, 6, true, false, false, true, false, false⟩ 37 26 0x612345) ∧
    decodeSyl true .s 0x18D6D24AD612345 none = .ok (.andi ⟨10, true, true, 6, true, false, false, true, false, false⟩ 37 26 0x612345) ∧
    decodeSyl true .s 0x1956D24AD612345 none = .ok (.ori ⟨10, true, true, 6, true, false, false, true, false, false⟩ 37 26 0x612345) ∧
    decodeSyl true .s 0x19D6D24AD612345 none = .ok (.xori ⟨10, true, true, 6, true, false, false, true, false, false⟩ 37 26 0x612345) ∧
    decodeSyl true .s 0x1A56D24AD00002D none = .ok (.shli ⟨10, true, true, 6, true, false, false, true, false, false⟩ 37 26 45) ∧
    decodeSyl true .s 0x1AD6D24AD00002D none = .ok (.shri ⟨10, true, true, 6, true, false, false, true, false, false⟩ 37 26 45) ∧
    decodeSyl true .s 0x1B56D24AD00002D none = .ok (.sari ⟨10, true, true, 6, true, false, false, true, false, false⟩ 37 26 45) ∧
    decodeSyl true .s 0x1BD6D24AD3ABCDE none = .ok (.cmpi ⟨10, true, true, 6, true, false, false, true, false, false⟩ 37 26 .le 0xABCDE) ∧
    decodeSyl true .s 0x1C56D24BABCDEF1 none = .ok (.liOne ⟨10, true, true, 6, true, false, false, true, false, false⟩ 37 0x1ABCDEF1) ∧
    decodeSyl true .s 0x1CD6D24A000000F (some 0x123456789ABCDE5) = .ok (.liTwo ⟨10, true, true, 6, true, false, false, true, false, false⟩ 37 0xF123456789ABCDE5) := by
  and_intros <;> rfl
theorem test_decode_scalarMemory :
    decodeSyl true .s 0x2056D24AD07ABCD none = .ok (.ld ⟨10, true, true, 6, true, false, false, true, false, false⟩ 37 26 .i8 0xABCD) ∧
    decodeSyl true .s 0x20D6D24AD07ABCD none = .ok (.st ⟨10, true, true, 6, true, false, false, true, false, false⟩ 37 26 .i8 0xABCD) ∧
    decodeSyl true .s 0x2156D24AD4DABCD none = .ok (.lda ⟨10, true, true, 6, true, false, false, true, false, false⟩ 37 26 .pkg .n64 0xABCD) ∧
    decodeSyl true .s 0x21D6D24AD4DABCD none = .ok (.stl ⟨10, true, true, 6, true, false, false, true, false, false⟩ 37 26 .pkg .n64 0xABCD) ∧
    decodeSyl true .s 0x2256D24AD620509 none = .ok (.amo ⟨10, true, true, 6, true, false, false, true, false, false⟩ 37 26 49 .max .i64) ∧
    decodeSyl true .s 0x22D6D24AD627001 none = .ok (.cas ⟨10, true, true, 6, true, false, false, true, false, false⟩ 37 26 49 14 .f32) := by
  and_intros <;> rfl
theorem test_decode_branch :
    decodeSyl true .s 0x2856D2200812345 none = .ok (.b ⟨10, true, true, 6, true, false, false, true, false, false⟩ .nt 0x812345) ∧
    decodeSyl true .s 0x28D6D24D5812345 none = .ok (.bc ⟨10, true, true, 6, true, false, false, true, false, false⟩ .nk .npos 26 0x812345) ∧
    decodeSyl true .s 0x2956D20D0000000 none = .ok (.br ⟨10, true, true, 6, true, false, false, true, false, false⟩ .none 26) ∧
    decodeSyl true .s 0x29D6D22D0812345 none = .ok (.call ⟨10, true, true, 6, true, false, false, true, false, false⟩ .nt 26 0x812345) ∧
    decodeSyl true .s 0x2A56D24D0812345 none = .ok (.loop ⟨10, true, true, 6, true, false, false, true, false, false⟩ .nk 26 0x812345) := by
  and_intros <;> rfl
theorem test_decode_control :
    decodeSyl true .s 0x2C012D512345678 none = .ok (.fork ⟨0, false, false, 9, false, true, true, false, true, false⟩ 0x512345678) ∧
    decodeSyl true .s 0x2C812D000000000 none = .ok (.slack ⟨0, false, false, 9, false, true, true, false, true, false⟩) ∧
    decodeSyl true .s 0x2D012D000000000 none = .ok (.commit ⟨0, false, false, 9, false, true, true, false, true, false⟩) ∧
    decodeSyl true .s 0x2D812D0000000A5 none = .ok (.safe ⟨0, false, false, 9, false, true, true, false, true, false⟩ 0xA5) ∧
    decodeSyl true .s 0x2E56D200D620000 none = .ok (.waitp ⟨10, true, true, 6, true, false, false, true, false, false⟩ 26 49) ∧
    decodeSyl true .s 0x2E812D000000000 none = .ok (.qmark ⟨0, false, false, 9, false, true, true, false, true, false⟩) ∧
    decodeSyl true .s 0x2F56D24A0000003 none = .ok (.fence ⟨10, true, true, 6, true, false, false, true, false, false⟩ 37 .sys) ∧
    decodeSyl true .s 0x2FD6D2512345678 none = .ok (.trap ⟨10, true, true, 6, true, false, false, true, false, false⟩ 0x512345678) ∧
    decodeSyl true .s 0x30012D000000000 none = .ok (.tret ⟨0, false, false, 9, false, true, true, false, true, false⟩) ∧
    decodeSyl true .s 0x30D6D24A0000A53 none = .ok (.mfc ⟨10, true, true, 6, true, false, false, true, false, false⟩ 37 0xA53) ∧
    decodeSyl true .s 0x3156D24A0000A53 none = .ok (.mtc ⟨10, true, true, 6, true, false, false, true, false, false⟩ 37 0xA53) := by
  and_intros <;> rfl
theorem test_decode_privileged :
    decodeSyl true .s 0xF856D200D000000 none = .ok (.hsel ⟨10, true, true, 6, true, false, false, true, false, false⟩ 26) ∧
    decodeSyl true .s 0xF8D6D24A0620000 none = .ok (.hrd ⟨10, true, true, 6, true, false, false, true, false, false⟩ 37 49) ∧
    decodeSyl true .s 0xF956D2000627000 none = .ok (.hwr ⟨10, true, true, 6, true, false, false, true, false, false⟩ 49 14) ∧
    decodeSyl true .s 0xF9D6D24AD000000 none = .ok (.hcmd ⟨10, true, true, 6, true, false, false, true, false, false⟩ 37 26) ∧
    decodeSyl true .s 0xFA56D24AD000000 none = .ok (.hwait ⟨10, true, true, 6, true, false, false, true, false, false⟩ 37 26) := by
  and_intros <;> rfl
theorem test_decode_vectorFloat0 :
    decodeSyl true .v 0x0856D24AD6200E1 none = .ok (.vadd ⟨10, true, true, 6, true, false, false, true, false, false⟩ 37 26 49 .ru true) ∧
    decodeSyl true .v 0x08D6D24AD6200E1 none = .ok (.vsub ⟨10, true, true, 6, true, false, false, true, false, false⟩ 37 26 49 .ru true) ∧
    decodeSyl true .v 0x0956D24AD6200E1 none = .ok (.vmul ⟨10, true, true, 6, true, false, false, true, false, false⟩ 37 26 49 .ru true) ∧
    decodeSyl true .v 0x09D6D24AD620001 none = .ok (.vdiv ⟨10, true, true, 6, true, false, false, true, false, false⟩ 37 26 49) ∧
    decodeSyl true .v 0x0A56D24AD620001 none = .ok (.vmin ⟨10, true, true, 6, true, false, false, true, false, false⟩ 37 26 49) ∧
    decodeSyl true .v 0x0AD6D24AD620001 none = .ok (.vmax ⟨10, true, true, 6, true, false, false, true, false, false⟩ 37 26 49) ∧
    decodeSyl true .v 0x0B56D24AD620001 none = .ok (.vcps ⟨10, true, true, 6, true, false, false, true, false, false⟩ 37 26 49) ∧
    decodeSyl true .v 0x0C56D24AD000001 none = .ok (.vsqrt ⟨10, true, true, 6, true, false, false, true, false, false⟩ 37 26) ∧
    decodeSyl true .v 0x0CD6D24AD000001 none = .ok (.vrcp ⟨10, true, true, 6, true, false, false, true, false, false⟩ 37 26) ∧
    decodeSyl true .v 0x0D56D24AD000001 none = .ok (.vrsq ⟨10, true, true, 6, true, false, false, true, false, false⟩ 37 26) ∧
    decodeSyl true .v 0x0DD6D24AD000001 none = .ok (.vexp2 ⟨10, true, true, 6, true, false, false, true, false, false⟩ 37 26) ∧
    decodeSyl true .v 0x0E56D24AD000001 none = .ok (.vlog2 ⟨10, true, true, 6, true, false, false, true, false, false⟩ 37 26) := by
  and_intros <;> rfl
theorem test_decode_vectorFloat1 :
    decodeSyl true .v 0x0ED6D24AD000001 none = .ok (.vabs ⟨10, true, true, 6, true, false, false, true, false, false⟩ 37 26) ∧
    decodeSyl true .v 0x0F56D24AD000001 none = .ok (.vneg ⟨10, true, true, 6, true, false, false, true, false, false⟩ 37 26) ∧
    decodeSyl true .v 0x1256D24AD627041 none = .ok (.vfma ⟨10, true, true, 6, true, false, false, true, false, false⟩ 37 26 49 14 .rz false) ∧
    decodeSyl true .v 0x12D6D24AD627041 none = .ok (.vfms ⟨10, true, true, 6, true, false, false, true, false, false⟩ 37 26 49 14 .rz false) ∧
    decodeSyl true .v 0x1356D24AD627041 none = .ok (.vfnma ⟨10, true, true, 6, true, false, false, true, false, false⟩ 37 26 49 14 .rz false) := by
  and_intros <;> rfl
theorem test_decode_vectorInteger0 :
    decodeSyl true .v 0x1856D24AD62002C none = .ok (.viadd ⟨10, true, true, 6, true, false, false, true, false, false⟩ 37 26 49 true true) ∧
    decodeSyl true .v 0x18D6D24AD62002C none = .ok (.visub ⟨10, true, true, 6, true, false, false, true, false, false⟩ 37 26 49 true true) ∧
    decodeSyl true .v 0x1956D24AD62002C none = .ok (.vimul ⟨10, true, true, 6, true, false, false, true, false, false⟩ 37 26 49 true true) ∧
    decodeSyl true .v 0x19D6D24AD620008 none = .ok (.vimulh ⟨10, true, true, 6, true, false, false, true, false, false⟩ 37 26 49 false) ∧
    decodeSyl true .v 0x1A56D24AD620008 none = .ok (.vimin ⟨10, true, true, 6, true, false, false, true, false, false⟩ 37 26 49 false) ∧
    decodeSyl true .v 0x1AD6D24AD620008 none = .ok (.vimax ⟨10, true, true, 6, true, false, false, true, false, false⟩ 37 26 49 false) ∧
    decodeSyl true .v 0x1B56D24AD620008 none = .ok (.vand ⟨10, true, true, 6, true, false, false, true, false, false⟩ 37 26 49 false) ∧
    decodeSyl true .v 0x1BD6D24AD620008 none = .ok (.vor ⟨10, true, true, 6, true, false, false, true, false, false⟩ 37 26 49 false) ∧
    decodeSyl true .v 0x1C56D24AD620008 none = .ok (.vxor ⟨10, true, true, 6, true, false, false, true, false, false⟩ 37 26 49 false) ∧
    decodeSyl true .v 0x1CD6D24AD620008 none = .ok (.vshl ⟨10, true, true, 6, true, false, false, true, false, false⟩ 37 26 49 false) ∧
    decodeSyl true .v 0x1D56D24AD620008 none = .ok (.vshr ⟨10, true, true, 6, true, false, false, true, false, false⟩ 37 26 49 false) ∧
    decodeSyl true .v 0x1DD6D24AD620008 none = .ok (.vsar ⟨10, true, true, 6, true, false, false, true, false, false⟩ 37 26 49 false) := by
  and_intros <;> rfl
theorem test_decode_vectorInteger1 : decodeSyl true .v 0x1E56D24AD000000 none = .ok (.vpopc ⟨10, true, true, 6, true, false, false, true, false, false⟩ 37 26) := rfl
theorem test_decode_predicate :
    decodeSyl true .v 0x2056D216D620601 none = .ok (.vcmp ⟨10, true, true, 6, true, false, false, true, false, false⟩ 11 26 49 .un) ∧
    decodeSyl true .v 0x20D6D216D620500 none = .ok (.vicmp ⟨10, true, true, 6, true, false, false, true, false, false⟩ 11 26 49 .len) ∧
    decodeSyl true .v 0x2156D216D152800 none = .ok (.vclass ⟨10, true, true, 6, true, false, false, true, false, false⟩ 11 26 0x2A5) ∧
    decodeSyl true .v 0x2456D21631A0000 none = .ok (.pand ⟨10, true, true, 6, true, false, false, true, false, false⟩ 11 6 13) ∧
    decodeSyl true .v 0x24D6D21631A0000 none = .ok (.por ⟨10, true, true, 6, true, false, false, true, false, false⟩ 11 6 13) ∧
    decodeSyl true .v 0x2556D21631A0000 none = .ok (.pxor ⟨10, true, true, 6, true, false, false, true, false, false⟩ 11 6 13) ∧
    decodeSyl true .v 0x25D6D2163000000 none = .ok (.pnot ⟨10, true, true, 6, true, false, false, true, false, false⟩ 11 6) ∧
    decodeSyl true .v 0x2656D24A3000000 none = .ok (.pcnt ⟨10, true, true, 6, true, false, false, true, false, false⟩ 37 6) ∧
    decodeSyl true .v 0x26D6D24A3000000 none = .ok (.pfirst ⟨10, true, true, 6, true, false, false, true, false, false⟩ 37 6) := by
  and_intros <;> rfl
theorem test_decode_vectorMove0 :
    decodeSyl true .v 0x2856D24AD626800 none = .ok (.vsel ⟨10, true, true, 6, true, false, false, true, false, false⟩ 37 26 49 13) ∧
    decodeSyl true .v 0x28D6D24AD000000 none = .ok (.vmov ⟨10, true, true, 6, true, false, false, true, false, false⟩ 37 26) ∧
    decodeSyl true .v 0x2956D24AD00000C none = .ok (.vbcst ⟨10, true, true, 6, true, false, false, true, false, false⟩ 37 26 .n32) ∧
    decodeSyl true .v 0x29D6D24AD620000 none = .ok (.vextr ⟨10, true, true, 6, true, false, false, true, false, false⟩ 37 26 49) ∧
    decodeSyl true .v 0x2A56D24AD620000 none = .ok (.vins ⟨10, true, true, 6, true, false, false, true, false, false⟩ 37 26 49) ∧
    decodeSyl true .v 0x2AD6D24AD620000 none = .ok (.vperm ⟨10, true, true, 6, true, false, false, true, false, false⟩ 37 26 49) ∧
    decodeSyl true .v 0x2B56D24AD620000 none = .ok (.vrot ⟨10, true, true, 6, true, false, false, true, false, false⟩ 37 26 49) ∧
    decodeSyl true .v 0x2C56D24ABC80000 none = .ok (.vmovDirRead ⟨10, true, true, 6, true, false, false, true, false, false⟩ 37 ⟨false, 5, .diag, 9⟩ .untyped) ∧
    decodeSyl true .v 0x2CD6D24ABCD0580 none = .ok (.vmovDirWrite ⟨10, true, true, 6, true, false, false, true, false, false⟩ 37 ⟨false, 5, .diag, 9⟩ .rd true .untyped 0xB) ∧
    decodeSyl true .v 0x3056D24AD000008 none = .ok (.vrsum ⟨10, true, true, 6, true, false, false, true, false, false⟩ 37 26 .i32) ∧
    decodeSyl true .v 0x30D6D24AD000008 none = .ok (.vrmax ⟨10, true, true, 6, true, false, false, true, false, false⟩ 37 26 .i32) ∧
    decodeSyl true .v 0x3156D24AD000008 none = .ok (.vrmin ⟨10, true, true, 6, true, false, false, true, false, false⟩ 37 26 .i32) := by
  and_intros <;> rfl
theorem test_decode_vectorMove1 : decodeSyl true .v 0x31D6D24AD000001 none = .ok (.vramax ⟨10, true, true, 6, true, false, false, true, false, false⟩ 37 26) := rfl
theorem test_decode_vectorMemory :
    decodeSyl true .v 0x3456D24AD000862 none = .ok (.vcvt ⟨10, true, true, 6, true, false, false, true, false, false⟩ 37 26 .f32 .rz true .bf16) ∧
    decodeSyl true .v 0x3456D24AD002211 none = .ok (.vcvtMxImport ⟨10, true, true, 6, true, false, false, true, false, false⟩ 37 26 .e4m3 true) ∧
    decodeSyl true .v 0x3856D24AD02ABCD none = .ok (.vld ⟨10, true, true, 6, true, false, false, true, false, false⟩ 37 26 .bf16 0xABCD) ∧
    decodeSyl true .v 0x38D6D24AD02ABCD none = .ok (.vst ⟨10, true, true, 6, true, false, false, true, false, false⟩ 37 26 .bf16 0xABCD) ∧
    decodeSyl true .v 0x3956D24AD620001 none = .ok (.vldg ⟨10, true, true, 6, true, false, false, true, false, false⟩ 37 26 49 .f32) ∧
    decodeSyl true .v 0x39D6D24AD620001 none = .ok (.vsts ⟨10, true, true, 6, true, false, false, true, false, false⟩ 37 26 49 .f32) ∧
    decodeSyl true .v 0x3C56D24A0000000 none = .ok (.vpark ⟨10, true, true, 6, true, false, false, true, false, false⟩ 37) ∧
    decodeSyl true .v 0x3CD6D24AAC80000 none = .ok (.vunpark ⟨10, true, true, 6, true, false, false, true, false, false⟩ 37 ⟨false, 5, .row, 9⟩) ∧
    decodeSyl true .v 0x3E56D248D640000 none = .ok (.vtri ⟨10, true, true, 6, true, false, false, true, false, false⟩ 36 26 50) ∧
    decodeSyl true .v 0x3ED6D248D640000 none = .ok (.vtrin ⟨10, true, true, 6, true, false, false, true, false, false⟩ 36 26 50) ∧
    decodeSyl true .v 0x3F56D24A0000580 none = .ok (.vbnd ⟨10, true, true, 6, true, false, false, true, false, false⟩ 37 0xB) := by
  and_intros <;> rfl
theorem test_decode_matrix :
    decodeSyl true .m 0x0856D2580A03010 (some 0xA12345678000000) = .ok (.mma ⟨10, true, true, 6, true, false, false, true, false, false⟩ 0xA12345678 ⟨true, 3, .whole, 0⟩ ⟨false, 5, .whole, 0⟩ ⟨false, 6, .whole, 0⟩ 2) ∧
    decodeSyl true .m 0x08D6D2580A03010 (some 0xA12345678000000) = .ok (.mmat ⟨10, true, true, 6, true, false, false, true, false, false⟩ 0xA12345678 ⟨true, 3, .whole, 0⟩ ⟨false, 5, .whole, 0⟩ ⟨false, 6, .whole, 0⟩ 2) ∧
    decodeSyl true .m 0x0956D2580000000 (some 0xA12345678000000) = .ok (.mzero ⟨10, true, true, 6, true, false, false, true, false, false⟩ 0xA12345678 ⟨true, 3, .whole, 0⟩) ∧
    decodeSyl true .m 0x09D6D2581400000 (some 0xA12345678000000) = .ok (.macc ⟨10, true, true, 6, true, false, false, true, false, false⟩ 0xA12345678 ⟨true, 3, .whole, 0⟩ ⟨true, 2, .whole, 0⟩) ∧
    decodeSyl true .m 0x0A56D25800D0001 (some 0xA12345678000000) = .ok (.mscl ⟨10, true, true, 6, true, false, false, true, false, false⟩ 0xA12345678 ⟨true, 3, .whole, 0⟩ 26 true) ∧
    decodeSyl true .m 0x0AD6D25800D0000 (some 0xA12345678000000) = .ok (.mmsk ⟨10, true, true, 6, true, false, false, true, false, false⟩ 0xA12345678 ⟨true, 3, .whole, 0⟩ 26) ∧
    decodeSyl true .m 0x0B56D204B400001 (some 0xA12345678000000) = .ok (.mred ⟨10, true, true, 6, true, false, false, true, false, false⟩ 0xA12345678 37 ⟨true, 2, .whole, 0⟩ true) ∧
    decodeSyl true .m 0x0BD6D228140301F (some 0xA1234567806AF88) = .ok (.mdrn ⟨10, true, true, 6, true, false, false, true, false, false⟩ 0xA12345678 ⟨⟨false, 5, .whole, 0⟩, ⟨true, 2, .whole, 0⟩, some ⟨false, 6, .whole, 0⟩, 3, some 26, true, 11, .ru, true, .bf16⟩) ∧
    decodeSyl true .m 0x0C56D228140000C (some 0xA12345678001C44) = .ok (.mdrnq ⟨10, true, true, 6, true, false, false, true, false, false⟩ 0xA12345678 ⟨⟨false, 5, .whole, 0⟩, ⟨true, 2, .whole, 0⟩, none, 1, none, true, 7, .rne, false, .sqe4m3⟩) ∧
    decodeSyl true .m 0x0CD6D2581400000 (some 0xA12345678000000) = .ok (.mtrn ⟨10, true, true, 6, true, false, false, true, false, false⟩ 0xA12345678 ⟨true, 3, .whole, 0⟩ ⟨true, 2, .whole, 0⟩) := by
  and_intros <;> rfl
theorem test_decode_exchange0 :
    decodeSyl true .x 0x0856D2462D001D0 none = .ok (.xch ⟨10, true, true, 6, true, false, false, true, false, false⟩ (.reg 49) 26 14 2) ∧
    decodeSyl true .x 0x08D6D2462D001D0 none = .ok (.xchs ⟨10, true, true, 6, true, false, false, true, false, false⟩ (.reg 49) 26 14 2) ∧
    decodeSyl true .x 0x0956D2462D001D0 none = .ok (.xchg ⟨10, true, true, 6, true, false, false, true, false, false⟩ 49 26 14 2) ∧
    decodeSyl true .x 0x09D6D2462D001D0 none = .ok (.xchp ⟨10, true, true, 6, true, false, false, true, false, false⟩ 49 26 14 2) ∧
    decodeSyl true .x 0x0A56D2462D001D0 none = .ok (.xcht ⟨10, true, true, 6, true, false, false, true, false, false⟩ 49 26 14 2) ∧
    decodeSyl true .x 0x0AD6D2462D001D0 none = .ok (.xtil ⟨10, true, true, 6, true, false, false, true, false, false⟩ 49 26 14 2) ∧
    decodeSyl true .x 0x0B56D2462D001D0 none = .ok (.xtilt ⟨10, true, true, 6, true, false, false, true, false, false⟩ 49 26 14 2) ∧
    decodeSyl true .x 0x0856D2300D001C8 none = .ok (.xch ⟨10, true, true, 6, true, false, false, true, false, false⟩ (.tile ⟨false, 6, .whole, 0⟩) 26 14 1) ∧
    decodeSyl true .x 0x0BD6D2462D001C0 none = .ok (.xfar ⟨10, true, true, 6, true, false, false, true, false, false⟩ 49 26 14) ∧
    decodeSyl true .x 0x0C56D2300000000 none = .ok (.xdrop ⟨10, true, true, 6, true, false, false, true, false, false⟩ (.tile ⟨false, 6, .whole, 0⟩)) ∧
    decodeSyl true .x 0x0CD6D2462D00000 none = .ok (.xtstv ⟨10, true, true, 6, true, false, false, true, false, false⟩ (.reg 49) 26) ∧
    decodeSyl true .x 0x0D56D2462D00000 none = .ok (.xpen ⟨10, true, true, 6, true, false, false, true, false, false⟩ 49 26) := by
  and_intros <;> rfl
theorem test_decode_exchange1 :
    decodeSyl true .x 0x0DD6D2000D00000 none = .ok (.xwake ⟨10, true, true, 6, true, false, false, true, false, false⟩ 26) ∧
    decodeSyl true .x 0x0E56D2000D00000 none = .ok (.xdoze ⟨10, true, true, 6, true, false, false, true, false, false⟩ 26) ∧
    decodeSyl true .x 0x0ED6D22B2000003 none = .ok (.xnsend ⟨10, true, true, 6, true, false, false, true, false, false⟩ ⟨false, 5, .row, 9⟩ .w) ∧
    decodeSyl true .x 0x0F56D22D2000001 none = .ok (.xnrecv ⟨10, true, true, 6, true, false, false, true, false, false⟩ ⟨false, 5, .col, 9⟩ .e) ∧
    decodeSyl true .x 0x0FD6D2000000018 none = .ok (.xagu ⟨10, true, true, 6, true, false, false, true, false, false⟩ 3) := by
  and_intros <;> rfl
theorem test_decode_fabric :
    decodeSyl true .x 0x2056D2462D529C0 none = .ok (.xrch ⟨10, true, true, 6, true, false, false, true, false, false⟩ 49 26 14 0xA5) ∧
    decodeSyl true .x 0x20D6D2462D529C0 none = .ok (.xrchc ⟨10, true, true, 6, true, false, false, true, false, false⟩ 49 26 14 0xA5) ∧
    decodeSyl true .x 0x2156D2000D52800 none = .ok (.xcrck ⟨10, true, true, 6, true, false, false, true, false, false⟩ 26 0xA5) ∧
    decodeSyl true .x 0x21D6D2000D52800 none = .ok (.xwin ⟨10, true, true, 6, true, false, false, true, false, false⟩ 26 0xA5) ∧
    decodeSyl true .x 0x2256D2462D529C5 none = .ok (.xred ⟨10, true, true, 6, true, false, false, true, false, false⟩ 49 26 14 0xA5 .max) ∧
    decodeSyl true .x 0x22D6D2462D529C0 none = .ok (.xtri ⟨10, true, true, 6, true, false, false, true, false, false⟩ 49 26 14 0xA5) ∧
    decodeSyl true .x 0x2356D2462D52806 none = .ok (.xamo ⟨10, true, true, 6, true, false, false, true, false, false⟩ 49 26 0xA5 .swap) ∧
    decodeSyl true .x 0x23D6D2462D52804 none = .ok (.xamor ⟨10, true, true, 6, true, false, false, true, false, false⟩ 49 26 0xA5 .min) ∧
    decodeSyl true .x 0x2456D2462D529C0 none = .ok (.xcas ⟨10, true, true, 6, true, false, false, true, false, false⟩ 49 26 14 0xA5) ∧
    decodeSyl true .x 0x24D6D2000D52800 none = .ok (.xkick ⟨10, true, true, 6, true, false, false, true, false, false⟩ 26 0xA5) ∧
    decodeSyl true .x 0x2556D2000052800 none = .ok (.xabort ⟨10, true, true, 6, true, false, false, true, false, false⟩ 0xA5) := by
  and_intros <;> rfl

/-! ## Small states -/

/-- A manifest entry in index `i`: DW0 and DW1 of R278. -/
def page (i : Nat) (dw0 dw1 : Dword) : Nat × MEntry := (i, ⟨dw0, dw1⟩)
/-- Own-berth pages at VBA 0x100, HBM at 0x200, quay at 0x300, read-only at 0x400, absent at 0x500, a window at 0x600, the far tier
at 0x700, an SQ page at 0x800, and member 1's berth at 0x900: 16 blocks each. -/
def pages : Manifest :=
  [page 0 0xF020000000000100 0x00000010000FFE00, page 1 0xF060000000000200 0x0000001000000000, page 2 0xF040000000000300 0x0000001000000000,
   page 3 0xD020000000000400 0x00000010000FFE10, page 4 0xB020000000000500 0x00000010000FFE20, page 5 0xF420000000000600 0x00000010000FFE30,
   page 6 0xF080000000000700 0x0000001000000000, page 7 0xF020000000000800 0x10000010000FFE40, page 8 0xF020000000000900 0x0000001000000200]
/-- A gang of one router group whose member 0 issues on cluster `cl` at tide `t`. -/
def gangOf (cl : Cl) (t : Nat) : Gang :=
  { probeGang State.reset 0 cl t with manifest := pages, quays := [(0, [0])], livemaps := [0] }
/-- The package with that one gang, member 0 changed by `f`. -/
def one (g : Gang) (cl : Cl) (f : Core → Core) : State :=
  { State.reset with chip := 0, gangs := [modCore g 0 f], nextGang := 1, cur := .core ⟨0, 0⟩ cl, turn := 3, agenda := [] }
def sOf (f : Core → Core) : State := one (gangOf .s 5) .s f
def vOf (f : Core → Core) : State := one (gangOf .v 5) .v f
def mOf (f : Core → Core) : State := one (gangOf .m 5) .m f
def xOf (f : Core → Core) : State := one (gangOf .x 5) .x f
/-- The harbourmaster's core. -/
def hOf (f : Harbour → Harbour) (s : State := sOf id) : State := { s with harbour := f { firmware := [0, 0] }, cur := .harbour }
def reg (i : Reg) (v : Dword) (c : Core) : Core := { c with regs := c.regs.setG i v }
def inSlack (c : Core) : Core := c.mapCtl fun r => { r with phase := 1 }
def full (c : Core) : Core :=
  { c with regs := { c.regs with landings := List.replicate 16 { dest := .g 1, due := 900, issued := 0, cl := .s } } }
def sixteenth (c : Core) : Core :=
  { c with regs := { c.regs with landings := List.replicate 15 { dest := .g 1, due := 900, issued := 0, cl := .s } } }
/-- What stands in the way of an issue is looked at in one place. -/
def seen (s : State) (cl : Cl) (c : Common) (p : Ctx → Bool) : Bool :=
  match ctxOf s cl with
  | some x => (popMiss x c).isNone && x.core.faults.isEmpty && p x
  | none => false
theorem meets {s : State} {cl : Cl} {c : Common} {p : Ctx → Bool} (h : seen s cl c p = true) :
    ∃ x, ctxOf s cl = some x ∧ Clear x c ∧ p x = true := by
  unfold seen at h
  split at h
  · rename_i x hx
    simp only [Bool.and_eq_true, Option.isNone_iff_eq_none, List.isEmpty_iff] at h
    exact ⟨x, hx, ⟨h.1.1, h.1.2⟩, h.2⟩
  · cases h
/-- `p` holds of some context in which an instruction with the fields `c` meets no obstacle on cluster `cl` of `s`. -/
def Meets (s : State) (cl : Cl) (c : Common) (p : Ctx → Bool) : Prop := ∃ x, ctxOf s cl = some x ∧ Clear x c ∧ p x = true
def has (s : State) (k : CoreId) (p : Gang → Core → Bool) : Bool :=
  match getMember s k with
  | some (g, c) => p g c
  | none => false
def Has (s : State) (k : CoreId) (p : Gang → Core → Bool) : Prop := ∃ g c, getMember s k = some (g, c) ∧ p g c = true
theorem has_of {s : State} {k : CoreId} {p : Gang → Core → Bool} (h : has s k p = true) : Has s k p := by
  unfold has at h
  split at h
  · exact ⟨_, _, ‹_›, h⟩
  · cases h
def HasGang (s : State) (n : Nat) (p : Gang → Bool) : Prop := ∃ g, getGang s n = some g ∧ p g = true
theorem hasGang_of {s : State} {n : Nat} {p : Gang → Bool} (h : ((getGang s n).map p).getD false = true) : HasGang s n p := by
  cases hg : getGang s n with
  | none => rw [hg] at h; cases h
  | some g => rw [hg] at h; exact ⟨g, hg, h⟩
def off_ : Common := { en := true, sense := true }

/-! ## Each statement's hypotheses are met -/

theorem witness_ScalarRegisterForms : Meets (sOf sixteenth) .s {} (fun x => guardOn x {} && x.core.pending == 15)
    ∧ Meets (sOf full) .s {} (fun x => guardOn x {} && x.core.pending == 16) ∧ Common.wf {} .s true = true := by
  and_intros <;> first | exact meets (by decide +kernel) | decide +kernel
theorem witness_ScalarSelectAndImmediateForms : Meets (sOf full) .s {} (fun x => guardOn x {}) ∧ Common.wf {} .s true = true :=
  ⟨meets (by decide +kernel), by decide⟩
theorem witness_BranchesSteerTheQueue : Meets (sOf full) .s {} (fun x => guardOn x {}) := meets (by decide +kernel)
theorem witness_QueueAndIssuePointsAdvance : Meets (sOf id) .s {} (fun x => x.cl == .s) ∧ Meets (vOf id) .v { group := true } (fun x => x.cl == .v)
    ∧ Cl.m ≠ .s ∧ pointIndex .m ≠ pointIndex .v := by
  and_intros <;> first | exact meets (by decide +kernel) | decide +kernel
theorem witness_IssueLeavesTheRest : Meets (sOf id) .s {} (fun x => !x.hb && (getMember x.s x.k).isSome && x.k != ⟨0, 1⟩)
    ∧ Meets (hOf id) .s {} (fun x => x.hb) := ⟨meets (by decide +kernel), meets (by decide +kernel)⟩
def onBerth (x : Ctx) (v : BitVec 52) : Bool :=
  match translate x.s x.g x.k.idx v with
  | .ok p => match p.slot with | .berth .. => true | _ => false
  | .error _ => false
theorem witness_EmptyIssues : (∃ x, ctxAny (vOf id) = some x ∧ Clear x {})
    ∧ Meets (sOf id) .s off_ (fun x => (commonOf (.add off_ 1 2 3) == some (.s, off_)) && Instr.wf .s (.add off_ 1 2 3)
        && off_.en && (x.rp off_.guard).getLsbD 0 == off_.sense)
    ∧ Meets (sOf (reg 2 0x100FF8)) .s off_ (fun x => Instr.wf .s (.ld off_ 1 2 .n64 0)
        && (accessOf x (.ld off_ 1 2 .n64 0)).any (fun e => e == (0x100FF8, 8, false)
          && onBerth x (e.1.extractLsb' 12 52)
          && !x.hb && decide (e.1.toNat % 4096 + e.2.1 ≤ 4096)) && (accessOf x (.add off_ 1 2 3)).isNone
        && !onBerth x 0x300)
    ∧ Meets (sOf id) .s off_ (fun x => Instr.wf .s (.mtc off_ 1 0x20) && Instr.wf .s (.mfc off_ 1 0)
        && (readCtl x.core x.tide 0x20).isSome && !ctlReadOnly 0x20 && (readCtl x.core x.tide 0).isSome) :=
  ⟨(meets (s := vOf id) (cl := .v) (c := {}) (p := fun _ => true) (by decide +kernel)).imp fun _ h => ⟨h.1, h.2.1⟩, meets (by decide +kernel),
    meets (by decide +kernel), meets (by decide +kernel)⟩
def allJoined (c : Core) : Core := { c with regs := { c.regs with points := c.regs.points.map fun p => { p with joined := true } } }
def noneJoined (c : Core) : Core := { c with regs := { c.regs with points := c.regs.points.map fun p => { p with joined := false } } }
theorem witness_ForksAndPhaseMarks :
    Meets (sOf allJoined) .s {} (fun x => (List.finRange 3).all fun i => x.core.regs.points[i].joined)
    ∧ Meets (sOf noneJoined) .s {} (fun x => (List.finRange 3).any fun i => !x.core.regs.points[i].joined)
    ∧ Meets (sOf id) .s {} (fun x => !x.slack && decide (0 < x.g.livemaps.length))
    ∧ Meets (sOf inSlack) .s {} (fun x => x.slack && decide (x.g.livemaps.length ≤ 1)) := by
  and_intros <;> exact meets (by decide +kernel)
theorem witness_CausesAreRaised : Meets (sOf full) .s {} (fun x => guardOn x {} && x.core.pending == 16)
    ∧ Meets (sOf id) .s off_ (fun x => !guardOn x off_) ∧ cSchedMiss ≠ cTrap := by
  and_intros <;> first | exact meets (by decide +kernel) | decide +kernel
theorem witness_ControlRegisterMoves :
    Meets (sOf id) .s {} (fun x => guardOn x {} && (readCtl x.core x.tide 0x20).isSome && !ctlReadOnly 0x20)
    ∧ Meets (sOf id) .s {} (fun x => (readCtl x.core x.tide 0).isSome && ctlReadOnly 0)
    ∧ Meets (sOf (reg 1 0x800000)) .s {} (fun x => (readCtl x.core x.tide 0x10).isSome && !tshpOk (x.rg 1))
    ∧ Meets (sOf (reg 1 0x400)) .s {} (fun x => (readCtl x.core x.tide 0x17).isSome && tshpOk (x.rg 2))
    ∧ Meets (sOf id) .s {} (fun x => (readCtl x.core x.tide 0x18).isNone && (readCtl x.core x.tide 0xFFF).isNone)
    ∧ Meets (sOf id) .s off_ (fun x => !guardOn x off_ && (readCtl x.core x.tide 0).isSome && ctlReadOnly 0
        && (readCtl x.core x.tide 0x20).isSome && !ctlReadOnly 0x20 && (readCtl x.core x.tide 0xFFF).isNone) := by
  and_intros <;> exact meets (by decide +kernel)
def aimed (x : Ctx) (ea : Dword) (n : Nat) (rd wr : Bool) : Bool :=
  ea.toNat % n == 0 && if x.hb then true else
    match translate x.s x.g x.k.idx (ea.extractLsb' 12 52) with
    | .ok p => (reachLat x.s x.g x.core.num 6 p.slot).isSome && (x.slack || ownBerth x.core.num p.slot) && (!rd || p.read)
        && (!wr || p.write && !p.cow && !p.window) && ((fmtOfByte p.code).any fun f => !f.isSq)
    | .error _ => false
theorem reached_of {x : Ctx} {ea : Dword} {n : Nat} {rd wr : Bool} (h : aimed x ea n rd wr = true) : ∃ p lat, Reached x ea n rd wr p lat := by
  unfold aimed at h
  unfold Reached
  simp only [Bool.and_eq_true, beq_iff_eq] at h
  obtain ⟨h0, h⟩ := h
  by_cases hb : x.hb = true
  · exact ⟨_, _, h0, by rw [if_pos hb]; exact ⟨rfl, rfl⟩⟩
  rw [if_neg hb] at h
  split at h
  · rename_i p hp
    simp only [Bool.and_eq_true, Bool.or_eq_true, Bool.not_eq_true', Option.any_eq_true, Option.isSome_iff_exists] at h
    obtain ⟨⟨⟨⟨⟨lat, hl⟩, hs⟩, hr⟩, hw⟩, f, hf, hq⟩ := h
    refine ⟨p, lat, h0, ?_⟩
    rw [if_neg hb]
    exact ⟨hp, hl, hs, fun t => hr.resolve_left (by simp [t]), fun t => by simpa [and_assoc] using hw.resolve_left (by simp [t]), f, hf, hq⟩
  · cases h
/-- The context of `s` in which an access to `ea` meets no cause. -/
def Aims (s : State) (ea : Dword) (n : Nat) (rd wr : Bool) : Prop := ∃ x, ctxOf s .s = some x ∧ Clear x {} ∧ ∃ p lat, Reached x ea n rd wr p lat
theorem aims {s : State} {ea : Dword} {n : Nat} {rd wr : Bool} (h : seen s .s {} (fun x => aimed x ea n rd wr) = true) : Aims s ea n rd wr :=
  (meets h).imp fun _ h => ⟨h.1, h.2.1, reached_of h.2.2⟩
/-- How an access of the instruction at hand is translated. -/
def found (x : Ctx) (ea : Dword) (p : Page → Bool) : Bool :=
  match translate x.s x.g x.k.idx (ea.extractLsb' 12 52) with | .ok q => p q | .error _ => false
def ticket (n : Nat) (ack : Option Dword) : Ticket := { num := n, cmd := ⟨0, 0, 0, 0, 0, 0, 0, 0⟩, host := false, acked := ack }

theorem witness_PrivilegedFormsOnTheHarbourmaster :
    Meets (hOf (fun h => { h with core := reg 2 0x20 (reg 1 64 h.core) })) .s {} (fun x =>
      guardOn x {} && x.hb && (readCtl x.core x.tide ((x.rg 2).extractLsb' 0 12).toNat).isSome && 5 ≤ ((x.rg 2).extractLsb' 0 12).toNat
        && (x.rg 1).toNat % 64 == 0 && x.core.pending == 0)
    ∧ Meets (hOf (fun h => { h with core := reg 2 4 (reg 1 65 h.core) })) .s {} (fun x =>
      ((x.rg 2).extractLsb' 0 12).toNat == 4 && (x.rg 1).toNat % 64 != 0)
    ∧ Meets (hOf (fun h => { h with core := reg 2 0x17 (reg 1 0x800000 h.core) })) .s {} (fun x =>
      ((x.rg 2).extractLsb' 0 12).toNat == 0x17 && !tshpOk (x.rg 1))
    ∧ Meets (hOf (fun h => { h with core := reg 2 0xFFF h.core })) .s {} (fun x =>
      (readCtl x.core x.tide ((x.rg 2).extractLsb' 0 12).toNat).isNone)
    ∧ Meets (hOf id { sOf id with tickets := List.replicate 64 (ticket 0 none) }) .s {} (fun x =>
      (x.rg 1).toNat % 64 == 0 && (x.s.tickets.filter fun t => t.acked.isNone).length == 64)
    ∧ Meets (hOf id { sOf id with tickets := [ticket 0 (some 7)] }) .s {} (fun x =>
      (x.s.tickets.find? fun t => t.num == (x.rg 1).toNat) == some (ticket 0 (some 7)))
    ∧ Meets (hOf id { sOf id with tickets := [ticket 0 none] }) .s {} (fun x =>
      (x.s.tickets.find? fun t => t.num == (x.rg 1).toNat) == some (ticket 0 none))
    ∧ Meets (hOf (fun h => { h with handler := true })) .s {} (fun x => x.s.harbour.handler)
    ∧ Meets (hOf id) .s {} (fun x => !x.s.harbour.handler && (x.s.tickets.find? fun t => t.num == (x.rg 1).toNat).isNone) := by
  and_intros <;> exact meets (by decide +kernel)
theorem witness_PrivilegedFormsOnACore : Meets (sOf id) .s {} (fun x => guardOn x {} && !x.hb)
    ∧ (0xF80000000000000 : Syl).op.toNat = 0x1F0 ∧ (0xFFFFFFFFFFFFFFF : Syl).op.toNat = 0x1FF :=
  ⟨meets (by decide +kernel), by decide +kernel⟩
theorem witness_ScalarAccessesJoinTheQueues :
    Aims (sOf id) 0x100000 8 true true ∧ Aims (sOf inSlack) 0x200FF8 8 true true ∧ Aims (sOf inSlack) 0x300004 4 true true
    ∧ Aims (sOf id) 0x400000 4 true false ∧ Aims (hOf id) 0x7FF8 8 true true
    ∧ Meets (sOf sixteenth) .s {} (fun x => guardOn x {} && x.core.pending == 15 && x.core.log.length + x.core.reserved == 0) := by
  and_intros <;> first | exact meets (by decide +kernel) | exact aims (by decide +kernel)
def crowded (c : Core) : Core := { c with reserved := 1024 }
theorem witness_ScalarTargets :
    Meets (sOf id) .s {} (fun x => guardOn x {} && !x.hb && (match translate x.s x.g x.k.idx 0x500 with | .ok _ => false | .error _ => true)
      && found x 0x200000 (fun p => !x.slack && !ownBerth x.core.num p.slot))
    ∧ Meets (sOf inSlack) .s {} (fun x => x.slack && found x 0x700000 (fun p => (reachLat x.s x.g x.core.num 6 p.slot).isNone)
      && found x 0x400000 (fun p => ownBerth x.core.num p.slot && p.read && !p.write && !p.window)
      && found x 0x600000 (fun p => ownBerth x.core.num p.slot && p.window))
    ∧ Meets (sOf (full ∘ crowded)) .s {} (fun x => x.core.pending == 16 && x.core.log.length + x.core.reserved == 1024
      && found x 0x100000 (fun p => ownBerth x.core.num p.slot && p.read && p.write && !p.cow && !p.window && !((fmtOfByte p.code).any Fmt.isSq))
      && found x 0x800000 (fun p => ownBerth x.core.num p.slot && p.read && p.write && !p.cow && !p.window && ((fmtOfByte p.code).any Fmt.isSq))) := by
  and_intros <;> exact meets (by decide +kernel)

/-- A valid raw block of 32-bit words whose word 1 holds `v`. -/
def block (v : Nat) : Cells := writeElem [] (fmtByte .n32) 4 4 v
def spot (sl : Slot) : Spot := { slot := sl, bit := 32, code := fmtByte .n32, vba := 0x100 }
/-- An access that has been served and stands in the load queue. -/
def entryOf (op : AccOp) (sl : Slot) : Access :=
  { serial := 0, op := op, cl := .s, spots := [spot sl], pc := 0, issued := 0, due := 0, inLoad := true, served := true }
/-- The gang at its ports, with one access queued and one block of storage. -/
def queued (a : Access) (b : Cells) (f : Gang → Gang := id) : State :=
  let g := modCore { gangOf .s 5 with stage := .port } 0 fun c => { c with accesses := [a] }
  { one (f g) .s id with mem := setRawBlock [] (.berth 0 0) b }
def own0 : Slot := .berth 0 0
def near0 : Slot := .berth 0 0
theorem witness_ScalarReadsArePerformed :
    (∀ ty ∈ [Fmt.n8, .i8, .i32, .n64], Has (queued (entryOf (.load 1 ty) own0) (block 7)) ⟨0, 0⟩ fun g c =>
      let b := getBlock (queued (entryOf (.load 1 ty) own0) (block 7)) g.desc.owner own0
      c.faults.isEmpty && !hasLatent (rawBlock (queued (entryOf (.load 1 ty) own0) (block 7)).mem own0)
        && blkValid b && !blockDisagrees (fmtByte .n32) b && !markedIn b 4 4)
    ∧ (blkValid (block 7) && blockDisagrees (fmtByte .f16) (block 7)) = true
    ∧ (let b := cputBit (block 7) (8 * markAt + 1) true
       blkValid b && !blockDisagrees (fmtByte .n32) b && markedIn b 4 4 && !hasLatent b) = true
    ∧ (blkValid [] || hasLatent []) = false
    ∧ Has (queued { entryOf (.load 1 .n32) own0 with due := 9 } (block 7)) ⟨0, 0⟩
      (fun g c => c.faults.isEmpty && c.accesses.all fun a => decide (g.tide < a.due)) := by
  and_intros
  all_goals try first | exact has_of (by decide +kernel) | decide +kernel
  intro ty h
  have h : ty = .n8 ∨ ty = .i8 ∨ ty = .i32 ∨ ty = .n64 := by simpa using h
  rcases h with rfl | rfl | rfl | rfl <;> exact has_of (by decide +kernel)
theorem witness_ScalarWritesArePerformed :
    Has (queued (entryOf (.cas 1 .n32 7 9) own0) (block 7)) ⟨0, 0⟩ (fun g c => c.faults.isEmpty && c.accesses.all fun a => !a.committed && decide (a.due ≤ g.tide))
    ∧ slotPorted own0 = false
    ∧ (let b := block 7
       !hasLatent b && blkValid b && !blockDisagrees (fmtByte .n32) b && !markedIn b 4 4 && cle b 4 4 == 7) = true
    ∧ cle (block 8) 4 4 ≠ 7
    ∧ (∀ n ∈ [1023, 1024], Has (queued (entryOf (.cas 1 .n32 7 9) own0) (block 7) fun g => modCore g 0 fun c => { c with reserved := n }) ⟨0, 0⟩
      (fun _ c => c.accesses.all (·.inLoad) && decide (c.log.length + c.reserved + (pendingSlots c).eraseDups.length + 1 ≤ 1024) == (n == 1023))) := by
  and_intros
  all_goals try first | exact has_of (by decide +kernel) | decide +kernel
  intro n h
  have h : n = 1023 ∨ n = 1024 := by simpa using h
  rcases h with rfl | rfl <;> exact has_of (by decide +kernel)
theorem witness_WordsChangeInStorage :
    (let m := setRawBlock [] own0 (block 7)
     Memory.wf m && !hasLatent (rawBlock m own0) && blkValid (rawBlock m own0) && !blkValid (rawBlock m (.berth 0 1))) = true
    ∧ slotNumber own0 ≠ slotNumber (.berth 0 1) ∧ 4092 + 4 ≤ 4096 := by
  and_intros <;> decide +kernel
def queuedAt (op : AccOp) (sl : Slot) (f : Access → Access) (g : Gang → Gang := id) : State := queued (f (entryOf op sl)) (block 7) g
def left (sc : Scope) (served : Bool) (a : Access) : Access := { a with left := some sc, served := served }
def holding (cause id : Nat) (g : Gang) : Gang := { g with hold := { g.hold with active := [{ cause := cause, id := id, start := 0, began := 0, member := 0 }] } }
def asleep0 (g : Gang) : Gang := { g with drowsy := [(0, 0)] }
def atFinish (g : Gang) : Gang := { g with stage := .finish }
theorem witness_EntriesAndHolds :
    Has (queuedAt (.waitp 7) own0 id) ⟨0, 0⟩ (fun g c => c.faults.isEmpty && g.id == 0
      && (bufferReady g 0 c .core).isSome && !(g.hold.active.any fun c => c.cause == 4 && c.id == 0))
    ∧ Has (queuedAt (.waitp 8) own0 id (holding 4 0)) ⟨0, 0⟩ (fun g c => c.faults.isEmpty
      && (g.hold.active.any fun c => c.cause == 4 && c.id == 0) && (waitingRead g c).isSome)
    ∧ (let b := block 7; !hasLatent b && !markedIn b 4 4 && (blkValid b && cle b 4 4 == 7) && !(blkValid b && cle b 4 4 == 8)) = true
    ∧ Has (queuedAt .marker own0 (fun a => { a with spots := [] }) atFinish) ⟨0, 0⟩ (fun g c => (leaveReady g c false).any fun a => decide (a.op = .marker))
    ∧ Has (queuedAt (.load 1 .n32) (.hbm 0 0) id atFinish) ⟨0, 0⟩ (fun g c => (leaveReady g c false).any fun a => decide (a.op ≠ .marker))
    ∧ Has (queuedAt (.load 1 .n32) (.hbm 0 0) (left .pkg false)) ⟨0, 0⟩ (fun g c => (bufferReady g 0 c .pkg).any fun a => !a.served)
    ∧ Has (queuedAt (.load 1 .n32) (.hbm 0 0) (left .pkg true)) ⟨0, 0⟩ (fun g c => (bufferReady g 0 c .pkg).any fun a => a.served)
    ∧ Has (queuedAt (.load 1 .n32) (.quay 0 0) (left .quad false) asleep0) ⟨0, 0⟩ (fun g c =>
      (bufferReady g 0 c .quad).any (fun a => !a.served) && (match quayBank (.quay 0 0) with
        | some (q, b) => asleep g q b && !waking g q b | none => false)) := by
  and_intros <;> first | exact has_of (by decide +kernel) | decide +kernel
def e2 (p : Nat → Bool) (n : Nat) : Bool := (List.range n).all p
theorem witness_VectorFloatForms : Meets (vOf sixteenth) .v {} (fun x => x.core.pending == 15)
    ∧ Meets (vOf full) .v {} (fun x => x.core.pending == 16) := ⟨meets (by decide +kernel), meets (by decide +kernel)⟩
theorem witness_VectorIntegerForms : Meets (vOf sixteenth) .v {} (fun x => x.core.pending == 15) := meets (by decide +kernel)
theorem witness_PredicateForms : Meets (vOf full) .v {} (fun _ => true) := meets (by decide +kernel)
theorem witness_LaneToScalarForms : Meets (vOf sixteenth) .v {} (fun x => x.core.pending == 15 && (laneMask x {}).getLsbD 0)
    ∧ Meets (vOf sixteenth) .v off_ (fun x => !(laneMask x off_).getLsbD 0) := ⟨meets (by decide +kernel), meets (by decide +kernel)⟩
def target (x : Ctx) (ty : Fmt) (bit count : Nat) (wr : Bool) : Bool := match vTarget x ty bit count wr with | .ok _ => true | .error _ => false
def refusedAt (x : Ctx) (ea : Dword) : Bool := match translate x.s x.g x.k.idx (ea.extractLsb' 12 52) with | .ok _ => false | .error _ => true
/-- No slot of an access lies behind a port or holds an error. -/
def unspoilt (s : State) (a : Access) : Bool := a.spots.all fun p => !slotPorted p.slot && !hasLatent (rawBlock s.mem p.slot)
theorem witness_VectorAccesses :
    Meets (vOf (reg 1 0x100000)) .v {} (fun x =>
      refusedAt x 0x500000 && found x 0x200000 (fun p => !ownBerth x.core.num p.slot)
        && found x 0x400000 (fun p => ownBerth x.core.num p.slot && !p.write && p.read)
        && found x 0x100000 (fun p => ownBerth x.core.num p.slot && p.write && !p.cow && !p.window && p.code == 0))
    ∧ Meets (vOf (reg 1 0x100000)) .v off_ (fun x => laneMask x off_ == 0)
    ∧ Meets (vOf (reg 1 0x100000 ∘ sixteenth)) .v {} (fun x =>
      laneMask x {} != 0 && x.core.pending == 15 && target x .f16 (8 * 0x100000) 128 false && target x .f16 (8 * 0x100000) 128 true
        && target x .f16 (8 * 0x100000) 1 false && target x .f16 (8 * 0x100000) 1 true && !target x .f16 (8 * 0x100FF2) 128 false
        && x.core.log.length + x.core.reserved == 0)
    ∧ Meets (vOf full) .v {} (fun x => laneMask x {} != 0 && x.core.pending == 16)
    ∧ (∀ op ∈ [AccOp.vload 1 .i8 (BitVec.allOnes 128), .vstore .i8 (BitVec.allOnes 128) (Vector.replicate 128 300) 0], ∀ bit ∈ [0, 31744],
        Has (queued { entryOf op own0 with spots := [{ spot own0 with bit := bit }] } (block 7)) ⟨0, 0⟩ (fun g c => c.faults.isEmpty
          && c.accesses.all fun a => a.op == op && decide (a.due ≤ g.tide) && unspoilt (queued a (block 7)) a
            && (List.range 128).all fun k => bit + 8 * k + 8 ≤ 32768 && (bit + 8 * k) % 8 == 0 && !markedIn (block 7) (bit / 8 + k) 1))
    ∧ (∀ op ∈ [AccOp.vload 1 .i8 5, .vstore .i8 5 (Vector.replicate 128 300) 0], Has (queued { entryOf op own0 with
            gather := true, due := 6, spots := [{ spot own0 with bit := 32760 }, { spot (.berth 0 1) with bit := 0 }] } (block 7)) ⟨0, 0⟩ (fun g c => c.faults.isEmpty
          && c.accesses.all fun a => a.gather && decide (g.tide < a.due) && unspoilt (queued a (block 7)) a
            && ((List.finRange 128).filter fun k => (5 : Pred).getLsbD k.val).length == a.spots.length))
    ∧ blkValid (rawBlock (queued (entryOf (.vload 1 .i8 5) own0) (block 7)).mem (.berth 0 1)) = false
    ∧ (let b := cputBit (block 7) (8 * markAt + 1) true
       blkValid b && !blockDisagrees (fmtByte .n32) b && markedIn b 4 1 && blockDisagrees (fmtByte .f16) b) = true := by
  and_intros
  all_goals try first | exact meets (by decide +kernel) | decide +kernel
  · intro op h bit hb
    have h : op = .vload 1 .i8 (BitVec.allOnes 128) ∨ op = .vstore .i8 (BitVec.allOnes 128) (Vector.replicate 128 300) 0 := by simpa using h
    have hb : bit = 0 ∨ bit = 31744 := by simpa using hb
    rcases h with rfl | rfl <;> rcases hb with rfl | rfl <;> exact has_of (by decide +kernel)
  · intro op h
    have h : op = .vload 1 .i8 5 ∨ op = .vstore .i8 5 (Vector.replicate 128 300) 0 := by simpa using h
    rcases h with rfl | rfl <;> exact has_of (by decide +kernel)
theorem witness_RoundingIsExact : (0 : Int) < 3 ∧ (fpDecode .e4m3 0x38).isNan = false ∧ 0x38 < 2 ^ fmtWidth .e4m3 ∧ isInt .i8 = true
    ∧ (let k := (roundAt .rne false 1000 0 false 0).1; (k : Int) > intMax .i8) ∧ (roundAt .rne false 5 0 false 0).1 = 5 := by decide +kernel
/-- TSHP of a whole tile of a format. -/
def whole (f : Fmt) : Dword := f.code.setWidth 64 <<< 24
def shaped (t : Nat) (v : Dword) (c : Core) : Core := { c with regs := { c.regs with ctl := { c.regs.ctl with tshp := vmod c.regs.ctl.tshp t fun _ => v } } }
/-- A valid block of zeros. -/
def zeroBlock (f : Fmt) : Cells := openBlock [] (fmtByte f)
/-- Valid blocks of tiles 0 to n − 1 of core 0. -/
def tiles (n : Nat) (f : Fmt) : Cells := (List.range (8 * n)).foldl (fun m b => setRawBlock m (.tile 0 b) (zeroBlock f)) []
def soundB (f : Fmt) (m : Cells) (t : Nat) : Bool :=
  (List.range 8).all fun b => let c := rawBlock m (.tile 0 (8 * t + b))
    blkValid c && [0, fmtByte f].contains (blkFormat c) && !hasLatent c && !blkPoison c && c.all fun e => e.1 < markAt
/-- No word is marked of a block with nothing above its side record. -/
theorem unmarked {b : Cells} (h : (b.all fun e => e.1 < markAt) = true) (w : Nat) : blkMarked b w = false := by
  have : cget b ((8 * markAt + w) / 8) = 0 := cget_of_absent fun e he hq => by
    have := of_decide_eq_true (List.all_eq_true.1 h e he)
    omega
  simp [blkMarked, cbit, this]
def tiled (s : State) (m : Cells) : State := { s with mem := m }
def rowOf (acc : Bool) : Spec := { acc := acc, num := 0, dir := .row, idx := 0 }
theorem witness_DirectionReads :
    Meets (vOf sixteenth) .v {} (fun x => x.core.pending == 15)
    ∧ (∀ f ∈ [Fmt.f32, .bf16, .i8], Meets (tiled (vOf (shaped 0 (whole f) ∘ sixteenth)) (tiles 1 f)) .v {} (fun x =>
        x.core.pending == 15 && tshpFmt x.ctl.tshp[0] == some f && soundB f x.s.mem 0
          && (dirWords x (rowOf false) (laneMask x {})).all fun e => !hasLatent (rawBlock x.s.mem e.1))) := by
  refine ⟨meets (by decide +kernel), fun f h => ?_⟩
  have h : f = .f32 ∨ f = .bf16 ∨ f = .i8 := by simpa using h
  rcases h with rfl | rfl | rfl <;> exact meets (by decide +kernel)
/-- Bound 1 is [−1, 1] in mode `m`. -/
def bounded (m : Nat) (c : Core) : Core :=
  { c with regs := { c.regs with ctl := { c.regs.ctl with bnd := c.regs.ctl.bnd.set 1 0x3F800000BF800000, bndm := BitVec.ofNat 64 (4 * m) } } }
def lanesBe (r : Nat) (w : Word) (c : Core) : Core := { c with regs := { c.regs with v := vmod c.regs.v r fun _ => Vector.replicate 128 w } }
def writesTile (x : Ctx) (f : Fmt) (bound : BitVec 4) (trap : Bool) : Bool :=
  let q := boundOf x.ctl bound.toNat
  let on := (List.finRange 128).filter fun k => (writtenMask (specShape x (rowOf false)) f .row 0 (laneMask x {})).getLsbD k.val
  !on.isEmpty && (dirWriteFormat x (rowOf false) .rne false f bound 1 (laneMask x {})).isNone
    && (on.any fun k => (checkedLane q f .rne false ((x.rv 1)[k])).2.2.2) == trap
    && (imageRoom x.core ((blocksIn (specShape x (rowOf false)) f .row 0 (laneMask x {})).map fun b => .tile x.core.num b)).isNone
/-- A block of row 0 of tile 0 whose own format is not the tile's. -/
def oddBlock (x : Ctx) (f : Fmt) : Option Nat :=
  (blocksIn (specShape x (rowOf false)) f .row 0 (BitVec.allOnes 128)).find? fun b =>
    blockDisagrees (fmtByte f) (rawBlock x.s.mem (.tile x.core.num b))
theorem witness_DirectionWrites :
    Meets (vOf (lanesBe 1 0x3F800000 ∘ bounded 3 ∘ shaped 0 (whole .bf16) ∘ sixteenth)) .v {} (fun x =>
      x.core.pending == 15 && laneMask x {} != 0 && writesTile x .bf16 1 false)
    ∧ Meets (vOf (lanesBe 1 0x40000000 ∘ bounded 3 ∘ shaped 0 (whole .bf16))) .v {} (fun x => writesTile x .bf16 1 true)
    ∧ Meets (vOf id) .v off_ (fun x => laneMask x off_ == 0)
    ∧ Meets (vOf full) .v {} (fun x => laneMask x {} != 0 && x.core.pending == 16)
    ∧ Meets (tiled (vOf (shaped 0 (whole .bf16) ∘ sixteenth)) (tiles 1 .f16)) .v {} (fun x =>
      laneMask x {} != 0 && x.core.pending == 15 && (oddBlock x .bf16).isSome) := by
  and_intros <;> exact meets (by decide +kernel)
/-- Tile 0 of 126 rows leaves pair 63 alone for parking. -/
def parkable (v : BitVec 64) (c : Core) : Core :=
  let c := (List.range 7).foldl (fun c t => shaped (t + 1) (whole .bf16) c) (shaped 0 v c)
  { c with regs := { c.regs with park := 0 } }
def narrowed : Dword := whole .bf16 + (126 : Dword) <<< 16
def parkPairs (x : Ctx) : List (Nat × Nat) :=
  (List.range 8).flatMap fun t => ((List.range 64).filter fun m =>
    decide (tshpRows ((x.ctl.tshp[t]?).getD 0) ≤ 2 * m) && !x.core.regs.park.getLsbD (64 * t + m)).map fun m => (t, m)
def vpair : Spec := { acc := false, num := 0, dir := .row, idx := 1 }
def occupied (c : Core) : Core := { c with regs := { c.regs with park := (1 : BitVec 512) <<< 63 } }
theorem witness_BoundsAndParking :
    (let q : Bound := { b := 1, low := 0xBF800000, high := 0x3F800000, mode := 2 }
     let within (w : Word) : Bool := !(num32 w).isNan && !numLt (num32 w) (num32 q.low) && !numLt (num32 q.high) (num32 w)
     within 0x3F800000 && !within 0x3F800001 && !within 0x7FC00000) = true
    ∧ Meets (vOf (lanesBe 1 0x40000000 ∘ bounded 3)) .v {} (fun x =>
      (List.finRange 128).any fun k => (checkBound (boundOf x.ctl 1) ((x.rv 1)[k])).2.2)
    ∧ Meets (vOf (lanesBe 1 0x40000000 ∘ bounded 2)) .v {} (fun x =>
      (List.finRange 128).all fun k => !(checkBound (boundOf x.ctl 1) ((x.rv 1)[k])).2.2)
    ∧ Meets (vOf (parkable (whole .bf16))) .v {} (fun x => parkPairs x == [])
    ∧ Meets (vOf (parkable narrowed)) .v {} (fun x => parkPairs x == [(0, 63)] && (imageRoom x.core (pairSlots x 0 126 (laneMask x {}))).isNone)
    ∧ Meets (vOf (reg 1 125)) .v {} (fun x => (specIdx x vpair).toNat % 128 % 2 == 1)
    ∧ Meets (tiled (vOf (occupied ∘ reg 1 126 ∘ parkable narrowed ∘ sixteenth)) (tiles 1 .bf16)) .v {} (fun x =>
      (specIdx x vpair).toNat % 128 == 126 && x.core.regs.park.getLsbD 63 && x.core.pending == 15 && soundB .bf16 x.s.mem 0) := by
  and_intros <;> first | exact meets (by decide +kernel) | decide +kernel
def fifteenth (c : Core) : Core :=
  { c with regs := { c.regs with landings := List.replicate 14 { dest := .g 1, due := 900, issued := 0, cl := .s } } }
theorem witness_TripleAndImportForms : Meets (vOf fifteenth) .v {} (fun x => x.core.pending == 14) := meets (by decide +kernel)
/-- A busy command in each M unit. -/
def commanded (i : Instr) (on : Bool) (n : Nat) (f : MCmd → MCmd) (u : Fin 3) (c : Core) : Core :=
  { c with cmds := c.cmds.set u (some (f { instr := i, pc := 0, issued := 0, step := n, active := on })) }
def mz : Instr := .mzero {} 5 ⟨true, 0, .whole, 0⟩
theorem witness_MatrixCommandsIssue :
    Meets (mOf sixteenth) .m {} (fun x => x.g.phaseStart == 0 && x.tide == 5 && x.core.pending == 15 && guardOn x {}
      && (List.finRange 3).all fun u => (x.core.cmds[u]).isNone && cardsMeet x.core [.acc 0, .slot (.tile 0 0), .v 1, .g 1] [.acc 1] x.tide)
    ∧ Meets (mOf (commanded mz true 0 id 1)) .m {} (fun x => (x.core.cmds[1]).isSome)
    ∧ Meets (mOf fun c => { c with cards := [{ reads := [], writes := [.acc 1], first := 0, readEnd := 0, last := 900 }] }) .m {}
      (fun x => !cardsMeet x.core [] [.acc 1] x.tide)
    ∧ Meets (mOf id) .m off_ (fun x => !guardOn x off_) := by
  and_intros <;> exact meets (by decide +kernel)
def tspec (t : BitVec 3) : Spec := { acc := false, num := t, dir := .whole, idx := 0 }
def aspec (t : BitVec 3) : Spec := { acc := true, num := t, dir := .whole, idx := 0 }
def dr0 (f : Fmt) (bound : BitVec 4) (res : Option Spec) : Drain :=
  { d := tspec 2, a := aspec 0, res := res, vc := 0, scl := none, drop := false, bound := bound, rnd := .rne, sat := false, ty := f }
def two (f : Fmt) (c : Core) : Core := shaped 2 (whole f) (shaped 1 (whole f) (shaped 0 (whole f) c))
/-- The lowest block that a drain of all rows writes into tile 2 and whose own format is not `f`. -/
def oddDrain (x : Ctx) (f : Fmt) : Option Nat :=
  (List.range 8).find? fun b =>
    let sl : Slot := .tile x.core.num (16 + b)
    (drainBlocks x.core.num 2 (specShape x (tspec 2)) f 128).contains sl && blockDisagrees (fmtByte f) (rawBlock x.s.mem sl)
theorem witness_MatrixOperandsAreKept :
    (∀ f ∈ [Fmt.bf16, .e4m3, .i8], Meets (tiled (mOf (two f)) (tiles 2 f)) .m {} (fun x =>
      guardOn x {} && x.tide == x.g.phaseStart + 5 && tshpFmt x.ctl.tshp[0] == some f && tshpFmt x.ctl.tshp[1] == some f
        && soundB f x.s.mem 0 && soundB f x.s.mem 1
        && (mmaWords (.mma {} 5 (aspec 0) (tspec 0) (tspec 1) 0) (tspec 0) (tspec 1) 0 false x).all (fun e => !hasLatent (rawBlock x.s.mem e.1))
        && (let p := mmaPlan (aspec 0) (tspec 0) (tspec 1) x; (x.core.cmds[p.unit]).isNone && cardsMeet x.core p.reads p.writes x.tide)))
    ∧ Meets (mOf (two .f32)) .m {} (fun x => tshpFmt x.ctl.tshp[0] == some .f32)
    ∧ Meets (tiled (mOf (two .bf16)) (tiles 2 .bf16)) .m {} (fun x =>
      guardOn x {} && x.tide == x.g.phaseStart + 5 && tshpFmt (specShape x (tspec 2)) == some .bf16
        && (let q := drainPlan (dr0 .bf16 0 (some (tspec 1))) x; (x.core.cmds[q.unit]).isNone && cardsMeet x.core q.reads q.writes x.tide)
        && tshpFmt (specShape x (tspec 1)) == some .bf16 && soundB .bf16 x.s.mem 1 && (boundOf x.ctl 0).mode == 0
        && (oddDrain x .bf16).isNone && (drainWords (dr0 .bf16 0 (some (tspec 1))) x).all (fun e => !hasLatent (rawBlock x.s.mem e.1))
        && (imageRoom x.core (drainBlocks x.core.num 2 (specShape x (tspec 2)) .bf16 128)).isNone)
    ∧ Meets (tiled (mOf (two .bf16)) (tiles 3 .f16)) .m {} (fun x =>
      tshpFmt (specShape x (tspec 2)) == some .bf16 && (oddDrain x .bf16) == some 0) := by
  refine ⟨fun f h => ?_, meets (by decide +kernel), meets (by decide +kernel), meets (by decide +kernel)⟩
  have h : f = .bf16 ∨ f = .e4m3 ∨ f = .i8 := by simpa using h
  rcases h with rfl | rfl | rfl <;> exact meets (by decide +kernel)
/-- Core 0 of the gang with a command in progress in unit `u`. -/
def stepping (i : Instr) (on : Bool) (n : Nat) (u : Fin 3) (f : MCmd → MCmd) (m : Cells := []) : State :=
  tiled (mOf (commanded i on n f u)) m
/-- `n` before-images of other blocks stand in the log, and what a drain opens has room beside them. -/
def crammed (n : Nat) (c : Core) : Core := { c with log := List.replicate n { order := 0, entry := .image (.tile 9 0) [] false } }
def drainFits (c : Core) (m : MCmd) : Bool :=
  (stepSlots c m).all fun sl => imagedIn c.log sl || decide (images c < 64) && decide (c.log.length + c.reserved < 1024)
def isCmd (u : Fin 3) (p : MCmd → Bool) (_ : Gang) (c : Core) : Bool := c.faults.isEmpty && (c.cmds[u]).any p
theorem witness_MatrixCommandsStep :
    Has (stepping mz false 0 1 id) ⟨0, 0⟩ (isCmd 1 fun m => !m.active)
    ∧ (∀ i ∈ [mz, .macc {} 5 (aspec 0) (aspec 1), .mscl {} 5 (aspec 0) 1 true, .mmsk {} 5 (aspec 0) 1, .mtrn {} 5 (aspec 0) (aspec 1),
        .mred {} 5 1 (aspec 0) true, .mdrnq {} 5 (dr0 .sqe4m3 0 none)], Has (stepping i true 15 1 id) ⟨0, 0⟩ (isCmd 1 fun m => m.active && m.step == 15))
    ∧ (∀ f ∈ [Fmt.i8, .bf16], ∀ i ∈ [Instr.mma {} 5 (aspec 0) (tspec 0) (tspec 1) 0, .mmat {} 5 (aspec 0) (tspec 0) (tspec 1) 0],
        Has (stepping i true 127 0 fun m => { m with shapeA := whole f, shapeB := whole f, valid := 128 }) ⟨0, 0⟩
          (isCmd 0 fun m => m.active && tshpFmt m.shapeA == some f && tshpFmt m.shapeB == some f))
    ∧ Has (stepping (.mdrn {} 5 (dr0 .bf16 0 none)) true 9 2 (fun m => { m with shapeA := whole .bf16, valid := 128 }) (tiles 3 .bf16)) ⟨0, 0⟩
        (isCmd 2 fun m => m.active && tshpFmt m.shapeA == some .bf16 && tshpOk m.shapeA && 18 < drainRows m.shapeA m.valid
          && 127 < drainCols m.shapeA .bf16 && blkValid (rawBlock (tiles 3 .bf16) (.tile 0 17)))
    ∧ Memory.wf (tiles 3 .bf16) = true
    ∧ (∀ n ∈ [0, 63, 64], Has (stepping (.mdrn {} 5 (dr0 .bf16 0 none)) true 8 2 fun m => { m with shapeA := whole .bf16, valid := 128 }) ⟨0, 0⟩
        fun _ c => (c.cmds[2]).any fun m => drainFits (crammed n c) m == decide (n < 64))
    ∧ Has (stepping (.mdrn {} 5 (dr0 .bf16 0 none)) true 9 2 fun m => { m with shapeA := whole .bf16, valid := 18 }) ⟨0, 0⟩
        (isCmd 2 fun m => drainRows m.shapeA m.valid == 2 * m.step)
    ∧ (∀ n ∈ [32, 33], Has (stepping (.mdrnq {} 5 (dr0 .sqe4m3 0 none)) true 31 2 fun m => { m with shapeA := whole .sqe4m3, valid := n }) ⟨0, 0⟩
        (fun g c => isCmd 2 (fun m => m.step % 16 == 15 && decide (32 * (m.step / 16) < drainRows m.shapeA m.valid) == (n == 33)
          && tshpFmt m.shapeA == some .sqe4m3 && tshpOk m.shapeA && drainFits c m) g c)) := by
  refine ⟨has_of (by decide +kernel), fun i h => ?_, fun f hf i h => ?_, has_of (by decide +kernel), by decide +kernel, fun n h => ?_,
    has_of (by decide +kernel), fun n h => ?_⟩
  · simp only [List.mem_cons, List.not_mem_nil, or_false] at h
    rcases h with rfl | rfl | rfl | rfl | rfl | rfl | rfl <;> exact has_of (by decide +kernel)
  · simp only [List.mem_cons, List.not_mem_nil, or_false] at h hf
    rcases hf with rfl | rfl <;> rcases h with rfl | rfl <;> exact has_of (by decide +kernel)
  · have h : n = 0 ∨ n = 63 ∨ n = 64 := by simpa using h
    rcases h with rfl | rfl | rfl <;> exact has_of (by decide +kernel)
  · have h : n = 32 ∨ n = 33 := by simpa using h
    rcases h with rfl | rfl <;> exact has_of (by decide +kernel)
/-- What an exchange finds as it issues. -/
def pairsOf (x : Ctx) (i : Instr) (near : Near) : List PairInfo :=
  let e := exchangeRecord x i near 2 3 (guardOn x {})
  (List.range e.n).map fun k => pairInfo x (pairVbas e k (entriesAt x.s e k)).1 (pairVbas e k (entriesAt x.s e k)).2 (isUnit i)
/-- One pair of its own berth pages, near in g1 and far in g2, g3 pairs. -/
def pairing (near far n : Dword) (c : Core) : Core := reg 1 near (reg 2 far (reg 3 n c))
def exchangeOk (i : Instr) (near : Near) (x : Ctx) : Bool :=
  let e := exchangeRecord x i near 2 3 (guardOn x {})
  (exchangeForm x i x.core.regs.latch (genOf i)).isEmpty && decide (0 < e.n) && decide (x.core.channelFree ≤ x.tide + e.delay)
    && (x.slack || (pairsOf x i near).all fun q => !q.slack)
    && (let l : List Region := (pairsOf x i near).flatMap fun q => match q.slots with | some (u, v) => [.slot u, .slot v] | none => []
        cardsMeet x.core l l x.tide)
    && (!isUnit i || (pairsOf x i near).all fun q => some q.code == ((pairsOf x i near)[0]?).map (·.code) && unitSize q.code == some e.size)
    && guardOn x {} && (e.indirect || (pairsOf x i near).all fun q => q.causes.isEmpty) && decide (x.core.log.length + x.core.reserved + e.n ≤ 1024)
    && e.tables.all (fun t => !inLog x.core.log t.2.1) && (findTables x x.core.regs.latch (genOf i)).2.isEmpty
    && e.n % e.size == 0
/-- Generator 0 names a table of four entries at VBA 0x104. -/
def indirect (c : Core) : Core := { c with regs := { c.regs with latch := c.regs.latch.set 0 0x0000010480000004 } }
/-- A slot of a card that stands, and one that the swap log holds. -/
def busy (sl : Slot) (c : Core) : Core :=
  { c with cards := [{ reads := [], writes := [.slot sl], first := 0, readEnd := 900, last := 900 }] }
def logged (c : Core) : Core := { c with log := [{ order := 0, entry := .swap (.berth 0 4) (.berth 0 5) }] }
theorem witness_ExchangesIssue :
    (∀ i ∈ [Instr.xch {} (.reg 1) 2 3 0, .xchp {} 1 2 3 1, .xch {} (.reg 1) 2 3 1], Meets (xOf (pairing 0x100 0x108 2)) .x {} (exchangeOk i (.reg 1)))
    ∧ Meets (xOf (pairing 0x100 0x108 2)) .x {} (exchangeOk (.xchs {} (.reg 1) 2 3 1) (.reg 1))
    ∧ Meets (xOf (indirect ∘ pairing 0x100 0x108 2)) .x {} (exchangeOk (.xchg {} 1 2 3 1) (.reg 1))
    ∧ Meets (xOf (pairing 0x800 0x808 8)) .x {} (exchangeOk (.xcht {} 1 2 3 0) (.reg 1))
    ∧ (∀ i ∈ [Instr.xtil {} 1 2 3 0, .xtilt {} 1 2 3 0], Meets (xOf (pairing 0x800 0x808 1)) .x {} (exchangeOk i (.reg 1)))
    ∧ Meets (xOf (pairing 0x100 0x108 0)) .x {} (fun x => (exchangeRecord x (.xch {} (.reg 1) 2 3 0) (.reg 1) 2 3 true).n == 0)
    ∧ Meets (xOf fun c => { pairing 0x100 0x108 2 c with channelFree := 900 }) .x {} (fun x => decide (x.tide + 1 < x.core.channelFree))
    ∧ Meets (xOf (busy near0 ∘ pairing 0x100 0x108 2)) .x {} (fun x => !cardsMeet x.core [.slot near0] [.slot near0] x.tide)
    ∧ Meets (xOf (logged ∘ indirect ∘ pairing 0x100 0x108 2)) .x {} (fun x =>
      guardOn x {} && (exchangeRecord x (.xchg {} 1 2 3 1) (.reg 1) 2 3 true).tables.any fun t => inLog x.core.log t.2.1)
    ∧ Meets (xOf (pairing 0x100 0x200 2)) .x {} (fun x => !x.slack && (pairsOf x (.xch {} (.reg 1) 2 3 0) (.reg 1)).any (·.slack)) := by
  and_intros
  all_goals try exact meets (by decide +kernel)
  · intro i h
    have h : i = .xch {} (.reg 1) 2 3 0 ∨ i = .xchp {} 1 2 3 1 ∨ i = .xch {} (.reg 1) 2 3 1 := by simpa using h
    rcases h with rfl | rfl | rfl <;> exact meets (by decide +kernel)
  · intro i h
    have h : i = .xtil {} 1 2 3 0 ∨ i = .xtilt {} 1 2 3 0 := by simpa using h
    rcases h with rfl | rfl <;> exact meets (by decide +kernel)
/-- An exchange of one pair, active, of own-berth blocks, and the core and the machine that hold it. -/
def exch (i : Instr) (on ind : Bool) (pairs : List Pair) (judged : Nat) : Exch :=
  { serial := 0, instr := i, pc := 0, issued := 5, near := 0x100, far := 0x108, n := 1, pos0 := 0, pos1 := 0, latch := Vector.replicate 8 0,
    base := 16, delay := 0, indirect := ind, active := on, pruneref := 0, pmargin := 0, pairs := pairs, judged := judged }
def exchanging (e : Exch) (m : Cells := []) : State := tiled (xOf fun c => { c with exchs := [e] }) m
def far0 : Slot := .berth 0 8
def pair0 (skip : Bool) : Pair := { near := near0, far := far0, skip := skip }
def xch1 : Instr := .xch {} (.reg 1) 2 3 0
def holds (p : Exch → Bool) (_ : Gang) (c : Core) : Bool := (c.exchs.find? fun q => q.serial == 0).any p
/-- What pair 0 of the core's exchange finds. -/
def info0 (p : PairInfo → Bool) (s : State) (g : Gang) (c : Core) : Bool :=
  match c.exchs with
  | e :: _ => p (pairInfo ⟨⟨0, 0⟩, false, .x, g, c, s⟩ (pairVbas e e.judged e.entry).1 (pairVbas e e.judged e.entry).2 (isUnit e.instr))
  | [] => false
def xchg1 (far : Dword) : State := exchanging { exch (.xchg {} 1 2 3 1) true true [] 0 with far := far }
theorem witness_ExchangePairs :
    (genIndirect (Vector.replicate 8 0) 0 = false ∧ 0 < genLength (Vector.replicate 8 0) 0
      ∧ ownTile 0 (.tile 0 8) = true ∧ ownBerth 0 near0 = true ∧ ownBerth 0 (.berth 1 0) = false ∧ ownTile 0 (.berth 1 0) = false)
    ∧ Has (exchanging (exch xch1 false false [] 0)) ⟨0, 0⟩ (holds fun e => decide (e.judged < e.n) && !e.active)
    ∧ Has (exchanging (exch xch1 true false [pair0 false] 0)) ⟨0, 0⟩ (holds fun e => e.active && !e.indirect && (e.pairs[e.judged]?).isSome)
    ∧ Has (xchg1 0x108) ⟨0, 0⟩ (fun g c => holds (fun e => e.active && e.indirect && e.entryBad.isNone) g c
        && info0 (fun q => !q.slack && q.causes.isEmpty && q.slots.isSome) (xchg1 0x108) g c)
    ∧ Has (xchg1 0x200) ⟨0, 0⟩ (info0 (fun q => q.slack) (xchg1 0x200))
    ∧ Has (xchg1 0x400) ⟨0, 0⟩ (info0 (fun q => !q.slack && (firstCause q.causes).isSome) (xchg1 0x400)) := by
  and_intros <;> first | exact has_of (by decide +kernel) | decide +kernel
def unit4 (on : Bool) (n : Nat) : Exch :=
  { exch (.xcht {} 1 2 3 0) on false ((List.range n).map fun k => { near := .berth 0 k, far := .berth 0 (8 + k) }) n with n := 4, size := 4, format := fmtByte .sqe4m3 }
theorem witness_SlotsSwap :
    (∀ on ∈ [true, false], Has (exchanging (exch xch1 on false [pair0 (!on)] 1) (setRawBlock [] near0 (block 7))) ⟨0, 0⟩ (fun g c =>
      holds (fun e => e.active == on && e.pairs[e.swapped]? == some (pair0 (!on))) g c && !isSecondary g 0))
    ∧ (let m := setRawBlock [] near0 (block 7)
       Memory.wf m && !hasLatent (rawBlock m near0) && !hasLatent (rawBlock m far0)) = true
    ∧ slotNumber near0 ≠ slotNumber far0 ∧ slotPorted near0 = false ∧ slotPorted far0 = false ∧ slotPorted (.hbm 0 0) = true
    ∧ storedTag (rawBlock (setRawBlock [] (.hbm 0 0) [(tagAt, 1), (tagAt + 66, 1)]) (.hbm 0 0)) = some (tagOf (sOf id) 1)
    ∧ Has (exchanging (unit4 true 4)) ⟨0, 0⟩ (holds fun e => e.active && ((e.pairs.drop e.swapped).take e.size).length == e.size)
    ∧ Has (exchanging (unit4 true 3)) ⟨0, 0⟩ (holds fun e => decide (((e.pairs.drop e.swapped).take e.size).length < e.size))
    ∧ unitSize (fmtByte .sqe4m3) = some (List.replicate 4 (zeroBlock .sqe4m3)).length ∧ blkValid (zeroBlock .sqe4m3) = true := by
  and_intros
  all_goals try first | exact has_of (by decide +kernel) | decide +kernel
  intro on h
  rcases on with _ | _ <;> exact has_of (by decide +kernel)
def nearOk (near : Near) (tile : Bool) (x : Ctx) : Bool :=
  let l := nearSlots x near true
  nearTile near == tile && guardOn x {} && l.2.isEmpty && (nearSlots x near false).2.isEmpty && !l.1.isEmpty
    && cardsMeet x.core [] (l.1.map .slot) x.tide && cardsMeet x.core (l.1.map .slot) [.g 2] x.tide
    && decide (x.core.log.length + x.core.reserved + l.1.length ≤ 1024) && decide (images x.core + (pendingSlots x.core).eraseDups.length + l.1.length ≤ 64) && x.core.pending == 15
theorem witness_LocalFormsIssue :
    Meets (xOf (reg 1 0x100 ∘ sixteenth)) .x {} (nearOk (.reg 1) false)
    ∧ Meets (xOf sixteenth) .x {} (nearOk (.tile (tspec 0)) true)
    ∧ Meets (xOf id) .x off_ (fun x => !guardOn x off_)
    ∧ Meets (xOf (reg 1 0x100000)) .x {} (fun x => !x.hb && aimed x (x.rg 1) 4 false true && cardsMeet x.core [] [.slot near0] x.tide
        && decide (x.core.log.length + x.core.reserved < 1024))
    ∧ Meets (xOf (reg 2 63)) .x {} (fun x => gangBank x.g 0 x.core.quad ((x.rg 2).toNat % 64) == none)
    ∧ Meets (xOf (reg 2 0)) .x {} (fun x => (gangBank x.g 0 x.core.quad ((x.rg 2).toNat % 64)).isSome) := by
  and_intros <;> exact meets (by decide +kernel)
def linked (side : Side) (due : Nat) (c : Core) : Core := { c with links := [{ side := side, lanes := Vector.replicate 128 0, due := due }] }
def linkOk (x : Ctx) : Bool :=
  let slots := (linkBlocks x (rowOf false)).1
  cardsMeet x.core (slots.map .slot) [] x.tide && cardsMeet x.core [] (slots.map .slot) x.tide && (linkBlocks x (rowOf false)).2.isEmpty
    && (imageRoom x.core slots).isNone && x.core.pending == 15 && (tshpFmt (specShape x (rowOf false))).isSome
theorem witness_BanksAndLinks :
    Meets (tiled (xOf (shaped 0 (whole .bf16) ∘ sixteenth)) (tiles 1 .bf16)) .x {} (fun x => linkOk x && guardOn x {}
      && (match dirRead x (rowOf false) (BitVec.allOnes 128) with | .ok (_, _, warn) => !warn | .error _ => false)
      && (dirWords x (rowOf false) (BitVec.allOnes 128)).all (fun e => !hasLatent (rawBlock x.s.mem e.1))
      && neighbour x.g 0 x.core .e == some 1 && (x.core.links.find? fun l => l.side == .e && l.due == x.tide) == none)
    ∧ Meets (xOf (linked .e 5 ∘ shaped 0 (whole .bf16) ∘ sixteenth)) .x {} (fun x => linkOk x && guardOn x {}
      && (x.core.links.find? fun l => l.side == .e && l.due == x.tide).isSome)
    ∧ Meets (tiled (xOf (linked .e 5 ∘ shaped 0 (whole .bf16) ∘ sixteenth)) (tiles 1 .f16)) .x {} (fun x => linkOk x && guardOn x {}
      && (x.core.links.find? fun l => l.side == .e && l.due == x.tide).isSome && (oddBlock x .bf16).isSome)
    ∧ Has (xOf (linked .e 5)) ⟨0, 0⟩ (fun g c => c.links.any fun l => decide (l.due ≤ g.tide))
    ∧ Has (xOf (linked .e 6)) ⟨0, 0⟩ (fun g c => c.links.all fun l => decide (g.tide < l.due)) := by
  and_intros <;> first | exact meets (by decide +kernel) | exact has_of (by decide +kernel)
/-- XFAR of one pair, near at VBA 0x100 and far at 0x700, its pennant at 0x101000. -/
def faring (c : Core) : Core := reg 1 0x100 (reg 2 0x700 (reg 3 0x700000001 (reg 4 0x101000 (inSlack c))))
def standing (n : Nat) : Standing :=
  { serial := 0, pairs := [(near0, .far 0)], next := n, value := 7, pennant := .berth 0 1, penOff := 0, penCode := 0, released := true }
def farState (n : Nat) (up : Bool) : State :=
  let s := xOf fun c => { c with standing := [standing n] }
  { s with farPorts := Vector.replicate 8 { first := 0, count := 4, up := up } }
theorem witness_FarExchanges :
    Meets (xOf faring) .x {} (fun x => x.slack && guardOn x {} && x.core.standing.isEmpty && x.core.log.length + x.core.reserved == 0
      && (farPairs x (x.rg 1) (x.rg 2) ((x.rg 3).toNat % 8192)).2.isEmpty
      && cardsMeet x.core ((farPairs x (x.rg 1) (x.rg 2) ((x.rg 3).toNat % 8192)).1.flatMap fun p => [.slot p.1, .slot p.2]) [] x.tide
      && (match pennantPage x (x.core.regs.rgn 4) with | (some _, []) => true | _ => false))
    ∧ Meets (xOf inSlack) .x off_ (fun x => x.slack && !guardOn x off_)
    ∧ (∀ n ∈ [0, 1], Has (farState n true) ⟨0, 0⟩ (fun g c => !g.desc.pair && (c.standing.find? fun q => q.serial == 0) == some (standing n)
        && farUp (farState n true) (standing n)))
    ∧ Has (farState 0 false) ⟨0, 0⟩ (fun g c => !g.desc.pair && (c.standing.find? fun q => q.serial == 0) == some (standing 0)
        && !farUp (farState 0 false) (standing 0)) := by
  and_intros
  all_goals try first | exact meets (by decide +kernel) | exact has_of (by decide +kernel)
  intro n h
  have h : n = 0 ∨ n = 1 := by simpa using h
  rcases h with rfl | rfl <;> exact has_of (by decide +kernel)
/-- Channel 0 reaches pages, 1 window homes, 2 the host: chip 1, 16 blocks from VBA 0x100, 100 sends each. -/
def caps : List CapEntry :=
  [⟨0x8C00000000010064, 0x100, 16, 0⟩, ⟨0xCC00000000010064, 0x100, 16, 0⟩, ⟨0xDC00000000010064, 0x100, 16, 0⟩]
def allowing (n : Nat) (g : Gang) : Gang := modCore { g with caps := caps, windows := [{ contrib := 2, vba := 0x600, count := 4, deadline := 9 }] } 0 fun c =>
  { inSlack c with regs := { (inSlack c).regs with ctl := { (inSlack c).regs.ctl with capb := BitVec.ofNat 64 n } } }
def fOf (f : Core → Core) : State := one (allowing 3 (gangOf .x 5)) .x f
def mayUse (x : Ctx) (ch : Nat) (kinds : List Nat) (write : Bool) (blocks first take : Nat) : Bool :=
  let e := capOf x.g ch
  decide (ch < x.ctl.capb.toNat) && capValid e && kinds.contains (capKind e) && (if write then capWrite e else capRead e)
    && (blocks == 0 || decide (first + blocks ≤ capCount e)) && (take == 0 || decide (gangSent x.g false ch + take ≤ capAllow e))
def armedFor (ch : Nat) (c : Core) : Core := { c with armed := [{ ch := ch, serial := 0, window := 0, index := 0, latched := true }] }
def sends (x : Ctx) : Bool :=
  x.slack && guardOn x {} && decide (x.core.channelFree ≤ x.tide) && cardsMeet x.core [.slot near0, .slot (.berth 0 1)] [.slot near0, .slot (.berth 0 1), .g 1] x.tide
    && (List.range 2).all fun k => found x (BitVec.ofNat 64 ((0x100 + k) * 4096)) fun g => ownBerth x.core.num g.slot && g.read && g.write && !g.cow && !g.window
theorem witness_FabricFormsIssue :
    Meets (fOf (reg 1 0x100 ∘ reg 2 3 ∘ reg 3 2)) .x {} (fun x => sends x && mayUse x 0 [0, 1, 2, 3] true 2 3 2 && mayUse x 1 [4] true 2 3 2
      && mayUse x 0 [0, 1, 2, 3, 4, 5] false 0 0 0 && (armedOn x.core 1).isNone && (armedOn (armedFor 1 x.core) 1).isSome)
    ∧ Meets (fOf (reg 2 0x1008)) .x {} (fun x => guardOn x {} && mayUse x 1 [4] false 0 0 0 && x.core.armed.isEmpty
      && ((x.g.windows[((x.rg 2).extractLsb' 0 8).toNat]?).isNone) && ((x.g.windows[0]?).any fun d => decide (0 < d.contrib)))
    ∧ Meets (fOf (reg 2 0x1008)) .x {} (fun x => guardOn x {} && decide (x.core.log.length + x.core.reserved < 1024)
      && mayUse x 0 [0, 1, 2] true 1 ((x.rg 2).extractLsb' 12 52).toNat 1 && mayUse x 2 [5] true 0 0 1
      && cardsMeet x.core [] [.g 1] x.tide && decide (x.ctl.capb.toNat ≤ 3))
    ∧ Meets (fOf fun c => { c with sentOn := [(0, 100)] }) .x {} (fun x => decide (capAllow (capOf x.g 0) ≤ gangSent x.g false 0))
    ∧ Meets (fOf (reg 3 0)) .x off_ (fun x => x.slack && !guardOn x off_)
    ∧ (∀ on ∈ [true, false], Meets (fOf fun c => c.mapCtl fun r => { r with phase := 0 }) .x (if on then {} else off_)
        (fun x => !x.slack && guardOn x (if on then {} else off_) == on && mayUse x 0 [0, 1, 2, 3, 4, 5] false 0 0 0))
    ∧ Meets (fOf fun c => { reg 3 1 c with channelFree := 6 }) .x {} (fun x => x.slack && (x.rg 3).extractLsb' 0 13 != 0
        && decide (x.tide < x.core.channelFree))
    ∧ Meets (fOf fun c => { c with armed := (List.replicate 4 (armedFor 1 c).armed).flatten }) .x {} (fun x => guardOn x {} && x.core.armed.length == 4)
    ∧ Meets (fOf (armedFor 3 ∘ reg 1 0x100 ∘ reg 2 3 ∘ reg 3 2)) .x {} (fun x => sends x && !mayUse x 3 [0, 1, 2, 3, 4, 5] false 0 0 0
        && !mayUse x 0 [0, 1, 2, 3] true 15 3 0 && (armedOn x.core 3).isSome)
    ∧ Meets (fOf ((fun c => { c with sentOn := [(0, 99), (1, 99)] }) ∘ armedFor 1 ∘ reg 1 0x100 ∘ reg 2 3 ∘ reg 3 2)) .x {} (fun x => sends x
        && mayUse x 0 [0, 1, 2, 3] true 2 3 1 && !mayUse x 0 [0, 1, 2, 3] true 2 3 2 && !mayUse x 1 [4] true 2 3 2 && (armedOn x.core 1).isSome)
    ∧ Meets (fOf (fun c => { c with sentOn := [(0, 100), (2, 100)] })) .x {} (fun x => mayUse x 0 [0, 1, 2] true 1 0 0
        && !mayUse x 0 [0, 1, 2] true 1 0 1 && mayUse x 2 [5] true 0 0 0 && !mayUse x 2 [5] true 0 0 1) := by
  and_intros
  all_goals try exact meets (by decide +kernel)
  intro on h
  rcases on with _ | _ <;> exact meets (by decide +kernel)
def at_ (n : Nat) (s : State) : State := { s with ptide := n }
def fab (i : Instr) (on : Bool) (m : Nat) : FabOp :=
  { serial := 0, instr := i, pc := 0, issued := 4, planned := 5, active := on, ch := 0, n := m, near := [(near0, 0, 0x100)], chip := 1, base := 0x100 }
def flying (o : FabOp) (f : Gang → Gang := id) (m : Cells := []) : State :=
  tiled (one (f (allowing 3 (gangOf .x 5))) .x fun c => { c with fabs := [o] }) m
def sending (p : FabOp → Bool) (g : Gang) (c : Core) : Bool := !g.desc.pair && !isSecondary g 0 && (findFab c 0).any p
def landedAt (n : Nat) (g : Gang) : Gang := { g with landed := List.replicate n { slot := far0, block := [] } }
/-- The context of launch 1, owner 1, and the page of its VBA `v`. -/
def lookup (s : State) (v : BitVec 52) (p : Gang → Page → Bool) : Bool :=
  (contextOf s 1 1).any fun g => match translate s g 0 v with | .ok q => p g q | .error _ => false
theorem witness_FabricBlocksTravel :
    (∀ i ∈ [Instr.xrch {} 1 2 3 0, .xrchc {} 1 2 3 0, .xred {} 1 2 3 0 .add, .xtri {} 1 2 3 0], ∀ on ∈ [true, false],
      Has (flying (fab i on 1)) ⟨0, 0⟩ (sending fun o => o.active == on && o.near[o.sent]? == some (near0, 0, 0x100)))
    ∧ hasLatent (rawBlock (flying (fab xch1 true 1)).mem near0) = false ∧ (flying (fab xch1 true 1)).inject.getLsbD 63 = false
    ∧ ((flying (fab xch1 true 1)).lostChips.contains 1) = false ∧ (flying (fab xch1 true 1)).lostTo.isEmpty = true
    ∧ (contextOf (fOf id) 2 1).isNone = true
    ∧ ((contextOf (fOf id) 1 1).any fun g => match translate (fOf id) g 0 0x500 with | .ok _ => false | .error _ => true) = true
    ∧ lookup (fOf id) 0x100 (fun g p => (0 : Byte) == ownerGen (fOf id) 1 && p.write && !p.cow && !p.window && p.code == 0
        && decide (buffered g 1 < 4096) && g.landed.isEmpty && !slotPorted p.slot && !hasLatent (rawBlock (fOf id).mem p.slot)) = true
    ∧ lookup (fOf id) 0x400 (fun _ p => !p.write) = true
    ∧ lookup (flying (fab xch1 true 1) (landedAt 1)) 0x108 (fun g p => g.landed.any fun q => q.slot == p.slot) = true
    ∧ (∀ n ∈ [0, 1], Has (flying (fab (.xrch {} 1 2 3 0) true 1) (landedAt n)) ⟨0, 0⟩ (fun g c => sending (fun _ => true) g c
        && landingRoom g far0 == (n == 0)))
    ∧ (∀ t ∈ [5, 6], Has (flying { fab (.xcrck {} 2 0) true 0 with planned := t }) ⟨0, 0⟩ (fun g c => c.fabs.length == 1
        && decide (g.tide < 6) && decide (g.tide < t) == (t == 6)))
    ∧ isChecked (.xrchc {} 1 2 3 0) = true
    ∧ (let b := cputBit (block 7) (8 * markAt + 1023) true
       blkValid (block 7) && !markedIn (block 7) 0 4096 && blkValid b && markedIn b 0 4096 && !hasLatent b && !blkValid []) = true
    ∧ (∀ warn ∈ [true, false], ∀ b ∈ [block 7, []], Has (flying { fab (.xred {} 1 2 3 0 .add) true 1 with warn := warn } id (setRawBlock [] near0 b)) ⟨0, 0⟩
        (sending fun o => o.active && o.warn == warn && (o.near[o.sent]?).any fun p =>
          blkValid (rawBlock (setRawBlock [] near0 b) p.1) == !b.isEmpty))
    ∧ HasGang (flying (fab xch1 true 1)) 0 (fun g => contextOf (flying (fab xch1 true 1)) 1 1 == some g && phaseRun g != 7) := by
  and_intros
  all_goals try first | decide +kernel | exact hasGang_of (by decide +kernel)
  · intro i h on ho
    have h : i = .xrch {} 1 2 3 0 ∨ i = .xrchc {} 1 2 3 0 ∨ i = .xred {} 1 2 3 0 .add ∨ i = .xtri {} 1 2 3 0 := by simpa using h
    rcases on with _ | _ <;> rcases h with rfl | rfl | rfl | rfl <;> exact has_of (by decide +kernel)
  · intro n h
    have h : n = 0 ∨ n = 1 := by simpa using h
    rcases h with rfl | rfl <;> exact has_of (by decide +kernel)
  · intro t h
    have h : t = 5 ∨ t = 6 := by simpa using h
    rcases h with rfl | rfl <;> exact has_of (by decide +kernel)
  · intro warn h b hb
    have hb : b = block 7 ∨ b = [] := by simpa using hb
    rcases warn with _ | _ <;> rcases hb with rfl | rfl <;> exact has_of (by decide +kernel)
/-- A window of launch 1 that index 0 has armed, with the blocks it has reserved. -/
def armedWindow (n : Nat) (parts : List Contrib) : Window :=
  { num := 0, launch := 1, decl := { num := 0, contrib := 2, vba := 0x600, count := 4, deadline := 9 }, armed := [{ index := 0, chip := 1, core := ⟨0, 0⟩, ch := 1, serial := 0 }], reserved := List.range n, parts := parts }
def homing (w : Window) (code : Dword) : State :=
  fOf id |> fun s => { s with gangs := s.gangs.map fun g =>
    { g with home := [w], manifest := page 6 0xF420000000000600 (0x00000010000FFE30 + (code <<< 56)) :: g.manifest.filter fun e => e.1 != 5 } }
def part0 : Contrib := { block := 0, index := 0, op := some .add, data := [] }
theorem witness_WindowsAtTheirHome :
    (windowContext (fOf id) 1 1).isSome = true ∧ ownerGen (fOf id) 1 = 0 ∧ (windowContext (fOf id) 2 2).isNone = true
    ∧ HasGang (homing (armedWindow 0 []) 8) 0 (fun g => (getWindow g 1 0).armed.any (fun e => e.index == 0) && (getWindow g 1 1).armed.isEmpty
      && (g.windows[0]?).isSome && !(windowComplete (armedWindow 1 [])) && windowComplete (armedWindow 0 []) && decide (buffered g 1 < 4096))
    ∧ HasGang (at_ 14 (homing { armedWindow 1 [] with started := some 0 } 8)) 0 (fun g =>
      g.home.all fun w => lateWindow (at_ 14 (homing w 8)) { g with tide := 9 } w)
    ∧ lookup (homing (armedWindow 0 []) (fmtByte .f32).toNat) 0x600 (fun g p => p.code == fmtByte .f32 && reduces (some .add) p.code && reduces none p.code
      && blkFormat (zeroBlock .f32) == p.code && g.desc.launch == 1 && g.status == .placed) = true
    ∧ HasGang (homing (armedWindow 1 [part0]) 8) 0 (fun g => (getWindow g 1 0).parts.any (fun q => q.block == 0 && q.index == 0)
      && (getWindow g 1 0).reserved.contains 0)
    ∧ HasGang (homing (armedWindow 4096 []) 8) 0 (fun g => decide (4096 ≤ buffered g 1))
    ∧ Has (flying (fab (.xwin {} 2 1) true 0)) ⟨0, 0⟩ (fun _ c => c.fabs.length == 1 && c.fabs.all fun o => !o.done)
    ∧ Has (fOf (armedFor 1)) ⟨0, 0⟩ (fun _ c => c.fabs.isEmpty && c.armed.any fun a => a.serial == 0)
    ∧ (reduces none (fmtByte .i32) || reduces (some .min) (fmtByte .f16) || blkFormat (zeroBlock .f32) == fmtByte .bf16) = false
    ∧ (∀ b ∈ [none, some { commit := true }, some ({ commit := false } : Barrier)],
        (getGang (one { gangOf .x 5 with barrier := b } .x (armedFor 1)) 0).map (·.barrier) = some b)
    ∧ HasGang (at_ 14 (homing { armedWindow 0 [] with started := some 0 } 8)) 0 (fun g =>
      g.home.all fun w => windowComplete w && lateWindow (at_ 14 (homing w 8)) { g with tide := 9 } w)
    ∧ (let parts := (List.range 3).map fun i => ({ part0 with index := i } : Contrib)
       ((List.range 3).all fun i => parts.find? (fun p => p.block == 0 && p.index == i) == some { part0 with index := i })) = true
    ∧ (let w := armedWindow 2 []
       let s := homing w (fmtByte .f32).toNat
       Memory.wf s.mem && decide w.reserved.Nodup && (getGang s 0).any fun g => w.launch == g.desc.launch
         && (w.reserved.map fun b => match translate s g 0 (BitVec.ofNat 52 (w.decl.vba + b)) with
           | .ok p => (slotPorted p.slot, slotNumber p.slot) | .error _ => (true, 0))
             == [(false, slotNumber (.berth 0 48)), (false, slotNumber (.berth 0 49))]) = true := by
  and_intros
  all_goals try first | exact has_of (by decide +kernel) | exact hasGang_of (by decide +kernel) | decide +kernel
def effect (k : AtomKind) (gen : Byte) (v : BitVec 52) (off : BitVec 12) : Effect :=
  { kind := k, chip := 1, source := 0, gang := 0, idx := 0, launch := 1, owner := 1, gen := gen, vba := v, off := off, operand := 7,
    swap := 9, dest := 1, serial := 0 }
/-- A gang whose page at VBA 0x100 holds 32-bit words, with the block `b` there. -/
def worded (b : Cells) : State :=
  let s := fOf id
  { s with mem := setRawBlock [] near0 b, gangs := s.gangs.map fun g =>
    { g with manifest := page 9 0xF020000000000100 (0x00000010000FFE00 + BitVec.ofNat 64 ((fmtByte .n32).toNat * 2 ^ 56)) :: g.manifest.filter fun e => e.1 != 0 } }
theorem witness_StagedEffects :
    (contextOf (fOf id) 2 1).isNone = true ∧ ownerGen (fOf id) 1 ≠ 3 ∧ (effect .cas 0 0x100 4).kind ≠ .kick
    ∧ (∀ v ∈ [7, 8], lookup (worded (block v)) 0x100 (fun _ p =>
        let b := rawBlock (worded (block v)).mem p.slot
        fmtOfByte p.code == some .n32 && !slotPorted p.slot && !hasLatent b && p.write && !p.cow && !p.window && blkValid b && !markedIn b 4 4
          && atomSupports .n32 (.amo .add true) && atomSupports .n32 .cas && cle b 4 4 == v) = true)
    ∧ lookup (fOf id) 0x400 (fun _ p => !p.write && (fmtOfByte p.code).isSome) = true
    ∧ atomSupports .f32 (.amo .xor true) = false ∧ 5 % (fmtWidth .n32 / 8) ≠ 0
    ∧ (let b := cputBit (block 7) (8 * markAt + 1) true; blkValid b && markedIn b 4 4 && !hasLatent b) = true
    ∧ HasGang (fOf id) 0 (fun _ => true)
    ∧ lookup (fOf id) 0x200 (fun _ p => slotPorted p.slot && p.write && (fmtOfByte p.code).isSome
        && !hasLatent (rawBlock (fOf id).mem p.slot)) = true
    ∧ (∀ st ∈ [Stage.port, .issue], (getGang (one (holding 3 0 { gangOf .s 5 with stage := st }) .s id) 0).map (fun g => (g.stage, g.held)) = some (st, true)) := by
  and_intros
  all_goals try first | decide +kernel | exact hasGang_of (by decide +kernel)
def landing (d : Dest) (due : Nat) : Landing := { dest := d, value := 7, due := due, issued := 0, cl := .s }
def landings (l : List Landing) : State := sOf fun c => { c with regs := { c.regs with landings := l } }
def fenced (sc : Scope) (due : Nat) (f : Core → Core) (h : Gang → Gang) : State :=
  one (h { gangOf .s 102 with stage := .land }) .s fun c =>
    f { c with fences := [{ serial := 0, d := 1, scope := sc, issued := 5, due := due, pc := 0 }] }
def oneFence (p : Gang → Core → Fence → Bool) (g : Gang) (c : Core) : Bool := match c.fences with | [f] => p g c f | _ => false
def effectOut (c : Core) : Core := { c with outstanding := [{ serial := 3, tide := 2, effect := effect .cas 0 0 0 }] }
def storeOut (c : Core) : Core := { c with accesses := [{ entryOf (.store .n32 7) near0 with inLoad := false, inStore := true }] }
def late (g : Gang) (f : Fence) : Bool := decide (f.issued + fenceLat f.scope ≤ g.tide)
def pen (on : Bool) (due : Nat) : Pen :=
  { serial := 0, slot := near0, off := 4092, value := 7, code := 0, pc := 0, issued := 3, due := due, active := on, served := true }
theorem witness_LandingsAndFences :
    (∀ d ∈ [Dest.none, .g 3, .p 3, .v 3], Has (landings [landing d 5, landing (.g 1) 6]) ⟨0, 0⟩
      (fun g c => c.faults.isEmpty && landingReady c g.tide == some (landing d 5)))
    ∧ Has (landings [landing (.g 1) 6]) ⟨0, 0⟩ (fun g c => (landingReady c g.tide).isNone)
    ∧ Has (fenced .sys 101 effectOut fun g => { g with stage := .port }) ⟨0, 0⟩ (oneFence fun g c f => g.stage == .port && late g f
      && f.scope == .sys && (c.outstanding.any fun p => decide (p.tide < f.issued)) && !waiting g 3 f.serial)
    ∧ Has (fenced .sys 101 id (holding 3 0)) ⟨0, 0⟩ (oneFence fun g c f => waiting g 3 f.serial && c.outstanding.isEmpty)
    ∧ Has (fenced .core 7 storeOut id) ⟨0, 0⟩ (oneFence fun g c f => g.stage == .land && late g f && fenceWaits c g.tide f false && !waiting g 3 f.serial)
    ∧ Has (fenced .core 103 id id) ⟨0, 0⟩ (oneFence fun g c f => decide (g.tide < f.due) && !fenceWaits c g.tide f false)
    ∧ Has (fenced .core 102 id id) ⟨0, 0⟩ (oneFence fun g c f => decide (f.due ≤ g.tide) && !fenceWaits c g.tide f true && !waiting g 3 f.serial)
    ∧ Has (fenced .core 7 (fun c => { c with pens := [pen true 103, pen false 104] }) id) ⟨0, 0⟩ (oneFence fun g c f => fenceWaits c g.tide f true
      && c.pens.all fun p => p.served && slotPorted p.slot == false)
    ∧ Has (fenced .core 7 (fun c => { c with pens := [pen true 102] }) id) ⟨0, 0⟩ (oneFence fun g c f => !fenceWaits c g.tide f true
      && c.pens.all fun p => penReady c g.tide p)
    ∧ (∀ f ∈ [Fmt.bf16, .sqe4m3], ∀ n ∈ [63, 64], Has (tiled (sOf fun c => crammed n { c with regs := { c.regs with landings :=
        [{ landing (.tile (rowOf false) 127 (whole f)) 5 with mask := 3, lanes := Vector.replicate 128 0 }] } }) (tiles 1 .f16)) ⟨0, 0⟩ (fun g c =>
      c.faults.isEmpty && tshpFmt (whole f) == some f && tshpOk (whole f) && (landingReady c g.tide).any (fun l => l.mask == 3
        && (List.range 2).all (fun k => inShape (whole f) f (dirElem false .row 127 k)) && (blocksIn (whole f) f .row 127 l.mask).length == 1)
        && decide (images c + 1 ≤ 64 ∧ c.log.length + c.reserved + 1 ≤ 1024) == (n == 63)))
    ∧ (126 < 127 ∧ 126 % 2 = 0 ∧ [Slot.berth 0 0, .berth 0 1].Nodup ∧ slotNumber (.berth 0 0) ≠ slotNumber (.berth 0 1))
    ∧ Has (sOf fun c => { c with atEnd := [.push 1, .flags 1 0, .ctl 0xB0 0] }) ⟨0, 0⟩ (fun _ c => !c.atEnd.isEmpty
        && c.atEnd.all fun e => match e with | .fold _ => false | _ => true) := by
  and_intros
  all_goals try first | exact has_of (by decide +kernel) | decide +kernel
  · intro d h
    have h : d = .none ∨ d = .g 3 ∨ d = .p 3 ∨ d = .v 3 := by simpa using h
    rcases h with rfl | rfl | rfl | rfl <;> exact has_of (by decide +kernel)
  · intro f hf n hn
    have hf : f = .bf16 ∨ f = .sqe4m3 := by simpa using hf
    have hn : n = 63 ∨ n = 64 := by simpa using hn
    rcases hf with rfl | rfl <;> rcases hn with rfl | rfl <;> exact has_of (by decide +kernel)
def asking (l : List Access) : State := sOf fun c => { c with accesses := l }
def asker (n issued : Nat) (op : AccOp) (store : Bool) : Access :=
  { entryOf op near0 with serial := n, issued := issued, served := false, inLoad := !store, inStore := store }
def requests (p : List PortReq → Bool) (g : Gang) (c : Core) : Bool := p (portReqs g 0 c)
theorem witness_PortsServe :
    Has (asking []) ⟨0, 0⟩ (requests fun l => l.isEmpty)
    ∧ Has (asking [asker 0 0 (.load 1 .n32) false]) ⟨0, 0⟩ (requests fun l => match l with
      | [r] => r.who == .entry 0 0 && !hasLatent (rawBlock (asking []).mem (.berth 0 r.slot)) | _ => false)
    ∧ Has (asking [asker 0 0 (.load 1 .n32) false, asker 1 1 (.store .n32 7) true]) ⟨0, 0⟩ (requests fun l => match l with
      | [r, q] => r.who == .entry 0 0 && q.who == .entry 0 1 && !keyLt q.key r.key && q.write && banksOf r == banksOf q && banksOf r != [] && r != q
      | _ => false)
    ∧ Has (sOf fun c => { c with asks := [⟨7, .berth 0 0, 0, 8, false, .s, 0⟩] }) ⟨0, 0⟩ (requests fun l => match l with
      | [r] => r.who == .ask 0 7 && !hasLatent (rawBlock (asking []).mem (.berth 0 r.slot)) | _ => false)
    ∧ Memory.wf (asking []).mem = true ∧ 4092 + [0#8, 0, 0, 0].length ≤ 4096 := by
  and_intros <;> first | exact has_of (by decide +kernel) | decide +kernel
def abort0 : Abort := { trapc := 0x13, tval := 5 }
def atBarrier (commit abort : Bool) (f : Gang → Gang := id) : State :=
  one (f { gangOf .s 5 with barrier := some { commit := commit, own := { abort := abort } } }) .s id
/-- A gang at its commit, with a window armed on channel 1, whose home is chip 1, where the gang has no member. -/
def outsideGang (fl : Option (BitVec 5)) : Gang :=
  modCore { allowing 3 (gangOf .s 5) with barrier := some { commit := true, own := { abort := false } } } 0 fun c =>
    { c with armed := [{ ch := 1, serial := 0, window := 0, index := 0, latched := true, flags := fl }] }
def outsideArmed (fl : Option (BitVec 5)) : State := one (outsideGang fl) .s id
/-- The worked example of R283. -/
theorem witness_PhasesEnd_doubles :
    let e : MEntry := ⟨0xF030000000000100, 0x02000001000FFE00⟩
    let b : MEntry := ⟨0xF020000000000101, 0x02000001000FFE01⟩
    meValid e = true ∧ meDouble e = true ∧ meValid b = true ∧ meDouble b = false ∧ meVba b = meVba e + meCount e ∧ meCount b = meCount e
      ∧ swapDoubles [(0, e), (1, b)] = [(0, ⟨e.dw0, b.dw1⟩), (1, ⟨b.dw0, e.dw1⟩)] := by decide
theorem witness_PhasesEnd :
    HasGang (one { gangOf .s 5 with aborted := some abort0, aborts := 2 } .s fun c => { c with accWritten := 5, accesses := [entryOf .marker near0] }) 0
      (fun g => g.aborted == some abort0 && g.cores.all (·.faults.isEmpty) && decide (2 ≤ g.aborts) && !escalates abort0)
    ∧ (∀ commit ∈ [true, false], HasGang (atBarrier commit false) 0 (fun g =>
      g.barrier == some { commit := commit, own := { abort := false } } && !g.desc.pair && (firstAbort (atBarrier commit false) g { abort := false }).isNone
        && g.home.isEmpty))
    ∧ HasGang (atBarrier true true) 0 (fun g => firstAbort (atBarrier true true) g { abort := true } == some { abort := true }
      && (otherChips (atBarrier true true) g).isEmpty)
    ∧ HasGang (sOf id) 0 (fun g => g.barrier.isNone)
    ∧ holdsCopy (one { gangOf .s 5 with desc := { launch := 1, owner := 1, chips := [0, 1] } } .s id) 0 1 = true ∧ holdsCopy (sOf id) 0 1 = false
    ∧ HasGang (one { gangOf .s 5 with barrier := some { commit := true }, desc := { launch := 1, owner := 1, chips := [0, 1] } } .s fun c =>
        { c with log := [{ order := 0, entry := .staged (.atom (effect .cas 0 0x100 4) 0) [] }] }) 0
      (fun g => (firstAbort (sOf id) g { abort := false }).isNone && g.home.isEmpty && (g.cores.any fun c => !c.log.isEmpty))
    ∧ slotNumber near0 ≠ slotNumber far0 ∧ slotPorted near0 = false ∧ 4 + 4 ≤ 4096 ∧ 7 < 256 ^ 4
    ∧ (∀ st ∈ [Stage.port, .land, .issue, .finish], (getGang (one { gangOf .s 5 with stage := st, aborted := some { abort0 with forced := true } } .s id) 0).map
        (fun g => (g.stage, g.aborted)) = some (st, some { abort0 with forced := true }))
    ∧ (escalates { trapc := 0x10, tval := 0 } = true ∧ (abort0.trapc.setWidth 8 : BitVec 8) = 0x13)
    ∧ (∀ p ∈ [(none, false), (some (0 : BitVec 5), true)], barrierDone (outsideArmed p.1) (outsideGang p.1) = p.2)
    ∧ ((outsideGang none).cores.any fun c => c.armed.any fun a => (outsideHome (outsideArmed none) (outsideGang none) a).isSome) = true
    ∧ (({ num := 0 } : Window).outside (gangOf .s 5) = true ∧ ownWindows { gangOf .s 5 with home := [{ armedWindow 2 [] with launch := 1 }] } ≠ []) := by
  and_intros
  all_goals try first | decide +kernel | exact hasGang_of (by decide +kernel)
  intro commit h
  rcases commit with _ | _ <;> exact hasGang_of (by decide +kernel)
def imaged (m : Manifest) : Partition :=
  { Partition.fresh with images :=
      [{ handle := 1, kind := 0, total := 0, code := some { variants := [default], livemaps := [], windows := [] }, sealed := true },
       { handle := 2, kind := 1, total := 1114112, bytes := m.foldl (fun b e => putEntry b e.1 e.2) [], sealed := true },
       { handle := 3, kind := 2, total := 8192, sealed := true }] }
/-- A package with one session, owner 1's key bound to partition 0, and the images of a launch. -/
def hosted (gangs : List Gang) : State :=
  { State.reset with chip := 0, sessions := [1], owners := [{ id := 1, bound := some 0, key := 0, gen := 0 }], gangs := gangs, nextGang := gangs.length, retiredSlots := []
                     parts := State.reset.parts.set 0 (imaged (pages.take 2)) }
def waits (st : Status) : Gang :=
  { id := 0, part := 0, desc := { launch := 7, owner := 1, code := 1, manifest := 2, cap := 3, frame := 0x1000 }, status := st }
def placed0 (f : Gang → Gang := id) : State := hosted [f { gangOf .s 5 with id := 0, desc := { (waits .placed).desc with } }]
def asked (since : Nat) (on : Bool) (g : Gang) : Gang := { g with preempt := some { since := since, deadline := on } }
/-- Core 0 has trapped with a cause and a TVAL, at the LD of its line. -/
def trapped (code tval : Dword) (g : Gang) : Gang :=
  modCore { g with lines := [BitVec.ofNat 512 (0x2000000A4080003 * 2 ^ 32)] } 0 fun c =>
    { c with trapped := true, regs := { c.regs with ctl := { c.regs.ctl with trapc := code, tval := tval, trappc := 0 } } }
def recheck (w : Nat) (s : State) (p : MEntry → MEntry → Instr → Bool) (g : Gang) : Bool :=
  (match g.cores.zipIdx.filter fun p => p.1.trapped && trapCode p.1 == 0x07 with
    | [(c, 0)] => (match fetchAt false g.lines (trapCluster c) c.regs.ctl.trappc 0 with
      | .ok i => (match authEntry s g w, findEntry g.manifest w with | some e, some cur => p e cur i | _, _ => false)
      | .error _ => false)
    | _ => false)
def hidden (g : Gang) : Gang := { g with manifest := page 0 0xB020000000000100 0x00000010000FFE00 :: g.manifest.drop 1 }
def dying (g : Gang) : Gang := { g with status := .killing, kill := some true }
/-- Member 0 waits for the ticket of its REFRESH. -/
def rechecking (v : Option Dword) (s : State) : State :=
  { s with tickets := [ticket 5 v], gangs := s.gangs.map fun g => { g with rechecks := [(0, 5)] } }
def twoChips (g : Gang) : Gang := { g with desc := { g.desc with chips := [0, 1] } }
theorem witness_GangsAreServed :
    readyOrder (hosted []) 0 = [] ∧ (partOf (hosted []) 0).resetting = false
    ∧ (let s := hosted [waits .queued]
       (readyOrder s 0 == [waits .queued]) && (getGang s 0 == some (waits .queued)) && Memory.wf s.mem
        && (placeFor (modPart s 0 fun p => { p with reservation := none }) (waits .queued) none).any fun r => r.2.2.isNone) = true
    ∧ HasGang (placed0 (asked 0 false)) 0 (fun g => g.preempt.any fun p => !p.deadline)
    ∧ HasGang (at_ 5 (placed0 (asked 5 true))) 0 (fun g => g.status == .placed && g.preempt.any fun p =>
      p.deadline && decide (5 < p.since + schedOf (at_ 5 (placed0 (asked 5 true))) 0 2))
    ∧ HasGang (at_ 700005 (placed0 (asked 5 true))) 0 (fun g => !g.claims 5 && !g.claims 6 && !unsettled g && g.preempt.any fun p =>
      decide (p.since + schedOf (at_ 700005 (placed0 (asked 5 true))) 0 2 ≤ 700005))
    ∧ HasGang (placed0 (trapped 7 0x100)) 0 (recheck 0x100 (placed0 (trapped 7 0x100)) fun e cur i => grants e (accessKinds i) && grants cur (accessKinds i))
    ∧ HasGang (placed0 (hidden ∘ trapped 7 0x100)) 0 (recheck 0x100 (placed0 (hidden ∘ trapped 7 0x100)) fun e cur i =>
      grants e (accessKinds i) && !grants cur (accessKinds i))
    ∧ HasGang (placed0 (trapped 6 0x500000)) 0 (fun g => (g.cores.find? fun c => c.trapped && trapCode c == 0x06).isSome && !mustRollBack g
      && !awaitedByInvalidate (placed0 (trapped 6 0x500000)) g && g.cores.all fun c => c.standing.isEmpty)
    ∧ HasGang (placed0 fun g => { g with dropPhase := true }) 0 mustRollBack
    ∧ HasGang (placed0 fun g => { g with fatal := some default }) 0 (fun g => g.fatal.isSome && g.status != .killing)
    ∧ (∀ p ∈ [(id, false, false), (dying, false, false), (dying ∘ fun g => modCore g 0 effectOut, true, false),
          (dying ∘ fun g => { g with fatal := some default }, false, true)],
        (getGang (placed0 p.1) 0).map (fun g => (stillOut g, g.fatal.isSome)) = some p.2)
    ∧ HasGang (placed0 dying) 0 (fun g => g.status == .killing && g.kill.isSome && !(partOf (placed0 dying) g.part).resetting)
    ∧ schedOf (placed0 id) 0 1 ≠ 0 ∧ (hosted [waits .queued]).gangs.any gangReady = true
    ∧ ([none, some (0 : Dword), some 1].all fun v =>
        let s := rechecking v (placed0 (trapped 7 0x100))
        (getGang s 0).any fun g => g.rechecks.find? (fun p => p.1 == 0) == some (0, 5) && !isSecondary g 0 && g.status == .placed
          && (s.tickets.find? fun t => t.num == 5).any fun t => t.acked == v) = true
    ∧ queueFull { placed0 (trapped 7 0x100) with tickets := List.replicate 64 (ticket 0 none) } = true
    ∧ HasGang (placed0 (trapped 6 0x500000 ∘ fun g => { g with dropPhase := true })) 0 (fun g =>
      mustRollBack g && (g.cores.find? fun c => c.trapped && trapCode c == 0x06).isSome)
    ∧ HasGang (placed0 twoChips) 0 (fun g => g.status == .placed && g.desc.chips.contains 1 && otherChips (placed0 id) g == [1])
    ∧ HasGang { placed0 twoChips with lostChips := [1] } 0 (fun g => g.status == .placed && (otherChips (placed0 id) g).contains 1)
    ∧ HasGang (placed0 fun g => { g with status := .killing }) 0 (fun g => g.status == .killing)
    ∧ (∀ two ∈ [true, false], HasGang (placed0 (trapped 6 0x500000 ∘ fun g => if two then twoChips g else g)) 0 (fun g => !mustRollBack g
        && !awaitedByInvalidate (placed0 id) g && (otherChips (placed0 id) g).isEmpty == !two && !(g.cores.any fun c => c.standing.any (·.released))))
    ∧ HasGang (placed0 (trapped 6 0x500000 ∘ fun g => modCore g 0 fun c => { c with standing := [standing 0] })) 0 (fun g => !mustRollBack g
        && g.cores.any fun c => c.standing.any (·.released))
    ∧ HasGang (placed0 id) 0 (fun g => g.desc.owner == 1 && g.status == .placed && (placed0 id).owners.any fun o => o.id == 1)
    ∧ ((originsOf 1 0 1 1).filter (usable (placed0 id) (waits .queued)) ≠ [] ∧ (reserveFor (placed0 id) (waits .queued)).isSome = true)
    ∧ (let s : State := { placed0 id with quads := (placed0 id).quads.map fun q => { q with withdrawn := true } }
       (originsOf 1 0 1 1).filter (usable s (waits .queued)) = []) := by
  and_intros
  all_goals try first | decide +kernel | exact hasGang_of (by decide +kernel)
  intro two h
  rcases two with _ | _ <;> exact hasGang_of (by decide +kernel)
/-- INVALIDATE of owner `o`'s 16 blocks at VBA 0x100. -/
def invalidate (o : Nat) : CmdRec := { dw0 := BitVec.ofNat 64 (1 * 2 ^ 56 + o * 2 ^ 28), dw1 := 0x100, dw2 := 16 }
/-- Core 0 holds a card on the first slot of the range, which waits for what reaches it. -/
def carded (g : Gang) : Gang :=
  modCore g 0 fun c => { c with cards := [{ reads := [.slot near0], writes := [], first := 0, readEnd := 900, last := 900 }] }
def waited : Ticket := { num := 0, cmd := invalidate 1, host := true, applied := some 65536, was := [(0, pages)] }
/-- A block under owner 1's key in each of `n` slots of a frame at slot 0x1000 of HBM stack 0. -/
def keyed : Cells := [(tagAt, 1), (tagAt + 66, 1)]
def framed : Nat → Cells
  | 0 => []
  | n + 1 => setRawBlock (framed n) (.hbm 0 (4096 + n)) keyed
theorem framed_wf : ∀ n, Memory.wf (framed n) = true
  | 0 => rfl
  | n + 1 => setRawBlock_keeps _ _ (framed_wf n)
theorem rawBlock_framed (sl : Slot) : ∀ n, rawBlock (framed n) sl
    = if 720896 + 4096 ≤ slotNumber sl ∧ slotNumber sl < 720896 + 4096 + n then keyed else []
  | 0 => by rw [if_neg (by omega)]; rfl
  | n + 1 => by
    have k : slotNumber (.hbm 0 (4096 + n)) = 720896 + 4096 + n := by simp only [slotNumber]; omega
    by_cases h : slotNumber (.hbm 0 (4096 + n)) = slotNumber sl
    · have e : rawBlock (framed (n + 1)) sl = rawBlock (framed (n + 1)) (.hbm 0 (4096 + n)) := by
        simp only [rawBlock, slotBase, h]
      rw [e, framed, rawBlock_setRawBlock _ _ (framed_wf n), ← h, if_pos (by omega)]
      decide
    · rw [framed, rawBlock_setRawBlock_other _ (framed_wf n) h, rawBlock_framed sl n]
      split <;> split <;> first | rfl | omega
/-- Where the frame of the gang of `placed0` stands. -/
theorem slotNumber_frame {s : State} {g : Gang} (hs : partStack0 s.partCount g.part = 0) (hf : g.desc.frame = 0x1000) {i : Nat}
    (hi : i < 65536) : slotNumber (frameSlot s g false i) = 720896 + 4096 + i := by
  have e : g.desc.frame.toNat = 4096 := by rw [hf]; rfl
  simp only [frameSlot, slotOf, hs, e, slotNumber]
  simp
  omega
def kept0 : State := { placed0 (fun g => { g with started := false, kept := g.cores }) with mem := framed 4224 }
def gang0 (s : State) : Gang := (getGang s 0).getD (waits .queued)
/-- The gang of `placed0`, about to be saved. -/
def saving (kind : Nat) (f : Gang → Gang := id) : State := placed0 fun g => f { g with saveNext := some kind }
theorem witness_ContextsAreKept :
    HasGang (placed0 fun g => { g with saveNext := some 2 }) 0 (fun g => saveReady g && g.cores.all fun c => c.faults.isEmpty && c.accesses.isEmpty)
    ∧ HasGang (placed0 id) 0 (fun g => g.saveNext.isNone && (otherChips (placed0 id) g).isEmpty)
    ∧ HasGang (placed0 twoChips) 0 (fun g => g.saveNext.isNone && otherChips (placed0 twoChips) g == [1] && g.status == .placed && g.preempt.isNone)
    ∧ HasGang (placed0 fun g => modCore { g with saveNext := some 2 } 0 effectOut) 0 (fun g => g.saveNext == some 2 && !saveReady g)
    ∧ HasGang (placed0 fun g => { g with started := false, kept := g.cores }) 0 (fun g => g.status == .placed && !g.started && !g.kept.isEmpty && g.x0 == 0)
    ∧ ((gangOf .s 5).cores.all fun c => c.regs.g[0] == 0 && c.regs.p[0] == BitVec.allOnes 128) = true
    ∧ (∀ f ∈ [twoChips, twoChips ∘ fun g => { g with dropPhase := true }], HasGang (placed0 f) 0 (fun g => g.saveNext.isNone && g.status == .placed
        && (otherChips (placed0 f) g) == [1]))
    ∧ HasGang { placed0 (fun g => carded { g with saveNext := some 1 }) with tickets := [waited] } 0 (fun g => saveReady g
        && awaitedByInvalidate { placed0 id with tickets := [waited] } g && g.cores.all (!·.trapped))
    ∧ HasGang (saving 1 fun g => modCore g 0 fun c => { c with faults := [(11, 0, 0)] }) 0 (fun g => saveReady g && (rollbackFault g none).isSome)
    ∧ (saveReady (gang0 (saving 1)) = true ∧ rollbackFault (gang0 (saving 1)) none = none
      ∧ awaitedByInvalidate (saving 1) (gang0 (saving 1)) = false)
    ∧ (let s := landAllDue (performAll (saving 1) 0) 0
       getGang s 0 = some (gang0 s) ∧ (∀ c ∈ (gang0 s).cores, c.raised = []) ∧ Memory.wf s.mem = true
        ∧ (∀ sl, hasLatent (rawBlock s.mem sl) = false) ∧ (∀ c ∈ (gang0 s).cores, c.num < 1024) ∧ (gang0 s).cores.length ≤ (gang0 s).size
        ∧ (gang0 s).desc.pair = false ∧ (gang0 s).quays2 = [] ∧ regionSize (gang0 s) = 4224
        ∧ (∀ p ∈ quayMoves s (gang0 s), 589824 ≤ slotNumber p.2 ∧ slotNumber p.2 < 720896)
        ∧ (∀ c ∈ (gang0 s).cores, (imagesHeld c).length ≤ 64 ∧ ∀ m ∈ c.cmds.toList, m = none)
        ∧ ∀ i j, i < regionSize (gang0 s) → j < regionSize (gang0 s) →
            slotNumber (frameSlot s (gang0 s) false i) = slotNumber (frameSlot s (gang0 s) false j) → i = j)
    ∧ HasGang (landAllDue (performAll (saving 1 fun g => modCore g 0 fun c => addRaised c { code := 8, cl := .s, tval := 0, pc := 0 } []) 0) 0) 0
        (fun g => g.cores.any fun c => !c.raised.isEmpty)
    ∧ (let s := kept0
       getGang s 0 = some (gang0 s) ∧ (gang0 s).status = .placed ∧ (gang0 s).started = false ∧ (gang0 s).kept ≠ [] ∧ Memory.wf s.mem = true
        ∧ (gang0 s).kept.length = (gang0 s).cores.length ∧ (gang0 s).cores.length ≤ (gang0 s).size ∧ (gang0 s).desc.pair = false
        ∧ (gang0 s).quays2 = [] ∧ (∀ p ∈ quayMoves s (gang0 s), 589824 ≤ slotNumber p.2 ∧ slotNumber p.2 < 720896)
        ∧ ((quayMoves s (gang0 s)).map fun p => slotNumber p.2).Nodup ∧ (∀ sl, hasLatent (rawBlock s.mem sl) = false)
        ∧ ((gang0 s).cores.map Core.num).Nodup ∧ (∀ c ∈ (gang0 s).cores, c.num < 1024) ∧ regionSize (gang0 s) = 4224
        ∧ (∀ i < regionSize (gang0 s), storedTag (rawBlock s.mem (frameSlot s (gang0 s) false i)) = some (tagOf s (gang0 s).desc.owner))
        ∧ ∀ i j, i < regionSize (gang0 s) → j < regionSize (gang0 s) →
            slotNumber (frameSlot s (gang0 s) false i) = slotNumber (frameSlot s (gang0 s) false j) → i = j) := by
  have frame (s : State) (hs : partStack0 s.partCount (gang0 s).part = 0) (hf : (gang0 s).desc.frame = 0x1000)
      (hr : regionSize (gang0 s) = 4224) (i j : Nat) (hi : i < regionSize (gang0 s)) (hj : j < regionSize (gang0 s))
      (h : slotNumber (frameSlot s (gang0 s) false i) = slotNumber (frameSlot s (gang0 s) false j)) : i = j := by
    rw [slotNumber_frame hs hf (by omega), slotNumber_frame hs hf (by omega)] at h
    omega
  refine ⟨hasGang_of (by decide +kernel), hasGang_of (by decide +kernel), hasGang_of (by decide +kernel), hasGang_of (by decide +kernel),
    hasGang_of (by decide +kernel), by decide +kernel, ?_, hasGang_of (by decide +kernel), hasGang_of (by decide +kernel), by decide +kernel,
    ?_, ?_, ?_⟩
  · intro f h
    simp only [List.mem_cons, List.not_mem_nil, or_false] at h
    rcases h with rfl | rfl <;> exact hasGang_of (by decide +kernel)
  · have hm : (landAllDue (performAll (saving 1) 0) 0).mem = [] := by decide +kernel
    refine ⟨by decide +kernel, by decide +kernel, by rw [hm]; rfl, fun sl => by rw [hm]; rfl, by decide +kernel, by decide +kernel, by decide +kernel, by decide +kernel, by decide +kernel, by decide +kernel,
      by decide +kernel, frame _ (by decide +kernel) (by decide +kernel) (by decide +kernel)⟩
  · exact hasGang_of (by decide +kernel)
  · have hr : regionSize (gang0 kept0) = 4224 := by decide +kernel
    have hq : ((quayMoves kept0 (gang0 kept0)).map fun p => slotNumber p.2) = List.range' 589824 128 := by decide +kernel
    refine ⟨by decide +kernel, by decide +kernel, by decide +kernel, by decide +kernel, framed_wf _, by decide +kernel, by decide +kernel,
      by decide +kernel, by decide +kernel, by decide +kernel, by rw [hq]; exact List.nodup_range', fun sl => ?_, by decide +kernel, by decide +kernel, hr,
      fun i hi => ?_, frame _ (by decide +kernel) (by decide +kernel) hr⟩
    · rw [show kept0.mem = framed 4224 from rfl, rawBlock_framed]
      split <;> decide
    · rw [show kept0.mem = framed 4224 from rfl, rawBlock_framed, slotNumber_frame (by decide +kernel) (by decide +kernel) (by omega),
        if_pos (by omega)]
      decide +kernel
def populate : CmdRec := { dw0 := BitVec.ofNat 64 (2 * 2 ^ 56 + 1 * 2 ^ 28), dw1 := 0x100, dw2 := 16, dw3 := 0xC0000000000FFE00 }
def killCmd (launch : Nat) : CmdRec := { dw0 := BitVec.ofNat 64 (4 * 2 ^ 56 + 1 * 2 ^ 28), dw1 := 0, dw2 := BitVec.ofNat 64 (launch * 2 ^ 32) }
def resetCmd (part : Nat) : CmdRec := { dw0 := BitVec.ofNat 64 (5 * 2 ^ 56 + part), dw1 := 0, dw2 := 0 }
def ticketed (r : CmdRec) (s : State) : State := { s with tickets := [{ num := 0, cmd := r, host := true, applied := some 65536 }] }
def applies (s : State) (r : CmdRec) : Bool := match applyCommand s r with | .ok _ => true | .error _ => false
theorem witness_TranslationCommands :
    (recOk { invalidate 1 with dw4 := 1 } = false)
    ∧ (recOk (invalidate 2) && opOf (invalidate 2) != 5 && (ownerBound (hosted []) (recOwner (invalidate 2))).isNone) = true
    ∧ (recOk (resetCmd 3) && opOf (resetCmd 3) == 5 && decide ((hosted []).partCount ≤ recPart (resetCmd 3))) = true
    ∧ (recOk (killCmd 9) && opOf (killCmd 9) == 4 && (ownerBound (placed0 id) (recOwner (killCmd 9))).isSome
        && (placed0 id).gangs.all fun g => g.desc.launch != recLaunch (killCmd 9)) = true
    ∧ ((recordCode (placed0 id) (invalidate 1)).isNone && applies (placed0 id) (invalidate 1)) = true
    ∧ ((recordCode (placed0 hidden) populate).isNone && !applies (placed0 id) populate) = true
    ∧ (∀ p ∈ [(carded, true), (id, false)], (getGang (placed0 p.1) 0).map (fun g =>
        stillReaches (placed0 p.1) { num := 0, cmd := invalidate 1, host := true, applied := some 65536, was := [(0, g.manifest)] } g) = some p.2)
    ∧ (let e : MEntry := (page 0 0xF020000000000100 0x00000010000FFE00).2
       meValid e && hintTakes (invalidate 1) (meLevel e) && decide (1 ≤ meCount e) && decide (recFirst (invalidate 1) ≤ meVba e)
        && decide (meVba e + meCount e ≤ recFirst (invalidate 1) + recCount (invalidate 1)) && meCount e % pageBlocks (mePsize e) == 0 && mePresent e) = true
    ∧ (recordCode (hosted [waits .queued]) (killCmd 7)).isNone = true ∧ opOf (killCmd 7) = 4
    ∧ (let s := placed0 id
       (recordCode s (killCmd 7)).isNone && (s.gangs.find? fun g => g.desc.owner == recOwner (killCmd 7) && g.desc.launch == recLaunch (killCmd 7)).any
        fun g => g.status != .queued && g.status != .killing) = true
    ∧ (∀ b ∈ [true, false], let s := placed0 fun g => { g with barrier := if b then some { commit := true } else none }
        (getGang s 0).map (fun g => (g.kill.isNone, atBoundary s g)) = some (true, b))
    ∧ (let s := hosted [waits .queued]
       (recordCode s (resetCmd 0)).isNone && opOf (resetCmd 0) == 5 && recPart (resetCmd 0) == 0 && s.newCount.isNone) = true
    ∧ ((placed0 id).backlog = [] ∧ applies (placed0 id) (invalidate 1) = true ∧ applies { placed0 hidden with parts := (placed0 id).parts.set 0 (imaged (hidden (gangOf .s 5)).manifest) } populate = true)
    ∧ ((ticketed (invalidate 1) (placed0 id)).tickets.any fun t => t.num == 0 && t.host && t.acked.isNone) = true := by
  and_intros <;> decide +kernel
def hdr (type : Byte) (len : Nat) (part : BitVec 16 := 0) : Hdr := { type := type, len := BitVec.ofNat 32 len, part := part }
/-- The descriptor of launch `n` of owner 1, one router group, on the images of `hosted`. -/
def descriptor (n : Nat) : List Dword :=
  [BitVec.ofNat 64 (n * 2 ^ 32), BitVec.ofNat 64 (1 * 2 ^ 52 + 1), 0x100000002, 0x300000000, 0x1000] ++ List.replicate 11 0
def spent (normal : Bool) (s : State) : State := modPart s 0 fun p => { p with ends := [{ launch := 9, normal := normal }] }
def inTrap (g : Gang) : Gang := holding 5 0 (trapped 0x14 0 g)
theorem witness_PilotRequests :
    (∀ p ∈ [(2, 32), (3, 76), (5, 128), (6, 8), (7, 8), (8, 4)],
      hdrOk (hdr (BitVec.ofNat 8 p.1) p.2) p.1 p.2 = true ∧ hdrOk (hdr (BitVec.ofNat 8 p.1) p.2 0xFFFF) p.1 p.2 = true)
    ∧ (hdr 6 8).session ∈ (hosted []).sessions ∧ (hdr 6 8).part.toNat < (hosted []).partCount ∧ hdrOk (hdr 6 9) 6 8 = false
    ∧ hdrForm (hdr 6 9) = true ∧ hdrForm { hdr 6 8 with version := 2 } = false
    ∧ hdrOk (hdr 1 4) 1 4 = true ∧ (hosted []).leaf < 2 ^ 20 ∧ ({ hosted [] with leaf := 2 ^ 20 } : State).leaf = 2 ^ 20
    ∧ ownerBound (hosted []) 1 = some 0 ∧ ownerBound (hosted []) 2 = none ∧ (2 : BitVec 16) ≠ 0
    ∧ (let p : Piece := .bytes 4 []
       hdrOk (hdr 4 (32 + 8)) 4 (32 + pieceLen (.firmware 8 { bytes := [], version := 9, raise := true })) &&
       hdrOk (hdr 4 (32 + pieceLen p)) 4 (32 + pieceLen p) && pieceFits 2 p && decide ((partOf (hosted []) 0).images.length < 1024)
        && (getImage (partOf (hosted []) 0) 9).isNone && decide (8188 + pieceLen p ≤ 8192)) = true
    ∧ ((getImage (partOf (modPart (hosted []) 0 fun p => { p with images := [{ handle := 5, kind := 2, total := 8192 }] }) 0) 5).any
        fun i => i.kind == 2 && !i.sealed && decide (8188 + 4 ≤ i.total)) = true
    ∧ launchReasons (hosted []) (hdr 5 128) (descriptor 7) = [] ∧ launchReasons (hosted [waits .queued]) (hdr 5 128) (descriptor 7) = [0x12]
    ∧ (let s := placed0 id
       (s.gangs.find? fun g => g.part == 0 && g.desc.launch == 7).any fun g => !heldInTrap g && g.status != .lost) = true
    ∧ ((placed0 inTrap).gangs.find? fun g => g.part == 0 && g.desc.launch == 7).any heldInTrap = true
    ∧ (hosted [waits .lost]).gangs.all (fun g => g.status == .lost) = true
    ∧ ((partOf (hosted []) 0).ends.all fun e => e.launch != 9) = true
    ∧ (∀ b ∈ [true, false], (partOf (spent b (hosted [])) 0).ends = [{ launch := 9, normal := b }]) := by
  and_intros
  all_goals decide +kernel
def target0 (level : Byte) : BlockTarget := { owner := 1, level := level, stack := 0, first := 3, launch := if level = 1 then 7 else 0, member := 0 }
def slotsOk (s : State) (t : BlockTarget) (p : List Slot → Bool) : Bool := match targetSlots s (hdr 9 32) t 1 with | .ok l => p l | .error _ => false
def entryIs (r e : Nat) (s : State) (t : BlockTarget) : Bool := match targetSlots s (hdr 9 32) t r with | .ok _ => false | .error n => n == e
theorem witness_PilotTransfers :
    hdrOk (hdr 9 32) 9 32 = true ∧ hdrOk (hdr 9 31) 9 32 = false ∧ hdrForm (hdr 9 31) = true ∧ (hdr 9 32).session ∈ (hosted []).sessions
    ∧ (∀ n ∈ [8, 16, 64, 4352], hdrOk (hdr 10 (32 + n)) 10 (32 + n) = true ∧ n ≤ 2 ^ 24) ∧ hdrOk (hdr 10 40 0xFFFF) 10 40 = true
    ∧ slotsOk (placed0 inTrap) (target0 1) (fun l => match l with
        | [sl] => !slotPorted sl && !hasLatent (rawBlock (placed0 inTrap).mem sl) | _ => false) = true
    ∧ slotsOk (hosted []) (target0 3) (fun l => l == [.hbm 0 3]) = true
    ∧ entryIs 1 3 (hosted []) (target0 0) = true ∧ entryIs 1 1 (hosted []) { target0 3 with owner := 0 } = true
    ∧ entryIs 1 4 (hosted []) { target0 3 with owner := 2 } = true
    ∧ ((getImage (partOf (hosted []) 0) 2).any fun i => i.kind == 1) = true ∧ 69631 + 1 ≤ 69632
    ∧ (let s := placed0 id
       (s.gangs.find? fun g => g.part == 0 && g.desc.launch == 7).any fun g => decide (0 < g.size) && !g.desc.pair
        && (g.cores[0]?).any fun c => (readCtl c g.tide 0x20).isSome && (readCtl c g.tide 0xFFF).isNone) = true
    ∧ queueFull (hosted []) = false ∧ queueFull { hosted [] with tickets := List.replicate 64 (ticket 0 none) } = true
    ∧ (0x8000000000000000 : Dword) &&& 0x7FFFFFC000008000 = 0 ∧ (0x8000 : Dword) &&& 0x7FFFFFC000008000 ≠ 0
    ∧ ({ hosted [] with inject := 0x8000000000015007 } : State).inject.getLsbD 63 = true
    ∧ ({ hosted [] with inject := 0x8000000000015007 } : State).inject.extractLsb' 16 22 = 1 := by
  and_intros <;> decide +kernel
/-- The retries of a port on lane 3, after one more. -/
def retried (n : Nat) : Option (List (Nat × Nat)) :=
  let s := { sOf id with ports := (sOf id).ports.set 0 { times := List.replicate n (3, 0) } }
  (s.ports[0]?).map fun p => (p.times.filter fun t => decide (s.ptide < t.2 + 2 ^ 30)) ++ [(3, s.ptide)]
theorem witness_FaultsAndRepair :
    (getMember (sOf id) ⟨0, 0⟩).isSome = true ∧ rowCount (sOf id) 0 5 + 1 < 4
    ∧ ((sOf id).ports[63]?).isSome = true ∧ ((sOf id).quads[15]?).any (fun q => !q.withdrawn && q.retired.isNone) = true
    ∧ ((sOf id).gangs.any fun g => g.status == .placed && holdsQuad g 0) = true ∧ ((sOf id).gangs.any fun g => holdsQuad g 15) = false
    ∧ (∀ p ∈ [({ lanes := 0 } : Port), { lanes := 4 }, { lanes := 4, spare := true }, { lanes := 2, spare := true }],
        ({ sOf id with ports := (sOf id).ports.set 0 p } : State).ports[0]? = some p)
    ∧ (∀ q ∈ [({ withdrawn := true } : Quad), { retired := some 3 }],
        ({ sOf id with quads := (sOf id).quads.set 0 q } : State).quads[0]? = some q)
    ∧ (sOf id).routes.getLsbD (pairIndex 0 15) = false
    ∧ ((farState 0 true).gangs.any fun g => (farOn (farState 0 true) g 0).any fun e => e.2.released && !isSecondary g e.1) = true
    ∧ GangIds (farState 0 true) ∧ Memory.wf (sOf id).mem = true
    ∧ (∀ n ∈ [1023, 1024], (retried n).map (fun l => decide (1024 < (l.filter fun t => t.1 == 3).length)) = some (n == 1024))
    ∧ ((3 : BitVec 22) ∈ ({ sOf id with lostChips := [3], alternate := [3] } : State).lostChips ∧ linkDead (sOf id) 0 = false) := by
  and_intros
  all_goals decide +kernel
/-- Whether a start fails and which firmware copy verifies is not the package's to say: one of the two cases holds. -/
theorem witness_StartsAndPower (s : State) :
    ((Config.startFails s.free = true ∨ firmwareCopy s = none)
      ∨ Config.startFails s.free = false ∧ ∃ c, firmwareCopy s = some c)
    ∧ (sOf id).harbour.firmware = [] ∧ (hOf id).harbour.firmware ≠ [] ∧ (hOf id).harbour.lastIssue + 2 ^ 30 ≤ (at_ (2 ^ 30) (hOf id)).ptide
    ∧ (hOf id).ptide < (hOf id).harbour.lastIssue + 2 ^ 30 := by
  and_intros
  all_goals try decide +kernel
  cases Config.startFails s.free <;> cases firmwareCopy s <;> simp
theorem witness_DecodingUndoesEncoding :
    Instr.wf .s (.add { idle := 5 } 1 2 3) = true ∧ (encode (.add { idle := 5 } 1 2 3)).isSome = true ∧ Instr.wf .s (.hsel {} 3) = true
    ∧ (encode (.hsel {} 3)).isSome = true ∧ Instr.wf .m mz = true ∧ (encode mz).any (fun p => p.2.isSome) = true := by decide +kernel
def readyToIssue (f : Gang → Gang) (null : Bool) (word : Nat) (cl : Cl) : State :=
  let g := gangOf cl 5
  let g := modCore { f g with lines := [BitVec.ofNat 512 word] } 0 fun c => { c with regs := { c.regs with q := c.regs.q.map fun e => { e with null := null } } }
  one g cl id
/-- The gang's first due cluster is that of core 0. -/
def due0 (cl : Cl) (s : State) (p : Gang → Core → Line → Bool) (brk : Bool := false) : Bool :=
  s.power == .running && s.turn == 3 && (s.gangs.all fun h => (rereadOf s h).isNone) && (s.gangs[0]?).any fun g =>
    g.status == .placed && g.started && g.aborted.isNone && g.fatal.isNone && g.kill.isNone && g.home.isEmpty && g.saveNext.isNone && g.hold.active.isEmpty && g.stage == .issue
      && (chipOverdue s g).isNone && g.turn == clIndex cl && turnDue g (clIndex cl) && (g.cores[0]?).any fun c =>
        (lineAt g.lines (issueAddr c cl)).any fun l => p g c l && breaks c cl (issueAddr c cl) == brk
def decodes (cl : Cl) (p : Except Bad Instr → Bool) (_ : Gang) (c : Core) (l : Line) : Bool :=
  !(cl == .s && c.regs.q[0].null) && p (decodeAt false cl l (addrSyl (issueAddr c cl)))
/-- A line of cluster `cl` whose syllable 0 is `w`. -/
def lineOf (cl : Cl) (w : Nat) : Nat := w * 2 ^ 32 + cl.code.toNat * 2 ^ 30
def fine : Except Bad Instr → Bool | .ok _ => true | .error _ => false
def badly (b : Bad) : Except Bad Instr → Bool | .ok _ => false | .error e => e == b
theorem witness_StepRunsTheDecodedInstruction :
    due0 .s (readyToIssue id false 0 .s) (decodes .s fine) = true
    ∧ due0 .s (readyToIssue (fun g => modCore g 0 fun c => c.mapCtl fun r => { r with bpaddr := 0x8000000000000000 }) false 0 .s)
        (fun g c l => decodes .s (fun r => match r with | .ok i => !stampWaits g i | .error _ => false) g c l) true = true
    ∧ (decodeAt false .v (BitVec.ofNat 512 (lineOf .v 0x1212220620A3001)) 0).toOption.isSome = true
    ∧ due0 .s (readyToIssue id true 0 .s) (fun g c _ => c.regs.q[0].null && ((fetchAt false g.lines .s 0 0).toOption.any fun i =>
        (accessOf { k := ⟨0, 0⟩, hb := false, cl := .s, g := g, core := c, s := readyToIssue id true 0 .s } i).isNone)) = true
    ∧ due0 .s (readyToIssue id true (lineOf .s 0x2000000A4080003) .s) (fun g c l => c.regs.q[0].null && (decodeAt false .s l 0).toOption.any fun i =>
        (accessOf { k := ⟨0, 0⟩, hb := false, cl := .s, g := g, core := c, s := readyToIssue id true 0 .s } i).isSome) = true
    ∧ (let s := queuedAt (.waitp 7) own0 id (holding 4 0)
       (s.gangs.findSome? (rereadOf s)).isSome) = true
    ∧ due0 .s (readyToIssue id false (lineOf .s (0x1FF * 2 ^ 51)) .s) (decodes .s (badly .illegalPriv)) = true
    ∧ due0 .s (readyToIssue id false (lineOf .s (0x1EF * 2 ^ 51)) .s) (decodes .s (badly .illegalOp)) = true
    ∧ due0 .s (readyToIssue id false (lineOf .v 0) .s) (decodes .s (badly .chain)) = true
    ∧ (let s := { hOf id with turn := 2 }
       s.power == .running && decide (s.harbour.core.regs.sNext ≤ s.harbour.tide) && !harbourWaits s.harbour && !s.harbour.core.regs.q[0].null
        && (lineAt s.harbour.firmware s.harbour.core.regs.q[0].addr).any fun l => (decodeAt true .s l 0).toOption.isSome) = true
    ∧ (∀ p ∈ [Power.halted, .off, .unstarted], ({ sOf id with power := p } : State).power ≠ .running
        ∧ ({ sOf id with power := p } : State).agenda = []) := by
  and_intros
  all_goals decide +kernel
theorem witness_ResetState : (1023 : Nat) < 1024 := by decide
theorem witness_StepKeepsTheInvariants : (match step (sOf id) with | .next _ => true | _ => false) = true ∧ Memory.wf (sOf id).mem = true
    ∧ GangIds (sOf id) := ⟨by decide +kernel, by decide, ⟨by decide +kernel, by decide +kernel⟩⟩
theorem witness_ControlRegisterMap : 0x01F < 4096 ∧ 0x020 ∈ (List.range 4).map (0x020 + ·) ∧ (0x021 : Nat) ≠ 0x020 := by decide
/-! ## What well-formedness refuses -/

def acc5 : Spec := { acc := true, num := 5, dir := .whole, idx := 0 }
def idx1 : Spec := { acc := false, num := 0, dir := .whole, idx := 1 }
theorem test_wf_common : ∀ p ∈ [(Cl.s, Instr.add { guard := 1 } 1 2 3), (.s, .add { sense := true } 1 2 3), (.s, .add { group := true } 1 2 3),
    (.s, .nop { en := true }), (.s, .slack { en := true }), (.v, .add {} 1 2 3), (.s, .vmov {} 1 2), (.s, mz), (.v, .xagu {} 1), (.s, .jointCommit 0)],
    p.2.wf p.1 = false := by decide +kernel
theorem test_wf_scalar : ∀ i ∈ [Instr.ld {} 1 2 .e4m3 0, .st {} 1 2 .sqi8 0, .lda {} 1 2 .core .n16 0, .stl {} 1 2 .core .bf16 0,
    .amo {} 1 2 3 .add .n8, .amo {} 1 2 3 .xor .f32, .cas {} 1 2 3 4 .i8, .fork {} 0], i.wf .s = false := by decide +kernel
theorem test_wf_vector : ∀ i ∈ [Instr.vbcst {} 1 2 .i64, .vld {} 1 2 .sqi8 0, .vst {} 1 2 .n64 0, .vldg {} 1 2 3 .untyped, .vsts {} 1 2 3 .i64,
    .vmovDirRead {} 1 acc5 .f32, .vmovDirRead {} 1 (tspec 0) .f32, .vmovDirRead {} 1 (rowOf true) .bf16,
    .vmovDirWrite {} 1 (tspec 0) .rne false .f32 0, .vmovDirWrite {} 1 (rowOf true) .rne false .f32 0, .vrsum {} 1 2 .n32, .vrmax {} 1 2 .bf16,
    .vrmin {} 1 2 .i8, .vcvt {} 1 2 .i64 .rne false .f32, .vcvt {} 1 2 .f32 .rne false .n64, .vcvtMxImport {} 1 2 .f16 false,
    .vunpark {} 1 (rowOf true), .vunpark {} 1 { rowOf false with dir := .col }, .vtri {} 1 2 4, .vtri {} 2 1 4, .vtri {} 2 4 1, .vtrin {} 1 3 2],
    i.wf .v = false := by decide +kernel
theorem test_wf_matrix : ∀ i ∈ [Instr.mma {} 1 (tspec 0) (tspec 0) (tspec 1) 0, .mma {} 1 (aspec 0) (aspec 0) (tspec 1) 0,
    .mmat {} 1 (aspec 0) (tspec 0) idx1 0, .mzero {} 1 acc5, .macc {} 1 (aspec 0) (tspec 0), .mtrn {} 1 (tspec 0) (aspec 0), .mscl {} 1 (rowOf true) 1 false,
    .mmsk {} 1 (tspec 0) 1, .mred {} 1 1 (tspec 0) false], i.wf .m = false := by decide +kernel
theorem test_wf_drain : ∀ dr ∈ [{ dr0 .f32 0 none with d := aspec 0 }, { dr0 .f32 0 none with a := tspec 0 }, dr0 .f32 0 (some (aspec 0)),
    { dr0 .f32 0 none with scl := some 63 }, dr0 .untyped 0 none, dr0 .sqi8 0 none, dr0 .i8 0 (some (tspec 1)), { dr0 .i32 0 none with scl := some 1 },
    { dr0 .i8 0 none with drop := true }, dr0 .i32 1 none, { dr0 .i8 0 none with rnd := .rz }], (Instr.mdrn {} 1 dr).wf .m = false := by decide +kernel
theorem test_wf_drainQ : ∀ dr ∈ [dr0 .f32 0 none, { dr0 .sqi8 0 none with rnd := .rz }, { dr0 .sqi8 0 none with sat := true }],
    (Instr.mdrnq {} 1 dr).wf .m = false := by decide +kernel
theorem test_wf_exchange : ∀ i ∈ [Instr.xch {} (.tile (aspec 0)) 1 2 0, .xch {} (.tile (tspec 0)) 1 2 2, .xchs {} (.reg 1) 1 2 0, .xchg {} 1 1 2 0,
    .xfar {} 1 2 3, .xdrop {} (.tile idx1), .xtstv {} (.tile (rowOf false)) 1, .xnsend {} (rowOf true) .e, .xnrecv {} { rowOf false with dir := .diag } .n,
    .xagu {} 0], i.wf .x = false := by decide +kernel
theorem test_wf_admits : ∀ p ∈ [(Cl.s, Instr.add { guard := 1, en := true, sense := true } 1 2 3), (.v, .vmov { group := true } 1 2), (.s, .ld {} 1 2 .bf16 0),
    (.s, .amo {} 1 2 3 .xor .n64), (.v, .vrsum {} 1 2 .i32), (.m, .mma {} 1 (aspec 3) (tspec 7) (tspec 0) 0), (.m, .mdrn {} 1 (dr0 .i8 0 none)),
    (.m, .mdrnq {} 1 (dr0 .sqi8 2 (some (tspec 1)))), (.x, .xch {} (.reg 1) 1 2 3), (.x, .xfar {} 1 2 4)], p.2.wf p.1 = true := by decide +kernel

/-! ## Single steps. The expected values are worked out by hand from the rules named. -/

/-- What an instruction lands last on core 0. -/
def lands (i : Instr) (s : State) : Option Landing :=
  match exec i s with
  | .next t => (getMember t ⟨0, 0⟩).bind fun p => p.2.regs.landings.getLast?
  | _ => none
def two_ (a b : Dword) : State := sOf (reg 1 a ∘ reg 2 b)
def value (i : Instr) (a b : Dword) : Option Dword := (lands i (two_ a b)).map (·.value)
/-- R127: wrapping sums, the signed quotient of the most negative value, the high halves, and shift counts mod 64. -/
theorem test_scalar : value (.add {} 3 1 2) 0xFFFFFFFFFFFFFFFF 2 = some 1 ∧ value (.sub {} 3 1 2) 0 1 = some 0xFFFFFFFFFFFFFFFF
    ∧ value (.mulh {} 3 1 2) 0xFFFFFFFFFFFFFFFF 2 = some 0xFFFFFFFFFFFFFFFF ∧ value (.mulhn {} 3 1 2) 0xFFFFFFFFFFFFFFFF 2 = some 1
    ∧ value (.div {} 3 1 2) 0x8000000000000000 0xFFFFFFFFFFFFFFFF = some 0x8000000000000000 ∧ value (.div {} 3 1 2) 7 0 = some 0xFFFFFFFFFFFFFFFF
    ∧ value (.rem {} 3 1 2) 0xFFFFFFFFFFFFFFF9 2 = some 0xFFFFFFFFFFFFFFFF ∧ value (.rem {} 3 1 2) 7 0 = some 7
    ∧ value (.sar {} 3 1 2) 0x8000000000000000 65 = some 0xC000000000000000 ∧ value (.clz {} 3 1) 0 0 = some 64
    ∧ value (.addi {} 3 1 0x7FFFFF) 0 0 = some 0xFFFFFFFFFFFFFFFF ∧ value (.ori {} 3 1 0x7FFFFF) 0 0 = some 0x7FFFFF := by decide +kernel
def lane (i : Instr) (a b : Word) : Option (Word × BitVec 5) :=
  (lands i (vOf (lanesBe 1 a ∘ lanesBe 2 b))).map fun l => (l.lanes[5], l.flags)
/-- R155, R158: correctly rounded sums and quotients and their flags; the canonical NaN; R160: saturation. -/
theorem test_vector : lane (.vadd {} 3 1 2 .rne false) 0x3F800000 0x33800000 = some (0x3F800000, 16)
    ∧ lane (.vdiv {} 3 1 2) 0x3F800000 0x40400000 = some (0x3EAAAAAB, 16) ∧ lane (.vdiv {} 3 1 2) 0x3F800000 0 = some (0x7F800000, 2)
    ∧ lane (.vsub {} 3 1 2 .rne false) 0x7F800000 0x7F800000 = some (0x7FC00000, 1)
    ∧ lane (.viadd {} 3 1 2 false true) 0x7FFFFFFF 1 = some (0x7FFFFFFF, 4) ∧ lane (.viadd {} 3 1 2 true false) 0xFFFFFFFF 1 = some (0, 0) := by
  decide +kernel
/-- R33: 300 lies between 288 and 320, nearer to 288; 464 is a tie at the edge of the format, and −0 keeps its sign. -/
theorem test_convert : (convert .f32 .e4m3 .rne true 0x43960000).1 = 0x79 ∧ (convert .f32 .e4m3 .rne true 0x43E80000).1 = 0x7E
    ∧ (convert .f32 .bf16 .rne false 0x80000000).1 = 0x8000 ∧ (convert .f32 .i8 .rne false 0x43000000).1 = 0x7F := by decide +kernel
/-- R141: a branch's target joins the queue behind its two successors. -/
theorem test_branch : (match exec (.b {} .none 4) (sOf id) with
    | .next t => (getMember t ⟨0, 0⟩).map fun p => p.2.regs.q[2].addr
    | _ => none) = some 4 := by decide +kernel
/-- The first step after placing ADDI g1, g0, 5: its landing is on the way. -/
theorem test_fetched : (match step (State.reset.withFetchWord 92 (lineOf .s (0x030 * 2 ^ 51 + 1 * 2 ^ 29 + 5))) with
    | .next t => (getMember t ⟨State.reset.nextGang, 0⟩).bind fun p => p.2.regs.landings.head?.map fun l => (l.dest, l.value)
    | _ => none) = some (.g 1, 5) := by decide +kernel
/-- R21: a step at turn 0 with nothing due passes on to the harbourmaster. -/
theorem test_turn : (match step { State.reset with agenda := [] } with | .next t => t.turn | _ => 9) = 1 := by decide +kernel

end Sys2Proof.Tests
end

section
/-! SUPPORT. Rounding, said once: a magnitude cut to a multiple of a power of two, and the way back from the value of a code to the code
(02 R25, R27, R32, R33, R49). -/

namespace Sys2Proof.Machine

/-! ## Cutting a magnitude to a multiple of 2^q -/

/-- Above the exponent, the multiple is the quotient, or the next one, and it is inexact when a remainder is left. -/
theorem roundAt_of_lt (rnd : Rnd) (neg : Bool) (m : Nat) {e q : Int} (h : e < q) :
    let d := 2 ^ (q - e).toNat
    roundAt rnd neg m e false q = (if roundsUp rnd neg (m / d % 2 = 1) (m % d) d false then m / d + 1 else m / d, m % d != 0) := by
  simp [roundAt, Int.not_le.2 h]

/-- Nothing below the unit rounds nothing up. -/
@[simp] theorem roundsUp_exact (rnd : Rnd) (neg odd : Bool) : roundsUp rnd neg odd 0 1 false = false := by
  cases rnd <;> simp [roundsUp]

@[simp] theorem roundAt_self (rnd : Rnd) (neg : Bool) (m : Nat) (q : Int) : roundAt rnd neg m q false q = (m, false) := by
  simp [roundAt]

/-- To nearest: at most half a unit away, and even where it is half a unit. -/
theorem roundsUp_rne_nearest (neg : Bool) {k r d : Nat} (hr : r < d) :
    let n := if roundsUp .rne neg (k % 2 = 1) r d false then k + 1 else k
    (2 * (n * d) ≤ 2 * (d * k + r) + d ∧ 2 * (d * k + r) ≤ 2 * (n * d) + d)
      ∧ ((2 * (n * d) = 2 * (d * k + r) + d ∨ 2 * (d * k + r) = 2 * (n * d) + d) → n % 2 = 0) := by
  have up : (k + 1) * d = d * k + d := by rw [Nat.succ_mul, Nat.mul_comm k d]
  have stay : k * d = d * k := Nat.mul_comm k d
  by_cases tie : 2 * r = d
  · by_cases odd : k % 2 = 1
    · simp only [roundsUp, tie, odd, if_true, decide_true, Bool.or_true, up]
      omega
    · simp only [roundsUp, tie, odd, if_true, decide_false, Bool.or_false, Bool.false_eq_true, if_false, stay]
      omega
  · by_cases above : d < 2 * r
    · simp only [roundsUp, tie, above, if_false, decide_true, if_true, up]
      omega
    · simp only [roundsUp, tie, above, if_false, decide_false, Bool.false_eq_true, stay]
      omega

/-- Rounding up in magnitude is the quotient rounded up. -/
theorem div_ceil_eq (m : Nat) {d : Nat} (hd : 0 < d) : (m + d - 1) / d = if m % d ≠ 0 then m / d + 1 else m / d := by
  have hm : d * (m / d) + m % d = m := Nat.div_add_mod m d
  have hr : m % d < d := Nat.mod_lt m hd
  have split : m + d - 1 = (m % d + d - 1) + d * (m / d) := by omega
  rw [split, Nat.add_mul_div_left _ _ hd]
  by_cases h : m % d = 0
  · rw [if_neg (by simpa using h), Nat.div_eq_of_lt (by omega), Nat.zero_add]
  · rw [if_pos h, Nat.div_eq_of_lt_le (k := 1) (by omega) (by omega), Nat.add_comm]

/-- Down takes the quotient of a positive value and the next one of a negative value. -/
theorem roundAt_rd_of_lt (neg : Bool) (m : Nat) {e q : Int} (h : e < q) :
    let d := 2 ^ (q - e).toNat
    (roundAt .rd neg m e false q).1 = if neg then (m + d - 1) / d else m / d := by
  intro d
  have hd : 0 < d := Nat.two_pow_pos _
  rw [roundAt_of_lt _ _ _ h, div_ceil_eq m hd]
  cases neg <;> simp [roundsUp, d]

/-- Up is down with the sign turned. -/
theorem roundAt_ru_eq_rd (neg : Bool) (m : Nat) (e : Int) (sticky : Bool) (q : Int) :
    roundAt .ru neg m e sticky q = roundAt .rd (!neg) m e sticky q := rfl

theorem roundAt_ru_of_lt (neg : Bool) (m : Nat) {e q : Int} (h : e < q) :
    let d := 2 ^ (q - e).toNat
    (roundAt .ru neg m e false q).1 = if neg then m / d else (m + d - 1) / d := by
  intro d
  rw [roundAt_ru_eq_rd, roundAt_rd_of_lt _ _ h]
  cases neg <;> rfl

/-! ## The fields of a code (R25) -/

/-- A code of 1 + a + b bits is its sign, its exponent field and its mantissa field. -/
theorem code_eq_fields {a b code : Nat} (h : code < 2 ^ (a + b + 1)) :
    (if code / 2 ^ (b + a) % 2 = 1 then 2 ^ (b + a) else 0) + (code / 2 ^ b % 2 ^ a * 2 ^ b + code % 2 ^ b) = code := by
  have low : 2 ^ b * (code / 2 ^ b) + code % 2 ^ b = code := Nat.div_add_mod code _
  have high : 2 ^ a * (code / 2 ^ (b + a)) + code / 2 ^ b % 2 ^ a = code / 2 ^ b := by
    rw [Nat.pow_add, ← Nat.div_div_eq_div_mul]
    exact Nat.div_add_mod _ _
  have top : code / 2 ^ (b + a) < 2 := by
    rw [Nat.div_lt_iff_lt_mul (Nat.two_pow_pos _)]
    calc code < 2 ^ (a + b + 1) := h
      _ = 2 * 2 ^ (b + a) := by rw [Nat.pow_succ, Nat.mul_comm, Nat.add_comm a b]
  have sign : (if code / 2 ^ (b + a) % 2 = 1 then 2 ^ (b + a) else 0) = 2 ^ b * (2 ^ a * (code / 2 ^ (b + a))) := by
    rw [← Nat.mul_assoc, ← Nat.pow_add, Nat.mod_eq_of_lt top]
    generalize code / 2 ^ (b + a) = bit at top
    obtain rfl | rfl : bit = 0 ∨ bit = 1 := by omega
    · rw [if_neg (by decide), Nat.mul_zero]
    · rw [if_pos rfl, Nat.mul_one]
  rw [sign, Nat.mul_comm _ (2 ^ b), ← Nat.add_assoc, ← Nat.mul_add, high, low]

/-! ## A representable magnitude comes back (R32, R49) -/

/-- A magnitude that already is a multiple of its own unit, and no greater than the greatest one, is packed with no flag. -/
theorem roundFin_of_unit {f : Fmt} {k : Nat} {q : Int} (rnd : Rnd) (sat neg : Bool)
    (unit : max (q + Nat.log2 k) (1 - (fpFmt f).bias) - (fpFmt f).m = q)
    (fits : ¬ ((maxFinite f).2 < q ∨ (q = (maxFinite f).2 ∧ (maxFinite f).1 < k))) :
    roundFin f rnd sat neg k q false = (packFinite f neg k q, 0) := by
  simp only [roundFin, unit, roundAt_self, fits, if_false]
  simp

/-- The unit of a subnormal magnitude is that of the smallest normal one. -/
theorem subnormal_unit {f : Fmt} {man : Nat} (h0 : man ≠ 0) (h : man < 2 ^ (fpFmt f).m) :
    max (1 - (fpFmt f).bias - (fpFmt f).m + Nat.log2 man) (1 - (fpFmt f).bias) - (fpFmt f).m = 1 - (fpFmt f).bias - (fpFmt f).m := by
  have : Nat.log2 man < (fpFmt f).m := (Nat.log2_lt h0).2 h
  omega

theorem log2_two_pow_add {b man : Nat} (h : man < 2 ^ b) : Nat.log2 (2 ^ b + man) = b := by
  rw [Nat.log2_eq_iff (by have := Nat.two_pow_pos b; omega), Nat.pow_succ]
  omega

/-- The unit of a normal magnitude is that of its exponent field. -/
theorem normal_unit {f : Fmt} {man ex : Nat} (h0 : ex ≠ 0) (h : man < 2 ^ (fpFmt f).m) :
    max (ex - (fpFmt f).bias - (fpFmt f).m + Nat.log2 (2 ^ (fpFmt f).m + man)) (1 - (fpFmt f).bias) - (fpFmt f).m
      = ex - (fpFmt f).bias - (fpFmt f).m := by
  rw [log2_two_pow_add h]
  omega

theorem packFinite_subnormal {f : Fmt} {man : Nat} (neg : Bool) (q : Int) (h : man < 2 ^ (fpFmt f).m) :
    packFinite f neg man q = signBit f neg + man := by
  have noCarry : man ≠ 2 ^ ((fpFmt f).m + 1) := by rw [Nat.pow_succ]; omega
  simp only [packFinite, if_neg noCarry, if_pos h]

theorem packFinite_normal {f : Fmt} {man : Nat} (neg : Bool) (ex : Nat) (h : man < 2 ^ (fpFmt f).m) :
    packFinite f neg (2 ^ (fpFmt f).m + man) (ex - (fpFmt f).bias - (fpFmt f).m) = signBit f neg + (ex * 2 ^ (fpFmt f).m + man) := by
  have noCarry : 2 ^ (fpFmt f).m + man ≠ 2 ^ ((fpFmt f).m + 1) := by rw [Nat.pow_succ]; omega
  have normal : ¬ 2 ^ (fpFmt f).m + man < 2 ^ (fpFmt f).m := by omega
  have field : (ex - (fpFmt f).bias - (fpFmt f).m + (fpFmt f).m + (fpFmt f).bias).toNat = ex := by omega
  simp only [packFinite, if_neg noCarry, if_neg normal, field, Nat.add_sub_cancel_left]

/-! ## From the value of a code back to the code (R25, R27, R32) -/

/-- The floating-point formats of R25. -/
def fpFormats : List Fmt := [.f32, .bf16, .f16, .e4m3, .e5m2, .e2m1]

/-- A code of a floating-point format in its fields. -/
theorem fp_code_eq_fields {f : Fmt} (hf : f ∈ fpFormats) {code : Nat} (h : code < 2 ^ fmtWidth f) :
    signBit f (code / 2 ^ ((fpFmt f).m + (fpFmt f).e) % 2 = 1)
      + (code / 2 ^ (fpFmt f).m % 2 ^ (fpFmt f).e * 2 ^ (fpFmt f).m + code % 2 ^ (fpFmt f).m) = code := by
  have width : fmtWidth f = (fpFmt f).e + (fpFmt f).m + 1 := by
    clear h
    revert f
    decide
  rw [width] at h
  simpa [signBit] using code_eq_fields h

/-- No subnormal magnitude overflows. -/
theorem subnormal_fits {f : Fmt} (hf : f ∈ fpFormats) {man : Nat} (h : man < 2 ^ (fpFmt f).m) :
    ¬ ((maxFinite f).2 < 1 - (fpFmt f).bias - (fpFmt f).m
      ∨ (1 - (fpFmt f).bias - (fpFmt f).m = (maxFinite f).2 ∧ (maxFinite f).1 < man)) := by
  simp only [fpFormats, List.mem_cons, List.not_mem_nil, or_false] at hf
  rcases hf with rfl | rfl | rfl | rfl | rfl | rfl <;> simp [maxFinite, fpFmt]

/-- No normal magnitude of a code overflows, where the code is neither an infinity nor a NaN. -/
theorem normal_fits {f : Fmt} (hf : f ∈ fpFormats) {ex man : Nat} (hex : ex < 2 ^ (fpFmt f).e) (h : man < 2 ^ (fpFmt f).m)
    (special : ¬ (ex = 2 ^ (fpFmt f).e - 1 ∧ hasInf f = true)) (nan : ¬ (f = .e4m3 ∧ ex = 15 ∧ man = 7)) :
    ¬ ((maxFinite f).2 < ex - (fpFmt f).bias - (fpFmt f).m
      ∨ (ex - (fpFmt f).bias - (fpFmt f).m = (maxFinite f).2 ∧ (maxFinite f).1 < 2 ^ (fpFmt f).m + man)) := by
  simp only [fpFormats, List.mem_cons, List.not_mem_nil, or_false] at hf
  rcases hf with rfl | rfl | rfl | rfl | rfl | rfl <;> simp [maxFinite, fpFmt, hasInf] at * <;> omega

theorem roundNum_inf_of_hasInf {f : Fmt} (hi : hasInf f = true) (rnd : Rnd) (sat s : Bool) : roundNum f rnd sat (.inf s) = (infCode f s, 0) := by
  cases f <;> simp [hasInf] at hi <;> rfl

/-- The value of a sign, an exponent field and a mantissa field. -/
def ofFields (f : Fmt) (neg : Bool) (ex man : Nat) : Num :=
  let g := fpFmt f
  if ex = 2 ^ g.e - 1 ∧ hasInf f then (if man = 0 then .inf neg else .nan)
  else if (f = .e4m3 ∨ f = .sqe4m3) ∧ ex = 15 ∧ man = 7 then .nan
  else if ex = 0 then Num.mk neg man (1 - g.bias - g.m)
  else .fin neg (2 ^ g.m + man) (ex - g.bias - g.m)

theorem fpDecode_eq_ofFields (f : Fmt) (code : Nat) :
    fpDecode f code = ofFields f (code / 2 ^ ((fpFmt f).m + (fpFmt f).e) % 2 = 1) (code / 2 ^ (fpFmt f).m % 2 ^ (fpFmt f).e)
      (code % 2 ^ (fpFmt f).m) := rfl

/-- The value of a code's fields, when it is not a NaN, rounds to the code of the same fields, with no flag. -/
theorem roundNum_ofFields {f : Fmt} (hf : f ∈ fpFormats) (rnd : Rnd) (sat : Bool) {neg : Bool} {ex man : Nat}
    (hex : ex < 2 ^ (fpFmt f).e) (hman : man < 2 ^ (fpFmt f).m) (number : ofFields f neg ex man ≠ .nan) :
    roundNum f rnd sat (ofFields f neg ex man) = (signBit f neg + (ex * 2 ^ (fpFmt f).m + man), 0) := by
  unfold ofFields at number ⊢
  dsimp only at number ⊢
  by_cases special : ex = 2 ^ (fpFmt f).e - 1 ∧ hasInf f = true
  · rw [if_pos special] at number ⊢
    have zero : man = 0 := Decidable.byContradiction fun h => number (if_neg h)
    rw [if_pos zero, roundNum_inf_of_hasInf special.2, infCode, special.1, zero, Nat.add_zero]
  rw [if_neg special] at number ⊢
  have nan : ¬ ((f = .e4m3 ∨ f = .sqe4m3) ∧ ex = 15 ∧ man = 7) := fun h => number (if_pos h)
  rw [if_neg nan]
  by_cases low : ex = 0
  · rw [if_pos low, Num.mk]
    by_cases zero : man = 0
    · simp [roundNum, low, zero]
    · rw [if_neg zero, roundNum, roundFin_of_unit _ _ _ (subnormal_unit zero hman) (subnormal_fits hf hman),
        packFinite_subnormal _ _ hman, low, Nat.zero_mul, Nat.zero_add]
  · have finite : ¬ (f = .e4m3 ∧ ex = 15 ∧ man = 7) := fun n => nan ⟨.inl n.1, n.2⟩
    rw [if_neg low, roundNum, roundFin_of_unit _ _ _ (normal_unit low hman) (normal_fits hf hex hman special finite),
      packFinite_normal _ _ hman]

/-- A value that a code of a format holds rounds to that code, with no flag. -/
theorem roundNum_fpDecode {f : Fmt} (hf : f ∈ fpFormats) (rnd : Rnd) (sat : Bool) {code : Nat} (h : code < 2 ^ fmtWidth f)
    (number : fpDecode f code ≠ .nan) : roundNum f rnd sat (fpDecode f code) = (code, 0) := by
  rw [fpDecode_eq_ofFields] at number ⊢
  rw [roundNum_ofFields hf rnd sat (Nat.mod_lt _ (Nat.two_pow_pos _)) (Nat.mod_lt _ (Nat.two_pow_pos _)) number,
    fp_code_eq_fields hf h]

/-! ## To an integer (R33) -/

theorem intMin_le_intMax {f : Fmt} (hf : isInt f = true) : intMin f ≤ intMax f := by
  cases f <;> simp [isInt] at hf <;> decide

/-- A finite value is rounded to an integer first, and then judged against the range. -/
theorem numToInt_fin {f : Fmt} (hf : isInt f = true) (rnd : Rnd) (neg : Bool) (m : Nat) (e : Int) :
    let k := (roundAt rnd neg m e false 0).1
    let i : Int := if neg then -(k : Int) else k
    let r := numToInt f rnd (.fin neg m e)
    (i < intMin f → r = (intMin f, 1)) ∧ (intMax f < i → r = (intMax f, 1))
      ∧ (intMin f ≤ i → i ≤ intMax f → r.1 = i ∧ (r.2 = 0 ∨ r.2 = 16)) := by
  intro k i r
  have range := intMin_le_intMax hf
  have hr : r = if i < intMin f then (intMin f, fNV) else if intMax f < i then (intMax f, fNV)
      else (i, if (roundAt rnd neg m e false 0).2 then fNX else 0) := rfl
  clear_value r i
  refine ⟨fun below => ?_, fun above => ?_, fun low high => ?_⟩
  · rw [hr, if_pos below]; rfl
  · rw [hr, if_neg (by omega), if_pos above]; rfl
  · rw [hr, if_neg (by omega), if_neg (by omega)]
    refine ⟨rfl, ?_⟩
    cases (roundAt rnd neg m e false 0).2
    · exact .inl rfl
    · exact .inr rfl

/-- Cutting to a coarser unit, mode by mode (R32). -/
theorem roundAt_coarser (m : Nat) {e q : Int} (neg : Bool) (h : e < q) :
    let d := 2 ^ (q - e).toNat
    let near := roundAt .rne neg m e false q
    let down := roundAt .rz neg m e false q
    (2 * (near.1 * d) ≤ 2 * m + d ∧ 2 * m ≤ 2 * (near.1 * d) + d)
      ∧ ((2 * (near.1 * d) = 2 * m + d ∨ 2 * m = 2 * (near.1 * d) + d) → near.1 % 2 = 0)
      ∧ (near.2 = true ↔ m % d ≠ 0) ∧ down.1 = m / d
      ∧ (roundAt .rd neg m e false q).1 = (if neg then (m + d - 1) / d else m / d)
      ∧ (roundAt .ru neg m e false q).1 = (if neg then m / d else (m + d - 1) / d) := by
  intro d near down
  have nearest := roundsUp_rne_nearest neg (k := m / d) (Nat.mod_lt m (Nat.two_pow_pos (q - e).toNat))
  rw [Nat.div_add_mod] at nearest
  have hnear : near = _ := roundAt_of_lt .rne neg m h
  have hdown : down = _ := roundAt_of_lt .rz neg m h
  rw [hnear, hdown]
  exact ⟨nearest.1, nearest.2, bne_iff_ne, rfl, roundAt_rd_of_lt neg m h, roundAt_ru_of_lt neg m h⟩

/-- Settles O27, from the cut to a coarser unit, the return of a code from its value, the canonical NaN of each format, and the
rounding before the range of an integer. -/
theorem roundingIsExact : Obligations.RoundingIsExact := by
  unfold Obligations.RoundingIsExact
  refine ⟨fun m e q neg h => roundAt_coarser m neg h, fun f rnd sat code hf h number => roundNum_fpDecode hf rnd sat h number,
    fun rnd sat => ⟨rfl, rfl, rfl, rfl, rfl, rfl⟩, fun f rnd neg m e hf => numToInt_fin hf rnd neg m e⟩

end Sys2Proof.Machine
end

section
/-! SUPPORT. The V forms that combine whole registers: attention triples and the import of MX squares (02 R42; 08 R169, R182, R183). -/

namespace Sys2Proof.Machine

open Sys2Proof.Safety

/-! ## Two landings of one issue (R62) -/

/-- A long landing more is a pending landing more. -/
theorem pending_withLanding (core : Core) {l : Landing} (h : l.long = true) : (withLanding core l).pending = core.pending + 1 := by
  simp only [Core.pending, withLanding, List.filter_append, List.filter_cons, h, if_true, List.filter_nil, List.length_append,
    List.length_cons, List.length_nil]
  omega

/-- A landing after a long one finds room while fewer than fifteen were pending before the two. -/
theorem addLanding_second_ok {x : Ctx} {core : Core} {l k : Landing} (long : l.long = true) (room : core.pending < 15) :
    addLanding x k (withLanding core l) = .ok (withLanding (withLanding core l) { k with pc := x.pc }) := by
  refine addLanding_ok (.inr ?_)
  rw [pending_withLanding _ long]
  omega

/-! ## The arms of `exec` -/

theorem exec_vtri (c : Common) (d a b : Reg) (s : State) : exec (.vtri c d a b) s = execVtri c d a b s := rfl
theorem exec_vtrin (c : Common) (d a b : Reg) (s : State) : exec (.vtrin c d a b) s = execVtrin c d a b s := rfl
theorem exec_vcvtMxImport (c : Common) (d a : Reg) (src : Fmt) (col : Bool) (s : State) :
    exec (.vcvtMxImport c d a src col) s = execVcvtMxImport c d a src col s := rfl

/-! ## Lanes and flags (R155, R183) -/

/-- Only the two zeros have no magnitude bit. -/
theorem magnitude_eq_zero (l : Word) : (l &&& 0x7FFFFFFF == 0) = (l == 0 || l == 0x80000000) := by
  have low : (l &&& 0x7FFFFFFF).toNat = l.toNat % 2 ^ 31 := by
    rw [BitVec.toNat_and]
    exact Nat.and_two_pow_sub_one_eq_mod l.toNat 31
  rw [Bool.eq_iff_iff]
  simp only [beq_iff_eq, Bool.or_eq_true, ← BitVec.toNat_inj, low]
  bv_omega

/-- Lanes that raise no flag raise none together. -/
theorem laneFlags_quiet (f : Fin 128 → Word) (m : Pred) : laneFlags (fun k => (f k, 0)) m = 0 := by
  unfold laneFlags
  generalize List.finRange 128 = ks
  induction ks with
  | nil => rfl
  | cons k ks ih =>
    have keep : (if m.getLsbD k.val then (0 : BitVec 5) ||| 0 else 0) = 0 := by
      rw [BitVec.or_self, ite_self]
    rw [List.foldl_cons, keep]
    exact ih

theorem lanesOf_const (w : Word) : lanesOf (fun _ => (w, 0)) = Vector.replicate 128 w := by
  ext; simp [lanesOf]

/-! ## The words of the MX import (R42, R169) -/

theorem length_mxImport (f : Fmt) (col : Bool) (lanes : List (Word × Bool)) : (mxImport f col lanes).1.length = lanes.length := by
  unfold mxImport
  dsimp only
  split <;> simp

/-- Four pieces of 32 words, one after the other, give word k from piece k / 32. -/
theorem getElem?_four_quarters {α : Type} (q : Nat → List α) (h : ∀ i, (q i).length = 32) {k : Nat} (hk : k < 128) :
    (q 0 ++ (q 1 ++ (q 2 ++ q 3)))[k]? = (q (k / 32))[k % 32]? := by
  simp only [List.getElem?_append, h]
  obtain hq | hq | hq | hq : k / 32 = 0 ∨ k / 32 = 1 ∨ k / 32 = 2 ∨ k / 32 = 3 := by omega
  · rw [hq, if_pos (by omega), Nat.mod_eq_of_lt (by omega)]
  · rw [hq, if_neg (by omega), if_pos (by omega), show k % 32 = k - 32 by omega]
  · rw [hq, if_neg (by omega), if_neg (by omega), if_pos (by omega), show k % 32 = k - 32 - 32 by omega]
  · rw [hq, if_neg (by omega), if_neg (by omega), if_neg (by omega), show k % 32 = k - 32 - 32 - 32 by omega]

/-! ## The three forms with nothing in their way (R169, R182, R183) -/

section
variable {s : State} {x : Ctx} {c : Common} (hx : ctxOf s .v = some x) (clear : Clear x c)
include hx clear

theorem exec_vtri_next (d a b : Reg) (room : x.core.pending < 15) :
    let m := laneMask x c
    let r := combineTriple (tripleOf x a) (tripleOf x b)
    let flags : BitVec 5 := (if m ≠ 0 then r.2.1 else 0) ||| (if m.getLsbD 1 then r.2.2.1 else 0)
      ||| (List.range 128).foldl (fun q k => if m.getLsbD k then q ||| (r.2.2.2[k]?).getD 0 else q) 0
    let top : Lanes := Vector.ofFn fun k => if k.val = 0 then r.1.m else if k.val = 1 then r.1.l else (x.rv (a + 1))[k]
    let lanes : Lanes := Vector.ofFn fun k => (r.1.o[k.val]?).getD 0
    exec (.vtri c d a b) s = .next (issued x c (withLanding
      (withLanding x.core { dest := .v d, lanes := lanes, mask := m, due := x.tide + 12, issued := x.tide, cl := .v, flags := flags, pc := x.pc })
      { dest := .v (d + 1), lanes := top, mask := m, due := x.tide + 12, issued := x.tide, cl := .v, pc := x.pc }) s) := by
  intro m r flags top lanes
  rw [exec_vtri, execVtri]
  refine issueV_ok hx clear ?_
  simp only [bne_iff_ne]
  rw [addLanding_ok (.inr (by omega))]
  exact addLanding_second_ok rfl room

theorem exec_vtrin_next (d a b : Reg) (room : x.core.pending < 15) :
    let m := laneMask x c
    let l : Word := (x.rv (a + 1))[1]
    let masked : Bool := l == 0 || l == 0x80000000
    let quotient (k : Fin 128) : Word × BitVec 5 := if masked then (0, 0) else div32 (x.rv a)[k] l
    let one : Word := if masked then 1 else 0
    exec (.vtrin c d a b) s = .next (issued x c (withLanding
      (landingV x d (lanesOf quotient) m 12 (laneFlags quotient m))
      { dest := .v b, lanes := Vector.replicate 128 one, mask := m &&& 1, due := x.tide + 12, issued := x.tide, cl := .v, pc := x.pc }) s) := by
  intro m l masked quotient one
  rw [exec_vtrin, execVtrin]
  refine issueV_ok hx clear ?_
  simp only [magnitude_eq_zero]
  rw [landV_ok (.inr (Nat.lt_succ_of_lt room))]
  refine (addLanding_second_ok (core := x.core) rfl room).trans ?_
  rw [laneFlags_quiet, lanesOf_const]
  rfl

theorem exec_vcvtMxImport_next (d a : Reg) (src : Fmt) (col : Bool) (room : Room x) :
    let m := laneMask x c
    let quarter (q : Nat) := mxImport src col ((List.range 32).map fun i => (((x.rv a)[32 * q + i]?).getD 0, m.getLsbD (32 * q + i)))
    let lanes : Lanes := Vector.ofFn fun k => ((quarter (k.val / 32)).1[k.val % 32]?).getD 0
    exec (.vcvtMxImport c d a src col) s = .next (issued x c (withLanding x.core
      { dest := .v d, lanes := lanes, mask := m, due := x.tide + 2, issued := x.tide, cl := .v
        flags := (quarter 0).2 ||| (quarter 1).2 ||| (quarter 2).2 ||| (quarter 3).2, pc := x.pc }) s) := by
  intro m quarter lanes
  have length (q : Nat) : (quarter q).1.length = 32 := by simp [quarter, length_mxImport]
  have words (k : Fin 128) : ([quarter 0, quarter 1, quarter 2, quarter 3].flatMap (·.1))[k.val]? = (quarter (k.val / 32)).1[k.val % 32]? := by
    simpa using getElem?_four_quarters (fun q => (quarter q).1) length k.isLt
  have flags : [quarter 0, quarter 1, quarter 2, quarter 3].foldl (fun a q => a ||| q.2) (0 : BitVec 5)
      = (quarter 0).2 ||| (quarter 1).2 ||| (quarter 2).2 ||| (quarter 3).2 := by simp
  rw [exec_vcvtMxImport, execVcvtMxImport]
  refine issueV_ok hx clear ((addLanding_ok (.inr room)).trans ?_)
  simp only [m, quarter, lanes] at words flags ⊢
  rw [flags]
  simp only [words]
end

/-- Settles O31, form by form: VTRI, VTRIN and the MX import each land what they compute. -/
theorem tripleAndImportForms : Obligations.TripleAndImportForms := by
  unfold Obligations.TripleAndImportForms
  intro s x c d a b src col hx clear room
  exact ⟨exec_vtri_next hx clear d a b room, exec_vtrin_next hx clear d a b room,
    exec_vcvtMxImport_next hx clear d a src col (Nat.lt_succ_of_lt room)⟩

end Sys2Proof.Machine
end

section
/-! SUPPORT. The registers and the issue state of a core (03): the hard-wired registers, what a trap saves and a return reloads, and the
moves of the issue points. -/

namespace Sys2Proof.Machine

open Sys2Proof.Safety

/-! ## Hard-wired registers (R54) -/

/-- The guard (!p0) switches off every lane (R54, R82). -/
theorem laneMask_not_p0 (x : Ctx) : laneMask x { guard := 0, sense := true, en := true } = 0 :=
  show ~~~(BitVec.allOnes 128) = 0 by simp

theorem guardOn_not_p0 (x : Ctx) : guardOn x { guard := 0, sense := true, en := true } = false :=
  show (false || (BitVec.allOnes 128).getLsbD 0 != true) = false by simp

/-- Settles O7, from what a register reads after a write. -/
theorem hardwiredRegisters : Obligations.HardwiredRegisters := by
  unfold Obligations.HardwiredRegisters
  intro r i j v p q w m
  refine ⟨rg_zero r, rp_zero r, rfl, rfl, fun hi => ?_, fun hj => ?_, fun hp => ?_, fun hq => ?_,
    fun x _ => ⟨laneMask_not_p0 x, guardOn_not_p0 x⟩⟩
  · rw [rg_setG, if_neg hi, if_pos rfl]
  · rw [rg_setG, if_neg hj]
    exact ite_eq_right_iff.2 fun h => by rw [h, rg_zero]
  · rw [rp_setP, if_neg hp, if_pos rfl]
  · rw [rp_setP, if_neg hq]
    exact ite_eq_right_iff.2 fun h => by rw [h, rp_zero]

/-! ## Traps and the return (R61, R71, R74) -/

/-- TRAPC holds the cluster above the eight bits of the code (R71). -/
theorem trapcOf_eq (cl : Cl) (code : BitVec 8) : trapcOf cl code = BitVec.ofNat 64 (256 * cl.code.toNat + code.toNat) := by
  refine BitVec.eq_of_toNat_eq ?_
  rw [trapcOf, BitVec.toNat_append, BitVec.toNat_append, BitVec.toNat_ofNat,
    ← Nat.shiftLeft_add_eq_or_of_lt code.isLt, BitVec.ofNat_eq_ofNat, BitVec.toNat_zero, Nat.zero_shiftLeft, Nat.zero_or, Nat.shiftLeft_eq]
  have := cl.code.isLt
  omega

theorem queueNull_eq (q : Vector QEntry 3) : queueNull q = BitVec.ofNat 64
    ((if q[0].null then 1 else 0) + (if q[1].null then 2 else 0) + (if q[2].null then 4 else 0)) := by
  unfold queueNull
  cases q[0].null <;> cases q[1].null <;> cases q[2].null <;> rfl

/-- TNULL keeps each entry's nullify bit at the entry's place (R61). -/
theorem queueNull_getLsbD (q : Vector QEntry 3) (i : Fin 3) : (queueNull q).getLsbD i.val = q[i].null := by
  have bits : ∀ a b c : Bool, ∀ i : Fin 3,
      (BitVec.ofNat 64 ((if a then 1 else 0) + (if b then 2 else 0) + (if c then 4 else 0))).getLsbD i.val = #v[a, b, c][i] := by decide
  rw [queueNull_eq, bits]
  match i with
  | 0 | 1 | 2 => rfl

/-- Settles O10: each register of the trap reads the field that taking it wrote. -/
theorem trapSavesTheIssueState : Obligations.TrapSavesTheIssueState := by
  unfold Obligations.TrapSavesTheIssueState
  intro c cl code tval pc q
  have trapq (i : Fin 3) : (q.map (·.addr))[i] = q[i].addr := Vector.getElem_map ..
  refine ⟨fun tide => ⟨congrArg some (trapcOf_eq cl code), rfl, rfl, congrArg some (trapq 0), congrArg some (trapq 1),
    congrArg some (trapq 2), congrArg some (queueNull_eq q)⟩, rfl, rfl, rfl, rfl, rfl, rfl, rfl, rfl, rfl⟩

/-- An entry that a trap saved comes back as it was (R61, R153). -/
theorem returnFromTrap_takeTrap_q (c : Core) (trapc tval pc : Dword) :
    (returnFromTrap { takeTrap c trapc tval pc c.regs.q with trapped := true }).regs.q = c.regs.q := by
  refine Vector.ext fun i hi => ?_
  have addr : (c.regs.q.map (·.addr))[i] = c.regs.q[i].addr := Vector.getElem_map ..
  have null : (queueNull c.regs.q).getLsbD i = c.regs.q[i].null := queueNull_getLsbD c.regs.q ⟨i, hi⟩
  simp [returnFromTrap, takeTrap, Core.mapCtl, null]

/-- Settles O11: the queue comes back entry by entry, and nothing else was moved. -/
theorem returnUndoesTheTrap : Obligations.ReturnUndoesTheTrap := by
  unfold Obligations.ReturnUndoesTheTrap
  intro c trapc tval pc
  refine ⟨returnFromTrap_takeTrap_q c trapc tval pc, rfl, rfl, rfl, rfl, rfl, rfl, ?_⟩
  show (if trapc.setWidth 8 = cBreak then _ else _) = _
  rw [BitVec.setWidth_eq_extractLsb' (by omega)]
  rfl

/-! ## The issue points (R59, R83, R94, R257) -/

/-- The target of a taken branch, or next(q2), joins the queue, and its nullify bit is clear. -/
theorem advanceQueue_last (lines : List (BitVec 512)) (q : Vector QEntry 3) (how : How) :
    (advanceQueue lines q how)[2].addr = (match how.target with | some t => t | none => (nextAddr lines q[2].addr).addr)
      ∧ (advanceQueue lines q how)[2].null = false := by
  obtain ⟨idle, target, nullSlots, rdv, kind⟩ := how
  cases target with
  | none => exact ⟨rfl, rfl⟩
  | some t => exact ⟨rfl, rfl⟩

/-- What an issue of S leaves of the queue and of its next cycle. -/
theorem retire_s {x : Ctx} (c : Common) (how : How) (core : Core) (h : x.cl = .s) :
    (retire x c how core).regs.q = advanceQueue x.g.lines core.regs.q how
      ∧ (retire x c how core).regs.sNext = x.tide + how.idle + c.idle.toNat + 1 := by
  obtain ⟨k, hb, cl, g, own, s⟩ := x
  subst h
  exact ⟨rfl, rfl⟩

/-- The issue point of V, M or X after an issue of its cluster. -/
def movedPoint (x : Ctx) (c : Common) (how : How) (p : Point) : Point :=
  { p with
    addr := (nextAddr x.g.lines x.pc).addr, line := (nextAddr x.g.lines x.pc).line
    next := if c.group then p.next
      else x.tide + how.idle + (if x.cl = .v then groupIdle x.g.lines x.pc else c.idle.toNat) + 1
    parked := how.rdv, joined := p.joined || how.rdv }

/-- An issue of V, M or X moves its own point alone. -/
theorem retire_points {x : Ctx} (c : Common) (how : How) (core : Core) (h : x.cl ≠ .s) (i : Fin 3) :
    (retire x c how core).regs.points[i]
      = if pointIndex x.cl = i then movedPoint x c how core.regs.points[i] else core.regs.points[i] := by
  have points : (retire x c how core).regs.points = vmod core.regs.points (pointIndex x.cl).val (movedPoint x c how) := by
    obtain ⟨k, hb, cl, g, own, s⟩ := x
    cases cl with
    | s => exact absurd rfl h
    | v | m | x => rfl
  rw [points]
  simp only [Fin.getElem_fin, vmod_get _ _ _ _ i.isLt, Fin.val_inj]

/-- Settles O4: S by the queue's advance, the others by the one point that an issue moves. -/
theorem queueAndIssuePointsAdvance : Obligations.QueueAndIssuePointsAdvance := by
  unfold Obligations.QueueAndIssuePointsAdvance
  refine ⟨fun x c how core hs => ?_, fun x c how core hs => ?_⟩
  · obtain ⟨hq, hn⟩ := retire_s c how core hs
    obtain ⟨addr, null⟩ := advanceQueue_last x.g.lines core.regs.q how
    dsimp only
    rw [hq, hn]
    exact ⟨rfl, rfl, addr, rfl, rfl, null, rfl⟩
  · have own := retire_points c how core hs (pointIndex x.cl)
    rw [if_pos rfl] at own
    dsimp only
    rw [own]
    refine ⟨rfl, rfl, rfl, rfl, fun cl' _ other => ?_⟩
    rw [retire_points c how core hs, if_neg (Ne.symm other)]

end Sys2Proof.Machine
end

section
/-! SUPPORT. The control registers (03 R65 to R73; 07 R154): MFC and MTC with the causes of their decode, and the map. -/

namespace Sys2Proof.Machine

open Sys2Proof.Safety

/-! ## The moves (R65, R154) -/

theorem exec_mfc (c : Common) (d : Reg) (num : BitVec 12) (s : State) : exec (.mfc c d num) s = execMfc c d num s := rfl
theorem exec_mtc (c : Common) (d : Reg) (num : BitVec 12) (s : State) : exec (.mtc c d num) s = execMtc c d num s := rfl

/-- With its guard off an instruction still meets the causes that no guard turns off. -/
theorem issueHow_off_cause {cl : Cl} {c : Common} {how : Ctx → How} {on off : Body} {s : State} {x : Ctx} {e : Cause}
    (hx : ctxOf s cl = some x) (clear : Clear x c) (guard : guardOn x c = false) (h : off x = .error e) :
    issueHow cl c how on off s = .next (caused x c e (how x)) := by
  simp only [issueHow, hx]
  exact issueIn_error clear (by simp only [guard, Bool.false_eq_true, if_false]; exact h)

section
variable {x : Ctx} {n : Nat}

theorem ctlDecode_absent (h : readCtl x.core x.tide n = none) (writes : Bool) : ctlDecode x n writes = some (x.formCause cIllegalOp) := by
  simp [ctlDecode, h]

theorem ctlDecode_read (h : (readCtl x.core x.tide n).isSome = true) : ctlDecode x n false = none := by
  simp [ctlDecode, Option.isSome_iff_ne_none.1 h]

/-- An MTC of a register of the map meets a cause of decode exactly when it is read-only. -/
theorem ctlDecode_write (h : (readCtl x.core x.tide n).isSome = true) :
    ctlDecode x n true = if ctlReadOnly n then some (x.formCause cIllegalPriv) else none := by
  simp [ctlDecode, Option.isSome_iff_ne_none.1 h]

/-- The value of an MTC is refused in a TSHP alone, by R56. -/
theorem ctlCause_there (h : (readCtl x.core x.tide n).isSome = true) (v : Dword) :
    ctlCause x n v = if (0x10 ≤ n && n < 0x18) && !tshpOk v then some { code := cFormat, tval := v } else none := by
  simp [ctlCause, Option.isSome_iff_ne_none.1 h, and_assoc]

/-- The registers of tile shapes may be written. -/
theorem ctlReadOnly_tshp (h : (0x10 ≤ n && n < 0x18) = true) : ctlReadOnly n = false := by
  simp [ctlReadOnly] at h ⊢
  omega
end

section
variable {s : State} {x : Ctx} {c : Common} (hx : ctxOf s .s = some x) (clear : Clear x c) (d : Reg) (num : BitVec 12)
include hx clear

theorem exec_mfc_next {v : Dword} (on : guardOn x c = true) (h : readCtl x.core x.tide num.toNat = some v) :
    exec (.mfc c d num) s = .next (issued x c (landingG x d v 1) s) := by
  rw [exec_mfc, execMfc]
  refine issueHow_on hx clear on ?_
  simp only [onCore, h, landG_ok (.inl (Nat.le_refl 1)), Except.map, ctxOf_s hx]

/-- What an MTC with its guard on meets, or its write at the end of the cycle. -/
theorem exec_mtc_on (on : guardOn x c = true) :
    exec (.mtc c d num) s = .next (match (ctlDecode x num.toNat true).or (ctlCause x num.toNat (x.rg d)) with
      | some e => caused x c e
      | none => issued x c { x.core with atEnd := x.core.atEnd ++ [.ctl num (x.rg d)] } s) := by
  rw [exec_mtc, execMtc]
  split
  · exact issueHow_cause hx clear on (by simp only [onCore, *, Except.map])
  · exact issueHow_on hx clear on (by simp only [onCore, *, Except.map, ctxOf_s hx])

/-- With the guard off only the causes of decode are met. -/
theorem ctl_off {on : Body} {writes : Bool} (off : guardOn x c = false) :
    issue .s c on (ctlOff num.toNat writes) s = .next (match ctlDecode x num.toNat writes with
      | some e => caused x c e
      | none => issued x c x.core s) := by
  rw [issue]
  split
  · exact issueHow_off_cause hx clear off (by simp only [ctlOff, *])
  · exact issueHow_off hx clear off (by simp only [ctlOff, *, nothing, ctxOf_s hx])

end

/-- Settles O12: the causes of decode, the cause of a refused shape, and the moves themselves. -/
theorem controlRegisterMoves : Obligations.ControlRegisterMoves := by
  unfold Obligations.ControlRegisterMoves
  refine ⟨fun s x c d num hx clear on => ⟨fun v hv => ?_, fun absent => ⟨?_, ?_⟩⟩, fun s x c d num hx clear off => ⟨fun there => ⟨?_, ?_⟩, ?_⟩⟩
  · have there : (readCtl x.core x.tide num.toNat).isSome = true := by rw [hv]; rfl
    have mtc := exec_mtc_on hx clear d num on
    rw [ctlDecode_write there, ctlCause_there there] at mtc
    refine ⟨exec_mfc_next hx clear d num on hv, fun rw_ shape => ?_, fun ro => ?_, fun shape bad => ?_⟩
    · rw [mtc, rw_]
      rcases shape with shape | shape <;> simp [shape]
    · rw [mtc, ro]
      rfl
    · rw [mtc, ctlReadOnly_tshp shape, shape, bad]
      rfl
  · rw [exec_mfc, execMfc]
    exact issueHow_cause hx clear on (by simp only [onCore, absent, Except.map]; rfl)
  · rw [exec_mtc_on hx clear d num on, ctlDecode_absent absent]
    rfl
  · rw [exec_mfc, execMfc, ctl_off hx clear num off, ctlDecode_read there]
  · rw [exec_mtc, execMtc, ctl_off hx clear num off, ctlDecode_write there]
    cases ctlReadOnly num.toNat <;> rfl
  · intro there i hi
    have absent : readCtl x.core x.tide num.toNat = none := by simpa using there
    simp only [List.mem_cons, List.not_mem_nil, or_false] at hi
    rcases hi with rfl | rfl
    · rw [exec_mfc, execMfc, ctl_off hx clear num off, ctlDecode_absent absent]; rfl
    · rw [exec_mtc, execMtc, ctl_off hx clear num off, ctlDecode_absent absent]; rfl

/-! ## The map of the control registers (R66) -/

theorem mem_map_add_range {n b k : Nat} : n ∈ (List.range k).map (b + ·) ↔ b ≤ n ∧ n < b + k := by
  simp only [List.mem_map, List.mem_range]
  exact ⟨fun ⟨i, hi, h⟩ => by omega, fun h => ⟨n - b, by omega, by omega⟩⟩

/-- The read-only registers of the map. -/
def ctlFixed : List Nat := [0x000, 0x001, 0x002, 0x003, 0x004, 0x050, 0x080, 0x081, 0x082, 0x083, 0x084, 0x085, 0x087, 0x090, 0x0C0]
/-- Its writable registers that stand alone, and all of them, with TSHP, VCNT, BND and AGUD in rows. -/
def ctlLone : List Nat := [0x040, 0x041, 0x048, 0x049, 0x058, 0x060, 0x070, 0x071, 0x072, 0x086, 0x0A0, 0x0A8, 0x0B0]
def ctlWritable : List Nat :=
  (List.range 8).map (0x010 + ·) ++ (List.range 4).map (0x020 + ·) ++ (List.range 16).map (0x030 + ·)
    ++ [0x040, 0x041, 0x048, 0x049, 0x058, 0x060] ++ (List.range 8).map (0x068 + ·) ++ [0x070, 0x071, 0x072, 0x086, 0x0A0, 0x0A8, 0x0B0]

theorem mem_ctlWritable {n : Nat} : n ∈ ctlWritable ↔ (0x10 ≤ n ∧ n < 0x18) ∨ (0x20 ≤ n ∧ n < 0x24) ∨ (0x30 ≤ n ∧ n < 0x40)
    ∨ (0x68 ≤ n ∧ n < 0x70) ∨ n ∈ ctlLone := by
  simp only [ctlWritable, ctlLone, List.mem_append, mem_map_add_range, List.mem_cons, List.not_mem_nil, or_false]
  omega

/-- No register of a row stands alone. -/
theorem mem_ctlLone_of_alone {n : Nat} (h : n ∈ ctlWritable) (alone : n ∈ ctlFixed ++ ctlLone) : n ∈ ctlLone := by
  rw [mem_ctlWritable] at h
  simp only [ctlFixed, ctlLone, List.mem_append, List.mem_cons, List.not_mem_nil, or_false] at h alone ⊢
  omega

/-- A number off the registers that stand alone names an entry of a row, or nothing. -/
theorem readCtl_row (c : Core) (tide : Nat) {n : Nat} (h : n ∉ ctlFixed ++ ctlLone) :
    readCtl c tide n = if 0x10 ≤ n ∧ n < 0x18 then c.regs.ctl.tshp[n - 0x10]?
      else if 0x20 ≤ n ∧ n < 0x24 then c.regs.ctl.vcnt[n - 0x20]?
      else if n = 0x30 then some 0
      else if 0x30 < n ∧ n < 0x40 then c.regs.ctl.bnd[n - 0x30]?
      else if 0x68 ≤ n ∧ n < 0x70 then c.regs.ctl.agud[n - 0x68]?
      else none := by
  unfold readCtl
  dsimp only
  split
  iterate 28 exact absurd (by decide) h
  rfl

/-- Each register that stands alone reads. -/
theorem readCtl_alone (c : Core) (tide : Nat) {n : Nat} (h : n ∈ ctlFixed ++ ctlLone) : (readCtl c tide n).isSome = true := by
  revert n
  simp only [ctlFixed, ctlLone, List.cons_append, List.nil_append, List.forall_mem_cons]
  simp [readCtl]

/-- A number within a row names an entry of it. -/
theorem isSome_row {k : Nat} (row : Vector Dword k) {b n : Nat} (h : b ≤ n ∧ n < b + k) : (row[n - b]?).isSome = true := by
  rw [Vector.getElem?_eq_getElem (by omega)]
  rfl

theorem readCtl_isSome (c : Core) (tide n : Nat) : (readCtl c tide n).isSome = true ↔ n ∈ ctlFixed ++ ctlWritable := by
  by_cases h : n ∈ ctlFixed ++ ctlLone
  · refine iff_of_true (readCtl_alone c tide h) ?_
    rcases List.mem_append.1 h with fixed | lone
    · exact List.mem_append_left _ fixed
    · exact List.mem_append_right _ (mem_ctlWritable.2 (.inr (.inr (.inr (.inr lone)))))
  · rw [readCtl_row c tide h]
    rw [List.mem_append, not_or] at h
    simp only [List.mem_append, mem_ctlWritable, h.1, h.2, false_or, or_false]
    split
    · exact iff_of_true (isSome_row _ ‹_›) (by omega)
    split
    · exact iff_of_true (isSome_row _ ‹_›) (by omega)
    split
    · exact iff_of_true rfl (by omega)
    split
    · exact iff_of_true (isSome_row (b := 0x30) _ (by omega)) (by omega)
    split
    · exact iff_of_true (isSome_row _ ‹_›) (by omega)
    · exact iff_of_false Bool.false_ne_true (by omega)

/-- What a write leaves of the registers that stand alone. -/
theorem setCtl_frame (r : Ctl) (n : Nat) (v : Dword) :
    (n ≠ 0x001 → (setCtl r n v).phase = r.phase) ∧ (n ≠ 0x040 → (setCtl r n v).bndlog = r.bndlog)
      ∧ (n ≠ 0x041 → (setCtl r n v).bndm = r.bndm) ∧ (n ≠ 0x048 → (setCtl r n v).pruneref = r.pruneref)
      ∧ (n ≠ 0x049 → (setCtl r n v).pmargin = r.pmargin) ∧ (n ≠ 0x058 → (setCtl r n v).voidmode = r.voidmode)
      ∧ (n ≠ 0x060 → (setCtl r n v).crcx = r.crcx) ∧ (n ≠ 0x070 → (setCtl r n v).seed0 = r.seed0)
      ∧ (n ≠ 0x071 → (setCtl r n v).seed1 = r.seed1) ∧ (n ≠ 0x072 → (setCtl r n v).dropp = r.dropp)
      ∧ (n ≠ 0x080 → (setCtl r n v).trapc = r.trapc) ∧ (n ≠ 0x081 → (setCtl r n v).tval = r.tval)
      ∧ (n < 0x082 ∨ 0x084 < n → (setCtl r n v).trapq = r.trapq) ∧ (n ≠ 0x085 → (setCtl r n v).tnull = r.tnull)
      ∧ (n ≠ 0x086 → (setCtl r n v).bpaddr = r.bpaddr) ∧ (n ≠ 0x087 → (setCtl r n v).trappc = r.trappc)
      ∧ (n ≠ 0x0A0 → (setCtl r n v).fstat = r.fstat) ∧ (n ≠ 0x0A8 → (setCtl r n v).aflags = r.aflags)
      ∧ (n ≠ 0x0B0 → (setCtl r n v).fpcsr = r.fpcsr) ∧ (n ≠ 0x0C0 → (setCtl r n v).capb = r.capb)
      ∧ (setCtl r n v).gangid = r.gangid ∧ (setCtl r n v).coreloc = r.coreloc ∧ (setCtl r n v).ensign = r.ensign := by
  unfold setCtl
  dsimp only
  split
  iterate 22 simp
  grind

/-- What a write leaves of the rows, and the entry that it writes. -/
theorem setCtl_rows (r : Ctl) (n : Nat) (v : Dword) :
    (∀ i, (setCtl r n v).tshp[i]? = if n = 0x10 + i ∧ i < 8 then some (v &&& ctlMask n) else r.tshp[i]?)
      ∧ (∀ i, (setCtl r n v).vcnt[i]? = if n = 0x20 + i ∧ i < 4 then some (v &&& ctlMask n) else r.vcnt[i]?)
      ∧ (∀ i, (setCtl r n v).bnd[i]? = if n = 0x30 + i ∧ 0 < i ∧ i < 16 then some (v &&& ctlMask n) else r.bnd[i]?)
      ∧ (∀ i, (setCtl r n v).agud[i]? = if n = 0x68 + i ∧ i < 8 then some (v &&& ctlMask n) else r.agud[i]?) := by
  unfold setCtl
  dsimp only
  split
  iterate 22
    exact ⟨fun i => (if_neg (by omega)).symm, fun i => (if_neg (by omega)).symm, fun i => (if_neg (by omega)).symm,
      fun i => (if_neg (by omega)).symm⟩
  grind

theorem readCtl_setCtlReg_lone (c : Core) (tide : Nat) (v : Dword) :
    ∀ n ∈ ctlLone, readCtl (setCtlReg c n v) tide n = some (v &&& ctlMask n) := by
  simp only [ctlLone, List.forall_mem_cons]
  exact ⟨rfl, rfl, rfl, rfl, rfl, rfl, rfl, rfl, rfl, rfl, rfl, rfl, rfl, nofun⟩

/-- A write to a register of the map reads back under its mask; BND0 keeps nothing. -/
theorem readCtl_setCtlReg_same (c : Core) (tide : Nat) (v : Dword) {n : Nat} (h : n ∈ ctlWritable) (h0 : n ≠ 0x30) :
    readCtl (setCtlReg c n v) tide n = some (v &&& ctlMask n) := by
  by_cases alone : n ∈ ctlFixed ++ ctlLone
  · exact readCtl_setCtlReg_lone c tide v n (mem_ctlLone_of_alone h alone)
  · obtain ⟨tshp, vcnt, bnd, agud⟩ := setCtl_rows c.regs.ctl n v
    rw [readCtl_row _ _ alone]
    simp only [setCtlReg, tshp, vcnt, bnd, agud]
    rcases mem_ctlWritable.1 h with h | h | h | h | lone
    · rw [if_pos h, if_pos (by omega)]
    · rw [if_neg (by omega), if_pos h, if_pos (by omega)]
    · rw [if_neg (by omega), if_neg (by omega), if_neg h0, if_pos (by omega), if_pos (by omega)]
    · rw [if_neg (by omega), if_neg (by omega), if_neg (by omega), if_neg (by omega), if_pos h, if_pos (by omega)]
    · exact absurd (List.mem_append_right _ lone) alone

/-- Another register of the map but PARKFREE, which TSHP moves, reads as before. -/
theorem readCtl_setCtlReg_other (c : Core) (tide : Nat) (v : Dword) {n m : Nat} (h : n ∈ ctlWritable) (hm : m ≠ n) (free : m ≠ 0x050) :
    readCtl (setCtlReg c n v) tide m = readCtl c tide m := by
  obtain ⟨phase, bndlog, bndm, pruneref, pmargin, voidmode, crcx, seed0, seed1, dropp, trapc, tval, trapq, tnull, bpaddr, trappc, fstat,
    aflags, fpcsr, capb, gangid, coreloc, ensign⟩ := setCtl_frame c.regs.ctl n v
  obtain ⟨tshp, vcnt, bnd, agud⟩ := setCtl_rows c.regs.ctl n v
  by_cases alone : m ∈ ctlFixed ++ ctlLone
  · rw [mem_ctlWritable] at h
    simp only [ctlLone, List.mem_cons, List.not_mem_nil, or_false] at h
    have saved : (setCtl c.regs.ctl n v).trapq = c.regs.ctl.trapq := trapq (by omega)
    have pending : (setCtlReg c n v).pending = c.pending := rfl
    have ctl : (setCtlReg c n v).regs.ctl = setCtl c.regs.ctl n v := rfl
    clear trapq
    simp only [readCtl, ctl, pending, saved]
    split <;> grind
  · rw [readCtl_row _ _ alone, readCtl_row _ _ alone]
    simp only [setCtlReg, tshp, vcnt, bnd, agud]
    exact ite_congr rfl (fun _ => if_neg (by omega)) fun _ => ite_congr rfl (fun _ => if_neg (by omega)) fun _ =>
      ite_congr rfl (fun _ => rfl) fun _ => ite_congr rfl (fun _ => if_neg (by omega)) fun _ =>
      ite_congr rfl (fun _ => if_neg (by omega)) fun _ => rfl

theorem ctlReadOnly_fixed {n : Nat} (h : n ∈ ctlFixed) : ctlReadOnly n = true := by
  revert n
  decide

theorem ctlReadOnly_writable {n : Nat} (h : n ∈ ctlWritable) : ctlReadOnly n = false := by
  revert n
  decide

/-- Settles O13: a write reads back under the register's mask, and every other register as before. -/
theorem controlRegisterMap : Obligations.ControlRegisterMap := by
  unfold Obligations.ControlRegisterMap
  intro c tide n m v ro rw_ keeps
  have same (ns : List Nat) (mask : Dword) (h : ∀ r ∈ ns, r ∈ ctlWritable ∧ r ≠ 0x30 ∧ ctlMask r = mask) : keeps ns mask := by
    intro r hr
    obtain ⟨there, kept, eq⟩ := h r hr
    rw [readCtl_setCtlReg_same c tide v there kept, eq]
  refine ⟨readCtl_isSome c tide n, ctlReadOnly_fixed, ctlReadOnly_writable, same _ _ ?_, same _ _ ?_, same _ _ ?_, same _ _ ?_, same _ _ ?_,
    same _ _ ?_, same _ _ ?_, same _ _ ?_, same _ _ ?_, fun there hm free => readCtl_setCtlReg_other c tide v there hm free, rfl, rfl⟩
  all_goals decide

end Sys2Proof.Machine
end

section
/-! SUPPORT. Direction access to accumulators and tiles (03 R57, R58; 08 R170 to R174): what a direction read delivers and what a direction
write lands. -/

namespace Sys2Proof.Machine

open Sys2Proof.Safety

/-! ## Directions (R57) -/

theorem exec_vmovDirRead (c : Common) (d : Reg) (sp : Spec) (ty : Fmt) (s : State) :
    exec (.vmovDirRead c d sp ty) s = execVmovDirRead c d sp ty s := rfl

/-- The index register of a specifier, g0 reading zero. -/
theorem specIdx_eq (x : Ctx) (sp : Spec) : specIdx x sp = if sp.idx = 0 then 0 else x.rg (sp.idx.setWidth 6) := by
  unfold specIdx Regs.rgn
  by_cases h : sp.idx = 0
  · simp [h]
  · have hn : sp.idx.toNat ≠ 0 := fun e => h (BitVec.eq_of_toNat_eq e)
    have hw : (sp.idx.setWidth 6).toNat = sp.idx.toNat := by simp; omega
    have h6 : sp.idx.setWidth 6 ≠ 0 := fun e => hn (by rw [← hw, e]; rfl)
    rw [if_neg hn, if_neg h, Ctx.rg, Regs.rg, if_neg h6]
    simp only [hw]
    rw [Vector.getElem?_eq_getElem (by omega)]
    rfl

/-- The element or cell of lane `k`, by the direction. -/
theorem dirElem_eq (acc : Bool) (d : Dir) (idx : Dword) (k : Nat) :
    dirElem acc d idx k =
      let n := idx.toNat % 128
      let seg := if acc then 0 else idx.toNat / 128 % 4
      match d with
      | .col => (k, n + 128 * seg)
      | .diag => (k, 128 * seg + k)
      | _ => (n, 128 * seg + k) := by
  have low : (idx.extractLsb' 0 7).toNat = idx.toNat % 128 := by simp
  have high : (idx.extractLsb' 7 2).toNat = idx.toNat / 128 % 4 := by simp [Nat.shiftRight_eq_div_pow]
  cases d <;> simp only [dirElem, low, high]

/-! ## Sound blocks (R58, R275, R378) -/

theorem detectAll_of_sound {b : Cells} (h : hasLatent b = false) : detectAll b = b := by simp [detectAll, h]
theorem readable_of_valid {b : Cells} (h : blkValid b = true) : readable b = b := if_pos h

theorem codeKnown_fmtByte (f : Fmt) : codeKnown (fmtByte f) = true := by cases f <;> rfl

/-- A block without a code of its own, or with the format's, agrees with the format (R31). -/
theorem blockDisagrees_of_mem {f : Fmt} {b : Cells} (h : blkFormat b ∈ [0, fmtByte f]) : blockDisagrees (fmtByte f) b = false := by
  have none_ : codeKnown 0#8 = true := rfl
  simp only [List.mem_cons, List.not_mem_nil, or_false] at h
  rcases h with h | h
  · simp [blockDisagrees, h, codeKnown_fmtByte, none_]
  · simp [blockDisagrees, h, codeKnown_fmtByte]

/-- Words in which nothing is damaged are read without a mark. -/
theorem readParts_of_sound {s : State} {l : List (Slot × Nat × Nat)} (h : ∀ e ∈ l, hasLatent (rawBlock s.mem e.1) = false) :
    readParts s l = s := by
  refine if_neg ?_
  simp only [List.any_eq_true, List.mem_eraseDups, List.mem_map, not_exists, not_and, Bool.not_eq_true]
  rintro sl ⟨e, he, rfl⟩
  exact h e he

/-! ## What a direction read delivers (R57, R58, R170) -/

/-- Lane `k` of a direction read of a tile: its element, and zero in a lane that is inactive or beyond the shape. -/
def dirLane (x : Ctx) (sp : Spec) (f : Fmt) (mask : Pred) (k : Nat) : Word × BitVec 5 :=
  let p := dirElem false sp.dir (specIdx x sp) k
  if mask.getLsbD k && inShape (specShape x sp) f p then elemLane (tileBlocks x.s x.core.num sp.num.toNat) f p.1 p.2 else (0, 0)

/-- A fold over the numbers below `n` that meet a condition is one over all of them that passes over the others. -/
theorem foldl_filter_range {α : Type} (n : Nat) (p : Nat → Bool) (g : α → Nat → α) (a : α) :
    ((List.range n).filter p).foldl g a = (List.finRange n).foldl (fun a k => if p k.val then g a k.val else a) a := by
  have range : List.range n = (List.finRange n).map Fin.val := by
    refine List.ext_getElem (by rw [List.length_map, List.length_finRange, List.length_range]) fun i _ _ => ?_
    rw [List.getElem_range, List.getElem_map, List.getElem_finRange]
    rfl
  rw [List.foldl_filter, range, List.foldl_map]

/-- The flags of the lanes that reach an element are those of the active lanes. -/
theorem foldl_lanesIn (x : Ctx) (sp : Spec) (f : Fmt) (mask : Pred) :
    (lanesIn (specShape x sp) f sp.dir (specIdx x sp) mask).foldl (fun a k => a ||| (dirLane x sp f mask k).2) 0
      = laneFlags (fun k => dirLane x sp f mask k.val) mask := by
  rw [lanesIn, foldl_filter_range, laneFlags]
  congr
  funext a k
  by_cases on : mask.getLsbD k.val = true
  · by_cases inside : inShape (specShape x sp) f (dirElem false sp.dir (specIdx x sp) k.val) = true <;> simp [dirLane, on, inside]
  · simp only [Bool.eq_false_iff.2 on, Bool.false_and, Bool.false_eq_true, if_false]

/-- A block of a tile that is no error to read for format `f` (R31, R69, R275, R378). -/
def Sound (f : Fmt) (b : Cells) : Prop :=
  blkValid b = true ∧ blkFormat b ∈ [0, fmtByte f] ∧ hasLatent b = false ∧ ∀ w, blkMarked b w = false

section
variable {x : Ctx} {sp : Spec} {f : Fmt} (sound : ∀ b ∈ tileBlocks x.s x.core.num sp.num.toNat, Sound f b)
include sound

theorem tileBlocks_detected : (tileBlocks x.s x.core.num sp.num.toNat).map detectAll = tileBlocks x.s x.core.num sp.num.toNat :=
  List.map_congr_left (fun b hb => have ⟨_, _, intact, _⟩ := sound b hb; detectAll_of_sound intact) |>.trans (List.map_id _)

theorem tileBlocks_readable : (tileBlocks x.s x.core.num sp.num.toNat).map readable = tileBlocks x.s x.core.num sp.num.toNat :=
  List.map_congr_left (fun b hb => readable_of_valid (sound b hb).1) |>.trans (List.map_id _)

theorem blockAt_sound {b : Nat} (h : b < 8) : Sound f (blockAt (tileBlocks x.s x.core.num sp.num.toNat) b) := by
  have length : (tileBlocks x.s x.core.num sp.num.toNat).length = 8 := by simp [tileBlocks, tileSlots]
  rw [blockAt, List.getElem?_eq_getElem (by omega)]
  exact sound _ (List.getElem_mem _)

theorem blockAt_unmarked (b w : Nat) : blkMarked (blockAt (tileBlocks x.s x.core.num sp.num.toNat) b) w = false := by
  unfold blockAt
  cases h : (tileBlocks x.s x.core.num sp.num.toNat)[b]? with
  | none => simp [blkMarked, cbit, cget]
  | some c =>
    obtain ⟨-, -, -, unmarked⟩ := sound c (List.mem_of_getElem? h)
    exact unmarked w

/-- A direction read of sound blocks meets no cause and delivers the elements. -/
theorem dirRead_sound {mask : Pred} (shape : tshpFmt (specShape x sp) = some f) (narrow : f ≠ .i64 ∧ f ≠ .n64) :
    ∃ lanes : Lanes, (∀ k : Fin 128, mask.getLsbD k.val = true → lanes[k] = (dirLane x sp f mask k.val).1)
      ∧ dirRead x sp mask = .ok (lanes, laneFlags (fun k => dirLane x sp f mask k.val) mask, false) := by
  by_cases hm : mask = 0
  · subst hm
    refine ⟨Vector.replicate 128 0, fun k hk => ?_, ?_⟩
    · simp at hk
    · have none_ : lanesIn (specShape x sp) f sp.dir (specIdx x sp) 0 = [] := List.filter_eq_nil_iff.2 fun k _ => by
        rw [BitVec.ofNat_eq_ofNat, BitVec.getLsbD_zero, Bool.false_and]
        exact Bool.false_ne_true
      have quiet : laneFlags (fun k => dirLane x sp f 0 k.val) 0 = 0 := by
        rw [← foldl_lanesIn, none_]
        rfl
      rw [quiet, dirRead, if_pos rfl]
  · refine ⟨Vector.ofFn fun k => (dirLane x sp f mask k.val).1, fun k _ => by simp, ?_⟩
    have touched {b : Nat} (h : b ∈ blocksIn (specShape x sp) f sp.dir (specIdx x sp) mask) :
        Sound f (blockAt (tileBlocks x.s x.core.num sp.num.toNat) b) :=
      blockAt_sound sound (List.mem_range.1 (List.mem_filter.1 h).1)
    have agree : (blocksIn (specShape x sp) f sp.dir (specIdx x sp) mask).filter
        (fun b => blockDisagrees (fmtByte f) (blockAt (tileBlocks x.s x.core.num sp.num.toNat) b)) = [] :=
      List.filter_eq_nil_iff.2 fun b hb => by rw [blockDisagrees_of_mem (touched hb).2.1]; exact Bool.false_ne_true
    have valid : (blocksIn (specShape x sp) f sp.dir (specIdx x sp) mask).flatMap
        (fun b => voidCause x (tileVba sp.num.toNat b) (blockAt (tileBlocks x.s x.core.num sp.num.toNat) b)) = [] :=
      List.flatMap_eq_nil_iff.2 fun b hb => by simp [voidCause, (touched hb).1]
    have seen : (blocksIn (specShape x sp) f sp.dir (specIdx x sp) mask).any
        (fun b => !blkValid (blockAt (tileBlocks x.s x.core.num sp.num.toNat) b)) = false :=
      List.any_eq_false.2 fun b hb => by simp [(touched hb).1]
    have unmarked : (lanesIn (specShape x sp) f sp.dir (specIdx x sp) mask).find? (fun _ => false) = none := by simp
    simp only [dirRead, if_neg hm, shape, tileBlocks_detected sound, tileBlocks_readable sound, blockAt_unmarked sound, agree, valid,
      seen, unmarked, narrow.1, narrow.2, or_self, if_false, List.map_nil, List.append_nil]
    rw [← foldl_lanesIn]
    rfl
end

theorem landingFull_of_room {x : Ctx} (room : Room x) : landingFull x true = false := by
  have : x.core.pending < 16 := room
  simpa [landingFull] using this

theorem landingFull_of_no_room {x : Ctx} (full : ¬Room x) : landingFull x true = true := by
  have : ¬x.core.pending < 16 := full
  simpa [landingFull] using this

/-- What a direction read without a cause leaves. -/
theorem exec_vmovDirRead_next {s : State} {x : Ctx} {c : Common} {sp : Spec} {ty : Fmt} {lanes : Lanes} {flags : BitVec 5} (d : Reg)
    (hx : ctxOf s .v = some x) (clear : Clear x c) (room : Room x)
    (h : if sp.acc then lanes = accRead x sp ∧ flags = 0
      else typeCause x sp ty = none ∧ dirRead x sp (laneMask x c) = .ok (lanes, flags, false)
        ∧ readParts s (dirWords x sp (laneMask x c)) = s) :
    exec (.vmovDirRead c d sp ty) s = .next (issued x c (landingV x d lanes (laneMask x c) 3 flags) s) := by
  have lands : addLanding x { dest := .v d, lanes := lanes, mask := laneMask x c, due := x.tide + 3, issued := x.tide, cl := .v, flags := flags } x.core
      = .ok (landingV x d lanes (laneMask x c) 3 flags) := addLanding_ok (.inr room)
  have free := landingFull_of_room room
  rw [exec_vmovDirRead, execVmovDirRead, issueVmem, hx]
  refine issueIn_ok clear ?_
  cases acc : sp.acc with
  | true =>
    simp only [acc, if_true] at h ⊢
    rw [← h.1, ← h.2, lands, ctxOf_s hx]
    rfl
  | false =>
    simp only [acc, Bool.false_eq_true, if_false] at h
    obtain ⟨typed, read, quiet⟩ := h
    simp only [Bool.false_eq_true, if_false, free, typed, read, ite_self, ctxOf_s hx, quiet, lands]
    rfl

/-- Settles O28: an accumulator's raw cells, or the elements that sound blocks hold. -/
theorem directionReads : Obligations.DirectionReads := by
  unfold Obligations.DirectionReads
  intro s x c d sp ty f hx clear room m idx n seg lands cell place blocks shape inside element
  have hidx : specIdx x sp = idx := specIdx_eq x sp
  refine ⟨fun acc => exec_vmovDirRead_next d hx clear room ?_, fun acc fmt i64 n64 typed sound quiet => ?_⟩
  · rw [if_pos acc]
    refine ⟨Vector.ext fun i hi => ?_, rfl⟩
    simp only [accRead, Vector.getElem_ofFn, dirElem_eq, hidx, if_true, Nat.mul_zero, Nat.add_zero, Nat.zero_add]
    rfl
  · have hs : x.s = s := ctxOf_s hx
    have tiles : tileBlocks x.s x.core.num sp.num.toNat = blocks := by
      rw [tileBlocks, tileSlots, List.map_map, hs]
      rfl
    have lane (k : Nat) : dirElem false sp.dir (specIdx x sp) k = place k := by rw [hidx, dirElem_eq]; rfl
    have elements (k : Fin 128) : dirLane x sp f m k.val = element k := by
      simp only [dirLane, lane, tiles]
      rfl
    obtain ⟨lanes, active, read⟩ := dirRead_sound (mask := m) (tiles ▸ sound) fmt ⟨i64, n64⟩
    simp only [elements] at active read
    refine ⟨lanes, active, exec_vmovDirRead_next d hx clear room ?_⟩
    rw [acc, if_neg Bool.false_ne_true]
    refine ⟨if_pos ?_, read, readParts_of_sound quiet⟩
    rcases typed with rfl | rfl
    · exact .inl rfl
    · exact .inr fmt

/-! ## Direction writes (R171 to R174) -/

theorem exec_vmovDirWrite (c : Common) (v : Reg) (sp : Spec) (rnd : Rnd) (sat : Bool) (ty : Fmt) (bound : BitVec 4) (s : State) :
    exec (.vmovDirWrite c v sp rnd sat ty bound) s = execVmovDirWrite c v sp rnd sat ty bound s := rfl

/-- A V instruction that meets a cause raises it. -/
theorem issueV_error {c : Common} {f : Ctx → Pred → Except Cause Core} {s : State} {x : Ctx} {e : Cause} (hx : ctxOf s .v = some x)
    (clear : Clear x c) (h : f x (laneMask x c) = .error e) : issueV c f s = .next (caused x c e) := by
  simp only [issueV, hx]
  exact issueIn_error clear (by simp only [onCore, h, Except.map])

/-- A predicate made of its lanes reads lane by lane. -/
theorem getLsbD_predOf (f : Fin 128 → Bool) (k : Fin 128) : (predOf f).getLsbD k.val = f k := by
  have there : k.val < (List.ofFn f).length := by
    rw [List.length_ofFn]
    exact k.isLt
  rw [predOf, BitVec.getLsbD_cast, BitVec.getLsbD_ofBoolListLE, List.getD_eq_getElem?_getD, List.getElem?_eq_getElem there,
    List.getElem_ofFn]
  rfl

/-- A lane is written when it is active and its element lies within the shape. -/
theorem getLsbD_writtenMask (shape : Dword) (f : Fmt) (d : Dir) (idx : Dword) (mask : Pred) (k : Fin 128) :
    (writtenMask shape f d idx mask).getLsbD k.val = (mask.getLsbD k.val && inShape shape f (dirElem false d idx k.val)) :=
  getLsbD_predOf _ k

/-- FORMAT of a direction write into a tile that is not an SQ tile is that of its lowest block whose own code disagrees. -/
theorem dirWriteFormat_plain {x : Ctx} {sp : Spec} {rnd : Rnd} {sat : Bool} {ty f : Fmt} {bound : BitVec 4} {v : Reg} {mask : Pred}
    (fmt : tshpFmt (specShape x sp) = some f) (i64 : f ≠ .i64) (n64 : f ≠ .n64) (plain : f.isSq = false) (typed : ty = .untyped ∨ ty = f)
    (checked : bound = 0 ∨ isFp f = true) : dirWriteFormat x sp rnd sat ty bound v mask
      = blockFormat x sp.num.toNat f (blocksIn (specShape x sp) f sp.dir (specIdx x sp) mask) := by
  have ok : ((ty != .untyped && ty != f) || (bound != 0 && !isFp f)) = false := by
    rcases typed with rfl | rfl <;> rcases checked with rfl | h <;> simp_all
  simp only [dirWriteFormat, fmt, i64, n64, plain, or_self, if_false, Bool.false_eq_true, ok]

/-- Settles O29: the causes in R76's order, then the landing. -/
theorem directionWrites : Obligations.DirectionWrites := by
  unfold Obligations.DirectionWrites
  intro s x c v sp rnd sat ty f bound hx clear m shape idx slots w q lane out on hits
  have hs : x.s = s := ctxOf_s hx
  refine ⟨getLsbD_writtenMask shape f sp.dir idx m, fun off => ?_, fun active room fmt i64 n64 plain typed checked b hb => ?_,
    fun active full => ?_, fun active room fmt sound => ⟨fun within images => ?_, fun k hk => ?_⟩⟩
  all_goals rw [exec_vmovDirWrite, execVmovDirWrite]
  · exact issueV_ok hx clear (if_pos off)
  · have own : dirWriteFormat x sp rnd sat ty bound v (laneMask x c) = some (formatAt (tileVba sp.num.toNat b)) := by
      rw [dirWriteFormat_plain fmt i64 n64 plain typed checked, blockFormat, hs, hb]
      rfl
    refine issueV_error hx clear ((if_neg active).trans ?_)
    rw [landingFull_of_room room, own]
    rfl
  · refine issueV_error hx clear ((if_neg active).trans ?_)
    rw [landingFull_of_no_room full]
    rfl
  · have passes : on.find? (fun k => (out k).2.2.2) = none := List.find?_eq_none.2 fun k hk => by simp [within k hk]
    refine issueV_ok hx clear ((if_neg active).trans ?_)
    rw [landingFull_of_room room, if_neg Bool.false_ne_true, sound]
    simp only [show tshpFmt (specShape x sp) = some f from fmt, Option.getD_some]
    split
    case h_1 k hk => exact nomatch passes.symm.trans hk
    case h_2 =>
      split
      case h_1 e he => exact nomatch images.symm.trans he
      case h_2 => exact addLanding_ok (.inr room)
  · refine issueV_error hx clear ((if_neg active).trans ?_)
    rw [landingFull_of_room room, if_neg Bool.false_ne_true, sound]
    simp only [show tshpFmt (specShape x sp) = some f from fmt, Option.getD_some]
    split
    case h_1 j hj =>
      obtain rfl : k = j := Option.some.inj (hk.symm.trans hj)
      rfl
    case h_2 none_ => exact nomatch hk.symm.trans none_

end Sys2Proof.Machine
end

section
/-! SUPPORT. The package after a cold start and a core as placement leaves it (03 R53, R66, R67; 24 R394, R396). -/

namespace Sys2Proof.Machine

open Sys2Proof.Safety

/-! ## The package (R394, R396) -/

theorem reset_parts {p : Partition} (h : p ∈ State.reset.parts.toList) : p = Partition.fresh := by
  rw [show State.reset.parts = Vector.replicate 4 Partition.fresh from rfl, Vector.toList_replicate] at h
  exact List.eq_of_mem_replicate h

/-- Memory that lists nothing holds void slots alone (log 4). -/
theorem reset_void (sl : Slot) : blkValid (rawBlock State.reset.mem sl) = false := by
  show (0 : Byte).getLsbD 0 = false
  rfl

theorem reset_gangIds : GangIds State.reset := ⟨List.nodup_nil, fun _ h => absurd h List.not_mem_nil⟩

/-! ## Packed fields (R66) -/

/-- A field above the `n` bits of another, as a sum and as an OR. -/
theorem ofNat_packed {k : Nat} (w : BitVec k) (n : Nat) {m : Nat} (room : k + n ≤ 64) (h : m < 2 ^ n) :
    BitVec.ofNat 64 (w.toNat * 2 ^ n + m) = (w.setWidth 64 <<< n) ||| BitVec.ofNat 64 m := by
  have sum : w.toNat * 2 ^ n + m < 2 ^ 64 := calc
    w.toNat * 2 ^ n + m < w.toNat * 2 ^ n + 2 ^ n := Nat.add_lt_add_left h _
    _ = (w.toNat + 1) * 2 ^ n := (Nat.succ_mul ..).symm
    _ ≤ 2 ^ k * 2 ^ n := Nat.mul_le_mul_right _ w.isLt
    _ = 2 ^ (k + n) := (Nat.pow_add 2 k n).symm
    _ ≤ 2 ^ 64 := Nat.pow_le_pow_right (by omega) room
  have wide : w.toNat < 2 ^ 64 := Nat.lt_of_lt_of_le w.isLt (Nat.pow_le_pow_right (by omega) (by omega))
  refine BitVec.eq_of_toNat_eq ?_
  rw [BitVec.toNat_or, BitVec.toNat_shiftLeft, BitVec.toNat_setWidth, BitVec.toNat_ofNat, BitVec.toNat_ofNat, Nat.mod_eq_of_lt wide,
    Nat.mod_eq_of_lt sum, Nat.mod_eq_of_lt (a := m) (by omega), Nat.shiftLeft_eq, Nat.mod_eq_of_lt (a := w.toNat * 2 ^ n) (by omega),
    ← Nat.shiftLeft_eq, ← Nat.shiftLeft_add_eq_or_of_lt h]

theorem gangidOf_eq (launch : Word) {m : Nat} (h : m < 1024) : gangidOf launch m = (launch.setWidth 64 <<< 16) ||| BitVec.ofNat 64 m :=
  ofNat_packed launch 16 (by omega) (by omega)

theorem ensignOf_eq (owner : BitVec 12) (gen : Byte) : ensignOf owner gen = (owner.setWidth 64 <<< 8) ||| gen.setWidth 64 :=
  (ofNat_packed owner 8 (by omega) gen.isLt).trans (by rw [BitVec.ofNat_toNat])

/-- next() nullifies nothing (R59, R60). -/
theorem null_nextAddr (lines : List (BitVec 512)) (a : Dword) : (nextAddr lines a).null = false := by
  unfold nextAddr
  split
  · rfl
  · dsimp only
    split
    · rfl
    · split <;> rfl

/-! ## A core as placement leaves it (R53, R66, R67) -/

section
variable (g : Gang) (gen : Byte) (m : Nat) (named place : Nat × Nat)

/-- An empty shape takes all its rows, so that no pair of them is free for parking (R56, R64). -/
theorem freePairs_fresh : freePairs (freshCore g gen m named place).regs = [] := by
  have taken (t k : Nat) (ht : t < 8) (hk : k < 64) : parkFree (freshCore g gen m named place).regs t k = false := by
    have shape : ((freshCore g gen m named place).regs.ctl.tshp[t]?).getD 0 = 0 := by
      show ((Vector.replicate 8 (0 : Dword))[t]?).getD 0 = 0
      simp [ht]
    have rows : tshpRows 0 = 128 := rfl
    rw [parkFree, shape, rows, decide_eq_false (by omega), Bool.false_and]
  simp only [freePairs, List.flatMap_eq_nil_iff, List.map_eq_nil_iff, List.filter_eq_nil_iff, List.mem_range, Bool.not_eq_true]
  exact fun t ht k hk => taken t k ht hk

theorem readCtl_fresh_parkfree (tide : Nat) : readCtl (freshCore g gen m named place) tide 0x050 = some 0x10000 := by
  show some (parkReg _) = _
  rw [parkReg, freePairs_fresh]
  rfl

/-- The registers that placement leaves zero. -/
theorem readCtl_fresh_zero (tide : Nat) : ∀ n ∈ [0x001, 0x048, 0x049, 0x040, 0x041, 0x058, 0x060, 0x070, 0x071, 0x072, 0x080, 0x081, 0x082,
      0x083, 0x084, 0x085, 0x086, 0x087, 0x090, 0x0A0, 0x0A8, 0x0B0] ++ List.range' 0x010 8 ++ List.range' 0x020 4 ++ List.range' 0x030 16
      ++ List.range' 0x068 8, readCtl (freshCore g gen m named place) tide n = some 0 := by
  exact of_decide_eq_true rfl
end

/-- Settles O58: the package as it starts, and a placed core register by register. -/
theorem resetState : Obligations.ResetState := by
  unfold Obligations.ResetState
  refine ⟨⟨rfl, rfl, rfl, rfl, rfl, rfl, rfl, rfl, fun _ => rfl, fun p hp => ?_, reset_void, rfl, reset_gangIds,
    _, rfl, rfl, rfl, rfl⟩, fun g gen m named place tide hm => ?_⟩
  · rw [reset_parts hp]
    exact ⟨rfl, rfl, rfl, rfl⟩
  · refine ⟨fun r => Vector.getElem?_replicate_of_lt r.isLt, fun r => ?_, fun r => ?_, fun a i j => ?_, rfl, rfl, fun k => ?_, fun q => ?_, rfl,
      fun p => ?_, readCtl_fresh_zero g gen m named place tide, rfl, readCtl_fresh_parkfree g gen m named place tide,
      congrArg some (gangidOf_eq g.desc.launch hm), rfl, congrArg some (ensignOf_eq g.desc.owner gen), rfl⟩
    · exact Vector.getElem?_replicate_of_lt r.isLt
    · show ((Vector.replicate 16 (0 : Pred)).set 0 (BitVec.allOnes 128))[r.toNat]? = _
      have zero : 0 = r.toNat ↔ r = 0 := ⟨fun h => BitVec.eq_of_toNat_eq h.symm, fun h => by rw [h]; rfl⟩
      rw [Vector.getElem?_set]
      simp only [zero, Vector.getElem?_replicate_of_lt r.isLt]
      split <;> rfl
    · show (Vector.replicate 4 (Vector.replicate 128 (Vector.replicate 128 (0 : Word))))[a][i][j] = 0
      simp
    · show (Vector.replicate 8 0)[k] = 0
      simp
    · match q with
      | 0 => rfl
      | 1 => exact null_nextAddr ..
      | 2 => exact null_nextAddr ..
    · match p with
      | 0 | 1 | 2 => rfl

end Sys2Proof.Machine
end

section
/-! SUPPORT. Two statements that fail in a machine in which two gangs bear one number (19 R328, R365). `GangIds` rules such a machine out,
but their hypotheses admit it: `modMember` changes a core of each of the two by what it finds there, where the statement writes what
stands in the first, or the other way round. -/

namespace Sys2Proof.Machine

open Sys2Proof.Safety

/-! ## A machine with two gangs of one number -/

/-- A placed gang of number 0 with one core, whose image is one line of NOPs of S. -/
def loneGang (stage : Stage) (c : Core) : Gang :=
  { id := 0, part := 0, desc := {}, status := .placed, started := true, stage := stage, lines := [0], cores := [c] }
/-- Two of them, the first of which steps next. -/
def twinGangs (stage : Stage) (a b : Core) : State := { State.reset with turn := 3, gangs := [loneGang stage a, loneGang stage b] }
/-- The core of the second after a step. -/
def secondCore (o : Out) : Option Core :=
  match o with
  | .next t => t.gangs[1]?.bind (·.cores[0]?)
  | _ => none

/-! ## The landing of a fence (R149, R302) -/

/-- A FENCE of core scope whose cycle has come. -/
def dueFence : Fence := { serial := 0, d := 0, scope := .core, issued := 0, due := 0, pc := 0 }
/-- The first gang's core, in column 0, with that FENCE; the second's stands in column 1. -/
def fenced : State := twinGangs .land { fences := [dueFence] } { x := 1 }

/-- Refutes O45: in a machine with two gangs of number 0 a FENCE of the first lands in the core of each, and the second keeps the rest of
its own core. The statement has the first gang's core in its place. -/
theorem not_landingsAndFences : ¬ Obligations.LandingsAndFences := by
  unfold Obligations.LandingsAndFences
  rintro ⟨-, -, -, fences, -⟩
  obtain ⟨-, -, -, -, lands⟩ := fences fenced ⟨0, 0⟩ (loneGang .land { fences := [dueFence] }) { fences := [dueFence] } dueFence rfl rfl
  have column : (secondCore (exec (.fenceStatusLand ⟨0, 0⟩) fenced)).map (·.x) = some 1 := rfl
  rw [lands rfl (.inl rfl) (Nat.le_refl 0) rfl] at column
  exact absurd column (by decide)

/-! ## The issue that a breakpoint suppresses (R71) -/

/-- A core that breaks at address 0 in S. -/
def watched : Core := ({} : Core).mapCtl fun r => { r with bpaddr := 0x8000000000000000 }
/-- The first gang's core breaks; the second's watches nothing. -/
def breaking : State := twinGangs .issue watched {}

theorem eq_ok_of_toOption {ε α : Type} {r : Except ε α} {a : α} (h : r.toOption = some a) : r = .ok a := by
  cases r with
  | error => cases h
  | ok => exact congrArg Except.ok (Option.some.inj h)

/-- The line of zeros holds one NOP of S. -/
theorem decodeAt_zero : decodeAt false .s 0 0 = .ok (.nop {}) :=
  eq_ok_of_toOption (by decide +kernel)

/-- Refutes O57: in a machine with two gangs of number 0 the BREAK of the first is raised in the core of each with the BPADDR of the
first in its TVAL. The statement has each core's own BPADDR there, which in the second is 0. -/
theorem not_stepRunsTheDecodedInstruction : ¬ Obligations.StepRunsTheDecodedInstruction := by
  unfold Obligations.StepRunsTheDecodedInstruction
  rintro ⟨issues, -⟩
  have quiet : ∀ h ∈ breaking.gangs, rereadOf breaking h = none := by
    intro h hh
    simp only [breaking, twinGangs, List.mem_cons, List.not_mem_nil, or_false] at hh
    rcases hh with rfl | rfl <;> rfl
  obtain ⟨-, -, breaks_, -⟩ := issues breaking 0 0 (loneGang .issue watched) watched 0 rfl rfl rfl rfl rfl rfl rfl rfl nofun rfl rfl rfl
    rfl (Nat.le_refl 0) (fun u _ hu => absurd hu (Nat.not_lt_zero u)) rfl rfl quiet rfl
  have tval : (secondCore (step breaking)).bind (fun c => c.raised.head?.map (·.tval)) = some 0x8000000000000000 := by decide +kernel
  rw [breaks_ (.nop {}) decodeAt_zero (fun _ => rfl) rfl rfl] at tval
  exact absurd tval (by decide +kernel)

end Sys2Proof.Machine
end

section
/-! SUPPORT. The words of every instruction (04 R94, R95; 06 R117 to R124): the decoder undoes the encoder, on the harbourmaster and on a
core of a gang, which refuses the harbourmaster's opcodes. -/

namespace Sys2Proof.Laws.Encoding

/-- The round trip of each instruction, together: a step of the part is well formed for no cluster. -/
theorem statement_all (i : Instr) : Statement i := by
  cases i with
  | nop => apply nop | idle => apply idle | rdv => apply rdv | add => apply add | sub => apply sub
  | mul => apply mul | mulh => apply mulh | mulhn => apply mulhn | div => apply div | divn => apply divn
  | rem => apply rem | remn => apply remn | min => apply min | max => apply max | minn => apply minn
  | maxn => apply maxn | and => apply and | or => apply or | xor => apply xor | shl => apply shl | shr => apply shr
  | sar => apply sar | clz => apply clz | popc => apply popc | sel => apply sel | cmp => apply cmp
  | addi => apply addi | andi => apply andi | ori => apply ori | xori => apply xori | shli => apply shli
  | shri => apply shri | sari => apply sari | cmpi => apply cmpi | liOne => apply liOne | liTwo => apply liTwo
  | ld => apply ld | st => apply st | lda => apply lda | stl => apply stl | amo => apply amo | cas => apply cas
  | b => apply b | bc => apply bc | br => apply br | call => apply call | loop => apply loop | fork => apply fork
  | slack => apply slack | commit => apply commit | safe => apply safe | waitp => apply waitp | qmark => apply qmark
  | fence => apply fence | trap => apply trap | tret => apply tret | mfc => apply mfc | mtc => apply mtc
  | hsel => apply hsel | hrd => apply hrd | hwr => apply hwr | hcmd => apply hcmd | hwait => apply hwait
  | vadd => apply vadd | vsub => apply vsub | vmul => apply vmul | vdiv => apply vdiv | vmin => apply vmin
  | vmax => apply vmax | vcps => apply vcps | vsqrt => apply vsqrt | vrcp => apply vrcp | vrsq => apply vrsq
  | vexp2 => apply vexp2 | vlog2 => apply vlog2 | vabs => apply vabs | vneg => apply vneg | vfma => apply vfma
  | vfms => apply vfms | vfnma => apply vfnma | viadd => apply viadd | visub => apply visub | vimul => apply vimul
  | vimulh => apply vimulh | vimin => apply vimin | vimax => apply vimax | vand => apply vand | vor => apply vor
  | vxor => apply vxor | vshl => apply vshl | vshr => apply vshr | vsar => apply vsar | vpopc => apply vpopc
  | vcmp => apply vcmp | vicmp => apply vicmp | vclass => apply vclass | pand => apply pand | por => apply por
  | pxor => apply pxor | pnot => apply pnot | pcnt => apply pcnt | pfirst => apply pfirst | vsel => apply vsel
  | vmov => apply vmov | vbcst => apply vbcst | vextr => apply vextr | vins => apply vins | vperm => apply vperm
  | vrot => apply vrot | vmovDirRead => apply vmovDirRead | vmovDirWrite => apply vmovDirWrite | vrsum => apply vrsum
  | vrmax => apply vrmax | vrmin => apply vrmin | vramax => apply vramax | vcvt => apply vcvt
  | vcvtMxImport => apply vcvtMxImport | vld => apply vld | vst => apply vst | vldg => apply vldg | vsts => apply vsts
  | vpark => apply vpark | vunpark => apply vunpark | vtri => apply vtri | vtrin => apply vtrin | vbnd => apply vbnd
  | mma => apply mma | mmat => apply mmat | mzero => apply mzero | macc => apply macc | mscl => apply mscl
  | mmsk => apply mmsk | mred => apply mred | mdrn => apply mdrn | mdrnq => apply mdrnq | mtrn => apply mtrn
  | xch => apply xch | xchs => apply xchs | xchg => apply xchg | xchp => apply xchp | xcht => apply xcht
  | xtil => apply xtil | xtilt => apply xtilt | xfar => apply xfar | xdrop => apply xdrop | xtstv => apply xtstv
  | xpen => apply xpen | xwake => apply xwake | xdoze => apply xdoze | xnsend => apply xnsend | xnrecv => apply xnrecv
  | xagu => apply xagu | xrch => apply xrch | xrchc => apply xrchc | xcrck => apply xcrck | xwin => apply xwin
  | xred => apply xred | xtri => apply xtri | xamo => apply xamo | xamor => apply xamor | xcas => apply xcas
  | xkick => apply xkick | xabort => apply xabort
  | _ => exact fun _ _ _ wf _ => nomatch wf

end Sys2Proof.Laws.Encoding

namespace Sys2Proof

/-- The decoder undoes the encoder, for every instruction of every cluster (R94, R95). -/
theorem decodeSyl_of_encode {i : Instr} {cl : Cl} {w : Syl} {e : Option Syl} (wf : i.wf cl = true) (enc : encode i = some (w, e)) :
    decodeSyl true cl w e = .ok i := Laws.Encoding.statement_all i cl w e wf enc

/-- A core of a gang refuses the opcodes of the harbourmaster, whatever the other fields hold (R95, R119). -/
theorem decodeSyl_core_privileged {w : Syl} (ext : Option Syl) (h : 0x1F0 ≤ w.op.toNat) :
    decodeSyl false .s w ext = .error .illegalPriv := by
  have one : twoSyl .s w.op = false := by
    simp only [twoSyl, beq_eq_false_iff_ne]
    intro e
    rw [e] at h
    exact absurd h (by decide)
  simp [decodeSyl, one, h]

/-- Every other word decodes on a core of a gang as it does on the harbourmaster. -/
theorem decodeSyl_core_other {cl : Cl} {w : Syl} (ext : Option Syl) (h : ¬ (cl = .s ∧ 0x1F0 ≤ w.op.toNat)) :
    decodeSyl false cl w ext = decodeSyl true cl w ext := by
  have other : (cl == .s && decide (0x1F0 ≤ w.op.toNat)) = false := by simpa using h
  simp only [decodeSyl, Bool.not_false, Bool.true_and, other, Bool.not_true, Bool.false_and]

/-- Settles O56, from the round trip of each instruction and the two fates of a word on a core of a gang. -/
theorem decodingUndoesEncoding : Obligations.DecodingUndoesEncoding := by
  unfold Obligations.DecodingUndoesEncoding
  intro i cl w e wf enc
  have back := decodeSyl_of_encode wf enc
  refine ⟨back, ?_⟩
  split
  · rename_i priv
    obtain ⟨rfl, high⟩ := priv
    exact decodeSyl_core_privileged e high
  · rename_i other
    rw [decodeSyl_core_other e other, back]

/-- Settles O55: each word is the encoding of its instruction, which is well formed. -/
theorem workedExampleWordsDecode : Obligations.WorkedExampleWordsDecode := by
  unfold Obligations.WorkedExampleWordsDecode
  refine ⟨?_, ?_, ?_, ?_, ?_, ?_, ?_, ?_, ?_, ?_, ?_, ?_, ?_, ?_⟩ <;> exact decodeSyl_of_encode (by decide) (by decide)

end Sys2Proof
end

section
/-! SUPPORT. An issue beside its instruction's own effect (04 R82 to R86, R94, R95): what it leaves, the instructions that have no other
effect, and the forms that a core of a gang refuses. -/

namespace Sys2Proof.Machine

open Sys2Proof.Safety

/-! ## What an issue leaves (R83, R84) -/

/-- A retired core, whatever its issue point has become. -/
theorem retire_fields (x : Ctx) (c : Common) (how : How) (core : Core) :
    let r := (retire x c how core).regs
    retire x c how core = { core with
      regs := { core.regs with tokens := popTokens c x.cl core.regs.tokens, q := r.q, sNext := r.sNext, points := r.points }
      atEnd := core.atEnd ++ pushes c x.cl
      resumeBreak := core.resumeBreak.filter (·.1 != x.cl)
      issuedNow := core.issuedNow ++ [{ cl := x.cl, sync := c.sync, rdv := how.rdv, kind := how.kind, pc := x.pc }] } := by
  obtain ⟨k, hb, cl, g, own, s⟩ := x
  cases cl <;> rfl

/-- On the harbourmaster an issue changes its core alone. -/
theorem issued_harbour {x : Ctx} (h : x.hb = true) (c : Common) (core : Core) (t : State) (how : How) :
    issued x c core t how = { t with harbour := { t.harbour with core := retire x c how core } } := if_pos h

/-- On a core of a gang an issue changes that core alone. -/
theorem issued_core {x : Ctx} (h : x.hb = false) (c : Common) (core : Core) (t : State) (how : How) :
    issued x c core t how = modMember t x.k fun _ => retire x c how core := if_neg (by simp [h])

/-- An issue reaches neither memory nor the world outside. -/
theorem issued_frame (x : Ctx) (c : Common) (core : Core) (t : State) (how : How) :
    (issued x c core t how).mem = t.mem ∧ (issued x c core t how).agenda = t.agenda ∧ (issued x c core t how).sent = t.sent
      ∧ (issued x c core t how).outbox = t.outbox ∧ (issued x c core t how).power = t.power := by
  cases h : x.hb with
  | true => rw [issued_harbour h]; exact ⟨rfl, rfl, rfl, rfl, rfl⟩
  | false => rw [issued_core h]; exact ⟨rfl, rfl, rfl, rfl, rfl⟩

/-- On a core of a gang that core is the retired one, and every other core stands as it stood. -/
theorem getMember_issued {x : Ctx} (hb : x.hb = false) (c : Common) (core : Core) (t : State) (how : How) :
    ((getMember t x.k).isSome → (getMember (issued x c core t how) x.k).map (·.2) = some (retire x c how core))
      ∧ ∀ k, k ≠ x.k → (getMember (issued x c core t how) k).map (·.2) = (getMember t k).map (·.2) := by
  rw [issued_core hb]
  refine ⟨fun found => ?_, fun k hk => core_modMember_other _ hk⟩
  obtain ⟨⟨g, own⟩, member⟩ := Option.isSome_iff_exists.1 found
  rw [getMember_modMember _ member]
  rfl

/-- Settles O5: the fields of the retired core, and the machine around it. -/
theorem issueLeavesTheRest : Obligations.IssueLeavesTheRest := by
  unfold Obligations.IssueLeavesTheRest
  intro x c how core t core'
  obtain ⟨mem, agenda, sent, outbox, power⟩ := issued_frame x c core t how
  have own (hb : x.hb = false) := (getMember_issued hb c core t how).1
  have others (hb : x.hb = false) := (getMember_issued hb c core t how).2
  have harbour (hb : x.hb = false) : (issued x c core t how).harbour = t.harbour := by rw [issued_core hb]; rfl
  have firmware (hb : x.hb = true) : (issued x c core t how).harbour.core = core' ∧ (issued x c core t how).gangs = t.gangs := by
    rw [issued_harbour hb]; exact ⟨rfl, rfl⟩
  have fields : core' = _ := retire_fields x c how core
  refine ⟨?_, ?_, ?_, ?_, ?_, ?_, ?_, ?_, ?_, ?_, ?_, ?_, ?_, ?_, ?_, ?_, ?_, ?_, ?_, ?_, ?_, ?_, ?_, ?_, ?_, ?_,
    mem, fun i => by rw [mem], agenda, sent, outbox, power, fun hb found => ⟨own hb found, harbour hb⟩, others, firmware⟩
  all_goals rw [fields]

end Sys2Proof.Machine
end

section
/-! SUPPORT. The instructions without an effect of their own (04 R82, R94; 13 R258): NOP, IDLE and RDV, and an S instruction that its guard
switches off; and the forms that a core of a gang refuses (04 R95). -/

namespace Sys2Proof.Machine

open Sys2Proof.Safety

/-! ## NOP, IDLE and RDV (R94) -/

theorem ctxAny_s {s : State} {x : Ctx} (h : ctxAny s = some x) : x.s = s := by
  unfold ctxAny at h
  split at h
  · exact ctxOf_s h
  · exact ctxOf_s h
  · cases h

theorem issueAny_next {s : State} {x : Ctx} {c : Common} (hx : ctxAny s = some x) (clear : Clear x c) (how : How) :
    issueAny c how s = .next (issued x c x.core s how) := by
  simp only [issueAny, hx]
  exact issueIn_ok clear (by rw [nothing, ctxAny_s hx])

/-! ## The port time of an access that makes no entry (R258) -/

/-- Where it leads to a berth of a core of a gang, and does not cross the block's end, its request joins the port's. -/
theorem portTime_berth {x : Ctx} {ea : Dword} {p : Page} {b j n : Nat} (wr : Bool) (core : Core)
    (page : translate x.s x.g x.k.idx (ea.extractLsb' 12 52) = .ok p) (slot : p.slot = .berth b j) (hb : x.hb = false)
    (fits : ea.toNat % 4096 + n ≤ 4096) :
    portTime x ea n wr core = ({ core with asks := core.asks ++ [⟨x.s.serial, .berth b j, ea.toNat % 4096, n, wr, x.cl, x.tide⟩] },
      { x.s with serial := x.s.serial + 1 }) := by
  obtain ⟨sl, level, read, write, cow, window, code⟩ := p
  obtain rfl : sl = .berth b j := slot
  have off : (ea.extractLsb' 0 12).toNat = ea.toNat % 4096 := by simp
  simp only [portTime, Ctx.page, page, off, hb, Bool.false_or, decide_eq_true_eq, if_neg (Nat.not_lt.2 fits)]
  rfl

/-- Where it leads to no berth it leaves nothing. -/
theorem portTime_elsewhere {x : Ctx} {ea : Dword} (n : Nat) (wr : Bool) (core : Core)
    (h : ∀ p b j, translate x.s x.g x.k.idx (ea.extractLsb' 12 52) = .ok p → p.slot ≠ .berth b j) :
    portTime x ea n wr core = (core, x.s) := by
  unfold portTime
  split
  · rename_i page
    exact absurd rfl (h _ _ _ page)
  · rfl

/-! ## An S instruction switched off (R54, R82) -/

/-- A form that takes no guard has its guard bit clear where it is well formed. -/
theorem en_eq_false_of_wf {c : Common} {cl : Cl} (wf : c.wf cl false = true) : c.en = false := by
  simp only [Common.wf, Bool.and_eq_true] at wf
  obtain ⟨guard, -⟩ := wf
  cases en : c.en with
  | false => rfl
  | true =>
    rw [en, if_pos rfl] at guard
    cases guard

section
variable {s : State} {x : Ctx} {c : Common} (hx : ctxOf s .s = some x) (clear : Clear x c) (off : guardOn x c = false)
include hx clear off

theorem issueHow_off_nothing {how : Ctx → How} {on : Body} (plain : how x = {}) :
    issueHow .s c how on nothing s = .next (issued x c x.core s) := by
  rw [issueHow_off hx clear off (by rw [nothing, ctxOf_s hx]), plain]

theorem issue_off_nothing {on : Body} : issue .s c on nothing s = .next (issued x c x.core s) :=
  issueHow_off_nothing hx clear off rfl

theorem branch_off {how : Ctx → How} {effect : Ctx → Except Cause Core} : branch c how effect s = .next (issued x c x.core s) :=
  issueHow_off_nothing hx clear off (by simp only [off]; rfl)

theorem issue_off_justTime {on : Body} {ea : Ctx → Dword} {n : Nat} {wr : Bool} :
    issue .s c on (justTime ea n wr) s = .next (issued x c (portTime x (ea x) n wr x.core).1 (portTime x (ea x) n wr x.core).2) :=
  issueHow_off hx clear off rfl

theorem exec_mfc_off {d : Reg} {n : BitVec 12} (there : (readCtl x.core x.tide n.toNat).isSome = true) :
    exec (.mfc c d n) s = .next (issued x c x.core s) := by
  rw [exec_mfc, execMfc, ctl_off hx clear n off, ctlDecode_read there]

theorem exec_mtc_off {d : Reg} {n : BitVec 12} (there : (readCtl x.core x.tide n.toNat).isSome = true)
    (writable : ctlReadOnly n.toNat = false) : exec (.mtc c d n) s = .next (issued x c x.core s) := by
  rw [exec_mtc, execMtc, ctl_off hx clear n off, ctlDecode_write there, writable]
  rfl

theorem execHcmd_off {d a : Reg} : execHcmd c d a s = .next (issued x c x.core s) := by
  simp only [execHcmd, hx, off, Bool.and_false, Bool.false_and, Bool.false_eq_true, if_false]
  exact issue_off_nothing hx clear off

theorem execHwait_off {d a : Reg} : execHwait c d a s = .next (issued x c x.core s) := by
  simp only [execHwait, hx, off, Bool.and_false, Bool.false_eq_true, if_false]
  split <;> exact issue_off_nothing hx clear off

/-- Switched off, an S instruction leaves what its issue leaves, and the port time of its access. -/
theorem exec_off {i : Instr} (own : commonOf i = some (.s, c)) (wf : i.wf .s = true) (en : c.en = true)
    (moves : ∀ (d : Reg) (n : BitVec 12), i = .mfc c d n ∨ i = .mtc c d n →
      (readCtl x.core x.tide n.toNat).isSome = true ∧ (i = .mtc c d n → ctlReadOnly n.toNat = false)) :
    exec i s = .next (match accessOf x i with
      | some (ea, n, wr) => issued x c (portTime x ea n wr x.core).1 (portTime x ea n wr x.core).2
      | none => issued x c x.core s) := by
  cases i with
  | add | sub | mul | mulh | mulhn | div | divn | rem | remn | min | max | minn | maxn | and | or | xor | shl | shr | sar | clz | popc
  | sel | cmp | addi | andi | ori | xori | shli | shri | sari | cmpi | liOne | liTwo | fence | trap | hsel | hrd | hwr =>
    cases own
    exact issue_off_nothing hx clear off
  | ld | st | lda | stl | amo | cas | waitp =>
    cases own
    exact issue_off_justTime hx clear off
  | b | bc | br | call | loop =>
    cases own
    exact branch_off hx clear off
  | slack | commit | safe | qmark | tret =>
    cases own
    rw [en_eq_false_of_wf wf] at en
    cases en
  | fork =>
    cases own
    obtain ⟨unguarded, -⟩ := Bool.and_eq_true_iff.1 wf
    rw [en_eq_false_of_wf unguarded] at en
    cases en
  | mfc _ d n =>
    cases own
    exact exec_mfc_off hx clear off (moves d n (.inl rfl)).1
  | mtc _ d n =>
    cases own
    obtain ⟨there, writable⟩ := moves d n (.inr rfl)
    exact exec_mtc_off hx clear off there (writable rfl)
  | hcmd =>
    cases own
    exact execHcmd_off hx clear off
  | hwait =>
    cases own
    exact execHwait_off hx clear off
  | _ => cases own

end

/-- Settles O6: the three instructions of every cluster, the S instructions switched off, and the port time that their accesses leave. -/
theorem emptyIssues : Obligations.EmptyIssues := by
  unfold Obligations.EmptyIssues
  refine ⟨fun s x c n hx clear => ⟨issueAny_next hx clear _, issueAny_next hx clear _, issueAny_next hx clear _⟩,
    fun s x c i own wf hx clear en sense moves => ?_, fun x ea n wr core => ⟨fun q b j page slot hb fits => ?_, fun elsewhere => ?_⟩⟩
  · have off : guardOn x c = false := by rw [guardOn, en, sense, bne_self_eq_false]; rfl
    exact exec_off hx clear off own wf en moves
  · exact portTime_berth wr core page slot hb fits
  · exact portTime_elsewhere n wr core fun p b j page => elsewhere p b j page

/-! ## The forms that a core of a gang refuses (R95, R153) -/

section
variable {s : State} {x : Ctx} {c : Common} (hx : ctxOf s .s = some x) (clear : Clear x c) (on : guardOn x c = true) (core : x.hb = false)
include hx clear on core

theorem issue_privileged {body off : Body} :
    issue .s c (privileged body) off s = .next (caused x c { code := 0x16, tval := x.syl }) :=
  issueHow_cause hx clear on (by simp only [privileged, core, Bool.false_eq_true, if_false]; rfl)

theorem execTret_core : execTret c s = .next (caused x c { code := 0x16, tval := x.syl }) :=
  issueHow_cause hx clear on (by simp only [core, Bool.not_false, if_true]; rfl)

theorem execHcmd_core {d a : Reg} : execHcmd c d a s = .next (caused x c { code := 0x16, tval := x.syl }) := by
  simp only [execHcmd, hx, core, Bool.false_and, Bool.false_eq_true, if_false]
  exact issue_privileged hx clear on core

theorem execHwait_core {d a : Reg} : execHwait c d a s = .next (caused x c { code := 0x16, tval := x.syl }) := by
  simp only [execHwait, hx, core, Bool.false_and, Bool.false_eq_true, if_false]
  split <;> exact issue_privileged hx clear on core

end

/-- Settles O15: the six forms one by one, and the opcodes at decode. -/
theorem privilegedFormsOnACore : Obligations.PrivilegedFormsOnACore := by
  unfold Obligations.PrivilegedFormsOnACore
  intro s x c d a b hx clear on core
  refine ⟨fun i hi => ?_, fun w high => decodeSyl_core_privileged none high⟩
  simp only [List.mem_cons, List.not_mem_nil, or_false] at hi
  rcases hi with rfl | rfl | rfl | rfl | rfl | rfl
  · exact issue_privileged hx clear on core
  · exact issue_privileged hx clear on core
  · exact issue_privileged hx clear on core
  · exact execHcmd_core hx clear on core
  · exact execHwait_core hx clear on core
  · exact execTret_core hx clear on core

end Sys2Proof.Machine
end

section
/-! SUPPORT. Every instruction has a meaning (04 R94 to R96; 24 R394, R403): an issue answers a next state, or finds no core at the cursor, and
a step of the part answers a next state. -/

namespace Sys2Proof.Machine

open Sys2Proof.Safety

/-- What an instruction answers: a next state, or that its cursor names no placed core. -/
inductive Answers : Out → Prop where
  | next (t : State) : Answers (.next t)
  | noCore : Answers (.fault .noCore)

theorem Answers.not_refused {o : Out} (h : Answers o) (r : Refusal) : o ≠ .refused r := by cases h <;> exact nofun

theorem Answers.eq_noCore {o : Out} (h : Answers o) {f : Fault} (stops : o = .fault f) : f = .noCore := by
  cases h with
  | next t => cases stops
  | noCore => cases stops; rfl

/-! ## The issuing instructions -/

theorem issueIn_answers (x : Ctx) (c : Common) (how : Ctx → How) (body : Body) : Answers (issueIn x c how body) := by
  obtain ⟨t, h⟩ := issueIn_next x c how body
  rw [h]
  exact .next t

theorem issueHow_answers (cl : Cl) (c : Common) (how : Ctx → How) (on off : Body) (s : State) : Answers (issueHow cl c how on off s) := by
  unfold issueHow
  split
  · exact .noCore
  · exact issueIn_answers ..

theorem issueV_answers (c : Common) (f : Ctx → Pred → Except Cause Core) (s : State) : Answers (issueV c f s) := by
  unfold issueV
  split
  · exact .noCore
  · exact issueIn_answers ..

theorem issueVmem_answers (c : Common) (f : Ctx → Pred → Except Cause (Core × State)) (s : State) : Answers (issueVmem c f s) := by
  unfold issueVmem
  split
  · exact .noCore
  · exact issueIn_answers ..

theorem issueAny_answers (c : Common) (how : How) (s : State) : Answers (issueAny c how s) := by
  unfold issueAny
  split
  · exact .noCore
  · exact issueIn_answers ..

/-- A command before its stamp waits, and after it raises its cause; both answer. -/
theorem issueM_answers (c : Common) (stamp : BitVec 36) (i : Instr) (plan : Ctx → MPlan) (read : Ctx → MCmd → Except Cause (Core × MCmd))
    (s : State) (words : Ctx → List (Slot × Nat × Nat)) : Answers (issueM c stamp i plan read s words) := by
  unfold issueM
  split
  · exact .noCore
  dsimp only
  split
  · exact .next _
  split
  · exact .next _
  · exact issueIn_answers ..

/-- HCMD waits while the queue is full. -/
theorem execHcmd_answers (c : Common) (d a : Reg) (s : State) : Answers (execHcmd c d a s) := by
  unfold execHcmd
  split
  · exact .noCore
  split
  · exact .next _
  · exact issueHow_answers ..

/-- HWAIT waits for a ticket that is not acknowledged. -/
theorem execHwait_answers (c : Common) (d a : Reg) (s : State) : Answers (execHwait c d a s) := by
  unfold execHwait
  split
  · exact .noCore
  split
  · split
    · exact .next _
    · exact issueHow_answers ..
  · exact issueHow_answers ..

theorem execXwin_answers (c : Common) (far : Reg) (ch : BitVec 8) (s : State) : Answers (execXwin c far ch s) := by
  unfold execXwin
  split
  · exact .noCore
  · exact issueHow_answers ..

/-! ## The host's requests and the translation commands -/

theorem request_answers (h : Hdr) (type len : Nat) (s : State) (act : State → Except Nat (State × List Byte)) :
    Answers (request h type len s act) := by
  unfold request
  repeat' split
  all_goals exact .next _

theorem runCommand_answers (s : State) (n : Nat) (r : CmdRec) (after : State → Nat → State) : Answers (runCommand s n r after) := by
  unfold runCommand
  repeat' split
  all_goals exact .next _

/-- A WRITE of a command waits while the queue is full. -/
theorem execWriteCommand_answers (h : Hdr) (len : Word) (resv : Nat) (r : CmdRec) (s : State) : Answers (execWriteCommand h len resv r s) := by
  unfold execWriteCommand
  split
  · exact .next _
  · exact request_answers ..

/-! ## Every instruction -/

/-- Every instruction and every step of the part answers. -/
theorem exec_answers (i : Instr) (s : State) : Answers (exec i s) := by
  cases i with
  | nop | idle | rdv => exact issueAny_answers ..
  | add | sub | mul | mulh | mulhn | div | divn | rem | remn | min | max | minn | maxn | and | or | xor | shl | shr | sar | clz | popc
  | sel | cmp | addi | andi | ori | xori | shli | shri | sari | cmpi | liOne | liTwo | ld | st | lda | stl | amo | cas | b | bc | br | call
  | loop | fork | slack | commit | safe | waitp | qmark | fence | trap | tret | mfc | mtc | hsel | hrd | hwr => exact issueHow_answers ..
  | hcmd => exact execHcmd_answers ..
  | hwait => exact execHwait_answers ..
  | vadd | vsub | vmul | vdiv | vmin | vmax | vcps | vsqrt | vrcp | vrsq | vexp2 | vlog2 | vabs | vneg | vfma | vfms | vfnma | viadd | visub
  | vimul | vimulh | vimin | vimax | vand | vor | vxor | vshl | vshr | vsar | vpopc | vmov | vcvt =>
    dsimp only [exec, execVadd, execVsub, execVmul, execVdiv, execVmin, execVmax, execVcps, execVsqrt, execVrcp, execVrsq, execVexp2,
      execVlog2, execVabs, execVneg, execVfma, execVfms, execVfnma, execViadd, execVisub, execVimul, execVimulh, execVimin, execVimax,
      execVand, execVor, execVxor, execVshl, execVshr, execVsar, execVpopc, execVmov, execVcvt, vint, vec1, vec2, vec3]
    exact issueV_answers ..
  | vcmp | vicmp | vclass | pand | por | pxor | pnot | pcnt | pfirst | vsel | vbcst | vextr | vins | vperm | vrot | vrsum | vrmax | vrmin
  | vramax | vcvtMxImport | vtri | vtrin | vbnd | vmovDirWrite | vpark =>
    dsimp only [exec, execVcmp, execVicmp, execVclass, execPand, execPor, execPxor, execPnot, execPcnt, execPfirst, execVsel, execVbcst,
      execVextr, execVins, execVperm, execVrot, execVrsum, execVrmax, execVrmin, execVramax, execVcvtMxImport, execVtri, execVtrin, execVbnd,
      execVmovDirWrite, execVpark, pred2, reduceMinMax]
    exact issueV_answers ..
  | vmovDirRead | vunpark | vld | vst | vldg | vsts =>
    dsimp only [exec, execVmovDirRead, execVunpark, execVld, execVst, execVldg, execVsts]
    exact issueVmem_answers ..
  | mma | mmat | mzero | macc | mscl | mmsk | mred | mdrn | mdrnq | mtrn => exact issueM_answers ..
  | xch | xchs | xchg | xchp | xcht | xtil | xtilt | xfar | xdrop | xtstv | xpen | xwake | xdoze | xnsend | xnrecv | xagu
  | xrch | xrchc | xcrck | xred | xtri | xamo | xamor | xcas | xkick | xabort => exact issueHow_answers ..
  | xwin => exact execXwin_answers ..
  | attest | key | image | launch | query | cancelKill | cancelRelease | cancelResume | cancelRestore | pilotReset | readBlocks
  | writeBlocks | readManifest | writeManifest | readSched | writeSched | readCoreRegister | writeCoreRegister | readErrorRecord
  | readBlackBox | readInjection | writeInjection =>
    dsimp only [exec, execAttest, execKey, execImage, execLaunch, execQuery, execCancelKill, execCancelRelease, execCancelResume,
      execCancelRestore, execPilotReset, execReadBlocks, execWriteBlocks, execReadManifest, execWriteManifest, execReadSched, execWriteSched,
      execReadCoreRegister, execWriteCoreRegister, execReadErrorRecord, execReadBlackBox, execReadInjection, execWriteInjection, cancel,
      readReq, writeReq]
    exact request_answers ..
  | writeCommand => exact execWriteCommand_answers ..
  | invalidate | populate | refresh =>
    dsimp only [exec, execInvalidate, execPopulate, execRefresh]
    exact runCommand_answers ..
  | hbmPairArrival | bankWakeDone | bankDoze | rollbackEnd | abortNotice | atomicReturn | farPortAccept | scheduleDecision | agingStep
  | chipLost | laneRetrainDone | farPortDown | farPortReturn | chipRouteRestored | blackboxMirror | warmStart | throttleRaise
  | throttleLower | emergencyPowerOff => exact .next _
  | mCommandStep | pendingLanding | exchangePairSwap | exchangePairTranslate | unitSwap | queueLeave | bufferPerform | otherAgentPerform
  | waitpReread | fenceStatusLand | elementPortServe | neighbourArrival =>
    dsimp only [exec, execMCommandStep, execPendingLanding, execExchangePairSwap, execExchangePairTranslate, execUnitSwap, execQueueLeave,
      execBufferPerform, execOtherAgentPerform, execWaitpReread, execFenceStatusLand, execElementPortServe, execNeighbourArrival]
    repeat' first | exact .next _ | split
  | phaseRollback | jointCommit | jointBarrierArrival | nearBlockSnapshot | landingArrival | crcCompare | fabricCompletion
  | windowArmAtHome | windowGenerationReturn | windowContributionArrival | windowDeadline | stagedEffectPerform | xfarPairSwap =>
    dsimp only [exec, execPhaseRollback, execJointCommit, execJointBarrierArrival, execNearBlockSnapshot, execLandingArrival, execCrcCompare,
      execFabricCompletion, execWindowArmAtHome, execWindowGenerationReturn, execWindowContributionArrival, execWindowDeadline,
      execStagedEffectPerform, execXfarPairSwap]
    repeat' first | exact .next _ | split
  | permissionRecheck | absentSuspend | gangKill | ensignFenceTimeout | multichipStart | safeDeadlineExpiry | contextSave | contextRestore
  | invalidateAck | kill | reset | hello | poisonEscalation =>
    dsimp only [exec, execPermissionRecheck, execAbsentSuspend, execGangKill, execEnsignFenceTimeout, execMultichipStart,
      execSafeDeadlineExpiry, execContextSave, execContextRestore, execInvalidateAck, execKill, execReset, execHello, execPoisonEscalation]
    repeat' first | exact .next _ | split
  | hbmRowSpare | laneFail | coreRetire | quadrantWithdraw | longLinkDeath | coldStart | watchdogExpiry | storageError | flitRetry =>
    dsimp only [exec, execHbmRowSpare, execLaneFail, execCoreRetire, execQuadrantWithdraw, execLongLinkDeath, execColdStart,
      execWatchdogExpiry, execStorageError, execFlitRetry]
    repeat' first | exact .next _ | split

/-! ## A step of the machine (R394, R403) -/

theorem runPlan_answers (p : Plan) : Answers (runPlan p) := by
  cases p with
  | run i s => exact exec_answers i s
  | move s => exact .next s

/-- A step of a package that runs answers. -/
theorem step_answers {s : State} (h : s.power = .running) : Answers (step s) := by
  rw [step, h]
  exact runPlan_answers _

/-- No step is refused: a package that does not run stops, or carries out a cold start. -/
theorem step_not_refused (s : State) (r : Refusal) : step s ≠ .refused r := by
  unfold step
  split
  · exact (runPlan_answers _).not_refused r
  all_goals
    split
    · exact (runPlan_answers _).not_refused r
    · exact nofun

/-- Settles O60, from what every instruction answers. -/
theorem nothingIsRefused : Obligations.NothingIsRefused := by
  unfold Obligations.NothingIsRefused
  intro s i r f
  refine ⟨(exec_answers i s).not_refused r, step_not_refused s r, (exec_answers i s).eq_noCore, fun stops => ?_⟩
  by_cases running : s.power = .running
  · exact .inl ((step_answers running).eq_noCore stops)
  · exact .inr running

end Sys2Proof.Machine
end

section
/-! SUPPORT. The V forms that land lanes in v[d]: FP32 and integer arithmetic, moves and conversions (02 R28, R29; 08 R155, R158 to R160, R162,
R165, R167, R168). -/

namespace Sys2Proof.Machine

open Sys2Proof.Safety

/-! ## Forms that land lanes (R155, R157) -/

/-- An instruction that lands the lanes `f` in v[d], `lat` cycles after its issue, and does nothing else. -/
def LandsLanes (s : State) (x : Ctx) (c : Common) (d : Reg) (i : Instr) (lat : Nat) (f : LaneFn) : Prop :=
  (lat = 1 ∨ Room x) →
    exec i s = .next (issued x c (landingV x d (lanesOf f) (laneMask x c) lat (laneFlags f (laneMask x c))) s)

section
variable {s : State} {x : Ctx} {c : Common} (hx : ctxOf s .v = some x) (clear : Clear x c)
include hx clear

/-- A form whose arm is `landV` of the lanes `g` of its context lands what those lanes are. -/
theorem landsLanes_of_arm {d : Reg} {i : Instr} {lat : Nat} {f : LaneFn} {g : Ctx → LaneFn}
    (arm : exec i s = issueV c (fun x mask => landV x d (g x) mask lat x.core) s) (lanes : ∀ k, g x k = f k) :
    LandsLanes s x c d i lat f := by
  obtain rfl : g x = f := funext lanes
  intro room
  rw [arm]
  exact issueV_ok hx clear (landV_ok (room.imp_left Nat.le_of_eq))
end

/-! ## The sign alone (R159) -/

theorem copySign_zero (u : Word) : copySign u 0 = if isNan32 u then 0x7FC00000 else u &&& 0x7FFFFFFF := by
  have positive : u &&& 0x7FFFFFFF ||| 0 &&& 0x80000000 = u &&& 0x7FFFFFFF := by simp
  rw [copySign, positive]
  rfl

/-- The bits below bit 31 with the turned bit 31 are the word with that bit turned. -/
theorem magnitude_or_flipped_sign (u : Word) : u &&& 0x7FFFFFFF ||| (u ^^^ 0x80000000) &&& 0x80000000 = u ^^^ 0x80000000 := by
  have split (u m : Word) : u &&& ~~~m ||| (u ^^^ m) &&& m = u ^^^ m := by
    ext i hi
    simp only [BitVec.getElem_or, BitVec.getElem_and, BitVec.getElem_xor, BitVec.getElem_not]
    cases u[i] <;> cases m[i] <;> rfl
  exact split u 0x80000000

theorem copySign_flipSign (u : Word) : copySign u (flipSign u) = if isNan32 u then 0x7FC00000 else u ^^^ 0x80000000 := by
  rw [copySign, flipSign, magnitude_or_flipped_sign]
  rfl

/-- Settles O22: every FP32 form is one `landV`; VABS and VNEG move the sign bit alone. -/
theorem vectorFloatForms : Obligations.VectorFloatForms := by
  unfold Obligations.VectorFloatForms
  intro s x c d a b e rnd sat hx clear m abs keep gives u v w
  have lands {i : Instr} {lat : Nat} {f : LaneFn} {g : Ctx → LaneFn}
    (arm : exec i s = issueV c (fun x mask => landV x d (g x) mask lat x.core) s) (lanes : ∀ k, g x k = f k) : gives i lat f :=
    landsLanes_of_arm hx clear arm lanes
  refine ⟨lands rfl fun _ => rfl, lands rfl fun _ => rfl, lands rfl fun _ => rfl, lands rfl fun _ => rfl, lands rfl fun _ => rfl,
    lands rfl fun _ => rfl, lands rfl fun _ => rfl, lands rfl fun _ => rfl, lands rfl fun _ => rfl, lands rfl fun _ => rfl,
    lands rfl fun _ => rfl, lands rfl fun _ => rfl, ?vabs, ?vneg, lands rfl fun _ => rfl, lands rfl fun _ => rfl, lands rfl fun _ => rfl⟩
  case vabs => exact lands rfl fun k => congrArg quiet (copySign_zero (u k))
  case vneg => exact lands rfl fun k => congrArg quiet (copySign_flipSign (u k))

/-! ## Integer lanes (R28, R29, R160) -/

theorem ofInt_laneInt (n : Bool) (w : Word) : BitVec.ofInt 32 (laneInt n w) = w := by
  cases n
  · exact BitVec.ofInt_toInt
  · exact (BitVec.ofInt_natCast 32 w.toNat).trans ((BitVec.ofNat_toNat 32 w).trans (BitVec.setWidth_eq w))

/-- An integer result wraps, or clamps with overflow at the ends of its type. -/
theorem intLane_eq (n sat : Bool) (i : Int) :
    intLane n sat i =
      let low : Int := if n then 0 else -(2 ^ 31)
      let high : Int := if n then 2 ^ 32 - 1 else 2 ^ 31 - 1
      if sat && Decidable.decide (i < low) then (BitVec.ofInt 32 low, 4)
      else if sat && Decidable.decide (high < i) then (BitVec.ofInt 32 high, 4) else (BitVec.ofInt 32 i, 0) := by
  have low : intMin (laneTy n) = if n then 0 else -(2 ^ 31) := by cases n <;> rfl
  have high : intMax (laneTy n) = if n then 2 ^ 32 - 1 else 2 ^ 31 - 1 := by cases n <;> rfl
  cases sat with
  | false => rfl
  | true =>
    simp only [intLane, clampInt, low, high, if_true, Bool.true_and, decide_eq_true_eq]
    generalize (if n = true then (0 : Int) else -(2 ^ 31)) = low, (if n = true then (2 ^ 32 - 1 : Int) else 2 ^ 31 - 1) = high
    by_cases below : i < low
    · simp only [below, if_true, fOF]
    · by_cases above : high < i <;> simp only [below, above, if_true, if_false, fOF]

/-- Bits 63:32 of a value taken modulo 2^64. -/
theorem extractLsb'_high_ofInt (i : Int) : (BitVec.ofInt 64 i).extractLsb' 32 32 = BitVec.ofInt 32 (i / 2 ^ 32) := by
  apply BitVec.eq_of_toNat_eq
  simp only [BitVec.extractLsb'_toNat, BitVec.toNat_ofInt, Nat.shiftRight_eq_div_pow]
  omega

theorem intLane_high_product (n : Bool) (u v : Word) :
    intLane n false (laneInt n u * laneInt n v / 2 ^ 32)
      = (if n then (u.setWidth 64 * v.setWidth 64).extractLsb' 32 32
        else (u.signExtend 64 * v.signExtend 64).extractLsb' 32 32, 0) := by
  refine Prod.ext ?_ rfl
  refine (extractLsb'_high_ofInt _).symm.trans ?_
  rw [BitVec.ofInt_mul]
  cases n
  · rfl
  · rw [if_pos rfl]
    simp only [laneInt, if_true, BitVec.ofInt_natCast, BitVec.ofNat_toNat]

theorem max_laneInt (n : Bool) (y z : Word) :
    max (laneInt n y) (laneInt n z) = laneInt n (if laneInt n y < laneInt n z then z else y) := by
  by_cases less : laneInt n y < laneInt n z
  · rw [if_pos less, Int.max_eq_right (Int.le_of_lt less)]
  · rw [if_neg less, Int.max_eq_left (Int.not_lt.1 less)]

theorem min_laneInt (n : Bool) (y z : Word) :
    min (laneInt n y) (laneInt n z) = laneInt n (if laneInt n z < laneInt n y then z else y) := by
  by_cases less : laneInt n z < laneInt n y
  · rw [if_pos less, Int.min_eq_right (Int.le_of_lt less)]
  · rw [if_neg less, Int.min_eq_left (Int.not_lt.1 less)]

theorem intLane_min (n : Bool) (u v : Word) :
    intLane n false (min (laneInt n u) (laneInt n v)) = (if laneInt n v < laneInt n u then v else u, 0) := by
  rw [min_laneInt]
  exact congrArg quiet (ofInt_laneInt n _)

theorem intLane_max (n : Bool) (u v : Word) :
    intLane n false (max (laneInt n u) (laneInt n v)) = (if laneInt n u < laneInt n v then v else u, 0) := by
  rw [max_laneInt]
  exact congrArg quiet (ofInt_laneInt n _)

theorem laneShift_eq (w : Word) : laneShift w = w.toNat % 32 := by
  simp [laneShift]

/-- Counting the ones among the low bits from the top down, as the library's count does. -/
theorem cpopNatRec_eq_countOnes {w : Nat} (a : BitVec w) (n : Nat) : a.cpopNatRec n 0 = countOnes a n := by
  induction n with
  | zero => rfl
  | succ n ih =>
    rw [BitVec.cpopNatRec_succ, BitVec.cpopNatRec_add, ih, Nat.add_comm, countOnes]
    cases a.getLsbD n <;> rfl

/-! ## Lanes by number (R165) -/

@[simp] theorem val_wordIndex (w : Word) : (wordIndex w).val = w.toNat % 128 := by
  simp [wordIndex]

@[simp] theorem val_laneIndex (w : Dword) : (laneIndex w).val = w.toNat % 128 := by
  simp [laneIndex]

theorem getElem_wordIndex (v : Lanes) (w : Word) : v[wordIndex w] = v[w.toNat % 128]'(Nat.mod_lt _ (by decide)) := by
  simp only [Fin.getElem_fin, val_wordIndex]

theorem getElem_rotated (v : Lanes) (k : Fin 128) (w : Dword) :
    v[k + laneIndex w] = v[(k.val + w.toNat) % 128]'(Nat.mod_lt _ (by decide)) := by
  simp only [Fin.getElem_fin, Fin.val_add, val_laneIndex, Nat.add_mod_mod]

/-- Settles O23: every form is one `landV`; the lanes of the integer forms are those of the exact result. -/
theorem vectorIntegerForms : Obligations.VectorIntegerForms := by
  unfold Obligations.VectorIntegerForms
  intro s x c d a b n sat p ty src rnd hx clear m gives u v int low high fit
  have lands {i : Instr} {lat : Nat} {f : LaneFn} {g : Ctx → LaneFn}
    (arm : exec i s = issueV c (fun x mask => landV x d (g x) mask lat x.core) s) (lanes : ∀ k, g x k = f k) : gives i lat f :=
    landsLanes_of_arm hx clear arm lanes
  have shifted (sh : Word → Nat → Word) (k : Fin 128) : quiet (sh (u k) (laneShift (v k))) = (sh (u k) ((v k).toNat % 32), 0) := by
    rw [laneShift_eq]
    rfl
  refine ⟨?viadd, ?visub, ?vimul, ?vimulh, ?vimin, ?vimax, lands rfl fun _ => rfl, lands rfl fun _ => rfl, lands rfl fun _ => rfl,
    ?vshl, ?vshr, ?vsar, ?vpopc, lands rfl fun _ => rfl, lands rfl fun _ => rfl, lands rfl fun _ => rfl, ?vperm, ?vrot,
    lands rfl fun _ => rfl⟩
  case viadd => exact lands rfl fun k => intLane_eq n sat (int (u k) + int (v k))
  case visub => exact lands rfl fun k => intLane_eq n sat (int (u k) - int (v k))
  case vimul => exact lands rfl fun k => intLane_eq n sat (int (u k) * int (v k))
  case vimulh => exact lands rfl fun k => intLane_high_product n (u k) (v k)
  case vimin => exact lands rfl fun k => intLane_min n (u k) (v k)
  case vimax => exact lands rfl fun k => intLane_max n (u k) (v k)
  case vshl => exact lands rfl (shifted (· <<< ·))
  case vshr => exact lands rfl (shifted (· >>> ·))
  case vsar => exact lands rfl (shifted BitVec.sshiftRight)
  case vpopc => exact lands rfl fun k => congrArg (fun n => quiet (BitVec.ofNat 32 n)) (cpopNatRec_eq_countOnes (u k) 32).symm
  case vperm => exact lands rfl fun k => congrArg quiet (getElem_wordIndex (x.rv a) (v k))
  case vrot => exact lands rfl fun k => congrArg quiet (getElem_rotated (x.rv a) k (x.rg b))

end Sys2Proof.Machine
end

section
/-! SUPPORT. The V forms that land a predicate: compares, classes and predicate logic (08 R155, R161 to R164). -/

namespace Sys2Proof.Machine

open Sys2Proof.Safety

/-! ## Forms that land a predicate (R155) -/

/-- An instruction that lands the predicate of the lanes `r` in p[d] with the flags `flags`, and does nothing else. -/
def LandsPred (s : State) (x : Ctx) (c : Common) (d : PReg) (i : Instr) (r : Fin 128 → Bool) (flags : BitVec 5) : Prop :=
  ∃ z : Pred, (∀ k : Fin 128, z.getLsbD k.val = r k) ∧ exec i s = .next (issued x c (landingP x d z (laneMask x c) flags) s)

section
variable {s : State} {x : Ctx} {c : Common} (hx : ctxOf s .v = some x) (clear : Clear x c)
include hx clear

/-- A form whose arm is `landP` of the lanes `g` of its context lands what those lanes are. -/
theorem landsPred_of_arm {d : PReg} {i : Instr} {r : Fin 128 → Bool} {g : Ctx → Fin 128 → Bool} {flags : Ctx → Pred → BitVec 5}
    (arm : exec i s = issueV c (fun x mask => landP x d (g x) (flags x mask) mask x.core) s) (lanes : ∀ k, g x k = r k) :
    LandsPred s x c d i r (flags x (laneMask x c)) := by
  obtain rfl : g x = r := funext lanes
  refine ⟨predOf (g x), getLsbD_predOf (g x), ?_⟩
  rw [arm]
  exact issueV_ok hx clear landP_ok

theorem landsPred_quiet {d : PReg} {i : Instr} {r : Fin 128 → Bool} {g : Ctx → Fin 128 → Bool}
    (arm : exec i s = issueV c (fun x mask => landP x d (g x) 0 mask x.core) s) (lanes : ∀ k, g x k = r k) :
    LandsPred s x c d i r 0 :=
  landsPred_of_arm (flags := fun _ _ => 0) hx clear arm lanes
end

/-! ## Compares (R161) -/

/-- One flag raised by some lanes is raised when one of them is active. -/
theorem foldl_flag {α : Type} (m q : α → Bool) (e : BitVec 5) (ks : List α) (a : BitVec 5) :
    ks.foldl (fun a k => if m k then a ||| (if q k then e else 0) else a) a
      = a ||| if ks.any fun k => m k && q k then e else 0 := by
  induction ks generalizing a with
  | nil => simp
  | cons k ks ih =>
    rw [List.foldl_cons, ih, List.any_cons]
    cases m k
    · rfl
    · cases q k
      · simp
      · cases ks.any fun k => m k && q k <;> simp [BitVec.or_assoc]

theorem laneFlags_one (w : Fin 128 → Word) (q : Fin 128 → Bool) (e : BitVec 5) (m : Pred) :
    laneFlags (fun k => (w k, if q k then e else 0)) m
      = if (List.finRange 128).any fun k => m.getLsbD k.val && q k then e else 0 :=
  (foldl_flag (fun k : Fin 128 => m.getLsbD k.val) q e _ 0).trans BitVec.zero_or

/-- Equal are two values neither of which is a NaN or lies below the other. -/
theorem numEq_num32 (u v : Word) :
    numEq (num32 u) (num32 v) = (!(isNan32 u || isNan32 v) && !numLt (num32 u) (num32 v) && !numLt (num32 v) (num32 u)) := by
  rw [Bool.not_or]
  rfl

/-- The relations that raise invalid on a NaN. -/
def frelOrdered : FRel → Bool
  | .eq | .ne | .un => false
  | _ => true

theorem frelHolds_flags (rel : FRel) (u v : Word) :
    (frelHolds rel u v).2 = if frelOrdered rel then (if isNan32 u || isNan32 v then 1 else 0) else 0 := by
  cases rel <;> rfl

/-- An ordered compare raises invalid when an active lane holds a NaN. -/
theorem laneFlags_frelHolds (rel : FRel) (u v : Fin 128 → Word) (m : Pred) :
    laneFlags (fun k => (0, (frelHolds rel (u k) (v k)).2)) m
      = if frelOrdered rel && (List.finRange 128).any fun k => m.getLsbD k.val && (isNan32 (u k) || isNan32 (v k)) then 1 else 0 := by
  simp only [frelHolds_flags]
  cases frelOrdered rel
  · exact laneFlags_quiet _ m
  · exact laneFlags_one _ _ 1 m

/-! ## The class of a value (R163) -/

theorem getLsbD_sign (u : Word) : u.getLsbD 31 = !Decidable.decide (u.toNat < 2 ^ 31) := by
  rw [show u.getLsbD 31 = u.msb from (BitVec.msb_eq_getLsbD_last u).symm, BitVec.msb_eq_decide, Bool.eq_iff_iff]
  simp

theorem classBit_eq (u : Word) :
    classBit u =
      let ex := u.toNat / 2 ^ 23 % 256
      let man := u.toNat % 2 ^ 23
      let pos := Decidable.decide (u.toNat < 2 ^ 31)
      if ex = 255 then (if man = 0 then (if pos then 7 else 0) else if pos then 8 else 9)
      else if ex = 0 then (if man = 0 then (if pos then 4 else 3) else if pos then 5 else 2)
      else if pos then 6 else 1 := by
  have ex : (u.extractLsb' 23 8).toNat = u.toNat / 2 ^ 23 % 256 := by simp [Nat.shiftRight_eq_div_pow]
  have man : (u.extractLsb' 0 23).toNat = u.toNat % 2 ^ 23 := by simp
  simp only [classBit, ex, man, getLsbD_sign]
  cases Decidable.decide (u.toNat < 2 ^ 31) <;> rfl

theorem getLsbD_not_lane (p : Pred) (k : Fin 128) : (~~~p).getLsbD k.val = !p.getLsbD k.val := by
  rw [BitVec.getLsbD_not, decide_eq_true k.isLt, Bool.true_and]

/-- Settles O24: every form is one `landP`; the lanes of each are those of its relation. -/
theorem predicateForms : Obligations.PredicateForms := by
  unfold Obligations.PredicateForms
  intro s x c d p q a b frel rel classes hx clear m u v nan less equal holds ordered intHolds ex man ispos member gives
  have lands {i : Instr} {r : Fin 128 → Bool} {g : Ctx → Fin 128 → Bool}
    (arm : exec i s = issueV c (fun x mask => landP x d (g x) 0 mask x.core) s) (lanes : ∀ k, g x k = r k) : gives i r 0 :=
    landsPred_quiet hx clear arm lanes
  refine ⟨?vcmp, ?vicmp, ?vclass, ?pand, ?por, ?pxor, ?pnot⟩
  case vcmp =>
    have relation (k : Fin 128) : (frelHolds frel (u k) (v k)).1 = holds k := by
      have same := numEq_num32 (u k) (v k)
      cases frel
      case eq => exact same
      case ne => exact congrArg (!·) same
      case lt | gt | un => rfl
      case le => exact congrArg (less (u k) (v k) || ·) same
      case ge => exact congrArg (less (v k) (u k) || ·) same
    have invalid : ordered = frelOrdered frel := by cases frel <;> rfl
    rw [invalid, ← laneFlags_frelHolds frel u v m]
    exact landsPred_of_arm (flags := fun x mask => laneFlags (fun k => (0, (frelHolds frel (x.rv a)[k] (x.rv b)[k]).2)) mask)
      hx clear rfl relation
  case vicmp => exact lands rfl fun k => show relHolds rel (u k) (v k) = intHolds k by cases rel <;> rfl
  case vclass => exact lands rfl fun k => congrArg classes.getLsbD (classBit_eq (u k))
  case pand => exact lands rfl fun k => BitVec.getLsbD_and
  case por => exact lands rfl fun k => BitVec.getLsbD_or
  case pxor => exact lands rfl fun k => BitVec.getLsbD_xor
  case pnot => exact lands rfl fun k => getLsbD_not_lane (x.rp p) k

end Sys2Proof.Machine
end

section
/-! SUPPORT. The V forms that land a scalar: counts, one lane and the reductions (02 R46, R47; 08 R164 to R166). -/

namespace Sys2Proof.Machine

open Sys2Proof.Safety

/-! ## Counts and one lane (R164, R165) -/

/-- A scalar lands when there is room for it; in g0 nothing does. -/
theorem landG_ok_of_room {x : Ctx} {d : Reg} {v : Dword} {lat : Nat} (h : d = 0 ∨ Room x) :
    landG x d v lat x.core = .ok (landingG x d v lat) := by
  rcases h with rfl | room
  · rfl
  · exact landG_ok (.inr room)

theorem countOnes_eq_length {w : Nat} (a : BitVec w) (n : Nat) : countOnes a n = ((List.range n).filter a.getLsbD).length := by
  induction n with
  | zero => rfl
  | succ n ih =>
    rw [countOnes, ih, List.range_succ, List.filter_append, List.length_append, Nat.add_comm]
    cases h : a.getLsbD n <;> simp [h]

/-- The first number that meets a condition, and `d` when none does. -/
theorem getD_find?_eq_headD_filter (p : Nat → Bool) (l : List Nat) (d : Nat) : (l.find? p).getD d = (l.filter p).headD d := by
  rw [List.headD_eq_head?_getD, List.head?_filter]

theorem getLsbD_and_funext (p q : Pred) : (p &&& q).getLsbD = fun k => p.getLsbD k && q.getLsbD k :=
  funext fun _ => BitVec.getLsbD_and

/-! ## Reductions (R46, R47, R166) -/

/-- A reduction on its way to g[d] with its flags; in g0 the flags alone. -/
def landingReduced (x : Ctx) (d : Reg) (v : Dword) (flags : BitVec 5) (lat : Nat) : Core :=
  if d = 0 then
    withLanding x.core { dest := .none, due := x.tide + lat, issued := x.tide, cl := .v, flags := flags, long := false, pc := x.pc }
  else withLanding x.core { dest := .g d, value := v, due := x.tide + lat, issued := x.tide, cl := .v, flags := flags, pc := x.pc }

theorem landReduced_ok {x : Ctx} {d : Reg} {v : Dword} {flags : BitVec 5} {lat : Nat} (h : d = 0 ∨ Room x) :
    landReduced x d v flags lat = .ok (landingReduced x d v flags lat) := by
  unfold landReduced landingReduced
  by_cases hd : d = 0
  · rw [if_pos hd, if_pos hd]
    exact addLanding_ok (.inl rfl)
  · rw [if_neg hd, if_neg hd]
    exact addLanding_ok (.inr (h.resolve_left hd))

/-- The exact sum, wrapped at the end, is the sum that wraps at each step. -/
theorem intReduce_sum (v : Lanes) (m : Pred) :
    intReduce false (fun i j => i + j) 0 v m = ((laneList v m 0).foldl (· + ·) 0).signExtend 64 := by
  have wraps (i : Int) (w : Word) : BitVec.ofInt 32 i + w = BitVec.ofInt 32 (i + laneInt false w) := by
    rw [BitVec.ofInt_add, ofInt_laneInt]
  exact congrArg (BitVec.signExtend 64) (List.foldl_hom (BitVec.ofInt 32) wraps).symm

/-- A reduction over exact integers whose operation chooses between its operands is one over lanes. -/
theorem intReduce_choice (n : Bool) {op : Int → Int → Int} {choice : Word → Word → Word} (idn : Word)
    (same : ∀ y z, op (laneInt n y) (laneInt n z) = laneInt n (choice y z)) (v : Lanes) (m : Pred) :
    intReduce n op (laneInt n idn) v m
      = let r := (laneList v m idn).foldl choice idn
        if n then r.setWidth 64 else r.signExtend 64 := by
  have fold (l : List Word) : l.foldl (fun i w => op i (laneInt n w)) (laneInt n idn) = laneInt n (l.foldl choice idn) :=
    List.foldl_hom (laneInt n) same
  simp only [intReduce, ofInt_laneInt, fold]
  cases n
  · rfl
  · exact (BitVec.ofInt_natCast ..).trans (BitVec.ofNat_toNat ..)

theorem laneInt_signed_lt (y z : Word) : laneInt false y < laneInt false z ↔ y.slt z = true := decide_eq_true_iff.symm
theorem laneInt_unsigned_lt (y z : Word) : laneInt true y < laneInt true z ↔ y < z := Int.ofNat_lt

section
variable (idn : Word) (v : Lanes) (m : Pred)

theorem intReduce_max_signed : intReduce false max (laneInt false idn) v m
    = ((laneList v m idn).foldl (fun y z => if y.slt z then z else y) idn).signExtend 64 :=
  intReduce_choice false idn (fun y z => by simp only [max_laneInt, laneInt_signed_lt]) v m
theorem intReduce_min_signed : intReduce false min (laneInt false idn) v m
    = ((laneList v m idn).foldl (fun y z => if z.slt y then z else y) idn).signExtend 64 :=
  intReduce_choice false idn (fun y z => by simp only [min_laneInt, laneInt_signed_lt]) v m
theorem intReduce_max_unsigned : intReduce true max (laneInt true idn) v m
    = ((laneList v m idn).foldl (fun y z => if y < z then z else y) idn).setWidth 64 :=
  intReduce_choice true idn (fun y z => by simp only [max_laneInt, laneInt_unsigned_lt]) v m
theorem intReduce_min_unsigned : intReduce true min (laneInt true idn) v m
    = ((laneList v m idn).foldl (fun y z => if z < y then z else y) idn).setWidth 64 :=
  intReduce_choice true idn (fun y z => by simp only [min_laneInt, laneInt_unsigned_lt]) v m
end

/-! ## The forms with nothing in their way (R164 to R166) -/

theorem exec_pcnt (c : Common) (d : Reg) (p : PReg) (s : State) : exec (.pcnt c d p) s = execPcnt c d p s := rfl
theorem exec_pfirst (c : Common) (d : Reg) (p : PReg) (s : State) : exec (.pfirst c d p) s = execPfirst c d p s := rfl
theorem exec_vextr (c : Common) (d a b : Reg) (s : State) : exec (.vextr c d a b) s = execVextr c d a b s := rfl
theorem exec_vins (c : Common) (d a b : Reg) (s : State) : exec (.vins c d a b) s = execVins c d a b s := rfl
theorem exec_vrsum (c : Common) (d a : Reg) (ty : Fmt) (s : State) : exec (.vrsum c d a ty) s = execVrsum c d a ty s := rfl
theorem exec_vrmax (c : Common) (d a : Reg) (ty : Fmt) (s : State) : exec (.vrmax c d a ty) s = execVrmax c d a ty s := rfl
theorem exec_vrmin (c : Common) (d a : Reg) (ty : Fmt) (s : State) : exec (.vrmin c d a ty) s = execVrmin c d a ty s := rfl
theorem exec_vramax (c : Common) (d a : Reg) (s : State) : exec (.vramax c d a) s = execVramax c d a s := rfl

section
variable {s : State} {x : Ctx} {c : Common} (hx : ctxOf s .v = some x) (clear : Clear x c)
include hx clear

theorem exec_pcnt_next (d : Reg) (p : PReg) (room : d = 0 ∨ Room x) :
    let on (k : Nat) : Bool := (x.rp p).getLsbD k && (laneMask x c).getLsbD k
    exec (.pcnt c d p) s = .next (issued x c (landingG x d (BitVec.ofNat 64 ((List.range 128).filter on).length) 2) s) := by
  intro on
  rw [exec_pcnt]
  refine issueV_ok hx clear ?_
  rw [countOnes_eq_length, getLsbD_and_funext]
  exact landG_ok_of_room room

theorem exec_pfirst_next (d : Reg) (p : PReg) (room : d = 0 ∨ Room x) :
    let on (k : Nat) : Bool := (x.rp p).getLsbD k && (laneMask x c).getLsbD k
    exec (.pfirst c d p) s = .next (issued x c (landingG x d (BitVec.ofNat 64 (((List.range 128).filter on).headD 128)) 2) s) := by
  intro on
  rw [exec_pfirst]
  refine issueV_ok hx clear ?_
  rw [getD_find?_eq_headD_filter, getLsbD_and_funext]
  exact landG_ok_of_room room

theorem exec_vextr_active (d a b : Reg) (active : (laneMask x c).getLsbD ((x.rg b).toNat % 128) = true) (room : d = 0 ∨ Room x) :
    exec (.vextr c d a b) s
      = .next (issued x c (landingG x d (((x.rv a)[(x.rg b).toNat % 128]'(Nat.mod_lt _ (by decide))).setWidth 64) 2) s) := by
  rw [exec_vextr]
  refine issueV_ok hx clear ?_
  simp only [val_laneIndex, active, if_true, Fin.getElem_fin]
  exact landG_ok_of_room room

theorem exec_vextr_inactive (d a b : Reg) (off : (laneMask x c).getLsbD ((x.rg b).toNat % 128) = false) :
    exec (.vextr c d a b) s = .next (issued x c x.core s) := by
  rw [exec_vextr]
  refine issueV_ok hx clear ?_
  simp only [val_laneIndex, off, Bool.false_eq_true, if_false]

theorem exec_vins_next (d a b : Reg) :
    exec (.vins c d a b) s = .next (issued x c (landingV x d (Vector.replicate 128 ((x.rg a).setWidth 32))
      (laneMask x c &&& BitVec.ofNat 128 (2 ^ ((x.rg b).toNat % 128))) 1 0) s) := by
  rw [exec_vins]
  refine issueV_ok hx clear ((landV_ok (.inl (Nat.le_refl 1))).trans ?_)
  simp only [quiet, laneFlags_quiet, lanesOf_const, val_laneIndex]

theorem exec_vrsum_f32 (d a : Reg) (room : d = 0 ∨ Room x) :
    let r := tree128 (add32 .rne false) (laneList (x.rv a) (laneMask x c) 0x80000000)
    exec (.vrsum c d a .f32) s = .next (issued x c (landingReduced x d (r.1.setWidth 64) r.2 10) s) := by
  intro r
  rw [exec_vrsum]
  refine issueV_ok hx clear ?_
  rw [if_pos rfl]
  exact landReduced_ok room

theorem exec_vrsum_int {ty : Fmt} (int : ty ≠ .f32) (d a : Reg) (room : d = 0 ∨ Room x) :
    exec (.vrsum c d a ty) s = .next (issued x c
      (landingReduced x d (((laneList (x.rv a) (laneMask x c) 0).foldl (· + ·) 0).signExtend 64) 0 10) s) := by
  rw [exec_vrsum]
  refine issueV_ok hx clear ?_
  rw [if_neg int, intReduce_sum]
  exact landReduced_ok room

theorem reduceMinMax_f32 (d a : Reg) (fop : Word → Word → Word × BitVec 5) (fidn : Word) (iop : Int → Int → Int) (iidn : Fmt → Int)
    (room : d = 0 ∨ Room x) :
    let r := tree128 fop (laneList (x.rv a) (laneMask x c) fidn)
    reduceMinMax c d a .f32 fop fidn iop iidn s = .next (issued x c (landingReduced x d (r.1.setWidth 64) r.2 6) s) := by
  intro r
  refine issueV_ok hx clear ?_
  rw [if_pos rfl]
  exact landReduced_ok room

/-- The integer side of VRMAX and VRMIN, from the reduction over lanes and the word of its identity. -/
theorem reduceMinMax_int {ty : Fmt} {n : Bool} {idn : Word} {iidn : Fmt → Int} {iop : Int → Int → Int} {v : Dword} {d a : Reg}
    {fop : Word → Word → Word × BitVec 5} {fidn : Word} (int : ty ≠ .f32) (sign : (ty == .n32) = n) (identity : iidn ty = laneInt n idn)
    (value : intReduce n iop (laneInt n idn) (x.rv a) (laneMask x c) = v) (room : d = 0 ∨ Room x) :
    reduceMinMax c d a ty fop fidn iop iidn s = .next (issued x c (landingReduced x d v 0 6) s) := by
  refine issueV_ok hx clear ?_
  rw [if_neg int, sign, identity, value]
  exact landReduced_ok room

theorem exec_vramax_next (d a : Reg) (room : d = 0 ∨ Room x) :
    let magnitude (w : Word) : Word := if isNan32 w then 0x7FC00000 else w &&& 0x7FFFFFFF
    let r := tree128 max32 ((laneList (x.rv a) (laneMask x c) 0).map magnitude)
    exec (.vramax c d a) s = .next (issued x c (landingReduced x d (r.1.setWidth 64) r.2 6) s) := by
  intro magnitude r
  rw [exec_vramax]
  refine issueV_ok hx clear ?_
  simp only [copySign_zero]
  exact landReduced_ok room
end

/-- Settles O25: counts and lanes land as scalars; a reduction over integers is one over lanes. -/
theorem laneToScalarForms : Obligations.LaneToScalarForms := by
  unfold Obligations.LaneToScalarForms
  intro s x c d a b p hx clear m lane n on words lands gives reduces reducesInt
  have signed : (Fmt.i32 == .n32) = false := by decide
  have unsigned : (Fmt.n32 == .n32) = true := by decide
  refine ⟨exec_pcnt_next hx clear d p, exec_pfirst_next hx clear d p, exec_vextr_active hx clear d a b,
    exec_vextr_inactive hx clear d a b, exec_vins_next hx clear d a b, exec_vrsum_f32 hx clear d a, exec_vrsum_int hx clear (by decide) d a,
    ?maxF, ?minF, ?max, ?min, ?maxn, ?minn, exec_vramax_next hx clear d a⟩
  case maxF =>
    intro room
    rw [exec_vrmax, execVrmax]
    exact reduceMinMax_f32 hx clear d a max32 negInf32 max intMin room
  case minF =>
    intro room
    rw [exec_vrmin, execVrmin]
    exact reduceMinMax_f32 hx clear d a min32 posInf32 min intMax room
  case max =>
    intro room
    rw [exec_vrmax, execVrmax]
    exact reduceMinMax_int hx clear (by decide) signed (by decide) (intReduce_max_signed (BitVec.intMin 32) _ m) room
  case min =>
    intro room
    rw [exec_vrmin, execVrmin]
    exact reduceMinMax_int hx clear (by decide) signed (by decide) (intReduce_min_signed (BitVec.intMax 32) _ m) room
  case maxn =>
    intro room
    rw [exec_vrmax, execVrmax]
    exact reduceMinMax_int hx clear (by decide) unsigned (by decide) (intReduce_max_unsigned 0 _ m) room
  case minn =>
    intro room
    rw [exec_vrmin, execVrmin]
    exact reduceMinMax_int hx clear (by decide) unsigned (by decide) (intReduce_min_unsigned (BitVec.allOnes 32) _ m) room

end Sys2Proof.Machine
end

section
/-! SUPPORT. Bound checks, and the parking of a vector register in a pair of tile rows (03 R64; 08 R174, R175, R180, R181). -/

namespace Sys2Proof.Machine

open Sys2Proof.Safety

/-! ## Bound checks (R174) -/

theorem checkBound_zero (q : Bound) (w : Word) : checkBound { q with b := 0 } w = (w, 0, false) := if_pos (.inl rfl)

theorem checkBound_passes {q : Bound} {w : Word} (h : inRange q w = true ∨ q.mode = 0) : checkBound q w = (w, 0, false) :=
  if_pos (.inr h.symm)

/-- The two bits that a check sets in BNDLOG: HIT of its entry, and NAN for a NaN. -/
theorem boundHits_eq {b : Nat} (h : b < 16) (nan : Bool) :
    BitVec.ofNat 32 (2 ^ b + if nan then 2 ^ (16 + b) else 0)
      = BitVec.ofNat 32 (2 ^ b) ||| if nan then BitVec.ofNat 32 (2 ^ (16 + b)) else 0 := by
  cases nan
  · exact BitVec.or_zero.symm
  · have bits : ∀ b < 16, BitVec.ofNat 32 (2 ^ b + 2 ^ (16 + b)) = BitVec.ofNat 32 (2 ^ b) ||| BitVec.ofNat 32 (2 ^ (16 + b)) := by
      decide
    exact bits b h

/-- A value out of range under a mode that checks: it is logged, and clamped or trapped as the mode has it. -/
theorem checkBound_stops {q : Bound} {w : Word} (entry : 0 < q.b) (small : q.b < 16) (checks : q.mode ≠ 0) (out : inRange q w = false) :
    checkBound q w =
      let hit : BitVec 32 := BitVec.ofNat 32 (2 ^ q.b) ||| (if isNan32 w then BitVec.ofNat 32 (2 ^ (16 + q.b)) else 0)
      if q.mode = 1 then (w, hit, false)
      else if q.mode = 2 then (if numLt (num32 q.high) (num32 w) then q.high else q.low, hit, false)
      else (w, hit, true) := by
  have stops : ¬(q.b = 0 ∨ q.mode = 0 ∨ inRange q w = true) := by
    simp only [out, Bool.false_eq_true, or_false, not_or]
    exact ⟨Nat.ne_of_gt entry, checks⟩
  rw [checkBound, if_neg stops]
  simp only [boundHits_eq small]
  rfl

/-! ## The arms of `exec` -/

theorem exec_vbnd (c : Common) (v : Reg) (bound : BitVec 4) (s : State) : exec (.vbnd c v bound) s = execVbnd c v bound s := rfl
theorem exec_vpark (c : Common) (v : Reg) (s : State) : exec (.vpark c v) s = execVpark c v s := rfl
theorem exec_vunpark (c : Common) (v : Reg) (sp : Spec) (s : State) : exec (.vunpark c v sp) s = execVunpark c v sp s := rfl

/-! ## The bytes of a parked register (R180, R181) -/

/-- A pair of rows lies within the eight blocks of its tile. -/
theorem parkedLoc_lt (sq : Bool) {n k : Nat} (hn : n % 2 = 0) (h : n < 128) (hk : k < 128) : (parkedLoc sq n k).1 < 8 := by
  cases sq <;> simp only [parkedLoc, tileLoc, if_true, Bool.false_eq_true, if_false] <;> omega

theorem blockAt_intact {s : State} {core t b : Nat} (hb : b < 8) (intact : hasLatent (rawBlock s.mem (.tile core (8 * t + b))) = false) :
    blockAt ((tileBlocks s core t).map detectAll) b = rawBlock s.mem (.tile core (8 * t + b)) := by
  simp [blockAt, tileBlocks, tileSlots, hb, detectAll_of_sound intact]

/-- TSHP of a specifier's tile, by number. -/
theorem specShape_eq (x : Ctx) (sp : Spec) : specShape x sp = (x.ctl.tshp[sp.num.toNat]?).getD 0 := by
  have there : sp.num.toNat < 8 := sp.num.isLt
  rw [specShape, Vector.getElem?_eq_getElem there]
  rfl

theorem getD_map_isSq (o : Option Fmt) : (o.map Fmt.isSq).getD false = match o with | some f => f.isSq | none => false := by
  cases o <;> rfl

/-! ## The three forms (R175, R180, R181) -/

section
variable {s : State} {x : Ctx} {c : Common} (hx : ctxOf s .v = some x) (clear : Clear x c)
include hx clear

theorem issueVmem_ok {f : Ctx → Pred → Except Cause (Core × State)} {core : Core} {t : State} (h : f x (laneMask x c) = .ok (core, t)) :
    issueVmem c f s = .next (issued x c core t) := by
  simp only [issueVmem, hx]
  exact issueIn_ok clear h

theorem issueVmem_error {f : Ctx → Pred → Except Cause (Core × State)} {e : Cause} (h : f x (laneMask x c) = .error e) :
    issueVmem c f s = .next (caused x c e) := by
  simp only [issueVmem, hx]
  exact issueIn_error clear h

theorem exec_vbnd_next (v : Reg) {bound : BitVec 4} (on : bound ≠ 0) :
    let q := boundOf x.ctl bound.toNat
    let lane (k : Fin 128) : Word := (x.rv v)[k]
    let act := (List.finRange 128).filter fun k => (laneMask x c).getLsbD k.val
    let hits := act.foldl (fun a k => a ||| (checkBound q (lane k)).2.1) (0 : BitVec 32)
    (act.find? (fun k => (checkBound q (lane k)).2.2) = none → exec (.vbnd c v bound) s = .next (issued x c (withLanding x.core
      { dest := .v v, lanes := Vector.ofFn fun k => (checkBound q (lane k)).1, mask := laneMask x c, due := x.tide + 1, issued := x.tide
        cl := .v, hits := hits, long := false, pc := x.pc }) s))
    ∧ ∀ k, act.find? (fun k => (checkBound q (lane k)).2.2) = some k → exec (.vbnd c v bound) s
      = .next (caused x c { code := 0x0A, tval := lane k ++ BitVec.ofNat 32 bound.toNat, hits := hits }) := by
  intro q lane act hits
  rw [exec_vbnd, execVbnd]
  refine ⟨fun passes => issueV_ok hx clear ((if_neg on).trans ?_), fun k traps => issueV_error hx clear ((if_neg on).trans ?_)⟩
  · dsimp only
    split
    case h_1 j hj => exact nomatch passes.symm.trans hj
    case h_2 => exact addLanding_ok (.inl rfl)
  · dsimp only
    split
    case h_1 j hj =>
      obtain rfl : k = j := Option.some.inj (traps.symm.trans hj)
      rfl
    case h_2 none_ => exact nomatch traps.symm.trans none_

theorem exec_vpark_miss (v : Reg) (none_ : freePairs x.core.regs = []) : exec (.vpark c v) s = .next (caused x c x.miss) := by
  rw [exec_vpark, execVpark]
  refine issueV_error hx clear ?_
  rw [none_]
  rfl

theorem exec_vpark_next (v : Reg) {t m : Nat} {rest : List (Nat × Nat)} (first : freePairs x.core.regs = (t, m) :: rest)
    (images : imageRoom x.core (pairSlots x t (2 * m) (laneMask x c)) = none) : exec (.vpark c v) s
      = .next (issued x c { x.core with atEnd := x.core.atEnd ++ [.park t (2 * m) (x.rv v) (laneMask x c)] } s) := by
  rw [exec_vpark, execVpark]
  refine issueV_ok hx clear ?_
  simp only [first, List.head?_cons, images]

theorem exec_vunpark_miss (v : Reg) {sp : Spec}
    (free : (specIdx x sp).toNat % 128 % 2 = 1
      ∨ x.core.regs.park.getLsbD (64 * sp.num.toNat + (specIdx x sp).toNat % 128 / 2) = false) :
    exec (.vunpark c v sp) s = .next (caused x c x.miss) := by
  have low : ((specIdx x sp).extractLsb' 0 7).toNat = (specIdx x sp).toNat % 128 := by simp
  rw [exec_vunpark, execVunpark]
  refine issueVmem_error hx clear ?_
  simp only [low]
  exact if_pos (free.imp_right .inl)

theorem exec_vunpark_next (v : Reg) {sp : Spec} (room : Room x) :
    let t := sp.num.toNat
    let n := (specIdx x sp).toNat % 128
    let loc (k : Nat) := parkedLoc (((tshpFmt (specShape x sp)).map Fmt.isSq).getD false) n k
    let block (b : Nat) : Cells := rawBlock s.mem (.tile x.core.num (8 * t + b))
    n % 2 = 0 → x.core.regs.park.getLsbD (64 * t + n / 2) = true →
    (∀ b < 8, hasLatent (block b) = false ∧ ∀ w, blkMarked (block b) w = false) →
    exec (.vunpark c v sp) s = .next (issued x c (withLanding { x.core with atEnd := x.core.atEnd ++ [.unpark (64 * t + n / 2)] }
      { dest := .v v, lanes := Vector.ofFn fun k => BitVec.ofNat 32 (cle (block (loc k.val).1) (loc k.val).2 4), mask := laneMask x c
        due := x.tide + 3, issued := x.tide, cl := .v, pc := x.pc }) s) := by
  intro t n loc block even occupied sound
  have low : ((specIdx x sp).extractLsb' 0 7).toNat = n := by simp [n]
  have within {k : Nat} (hk : k < 128) : (loc k).1 < 8 := parkedLoc_lt _ even (Nat.mod_lt _ (by decide)) hk
  have read {k : Nat} (hk : k < 128) : blockAt ((tileBlocks s x.core.num t).map detectAll) (loc k).1 = block (loc k).1 :=
    blockAt_intact (within hk) (sound _ (within hk)).1
  have kept : ¬(n % 2 = 1 ∨ x.core.regs.park.getLsbD (64 * t + n / 2) = false ∨ landingFull x true = true) := by
    simp [even, occupied, landingFull_of_room room]
  have unmarked : ((List.range 128).filter fun k => (laneMask x c).getLsbD k).find?
      (fun k => blkMarked (blockAt ((tileBlocks s x.core.num t).map detectAll) (loc k).1) ((loc k).2 / 4)) = none := by
    refine List.find?_eq_none.2 fun k hk => ?_
    have hk := List.mem_range.1 (List.mem_filter.1 hk).1
    rw [read hk, (sound _ (within hk)).2]
    exact Bool.false_ne_true
  have quiet : readParts s (((List.range 128).filter fun k => (laneMask x c).getLsbD k).map fun k =>
      (Slot.tile x.core.num (8 * t + (loc k).1), (loc k).2, 4)) = s := by
    refine readParts_of_sound fun e he => ?_
    obtain ⟨k, hk, rfl⟩ := List.mem_map.1 he
    exact (sound _ (within (List.mem_range.1 (List.mem_filter.1 hk).1))).1
  rw [exec_vunpark, execVunpark]
  refine issueVmem_ok hx clear ?_
  simp only [low, ctxOf_s hx]
  refine (if_neg kept).trans ?_
  split
  case h_1 k hk => exact nomatch unmarked.symm.trans hk
  case h_2 =>
    have lanes : (fun k : Fin 128 => BitVec.ofNat 32 (cle (blockAt ((tileBlocks s x.core.num t).map detectAll) (loc k.val).1) (loc k.val).2 4))
        = fun k => BitVec.ofNat 32 (cle (block (loc k.val).1) (loc k.val).2 4) := funext fun k => by rw [read k.isLt]
    refine (congrArg (Except.map _) (addLanding_ok (.inr ?pending))).trans (congrArg Except.ok (Prod.ext ?_ quiet))
    case pending => exact room
    exact congrArg (fun l : Lanes => withLanding { x.core with atEnd := x.core.atEnd ++ [.unpark (64 * t + n / 2)] }
      { dest := .v v, lanes := l, mask := laneMask x c, due := x.tide + 3, issued := x.tide, cl := .v, pc := x.pc })
      (congrArg Vector.ofFn lanes)
end

/-- Settles O30: a check passes or stops by its mode; VBND, VPARK and VUNPARK each miss, raise or leave what the rules say. -/
theorem boundsAndParking : Obligations.BoundsAndParking := by
  unfold Obligations.BoundsAndParking
  refine ⟨?checks, ?forms⟩
  case checks =>
    intro q w entry small mode v low high within hit
    refine ⟨checkBound_passes, ?_, ?_, ?_, checkBound_zero q w⟩
    all_goals
      intro out hm
      rw [checkBound_stops entry small (by omega) out, hm]
      rfl
  case forms =>
    intro s x c v sp bound hx clear m q lane on hits shapeOf free pairs t n miss sq at_ block
    refine ⟨fun off => ?_, fun checked passes => (exec_vbnd_next hx clear v checked).1 (List.find?_eq_none.2 fun k hk => ?_),
      fun checked => (exec_vbnd_next hx clear v checked).2, exec_vpark_miss hx clear v, fun t m rest => exec_vpark_next hx clear v,
      exec_vunpark_miss hx clear v, fun even occupied room sound => ?_⟩
    · rw [exec_vbnd, execVbnd]
      exact issueV_ok hx clear (if_pos off)
    · rw [passes k hk]
      exact Bool.false_ne_true
    · have next := exec_vunpark_next hx clear v room even occupied sound
      rw [specShape_eq, getD_map_isSq] at next
      exact next

end Sys2Proof.Machine
end

section
/-! SUPPORT. A statement that fails for a vector store that stands as a read too (07 R137; 08 R177). No issue makes such an access, but the hypotheses
allow it: the undo entries of an access that reads were not kept free at its issue, and the statement gives back their reservation. -/

namespace Sys2Proof.Machine

open Sys2Proof.Safety

/-- A core with one entry of its log kept free. -/
def keeping : Core := { reserved := 1 }
/-- A gang of one such core. -/
def keepers : State := { State.reset with gangs := [loneGang .port keeping] }
/-- A vector store of 128 bytes of value 300 to the core's own berth that stands in the load queue too. -/
def readingStore : Access :=
  { serial := 0, op := .vstore .i8 (BitVec.allOnes 128) (Vector.replicate 128 300) 0, cl := .v
    spots := [{ slot := .berth 0 0, bit := 0, code := fmtByte .i8, vba := 0x100 }], pc := 0, issued := 0, due := 0, inLoad := true, inStore := true }
/-- The entries that the gang's core keeps free. -/
def keptFree (s : State) : Option Nat := (getMember s ⟨0, 0⟩).map fun p => p.2.reserved

/-- Refutes O26: performed, the store takes an undo entry that was not kept free for it, and the one that was stays kept. The statement
gives that one back. -/
theorem not_vectorAccesses : ¬ Obligations.VectorAccesses := by
  unfold Obligations.VectorAccesses
  rintro ⟨-, -, performed⟩
  have sound : ∀ p ∈ readingStore.spots, slotPorted p.slot = false ∧ hasLatent (rawBlock keepers.mem p.slot) = false := by
    decide +kernel
  obtain ⟨-, stores⟩ := performed keepers ⟨0, 0⟩ (loneGang .port keeping) keeping readingStore 0 .i8 (BitVec.allOnes 128)
    (Vector.replicate 128 300) 0 rfl rfl sound
  obtain ⟨mem, after, -⟩ := stores rfl rfl (by decide +kernel) (by decide +kernel)
  have kept : keptFree (performAccess keepers (loneGang .port keeping) ⟨0, 0⟩ readingStore) = some 1 := by decide +kernel
  rw [after] at kept
  exact absurd (show some 0 = some 1 from kept) (by decide)

end Sys2Proof.Machine
end

section
/-! SUPPORT. The X cluster's issues, said once, and its exchanges with the far tier (10 R225, R226). -/

namespace Sys2Proof.Machine

open Sys2Proof.Safety

/-! ## Issues whose body looks at the guard (R82) -/

section
variable {cl : Cl} {s : State} {x : Ctx} {c : Common} (hx : ctxOf s cl = some x) (clear : Clear x c)
include hx clear

theorem issue_next {body : Bool → Body} {on : Bool} {core : Core} {t : State} (guard : guardOn x c = on)
    (h : body on x = .ok (core, t)) : issue cl c (body true) (body false) s = .next (issued x c core t) := by
  cases on with
  | true => exact issueHow_on hx clear guard h
  | false => exact issueHow_off hx clear guard h

theorem issue_caused {body : Bool → Body} {on : Bool} {e : Cause} (guard : guardOn x c = on) (h : body on x = .error e) :
    issue cl c (body true) (body false) s = .next (caused x c e) := by
  cases on with
  | true => exact issueHow_cause hx clear guard h
  | false => exact issueHow_off_cause hx clear guard h
end

/-! ## Room in the log (R266) -/

theorem logFree_of_room {x : Ctx} {n : Nat} (h : LogRoom x n) : logFree x.core n = true := decide_eq_true h

/-! ## XFAR (R225) -/

theorem exec_xfar (c : Common) (near far cnt : Reg) (s : State) :
    exec (.xfar c near far cnt) s = issue .x c (farBody near far cnt true) (farBody near far cnt false) s := rfl

/-- The card of an XFAR reads its pairs and stays open. -/
def farCard (x : Ctx) (pairs : List (Slot × Slot)) : Card :=
  { reads := pairs.flatMap fun p => [.slot p.1, .slot p.2], writes := [], first := x.tide, readEnd := x.tide, last := x.tide, open_ := true
    id := x.s.serial }

section
variable {x : Ctx} {near far cnt : Reg} {pairs : List (Slot × Slot)} {bad : List Cause}
  (found : farPairs x (x.rg near) (x.rg far) ((x.rg cnt).toNat % 8192) = (pairs, bad)) (span : x.slack = true)
  (edges : cardsMeet x.core (farCard x pairs).reads [] x.tide = true)
include found span edges

theorem farBody_off : farBody near far cnt false x
    = .ok ({ x.core with cards := x.core.cards ++ [farCard x pairs] }, { x.s with serial := x.s.serial + 1 }) := by
  have low : ((x.rg cnt).extractLsb' 0 13).toNat = (x.rg cnt).toNat % 8192 := by simp
  simp only [farCard] at edges
  simp only [farBody, low, found, span, edges]
  rfl

theorem farBody_on {p : Page} (sound : bad = []) (page : pennantPage x (x.core.regs.rgn (cnt.toNat + 1)) = (some p, []))
    (free : x.core.standing.length < 4) (room : LogRoom x 1) :
    let pen := x.core.regs.rgn (cnt.toNat + 1)
    farBody near far cnt true x = .ok ({ x.core with
        cards := x.core.cards ++ [farCard x pairs]
        log := { order := x.s.serial, entry := .staged (.far x.s.serial) [x.syl, x.rg near, x.rg far, x.rg cnt, pen] } :: x.core.log
        standing := x.core.standing ++ [{
          serial := x.s.serial, pairs := pairs, value := (x.rg cnt).extractLsb' 32 32, pennant := p.slot, penOff := pen.toNat % 4096
          penCode := p.code }] }, { x.s with serial := x.s.serial + 1 }) := by
  intro pen
  have low : ((x.rg cnt).extractLsb' 0 13).toNat = (x.rg cnt).toNat % 8192 := by simp
  have off : (pen.extractLsb' 0 12).toNat = pen.toNat % 4096 := by simp
  have notFull : ¬4 ≤ x.core.standing.length := Nat.not_le.2 free
  simp only [farCard] at edges
  simp only [farBody, low, found, span, edges, page, sound, notFull, decide_false, logFree_of_room room, ← off]
  rfl
end

/-! ## The swaps of a released exchange (R226) -/

section
variable {s : State} {k : CoreId} {g : Gang} {core : Core} {t : Standing} (member : getMember s k = some (g, core))
  (there : core.standing.find? (fun q => q.serial == t.serial) = some t)
include member there

theorem exec_xfarPairSwap_down (down : farUp s t = false) : exec (.xfarPairSwap k t.serial) s = .next s := by
  show execXfarPairSwap k t.serial s = _
  simp [execXfarPairSwap, member, there, down]

theorem exec_xfarPairSwap_pair (single : g.desc.pair = false) (up : farUp s t = true) {a b : Slot} (pair : t.pairs[t.next]? = some (a, b)) :
    exec (.xfarPairSwap k t.serial) s = .next (
      let r := modMember (swapSlots s g.desc.owner a b) k fun c => { c with standing := c.standing.map fun q =>
        if q.serial = t.serial then { q with next := q.next + 1 } else q }
      post { r with free := r.free + 1 } (Config.farTime r.free) (.xfarPairSwap k t.serial)) := by
  show execXfarPairSwap k t.serial s = _
  simp [execXfarPairSwap, member, there, up, single, pair]

theorem exec_xfarPairSwap_last (single : g.desc.pair = false) (up : farUp s t = true) (done : t.pairs.length ≤ t.next) :
    exec (.xfarPairSwap k t.serial) s = .next (modMember
      (putBlock s g.desc.owner t.pennant (writeElem (rawBlock s.mem t.pennant) t.penCode t.penOff 4 t.value.toNat)) k
      fun c => { c with standing := c.standing.filter fun q => q.serial != t.serial }) := by
  show execXfarPairSwap k t.serial s = _
  simp [execXfarPairSwap, member, there, up, single, List.getElem?_eq_none done]
end

/-- Settles O40: XFAR by its guard, and a swap by the port and the pairs left. -/
theorem farExchanges : Obligations.FarExchanges := by
  unfold Obligations.FarExchanges
  refine ⟨?issue, fun s k g core t member there single => ⟨exec_xfarPairSwap_down member there,
    fun up a b pair => exec_xfarPairSwap_pair member there single up pair, exec_xfarPairSwap_last member there single⟩⟩
  intro s x c near far cnt hx clear span w pen pairs reads card edges
  obtain rfl : x.s = s := ctxOf_s hx
  rw [exec_xfar]
  exact ⟨fun guard => issue_next hx clear (body := farBody near far cnt) guard (farBody_off rfl span edges),
    fun guard free room sound p page => issue_next hx clear (body := farBody near far cnt) guard (farBody_on rfl span edges sound page free room)⟩

end Sys2Proof.Machine
end

section
/-! SUPPORT. Quay banks and neighbour links (10 R230 to R232). -/

namespace Sys2Proof.Machine

open Sys2Proof.Safety

/-! ## Causes in order (R76) -/

@[simp] theorem firstCause_nil : firstCause [] = none := rfl

/-- A cause that no later one precedes is the first. -/
theorem firstCause_cons {e : Cause} {l : List Cause} (h : ∀ q ∈ l, causeRank e.code ≤ causeRank q.code) :
    firstCause (e :: l) = some e := by
  show l.foldl _ (some e) = some e
  induction l with
  | nil => rfl
  | cons q l ih =>
    have kept : ¬causeRank q.code < causeRank e.code := Nat.not_lt.2 (h q List.mem_cons_self)
    simp only [List.foldl_cons, kept, if_false]
    exact ih fun r hr => h r (List.mem_cons_of_mem q hr)

/-- SCHED_MISS comes before every cause of R76's later groups. -/
theorem firstCause_miss {x : Ctx} {l : List Cause} (h : ∀ q ∈ l, 20 ≤ causeRank q.code) : firstCause (x.miss :: l) = some x.miss :=
  firstCause_cons h

/-! ## The arms of `exec` -/

theorem exec_xnsend (c : Common) (sp : Spec) (d : Side) (s : State) :
    exec (.xnsend c sp d) s = issue .x c (sendBody sp d true) (sendBody sp d false) s := rfl
theorem exec_xnrecv (c : Common) (sp : Spec) (d : Side) (s : State) :
    exec (.xnrecv c sp d) s = issue .x c (recvBody sp d true) (recvBody sp d false) s := rfl

/-! ## XNSEND (R231) -/

section
variable {x : Ctx} {sp : Spec} (edges : cardsMeet x.core ((linkBlocks x sp).1.map .slot) [] x.tide = true)
include edges

/-- The core whose XNSEND has read its tile blocks. -/
def sentCore (x : Ctx) (sp : Spec) : Core :=
  { x.core with
    cards := x.core.cards ++ [{ reads := (linkBlocks x sp).1.map .slot, writes := [], first := x.tide, readEnd := x.tide, last := x.tide }] }

theorem sendBody_off (d : Side) : sendBody sp d false x = .ok (sentCore x sp, x.s) := by
  simp only [sendBody, edges]
  rfl

theorem sendBody_on {d : Side} {lanes : Lanes} {f : BitVec 5} {j : Nat} (plain : (linkBlocks x sp).2 = [])
    (intact : ∀ e ∈ dirWords x sp (BitVec.allOnes 128), hasLatent (rawBlock x.s.mem e.1) = false)
    (read : dirRead x sp (BitVec.allOnes 128) = .ok (lanes, f, false)) (there : neighbour x.g x.k.idx x.core d = some j) :
    sendBody sp d true x = .ok (sentCore x sp, modMember x.s ⟨x.k.gang, j⟩ fun o =>
      { o with links := o.links ++ [{ side := facing d, lanes := lanes, due := x.tide + 2 }] }) := by
  simp only [sendBody, edges, there, plain, read, readParts_of_sound intact]
  rfl
end

/-! ## XNRECV (R231, R232) -/

/-- The core whose XNRECV has taken what arrived. -/
def receivingCore (x : Ctx) (sp : Spec) (d : Side) : Core :=
  { x.core with
    cards := x.core.cards ++ [{ reads := [], writes := (linkBlocks x sp).1.map .slot, first := x.tide, readEnd := x.tide, last := x.tide + 2 }]
    links := x.core.links.filter fun l => !(l.side == d && l.due == x.tide) }
/-- The lanes that arrive on this cycle. -/
def arriving (x : Ctx) (d : Side) : Option Link := x.core.links.find? fun l => l.side == d && l.due == x.tide

theorem recvBody_off {x : Ctx} {sp : Spec} (edges : cardsMeet x.core [] ((linkBlocks x sp).1.map .slot) x.tide = true) (d : Side) :
    recvBody sp d false x = .ok (receivingCore x sp d, x.s) := by
  simp only [recvBody, onCore, edges]
  rfl

/-- FORMAT of a tile that a link may not carry, or of one of its blocks. -/
theorem code_linkBlocks {x : Ctx} {sp : Spec} {q : Cause} (h : q ∈ (linkBlocks x sp).2) : q.code = cFormat := by
  unfold linkBlocks at h
  dsimp only at h
  split at h
  · rw [List.mem_singleton.1 h]; rfl
  · split at h
    · rw [List.mem_singleton.1 h]; rfl
    · cases h
theorem code_blockFormat {x : Ctx} {t : Nat} {f : Fmt} {l : List Nat} {q : Cause} (h : blockFormat x t f l = some q) : q.code = cFormat := by
  obtain ⟨b, -, rfl⟩ := Option.map_eq_some_iff.1 h
  rfl
theorem code_imageRoom {c : Core} {l : List Slot} {q : Cause} (h : imageRoom c l = some q) : q.code = cUndo := by
  unfold imageRoom at h
  dsimp only at h
  split at h
  · cases h
  · cases h; rfl

/-- Where nothing arrives, SCHED_MISS comes before every cause of the blocks. -/
theorem recvBody_nothing {x : Ctx} {sp : Spec} {d : Side} (none_ : arriving x d = none) : recvBody sp d true x = .error x.miss := by
  simp only [recvBody, onCore]
  rw [show (x.core.links.find? fun l => l.side == d && l.due == x.tide) = none from none_]
  simp only [Option.isNone_none, Bool.and_true, Bool.or_true, Bool.true_or, if_true]
  rw [List.singleton_append, firstCause_miss fun q hq => ?_]
  · rfl
  simp only [List.mem_append, Option.mem_toList] at hq
  rcases hq with hq | hq | hq
  · rw [code_linkBlocks hq]; decide
  · obtain ⟨f, -, hq⟩ := Option.bind_eq_some_iff.1 hq
    rw [code_blockFormat hq]; decide
  · rw [code_imageRoom hq]; decide

section
variable {x : Ctx} {sp : Spec} {d : Side} {l : Link} {f : Fmt}
  (edges : cardsMeet x.core [] ((linkBlocks x sp).1.map .slot) x.tide = true) (plain : (linkBlocks x sp).2 = [])
  (images : imageRoom x.core (linkBlocks x sp).1 = none) (room : Room x) (here : arriving x d = some l) (shape : tshpFmt (specShape x sp) = some f)
include edges plain images room here shape

/-- Lanes that arrive for blocks of which one disagrees in its format. -/
theorem recvBody_format {e : Cause}
    (odd : blockFormat x sp.num.toNat f (blocksIn (specShape x sp) f sp.dir (specIdx x sp) (BitVec.allOnes 128)) = some e) :
    recvBody sp d true x = .error e := by
  simp only [arriving] at here
  simp only [recvBody, onCore, edges, plain, images, landingFull_of_room room, here, shape, Option.bind_some, odd]
  rfl

theorem recvBody_lands
    (agree : blockFormat x sp.num.toNat f (blocksIn (specShape x sp) f sp.dir (specIdx x sp) (BitVec.allOnes 128)) = none) :
    let m := writtenMask (specShape x sp) f sp.dir (specIdx x sp) (BitVec.allOnes 128)
    let one (k : Fin 128) : Nat × BitVec 5 := elemOfLane f .rne false l.lanes[k]
    recvBody sp d true x = .ok (withLanding (receivingCore x sp d)
      { dest := .tile sp (specIdx x sp) (specShape x sp), lanes := Vector.ofFn fun k => BitVec.ofNat 32 (one k).1, mask := m, due := x.tide + 3
        issued := x.tide, cl := .x, pc := x.pc, flags := laneFlags (fun k => (0, (one k).2)) m }, x.s) := by
  intro m one
  simp only [arriving] at here
  have flags : ((List.finRange 128).filter fun k => m.getLsbD k.val).foldl (fun q k => q ||| (one k).2) (0 : BitVec 5)
      = laneFlags (fun k => (0, (one k).2)) m := by
    rw [List.foldl_filter]
    rfl
  have lands (flags : BitVec 5) := addLanding_ok (x := x) (core := receivingCore x sp d)
    (l := { dest := .tile sp (specIdx x sp) (specShape x sp), lanes := Vector.ofFn fun k => BitVec.ofNat 32 (one k).1, mask := m
            due := x.tide + 3, issued := x.tide, cl := .x, flags := flags }) (.inr room)
  rw [← flags]
  simp only [recvBody, onCore, edges, plain, images, landingFull_of_room room, here, shape, Option.bind_some, agree]
  exact congrArg (Except.map fun c => (c, x.s)) (lands _)
end

/-- The lowest block that disagrees is the one FORMAT names. -/
theorem blockFormat_eq (x : Ctx) (t : Nat) (f : Fmt) (l : List Nat) : blockFormat x t f l
    = (l.find? fun b => blockDisagrees (fmtByte f) (rawBlock x.s.mem (.tile x.core.num (8 * t + b)))).map fun b =>
      { code := 0x08, tval := BitVec.ofNat 64 (8 * t + b) } := rfl

/-! ## NEIGHBOUR_ARRIVAL (R232) -/

section
variable {s : State} {k : CoreId} {g : Gang} {core : Core} (member : getMember s k = some (g, core))
include member

theorem exec_neighbourArrival_quiet (taken : ∀ l ∈ core.links, g.tide < l.due) : exec (.neighbourArrival k) s
    = .next (modMember s k fun c => { c with links := c.links.filter fun l => g.tide < l.due }) := by
  have lost : (core.links.any fun l => l.due ≤ g.tide) = false := List.any_eq_false.2 fun l hl => by simpa using taken l hl
  show execNeighbourArrival k s = _
  simp only [execNeighbourArrival, member, lost]
  rfl

theorem exec_neighbourArrival_lost (left : ∃ l ∈ core.links, l.due ≤ g.tide) : exec (.neighbourArrival k) s
    = .next (modMember s k fun c => { c with
        links := c.links.filter fun l => g.tide < l.due
        raised := c.raised ++ [{ code := 0x04, cl := .x, tval := BitVec.ofNat 64 g.tide
                                 pc := ((c.issuedNow.find? fun i => i.cl == .x).map (·.pc)).getD c.regs.points[2].addr }] }) := by
  have lost : (core.links.any fun l => l.due ≤ g.tide) = true := by simpa using left
  show execNeighbourArrival k s = _
  simp only [execNeighbourArrival, member, lost]
  rfl
end

/-- Settles O39: the bank events as defined, XNSEND and XNRECV by their guards and what they find, and the lanes left over. -/
theorem banksAndLinks : Obligations.BanksAndLinks := by
  unfold Obligations.BanksAndLinks
  refine ⟨fun s gang q b => ⟨rfl, rfl⟩, fun g q b tide => ⟨rfl, rfl⟩, ?forms,
    fun s k g core member => ⟨exec_neighbourArrival_quiet member, exec_neighbourArrival_lost member⟩⟩
  intro s x c sp d hx clear on slots shape cardsOut coreIn here
  obtain rfl : x.s = s := ctxOf_s hx
  rw [exec_xnsend, exec_xnrecv]
  have sends {on : Bool} {core : Core} {t : State} := issue_next hx clear (body := sendBody sp d) (on := on) (core := core) (t := t)
  have recvs {on : Bool} {core : Core} {t : State} := issue_next hx clear (body := recvBody sp d) (on := on) (core := core) (t := t)
  have misses {on : Bool} {e : Cause} := issue_caused hx clear (body := recvBody sp d) (on := on) (e := e)
  refine ⟨fun edges => ⟨fun off => sends off (sendBody_off edges d), fun guard plain intact lanes f read j there =>
      sends guard (sendBody_on edges plain intact read there)⟩,
    fun edges => ⟨fun off => recvs off (recvBody_off edges d), fun guard none_ => misses guard (recvBody_nothing none_),
      fun guard plain images room l f found fmt => ⟨fun b odd => misses guard (recvBody_format edges plain images room found fmt ?_),
        fun agree => recvs guard (recvBody_lands edges plain images room found fmt ?_)⟩⟩⟩
  · rw [blockFormat_eq]
    exact congrArg (Option.map _) odd
  · rw [blockFormat_eq]
    exact congrArg (Option.map _) agree

end Sys2Proof.Machine
end

section
/-! SUPPORT. The forms of X that move no block of another core (10 R216, R227 to R230): generators, voids, pennants and the standing of banks. -/

namespace Sys2Proof.Machine

open Sys2Proof.Safety

/-! ## XAGU (R216) -/

section
variable {s : State} {x : Ctx} {c : Common} (hx : ctxOf s .x = some x) (clear : Clear x c)
include hx clear

theorem exec_xagu_on (gen : BitVec 2) (guard : guardOn x c = true) : exec (.xagu c gen) s = .next (issued x c { x.core with
    regs := { x.core.regs with
      latch := Vector.ofFn fun i : Fin 8 => if gen.getLsbD (i.val / 4) then x.ctl.agud[i] else x.core.regs.latch[i]
      gpos := Vector.ofFn fun G : Fin 2 => if gen.getLsbD G.val then 0 else x.core.regs.gpos[G] } } s) := by
  obtain rfl : x.s = s := ctxOf_s hx
  exact issueHow_on hx clear guard rfl

/-- Guarded off it does nothing else. -/
theorem issue_x_off {on : Body} (guard : guardOn x c = false) : issue .x c on nothing s = .next (issued x c x.core s) := by
  obtain rfl : x.s = s := ctxOf_s hx
  exact issueHow_off hx clear guard rfl
end

/-! ## The blocks of a near field (R227, R228) -/

/-- The right to write asked for changes the causes alone, not the slots. -/
theorem nearSlots_fst (x : Ctx) (near : Near) (wr : Bool) : (nearSlots x near wr).1 = (nearSlots x near true).1 := by
  unfold nearSlots
  refine List.foldl_rel (r := fun a b : List Slot × List Cause => a.1 = b.1) rfl fun v _ a b same => ?_
  split
  · exact same
  · split
    · simp only [same]
    · exact same


theorem imageFree_of_room {x : Ctx} {n : Nat} (room : LogRoom x n)
    (buffers : images x.core + (pendingSlots x.core).eraseDups.length + n ≤ 64) : imageFree x.core n = true := by
  rw [imageFree, logFree_of_room room, Bool.and_true]
  exact decide_eq_true buffers

/-- The core after an XDROP of `slots` whose latency is `lat`. -/
def droppingCore (x : Ctx) (slots : List Slot) (lat : Nat) (on : Bool) : Core :=
  { x.core with
    cards := x.core.cards ++ [{ reads := [], writes := slots.map .slot, first := x.tide, readEnd := x.tide, last := x.tide + lat }]
    atEnd := x.core.atEnd ++ if on then [.drop slots (x.tide + lat)] else []
    reserved := x.core.reserved + if on then slots.length else 0 }

theorem dropBody_ok {x : Ctx} {near : Near} {on : Bool} (edges : cardsMeet x.core [] ((nearSlots x near true).1.map .slot) x.tide = true)
    (sound : on = true → (nearSlots x near true).2 = [] ∧ LogRoom x (nearSlots x near true).1.length
      ∧ images x.core + (pendingSlots x.core).eraseDups.length + (nearSlots x near true).1.length ≤ 64) :
    dropBody near on x = .ok (droppingCore x (nearSlots x near true).1 (if nearTile near then 2 else 6) on,
      modGang x.s x.k.gang fun g => { g with dropPhase := true }) := by
  cases on with
  | true =>
    obtain ⟨mine, room, buffers⟩ := sound rfl
    simp only [dropBody, edges, mine, imageFree_of_room room buffers]
    rfl
  | false =>
    simp only [dropBody, edges, droppingCore, Bool.false_eq_true, if_false, List.append_nil]
    rfl

/-- The core after an XTSTV of `slots` into g[d]. -/
def testingCore (x : Ctx) (slots : List Slot) (d : Reg) (lat : Nat) : Core :=
  { x.core with cards := x.core.cards ++ [{ reads := slots.map .slot, writes := [.g d.toNat], first := x.tide, readEnd := x.tide + lat - 1,
                                             last := x.tide + lat - 1 }] }

theorem tstvBody_ok {x : Ctx} {near : Near} {d : Reg} {on : Bool}
    (edges : cardsMeet x.core ((nearSlots x near true).1.map .slot) [.g d.toNat] x.tide = true)
    (sound : on = true → (nearSlots x near false).2 = [] ∧ (d = 0 ∨ Room x)) :
    let lat := if nearTile near then 2 else 6
    let core := testingCore x (nearSlots x near true).1 d lat
    tstvBody near d on x = .ok (if on = true ∧ d ≠ 0
      then withLanding core { dest := .g d, due := x.tide + lat, issued := x.tide, cl := .x, pc := x.pc, test := (nearSlots x near true).1 }
      else core, x.s) := by
  intro lat core
  have slots := nearSlots_fst x near false
  cases on with
  | false =>
    simp only [tstvBody, onCore, slots, edges, Bool.false_and, Bool.false_eq_true, false_and, if_false]
    rfl
  | true =>
    obtain ⟨mine, room⟩ := sound rfl
    by_cases zero : d = 0
    · subst zero
      simp only [tstvBody, onCore, slots, edges, mine]
      rfl
    · have full : landingFull x (true && d != 0) = false := by
        rw [show (d != 0) = true from bne_iff_ne.2 zero]
        exact landingFull_of_room (room.resolve_left zero)
      have lands := addLanding_ok (x := x) (core := core)
        (l := { dest := .g d, due := x.tide + lat, issued := x.tide, cl := .x, test := (nearSlots x near true).1 })
        (.inr (room.resolve_left zero))
      rw [if_pos ⟨rfl, zero⟩]
      simp only [tstvBody, onCore, slots, edges, mine, full, zero, decide_false]
      exact congrArg (Except.map fun c => (c, x.s)) lands

/-! ## The target of an access that meets no cause (R133, R134) -/

theorem rightCause_nil {p : Page} {rd wr : Bool} (v : BitVec 52) (reads : rd = true → p.read = true)
    (writes : wr = true → p.write = true ∧ p.cow = false ∧ p.window = false) : rightCause p v rd wr = [] := by
  have window : (wr && p.window) = false := by
    cases wr with
    | false => rfl
    | true => exact (writes rfl).2.2
  have toRead : (rd && !p.read) = false := by
    cases rd with
    | false => rfl
    | true => rw [reads rfl]; rfl
  have toWrite : (wr && (!p.write || p.cow)) = false := by
    cases wr with
    | false => rfl
    | true =>
      obtain ⟨write, cow, -⟩ := writes rfl
      rw [write, cow]
      rfl
  rw [rightCause, window, toRead, toWrite]
  rfl

theorem sTarget_of_reached {x : Ctx} {ea : Dword} {n : Nat} {rd wr : Bool} {p : Page} {lat : Nat} (reached : Reached x ea n rd wr p lat)
    (core : x.hb = false) : x.page (ea.extractLsb' 12 52) = .ok p ∧ reachLat x.s x.g x.core.num 6 p.slot = some lat
      ∧ sTarget x ea n rd wr = .ok { page := p, vba := ea.extractLsb' 12 52, off := (ea.extractLsb' 0 12).toNat, lat := lat } := by
  obtain ⟨aligned, reached⟩ := reached
  rw [core, if_neg Bool.false_ne_true] at reached
  obtain ⟨page, reach, span, reads, writes, f, format, plain⟩ := reached
  have page : x.page (ea.extractLsb' 12 52) = .ok p := page
  have inSpan : (!x.slack && !ownBerth x.core.num p.slot) = false := by
    rcases span with h | h <;> simp [h]
  refine ⟨page, reach, ?_⟩
  simp only [sTarget, page, inSpan, reach, rightCause_nil _ reads writes, aligned, format, Option.map_some, Option.getD_some, plain]
  rfl

/-! ## XPEN (R229) -/


/-- The core after an XPEN with the word of `far` on its way to its slot. -/
def pennedCore (x : Ctx) (near far : Reg) (p : Page) (lat : Nat) (on : Bool) : Core :=
  { x.core with
    reserved := x.core.reserved + if on then 1 else 0
    pens := x.core.pens ++ [{
      serial := x.s.serial, slot := p.slot, off := (x.rg near).toNat % 4096, value := (x.rg far).setWidth 32, code := p.code, pc := x.pc
      issued := x.tide, due := x.tide + lat, active := on
      served := (match p.slot with | .berth .. | .hbm .. => false | _ => true) }] }

theorem penBody_ok {x : Ctx} {near far : Reg} {p : Page} {lat : Nat} {on : Bool} (reached : Reached x (x.rg near) 4 false true p lat)
    (core : x.hb = false) (edges : cardsMeet x.core [] [.slot p.slot] x.tide = true) (room : on = true → LogRoom x 1) :
    penBody near far on x = .ok (pennedCore x near far p lat on, { x.s with serial := x.s.serial + 1 }) := by
  obtain ⟨page, reach, target⟩ := sTarget_of_reached reached core
  have off : ((x.rg near).extractLsb' 0 12).toNat = (x.rg near).toNat % 4096 := by simp
  cases on with
  | true =>
    simp only [penBody, target, page, edges, if_true, logFree_of_room (room rfl), List.append_nil, firstCause_nil, reach, off]
    rfl
  | false =>
    simp only [penBody, target, page, edges, if_true, Bool.false_eq_true, if_false, List.append_nil, firstCause_nil, reach, off]
    rfl

/-! ## XWAKE and XDOZE (R230) -/


section
variable {x : Ctx} {far : Reg}

/-- A bank that the gang does not have changes nothing. -/
theorem bankBody_nowhere (wake : Bool) (none_ : gangBank x.g x.k.idx x.core.quad ((x.rg far).toNat % 64) = none) :
    bankBody wake far x = .ok (x.core, x.s) := by
  have low : ((x.rg far).extractLsb' 0 6).toNat = (x.rg far).toNat % 64 := by simp
  simp only [bankBody, pureCore, low, none_]

/-- The standing of a bank changes at the end of the cycle. -/
theorem bankBody_bank (wake : Bool) {b : Nat} (there : gangBank x.g x.k.idx x.core.quad ((x.rg far).toNat % 64) = some b) :
    bankBody wake far x = .ok ({ x.core with atEnd := x.core.atEnd ++ [.bank wake x.core.quad b] }, x.s) := by
  have low : ((x.rg far).extractLsb' 0 6).toNat = (x.rg far).toNat % 64 := by simp
  simp only [bankBody, pureCore, low, there]
end

/-- Settles O38, form by form. -/
theorem localFormsIssue : Obligations.LocalFormsIssue := by
  unfold Obligations.LocalFormsIssue
  intro s x c gen near a far hx clear on slots tile regions lat dest drops bank
  obtain rfl : x.s = s := ctxOf_s hx
  refine ⟨exec_xagu_on hx clear gen, fun off i hi => ?off, fun edges sound => ?drop, fun edges sound => ?test,
    fun p lat reached core edges room => ?pen, fun guard none_ i hi => ?nowhere, fun guard b there => ?bank⟩
  case off =>
    simp only [List.mem_cons, List.not_mem_nil, or_false] at hi
    rcases hi with rfl | rfl | rfl
    · exact issue_x_off hx clear off
    · exact issue_x_off hx clear off
    · exact issue_x_off hx clear off
  case drop => exact issue_next hx clear (body := dropBody near) rfl (dropBody_ok edges sound)
  case test => exact issue_next hx clear (body := tstvBody near far) rfl (tstvBody_ok edges sound)
  case pen => exact issue_next hx clear (body := penBody a far) rfl (penBody_ok reached core edges room)
  case nowhere =>
    simp only [List.mem_cons, List.not_mem_nil, or_false] at hi
    rcases hi with rfl | rfl
    · exact issueHow_on hx clear guard (bankBody_nowhere true none_)
    · exact issueHow_on hx clear guard (bankBody_nowhere false none_)
  case bank =>
    exact ⟨issueHow_on hx clear guard (bankBody_bank true there), issueHow_on hx clear guard (bankBody_bank false there)⟩

end Sys2Proof.Machine
end

section
/-! SUPPORT. The exchanges of X at their issue (10 R205 to R224): what one finds, what stands in its way, and what it holds. -/

namespace Sys2Proof.Machine

open Sys2Proof.Safety

/-! ## The causes of an exchange come after SCHED_MISS (R76, R210, R218, R221) -/

/-- A cause that SCHED_MISS comes before. -/
def AfterMiss (q : Cause) : Prop := 20 ≤ causeRank q.code

theorem afterMiss_permission (v : Dword) (never : Bool) : AfterMiss { code := cPermission, tval := v, never := never } :=
  show 20 ≤ causeRank cPermission by decide
theorem afterMiss_format (v : Dword) : AfterMiss (formatAt v) := show 20 ≤ causeRank cFormat by decide
theorem afterMiss_align (v : Dword) : AfterMiss { code := cAlign, tval := v } := show 20 ≤ causeRank cAlign by decide
theorem afterMiss_undo : AfterMiss undoCause := show 20 ≤ causeRank cUndo by decide

/-- A cause that is met on a condition. -/
theorem afterMiss_of_mem_ite {b : Prop} [Decidable b] {e q : Cause} (late : AfterMiss e) (h : q ∈ if b then [e] else []) : AfterMiss q := by
  split at h
  · rwa [List.mem_singleton.1 h]
  · cases h

theorem afterMiss_page {x : Ctx} {v : BitVec 52} {q : Cause} (h : x.page v = .error q) : AfterMiss q := by
  unfold Ctx.page translate at h
  dsimp only at h
  split at h
  · cases h
  · split at h
    · cases h
      exact show 20 ≤ causeRank cManifestMiss by decide
    · split at h
      · cases h
        exact show 20 ≤ causeRank cManifestMiss by decide
      · split at h
        · cases h
          exact show 20 ≤ causeRank cAbsent by decide
        · cases h

theorem afterMiss_rightCause {p : Page} {v : BitVec 52} {rd wr : Bool} {q : Cause} (h : q ∈ rightCause p v rd wr) : AfterMiss q := by
  unfold rightCause at h
  split at h
  · rw [List.mem_singleton.1 h]
    exact afterMiss_permission ..
  · exact afterMiss_of_mem_ite (afterMiss_permission ..) h

theorem afterMiss_pageOrCause {x : Ctx} {v : BitVec 52} {q : Cause} (h : q ∈ (pageOrCause x v).2) : AfterMiss q := by
  unfold pageOrCause at h
  split at h
  · cases h
  · rename_i page
    rw [List.mem_singleton.1 h]
    exact afterMiss_page page

theorem afterMiss_pairInfo {x : Ctx} {nv fv : BitVec 52} {unit : Bool} {q : Cause} (h : q ∈ (pairInfo x nv fv unit).causes) :
    AfterMiss q := by
  unfold pairInfo at h
  dsimp only at h
  split at h
  · simp only [List.mem_append] at h
    rcases h with ((h | h) | h) | h
    · split at h
      · rw [List.mem_singleton.1 h]
        exact afterMiss_permission ..
      · exact afterMiss_of_mem_ite (afterMiss_permission ..) h
    · exact afterMiss_rightCause h
    · exact afterMiss_rightCause h
    · exact afterMiss_of_mem_ite (afterMiss_format _) h
  · rcases List.mem_append.1 h with h | h
    · exact afterMiss_pageOrCause h
    · exact afterMiss_pageOrCause h

theorem afterMiss_findTables {x : Ctx} {l : Vector Dword 8} {gen : BitVec 2} : ∀ q ∈ (findTables x l gen).2, AfterMiss q := by
  unfold findTables
  refine List.foldlRecOn (motive := fun a : List (Nat × Slot × Dword) × List Cause => ∀ q ∈ a.2, AfterMiss q) _ _ nofun
    fun a late G _ => ?_
  split
  · split
    · exact late
    · dsimp only
      split
      · rename_i page
        refine List.forall_mem_append.2 ⟨late, fun q h => ?_⟩
        rw [List.mem_singleton.1 h]
        exact afterMiss_page page
      · split
        · exact List.forall_mem_append.2 ⟨late, fun q => afterMiss_rightCause⟩
        · refine List.forall_mem_append.2 ⟨late, fun q h => ?_⟩
          rw [List.mem_singleton.1 h]
          exact afterMiss_permission ..
  · exact late

theorem afterMiss_unitFormat {e : Exch} {first code : Byte} {far : BitVec 52} {q : Cause} (h : q ∈ unitFormat e first code far) :
    AfterMiss q := afterMiss_of_mem_ite (afterMiss_format _) h

/-! ## What an exchange finds (R207 to R210) -/

/-- The pairs of an exchange as their addresses lead on its issue cycle. -/
def exchangeInfos (x : Ctx) (i : Instr) (e : Exch) : List PairInfo :=
  (List.range e.n).map fun k => pairInfo x (pairVbas e k (entriesAt x.s e k)).1 (pairVbas e k (entriesAt x.s e k)).2 (isUnit i)
def infosBase (l : List PairInfo) : Nat := l.foldl (fun b q => max b q.base) 16
def infosSlots (l : List PairInfo) : List Region :=
  l.flatMap fun q => match q.slots with | some (u, v) => [Region.slot u, .slot v] | none => []

/-- A busy channel, a reach beyond the span, an edge of the card or a table in the log (R133, R209, R218, R307). -/
def exchangeMisses (x : Ctx) (i : Instr) (e : Exch) (on : Bool) : Bool :=
  (e.n != 0 && x.tide + e.delay < x.core.channelFree)
    || (!x.slack && (exchangeInfos x i e).any (·.slack))
    || !cardsMeet x.core (infosSlots (exchangeInfos x i e)) (infosSlots (exchangeInfos x i e)) x.tide
    || (on && e.tables.any fun t => inLog x.core.log t.2.1)
theorem exchangeMisses_iff {x : Ctx} {i : Instr} {e : Exch} {on : Bool} : exchangeMisses x i e on = true ↔
    (e.n ≠ 0 ∧ x.tide + e.delay < x.core.channelFree) ∨ (x.slack = false ∧ ∃ q ∈ exchangeInfos x i e, q.slack = true)
      ∨ cardsMeet x.core (infosSlots (exchangeInfos x i e)) (infosSlots (exchangeInfos x i e)) x.tide = false
      ∨ (on = true ∧ ∃ t ∈ e.tables, inLog x.core.log t.2.1 = true) := by
  simp [exchangeMisses, or_assoc]
theorem exchangeMisses_eq_false {x : Ctx} {i : Instr} {e : Exch} {on : Bool} (channel : e.n ≠ 0 → x.core.channelFree ≤ x.tide + e.delay)
    (span : x.slack = true ∨ ∀ q ∈ exchangeInfos x i e, q.slack = false)
    (edges : cardsMeet x.core (infosSlots (exchangeInfos x i e)) (infosSlots (exchangeInfos x i e)) x.tide = true)
    (unlogged : on = true → ∀ t ∈ e.tables, inLog x.core.log t.2.1 = false) : exchangeMisses x i e on = false := by
  refine Bool.eq_false_iff.2 fun h => ?_
  rcases exchangeMisses_iff.1 h with ⟨some_, busy⟩ | ⟨out, q, hq, far⟩ | unmet | ⟨guard, t, ht, logged⟩
  · exact Nat.not_lt.2 (channel some_) busy
  · rcases span with span | span
    · exact Bool.false_ne_true (out.symm.trans span)
    · exact Bool.false_ne_true ((span q hq).symm.trans far)
  · exact Bool.false_ne_true (unmet.symm.trans edges)
  · exact Bool.false_ne_true ((unlogged guard t ht).symm.trans logged)

/-- FORMAT of the pairs that do not fit their units (R221). -/
def unitFormats (x : Ctx) (i : Instr) (e : Exch) : List Cause :=
  (exchangeInfos x i e).zipIdx.flatMap fun p =>
    if p.1.slots.isSome then
      unitFormat e ((((exchangeInfos x i e)[p.2 / e.size * e.size]?).map (·.code)).getD 0) p.1.code (pairVbas e p.2 (entriesAt x.s e p.2)).2
    else []
/-- ALIGN of an XCHT whose count is not a whole number of units (R222). -/
def exchangeAlign (x : Ctx) (i : Instr) (e : Exch) : List Cause :=
  match i with
  | .xcht .. => if (unitSize e.format).isSome && e.n % e.size != 0 then
      [{ code := cAlign, tval := (pairVbas e 0 (entriesAt x.s e 0)).2.setWidth 64 <<< 12 }] else []
  | _ => []
/-- The causes that an exchange with its guard on meets beside these. -/
def exchangeFaults (x : Ctx) (i : Instr) (e : Exch) : List Cause :=
  exchangeForm x i x.core.regs.latch (genOf i) ++ (findTables x x.core.regs.latch (genOf i)).2 ++ exchangeAlign x i e
    ++ (if e.indirect then [] else (exchangeInfos x i e).flatMap (·.causes) ++ unitFormats x i e)
    ++ (if e.n != 0 && !logFree x.core e.n then [undoCause] else [])

/-! ## What an exchange holds (R207, R209, R213 to R215) -/

/-- The positions of the generators after an exchange. -/
def gposAfter (x : Ctx) (i : Instr) (e : Exch) (on : Bool) : Vector Nat 2 :=
  match i with
  | .xch .. => x.core.regs.gpos
  | _ => Vector.ofFn fun G : Fin 2 =>
      if on && (genOf i).getLsbD G.val then (x.core.regs.gpos[G] + e.n) % genLength x.core.regs.latch G.val else x.core.regs.gpos[G]
/-- The card of an exchange, to its last swap cycle. -/
def exchangeCard (x : Ctx) (e : Exch) (infos : List PairInfo) : Card :=
  let last := x.tide + e.delay + infosBase infos + 8 * e.n
  { reads := infosSlots infos, writes := infosSlots infos, first := x.tide, readEnd := last, last := last, id := e.serial }
/-- The core that holds an exchange of at least one pair. -/
def exchangeCore (x : Ctx) (i : Instr) (e : Exch) (on : Bool) : Core :=
  let infos := exchangeInfos x i e
  { x.core with
    regs := { x.core.regs with gpos := gposAfter x i e on }
    cards := x.core.cards ++ [exchangeCard x e infos]
    channelFree := x.tide + e.delay + 8 * e.n
    reserved := if on then x.core.reserved + e.n else x.core.reserved
    exchs := x.core.exchs ++ [{ e with
      base := infosBase infos
      pairs := if !on then infos.map (·.timed) else if e.indirect then [] else infos.filterMap (·.pair)
      judged := if e.indirect || (isPrune i && on) then 0 else e.n }] }

section
variable (x : Ctx) (i : Instr) (near : Near) (far cnt : Reg) (on : Bool)

theorem exchangeRecord_serial : (exchangeRecord x i near far cnt on).serial = x.s.serial := by
  unfold exchangeRecord
  dsimp only
  split <;> rfl

theorem exchangeRecord_instr : (exchangeRecord x i near far cnt on).instr = i := by
  unfold exchangeRecord
  dsimp only
  split <;> rfl

/-- An exchange at its issue: its first cause, or what it holds. -/
theorem exchange_eq : let e := exchangeRecord x i near far cnt on
    exchange i near far cnt on x
      = match firstCause ((if exchangeMisses x i e on then [x.miss] else []) ++ if on then exchangeFaults x i e else []) with
        | some q => .error q
        | none => if e.n = 0 then .ok ({ x.core with regs := { x.core.regs with gpos := gposAfter x i e on } }, x.s)
          else .ok (exchangeCore x i e on, { x.s with serial := x.s.serial + 1 }) := rfl

/-- Beside RESERVED_FIELD of its own fields, every cause of an exchange comes after SCHED_MISS. -/
theorem afterMiss_exchangeFaults {x : Ctx} {i : Instr} {e : Exch} (form : exchangeForm x i x.core.regs.latch (genOf i) = []) :
    ∀ q ∈ exchangeFaults x i e, AfterMiss q := by
  intro q h
  simp only [exchangeFaults, form, List.nil_append, List.mem_append] at h
  rcases h with ((h | h) | h) | h
  · exact afterMiss_findTables q h
  · unfold exchangeAlign at h
    split at h
    · exact afterMiss_of_mem_ite (afterMiss_align _) h
    · cases h
  · split at h
    · cases h
    · rcases List.mem_append.1 h with h | h
      · obtain ⟨p, hp, h⟩ := List.mem_flatMap.1 h
        obtain ⟨k, -, rfl⟩ := List.mem_map.1 hp
        exact afterMiss_pairInfo h
      · obtain ⟨p, -, h⟩ := List.mem_flatMap.1 h
        split at h
        · exact afterMiss_unitFormat h
        · cases h
  · exact afterMiss_of_mem_ite afterMiss_undo h

theorem exchange_misses (form : on = true → exchangeForm x i x.core.regs.latch (genOf i) = [])
    (misses : exchangeMisses x i (exchangeRecord x i near far cnt on) on = true) : exchange i near far cnt on x = .error x.miss := by
  rw [exchange_eq, misses, if_pos rfl, List.singleton_append, firstCause_miss]
  intro q h
  split at h
  · exact afterMiss_exchangeFaults (form ‹_›) q h
  · cases h

/-- With nothing in its way an exchange holds its pairs, or has none. -/
theorem exchange_clear (clear : exchangeMisses x i (exchangeRecord x i near far cnt on) on = false)
    (sound : on = true → exchangeFaults x i (exchangeRecord x i near far cnt on) = []) : let e := exchangeRecord x i near far cnt on
    exchange i near far cnt on x
      = if e.n = 0 then .ok ({ x.core with regs := { x.core.regs with gpos := gposAfter x i e on } }, x.s)
        else .ok (exchangeCore x i e on, { x.s with serial := x.s.serial + 1 }) := by
  have faults : (if on = true then exchangeFaults x i (exchangeRecord x i near far cnt on) else []) = [] := by
    split
    · exact sound ‹_›
    · rfl
  rw [exchange_eq, clear, faults]
  rfl
end

/-! ## What leaves an exchange without a fault -/

section
variable {x : Ctx} {i : Instr} {e : Exch}

/-- The pairs of whole units of one listed format are in order (R221). -/
theorem unitFormats_nil (whole : isUnit i = true → ∀ k q r, (exchangeInfos x i e)[k]? = some q →
    (exchangeInfos x i e)[k / e.size * e.size]? = some r → q.code = r.code ∧ unitSize q.code = some e.size) (own : e.instr = i) :
    unitFormats x i e = [] := by
  refine List.flatMap_eq_nil_iff.2 fun p hp => ?_
  obtain ⟨q, k⟩ := p
  have at_ : (exchangeInfos x i e)[k]? = some q := List.mem_zipIdx_iff_getElem?.1 hp
  have there : k / e.size * e.size < (exchangeInfos x i e).length :=
    Nat.lt_of_le_of_lt (Nat.div_mul_le_self k e.size) (List.getElem?_eq_some_iff.1 at_).1
  have first := List.getElem?_eq_getElem there
  dsimp only
  split
  · rw [first, unitFormat, own]
    cases unit : isUnit i with
    | false => rfl
    | true =>
      obtain ⟨code, size⟩ := whole unit k q _ at_ first
      simp [← code, size]
  · rfl

theorem exchangeFaults_nil (form : exchangeForm x i x.core.regs.latch (genOf i) = []) (tables : (findTables x x.core.regs.latch (genOf i)).2 = [])
    (aligned : exchangeAlign x i e = []) (room : LogRoom x e.n)
    (pairs : e.indirect = true ∨ (∀ q ∈ exchangeInfos x i e, q.causes = []) ∧ unitFormats x i e = []) : exchangeFaults x i e = [] := by
  have pairs : (if e.indirect = true then [] else (exchangeInfos x i e).flatMap (·.causes) ++ unitFormats x i e) = [] := by
    split
    · rfl
    · obtain ⟨causes, formats⟩ := pairs.resolve_left ‹_›
      rw [formats, List.append_nil]
      exact List.flatMap_eq_nil_iff.2 causes
  rw [exchangeFaults, form, tables, aligned, pairs, logFree_of_room room, Bool.not_true, Bool.and_false]
  rfl
end

/-! ## The seven forms -/

/-- The exchanges of the instruction set, each with its near field. -/
def exchangeInstrs (c : Common) (near : Near) (a far cnt : Reg) (gen : BitVec 2) : List (Instr × Near) :=
  [(.xch c near far cnt gen, near), (.xchs c near far cnt gen, near), (.xchg c a far cnt gen, .reg a), (.xchp c a far cnt gen, .reg a),
   (.xcht c a far cnt gen, .reg a), (.xtil c a far cnt gen, .reg a), (.xtilt c a far cnt gen, .reg a)]

theorem exec_exchange {c : Common} {near : Near} {a far cnt : Reg} {gen : BitVec 2} {p : Instr × Near}
    (hp : p ∈ exchangeInstrs c near a far cnt gen) (s : State) : genOf p.1 = gen
      ∧ exec p.1 s = issue .x c (exchange p.1 p.2 far cnt true) (exchange p.1 p.2 far cnt false) s := by
  simp only [exchangeInstrs, List.mem_cons, List.not_mem_nil, or_false] at hp
  rcases hp with rfl | rfl | rfl | rfl | rfl | rfl | rfl <;> exact ⟨rfl, rfl⟩

/-- Only an XCHT has a count that must be a whole number of units. -/
theorem exchangeAlign_nil {c : Common} {near : Near} {a far cnt : Reg} {gen : BitVec 2} {p : Instr × Near}
    (hp : p ∈ exchangeInstrs c near a far cnt gen) (x : Ctx) {e : Exch} (whole : (∃ n f q g, p.1 = .xcht c n f q g) → e.n % e.size = 0) :
    exchangeAlign x p.1 e = [] := by
  simp only [exchangeInstrs, List.mem_cons, List.not_mem_nil, or_false] at hp
  rcases hp with rfl | rfl | rfl | rfl | rfl | rfl | rfl
  case inr.inr.inr.inr.inl => simp [exchangeAlign, whole ⟨_, _, _, _, rfl⟩]
  all_goals rfl

/-- Settles O35: an exchange misses, or it has no fault and holds its pairs, its card and its entries, or it has no pair. -/
theorem exchangesIssue : Obligations.ExchangesIssue := by
  unfold Obligations.ExchangesIssue
  intro s x c near a far cnt gen hx clear p hp on e infos base slots first last tables gpos miss form
  obtain rfl : x.s = s := ctxOf_s hx
  obtain ⟨gen_eq, exec_eq⟩ := exec_exchange hp x.s
  subst gen_eq
  have misses (h : exchangeMisses x p.1 e on = true) : exec p.1 x.s = .next miss := by
    rw [exec_eq]
    exact issue_caused hx clear (body := exchange p.1 p.2 far cnt) rfl (exchange_misses x p.1 p.2 far cnt on form h)
  refine ⟨fun some_ channel span edges sound => ?holds, fun some_ busy => misses (exchangeMisses_iff.2 (.inl ⟨some_, busy⟩)),
    fun out far_ => misses (exchangeMisses_iff.2 (.inr (.inl ⟨out, far_⟩))),
    fun unmet => misses (exchangeMisses_iff.2 (.inr (.inr (.inl unmet)))),
    fun guard logged => misses (exchangeMisses_iff.2 (.inr (.inr (.inr ⟨guard, logged⟩)))), fun none_ sound edges => ?empty⟩
  case holds =>
    have noMiss : exchangeMisses x p.1 e on = false := exchangeMisses_eq_false (fun _ => channel) span edges fun guard => (sound guard).1
    have holds := (exchange_clear x p.1 p.2 far cnt on noMiss fun guard => ?faults).trans (if_neg some_)
    case faults =>
      obtain ⟨-, tables, pairs, room, whole⟩ := sound guard
      exact exchangeFaults_nil (form guard) tables (exchangeAlign_nil hp x whole) room
        (pairs.imp_right fun ⟨causes, units⟩ => ⟨causes, unitFormats_nil units (exchangeRecord_instr ..)⟩)
    have serial : e.serial = x.s.serial := exchangeRecord_serial ..
    rw [exec_eq, issue_next hx clear (body := exchange p.1 p.2 far cnt) rfl holds]
    refine congrArg (fun core => Host.Outcome.next (issued x c core { x.s with serial := x.s.serial + 1 })) ?_
    simp only [exchangeCore, exchangeCard]
    rw [serial]
    clear_value on
    cases on <;> rfl
  case empty =>
    have noPair : infos = [] := show (List.range e.n).map _ = [] by rw [none_]; rfl
    have noSlot : slots = [] := show infosSlots infos = [] by rw [noPair]; rfl
    have met : cardsMeet x.core slots slots x.tide = true := noSlot ▸ edges
    have span : ∀ q ∈ infos, q.slack = false := noPair ▸ nofun
    have noMiss : exchangeMisses x p.1 e on = false :=
      exchangeMisses_eq_false (fun some_ => absurd none_ some_) (.inr span) met fun guard => (sound guard).2.1
    have empty := (exchange_clear x p.1 p.2 far cnt on noMiss fun guard => ?faults).trans (if_pos none_)
    case faults =>
      obtain ⟨tables, -, room⟩ := sound guard
      have noPair : exchangeInfos x p.1 e = [] := noPair
      exact exchangeFaults_nil (form guard) tables (exchangeAlign_nil hp x fun _ => none_ ▸ Nat.zero_mod e.size) (none_ ▸ room)
        (.inr ⟨noPair ▸ nofun, by rw [unitFormats, noPair]; rfl⟩)
    rw [exec_eq]
    exact issue_next hx clear (body := exchange p.1 p.2 far cnt) rfl empty

end Sys2Proof.Machine
end

section
/-! SUPPORT. A statement that fails for an exchange that holds a cause no table read leaves (10 R210, R218). A table that cannot be read leaves
VOID_READ or POISON, which come after SCHED_MISS; the hypotheses allow any cause with the entry, and one of CHAIN comes before it. -/

namespace Sys2Proof.Machine

open Sys2Proof.Safety

/-- Own-berth pages at VBA 0x100 and pages of HBM at 0x200. -/
def nearAndHbm : Manifest := [(0, ⟨0xF020000000000100, 0x00000010000FFE00⟩), (1, ⟨0xF060000000000200, 0x0000001000000000⟩)]
/-- An exchange through a table, of one pair from a berth to HBM, whose entry came with a CHAIN. -/
def chainedExchange : Exch :=
  { serial := 0, instr := .xchg {} 1 2 3 1, pc := 0, issued := 0, near := 0x100, far := 0x200, n := 1, pos0 := 0, pos1 := 0
    latch := Vector.replicate 8 0, base := 16, delay := 6, indirect := true, active := true, pruneref := 0, pmargin := 0
    entryBad := some (0x03, 0) }
/-- A gang of one core, outside the slack span, that holds it. -/
def chainedCore : Core := { exchs := [chainedExchange] }
def chainedGang : Gang := { loneGang .port chainedCore with manifest := nearAndHbm }
def chained : State := { State.reset with gangs := [chainedGang] }
/-- The codes raised in that core after a step. -/
def raisedCodes (o : Out) : Option (List (BitVec 8)) :=
  match o with
  | .next t => (getMember t ⟨0, 0⟩).map fun p => p.2.raised.map (·.code)
  | _ => none

/-- Refutes O36: the pair of an exchange outside its span raises the CHAIN that stands with its entry, and not SCHED_MISS. -/
theorem not_exchangePairs : ¬ Obligations.ExchangePairs := by
  unfold Obligations.ExchangePairs
  rintro ⟨-, translates⟩
  obtain ⟨-, -, -, beyondSpan, -⟩ := translates chained ⟨0, 0⟩ chainedGang chainedCore chainedExchange rfl rfl (by decide)
  have chain : raisedCodes (exec (.exchangePairTranslate ⟨0, 0⟩ 0) chained) = some [0x03] := by decide +kernel
  have miss := congrArg raisedCodes (beyondSpan rfl rfl (by decide +kernel) (by decide +kernel))
  exact absurd (chain.symm.trans miss) (by decide +kernel)

end Sys2Proof.Machine
end

section
/-! SUPPORT. The payload of a transposed unit (10 R221 to R224), for blocks in any form, and a statement about it that fails for a block whose
bytes are not in canonical form: `cget` finds a byte that stands behind a higher one, and `cbytes`, which the transposition reads, passes over it. -/

namespace Sys2Proof.Machine

open Sys2Proof.Safety

/-! ## Writes elsewhere, in cells of any form -/

theorem cget_cons_other {o i : Nat} (h : i ≠ o) (b : Byte) (c : Cells) : cget ((o, b) :: c) i = cget c i := if_neg (Ne.symm h)

theorem cget_cput_other (c : Cells) {o i : Nat} (b : Byte) (h : i ≠ o) : cget (cput c o b) i = cget c i := by
  induction c with
  | nil =>
    rw [cput]
    split
    · rfl
    · rw [cget_cons_other h]
  | cons e t ih =>
    obtain ⟨a, v⟩ := e
    rw [cput]
    split
    · split
      · rfl
      · rw [cget_cons_other h]
    · split
      · rename_i same
        subst same
        split
        · rw [cget_cons_other h]
        · rw [cget_cons_other h, cget_cons_other h]
      · rw [cget, ih, cget]

theorem cget_cputs_below (bs : List Byte) : ∀ (c : Cells) {o i : Nat}, i < o → cget (cputs c o bs) i = cget c i := by
  induction bs with
  | nil => intros; rfl
  | cons b bs ih =>
    intro c o i h
    rw [cputs, ih _ (Nat.lt_succ_of_lt h), cget_cput_other _ _ (Nat.ne_of_lt h)]

/-- A packed list reads byte by byte. -/
theorem cget_cpack (bs : List Byte) : ∀ (o i : Nat), cget (cpack o bs) i = if o ≤ i then (bs[i - o]?).getD 0 else 0 := by
  induction bs with
  | nil =>
    intro o i
    rw [cpack, cget, List.getElem?_nil, Option.getD_none, ite_self]
  | cons b bs ih =>
    intro o i
    have tail (h : i ≠ o) : (if o + 1 ≤ i then (bs[i - (o + 1)]?).getD 0 else 0) = if o ≤ i then ((b :: bs)[i - o]?).getD 0 else 0 := by
      by_cases high : o ≤ i
      · rw [if_pos high, if_pos (by omega), show i - o = i - (o + 1) + 1 by omega, List.getElem?_cons_succ]
      · rw [if_neg high, if_neg (by omega)]
    by_cases h : i = o
    · subst h
      rw [cpack]
      split
      · rename_i zero
        rw [ih, if_neg (by omega), if_pos (Nat.le_refl _), Nat.sub_self, zero]
        rfl
      · rw [cget, if_pos rfl, if_pos (Nat.le_refl _), Nat.sub_self]
        rfl
    · rw [cpack]
      split
      · rw [ih, tail h]
      · rw [cget, if_neg (Ne.symm h), ih, tail h]

/-! ## What a transposition leaves in the payload (R223, R224) -/

/-- Marks and flags lie beyond the payload. -/
theorem cget_marked_payload (marks : List Nat) (valid poison : Bool) {y : Nat} (hy : y < sideAt) (c : Cells) :
    cget (setFlags (marks.foldl (fun d w => cputBit d (8 * markAt + w) true) c) valid poison) y = cget c y := by
  simp only [sideAt] at hy
  rw [setFlags, cget_cput_other _ _ (by simp only [sideAt]; omega)]
  induction marks generalizing c with
  | nil => rfl
  | cons w marks ih =>
    rw [List.foldl_cons, ih, cputBit, cget_cput_other _ _ (by simp only [markAt]; omega)]

/-- So do the scale records. -/
theorem cget_scaled_payload (ts : List Nat) (record : Nat → List Byte) {y : Nat} (hy : y < sideAt) (c : Cells) :
    cget (ts.foldl (fun d t => cputs d (sideAt + 28 * t) (record t)) c) y = cget c y := by
  induction ts generalizing c with
  | nil => rfl
  | cons t ts ih => rw [List.foldl_cons, ih, cget_cputs_below _ _ (Nat.lt_add_right _ hy)]

/-- Byte `y` of block `i` of a transposed unit is made of the bytes of the whole unit. -/
theorem cget_transposeUnit (code : Byte) {blocks : List Cells} {i y : Nat} (hi : i < blocks.length) (hy : y < sideAt) :
    cget (blockAt (transposeUnit code blocks) i) y
      = transposeByte (unitGeo code) (blocks.map fun b => (cbytes b 0 4096).toArray).toArray i y := by
  have at_ : blocks[i]? = some blocks[i] := List.getElem?_eq_getElem hi
  simp only [blockAt, transposeUnit, List.getElem?_map, List.getElem?_zipIdx, at_, Option.map_some, Option.getD_some, Nat.zero_add]
  rw [cget_marked_payload _ _ _ hy, cget_csplice, if_neg (by simp only [sideAt, markAt] at *; omega), writeSummary,
    cget_cputs_below _ _ (Nat.lt_add_right _ hy)]
  have payload : cget (csplice blocks[i] 0 4096 (cpack 0 ((List.range 4096).map fun y =>
      transposeByte (unitGeo code) (blocks.map fun b => (cbytes b 0 4096).toArray).toArray i y))) y
      = transposeByte (unitGeo code) (blocks.map fun b => (cbytes b 0 4096).toArray).toArray i y := by
    simp only [sideAt] at hy
    rw [cget_csplice, if_pos ⟨Nat.zero_le y, by omega⟩, cget_cpack, if_pos (Nat.zero_le _)]
    simp [hy]
  split
  · rw [cget_scaled_payload _ _ hy, payload]
  · exact payload

/-- A unit of valid blocks is transposed as it stands (R221). -/
theorem moveUnit_valid (code : Byte) {l : List Cells} (some_ : l ≠ []) (valid : ∀ b ∈ l, blkValid b = true) :
    moveUnit code true l = transposeUnit code l := by
  have notVoid : ¬(l.all fun b => !blkValid b) = true := by
    obtain ⟨b, hb⟩ := List.exists_mem_of_ne_nil l some_
    intro h
    have := List.all_eq_true.1 h b hb
    rw [valid b hb] at this
    cases this
  have full : (l.map fun b => if blkValid b then b else setFlags [] true false) = l :=
    (List.map_congr_left fun b hb => if_pos (valid b hb)).trans (List.map_id l)
  rw [moveUnit, if_neg notVoid, full]
  rfl

/-! ## A block whose bytes are out of order -/

/-- A valid block whose byte 0, 7, is listed after its byte 1. -/
def scrambled : Cells := [(1, 5), (0, 7), (sideAt + 240, 1)]

/-- Unpacking reads zero up to the first byte listed. -/
theorem cunpack_gap {a o : Nat} (h : a ≠ o) (v : Byte) (t : Cells) (n : Nat) :
    cunpack ((a, v) :: t) o (n + 1) = 0 :: cunpack ((a, v) :: t) (o + 1) n := if_neg h

/-- Unpacked, it has a zero there. -/
theorem cbytes_scrambled : ∃ rest, cbytes scrambled 0 4096 = 0 :: rest := by
  have low : csub scrambled 0 4096 = [(1, 5), (0, 7)] := by decide
  exact ⟨cunpack [(1, 5), (0, 7)] 1 4095, by rw [cbytes, low, cunpack_gap (by decide)]⟩

/-- In 8-bit formats the corner of a transposed unit is made of the corner's byte. -/
theorem transposeByte_corner {code : Byte} (geo : unitGeo code = ⟨8, 32, 128⟩) (a : List Byte) (n : Nat) (b : Byte) :
    transposeByte (unitGeo code) (List.replicate (n + 1) (b :: a).toArray).toArray 0 0 = b := by
  simp [transposeByte, unitLoc, geo, List.replicate_succ]

theorem cbits_byte_zero {c : Cells} (h : cget c 0 = 0) : cbits c 0 8 = 0 := by simp [cbits, cbit, h]

/-- Refutes O37: element (0, 0) of a transposed unit of such blocks, in SQE4M3, is 0 and not 7. The statement asks for the canonical form
in its clause of the scale records, and not in that of the elements. -/
theorem not_slotsSwap : ¬ Obligations.SlotsSwap := by
  unfold Obligations.SlotsSwap
  rintro ⟨-, -, -, -, -, elements, -⟩
  have valid : ∀ b ∈ List.replicate 4 scrambled, blkValid b = true := fun b hb => List.eq_of_mem_replicate hb ▸ by decide
  have corner := elements (fmtByte .sqe4m3) (List.replicate 4 scrambled) 0 0 rfl valid (by decide) (by decide)
  obtain ⟨rest, bytes⟩ := cbytes_scrambled
  have moved : cget (blockAt (moveUnit (fmtByte .sqe4m3) true (List.replicate 4 scrambled)) 0) 0 = 0 := by
    rw [moveUnit_valid _ (by decide) valid, cget_transposeUnit _ (by decide) (by decide), List.map_replicate, bytes]
    exact transposeByte_corner rfl rest 3 0
  have seven : cbits scrambled 0 8 = 7 := by decide
  exact absurd ((cbits_byte_zero moved).symm.trans (corner.trans seven)) (by decide)

end Sys2Proof.Machine
end
